-- ==== Sys2Proof/Word.lean ====
section
/-!
DEFINITION. The word types of the RZH64 and the plainest arithmetic on counts: saturation, optional minimum
and maximum, and lists of bytes read as numbers (little-endian in the exchange area, big-endian on the wire:
11_formats.md, first paragraph).
-/

namespace Sys2Proof

/-- One byte of a frame or of the exchange area. -/
abbrev Byte := BitVec 8

/-- One aligned word of the exchange area, or a register (R184, R185). -/
abbrev Word := BitVec 32

/-- A CAN segment, S0 to S3. -/
abbrev Seg := Fin 4

/-- A roster index, 0 to 63 (R1). -/
abbrev UnitIx := Fin 64

/-- A history slot, 0 to 511 (R124). -/
abbrev SlotIx := Fin 512

/-- An order context, 0 to 3 (R84). -/
abbrev CtxIx := Fin 4

/-- A count that saturates at `top` rises by 1 (00_scope.md 4.2). -/
def satInc (top n : Nat) : Nat := if n < top then n + 1 else n

/-- A sum that is clamped at `top`. -/
def satAdd (top n k : Nat) : Nat := if n + k ≤ top then n + k else top

/-- Min of two optional values: the known one where one is unknown (00_scope.md 4.2). -/
def optMin : Option Nat → Option Nat → Option Nat
  | none, b => b
  | a, none => a
  | some a, some b => some (if a ≤ b then a else b)

/-- Max of two optional values: the known one where one is unknown (00_scope.md 4.2). -/
def optMax : Option Nat → Option Nat → Option Nat
  | none, b => b
  | a, none => a
  | some a, some b => some (if a ≤ b then b else a)

/-- x divided by y, rounded up (the ceiling of 00_scope.md 4.1). -/
def ceilDiv (x y : Nat) : Nat := (x + (y - 1)) / y

end Sys2Proof
end

