-- ==== Sys2Proof/Syntax.lean ====
section
/-!
DEFINITION. The commands of the RZH64: one constructor for each row of spec/opcode_table.json, with what the
event carries.
-/

namespace Sys2Proof

/-- START MODE of XCTL (R185). -/
inductive StartMode where
  | cold
  | warm
  deriving DecidableEq, Repr

/-- The form of a received CAN frame (R22, test 1): with an extended identifier or a standard one, a remote frame or a data
frame. -/
structure FrameForm where
  extended : Bool
  remote : Bool
  deriving DecidableEq, Repr

/-- A command: a register write, an event at an input, an expiry, the end of a transmission, a frame received, or
the end of an exchange-area access. The rows of the table, in its order. -/
inductive Instr where
  /-- R187. -/
  | powerOnReset
  /-- R187: SOFT RESET 1 written to XCTL. -/
  | softReset
  /-- R186: RUN 1 written to XCTL. -/
  | runSet
  /-- R186: RUN 0 written to XCTL. -/
  | runClear
  /-- R186: START MODE written. -/
  | startModeWrite (mode : StartMode)
  /-- R185. -/
  | xbaseWrite (value : Word)
  /-- R195: any write to ATTEND. -/
  | attend (value : Word)
  /-- R198: a write to NOTICE, 1 bits clear. -/
  | noticeClear (value : Word)
  /-- R198. -/
  | nmaskWrite (value : Word)
  /-- R185: a write to a register that has no behaviour of its own. -/
  | registerWriteIgnored (offset : Nat) (value : Word)
  /-- R165: the raw ignition input goes to `level`. -/
  | ignRawChange (level : Bool)
  /-- R166: the debounce expires to ON. -/
  | ignOn
  /-- R173: the debounce expires to OFF. -/
  | ignOff
  /-- R179: the supply goes to `mv` millivolts, across a threshold. -/
  | supplyCrossing (mv : Nat)
  /-- R180: the dip-entry timer expires. -/
  | dipEntry
  /-- R181: the settle timer expires. -/
  | dipEnd
  /-- R175: the grace timer expires. -/
  | graceEnd
  /-- R168: the CT phase reaches 6,000 ms. -/
  | ctRise
  /-- R183: the sweep timer count reaches the sweep period. -/
  | sweepTimerExpiry
  /-- R195. -/
  | scanTimerExpiry
  /-- R189. -/
  | stoppingTimerExpiry
  /-- R190: the conditions of R189 hold, or RUN 0 in HALTED. -/
  | enterStopped
  /-- R57: the keep timer of the unit expires. -/
  | keepTimerExpiry (unit : UnitIx)
  /-- R54. -/
  | coolingTimerExpiry (unit : UnitIx)
  /-- R48. -/
  | openTimerExpiry (unit : UnitIx)
  /-- R29. -/
  | replyTimerExpiry (unit : UnitIx)
  /-- R31. -/
  | restTimerExpiry (unit : UnitIx)
  /-- R99. -/
  | holdTimerExpiry (unit : UnitIx)
  /-- R20. -/
  | rollWindowExpiry (seg : Seg)
  /-- R74. -/
  | recoveryTimerExpiry (seg : Seg)
  /-- R81. -/
  | openWindowAgeingExpiry (seg : Seg)
  /-- R83. -/
  | errorCountRewriteDue (seg : Seg)
  /-- R46: the OPEN in the transmit slot went out. -/
  | openCompletion (seg : Seg)
  /-- R51: the LIST, DRAW, SNAP or CLEAR in the transmit slot went out. -/
  | requestCompletion (seg : Seg)
  /-- R35. -/
  | pullCompletion (seg : Seg)
  /-- R53. -/
  | closeCompletion (seg : Seg)
  /-- R58. -/
  | keepCompletion (seg : Seg)
  /-- R18. -/
  | rollCompletion (seg : Seg)
  /-- R71. -/
  | transmitFailure (seg : Seg)
  /-- R71. -/
  | lostArbitration (seg : Seg)
  /-- R72: a frame received with an error. -/
  | receiveError (seg : Seg)
  /-- R22: a frame received whole that is no frame from a roster unit of the segment. -/
  | foreignFrame (seg : Seg) (form : FrameForm) (id : BitVec 29)
  /-- R23: a frame of `len` data bytes with message type `type`, unknown or short. -/
  | unknownMessage (seg : Seg) (addr : Byte) (len : Nat) (type : BitVec 4)
  /-- R47. -/
  | accept (seg : Seg) (addr : Byte)
  /-- R31: the reason is the low field of byte 0. -/
  | refuse (seg : Seg) (addr : Byte) (reason : BitVec 4)
  /-- R32. -/
  | wait (seg : Seg) (addr : Byte)
  /-- R33. -/
  | listed (seg : Seg) (addr : Byte) (n : Byte) (hours : BitVec 16)
  /-- R34. -/
  | head (seg : Seg) (addr : Byte) (count : BitVec 16)
  /-- R35. -/
  | part (seg : Seg) (addr : Byte) (seq : BitVec 4) (data : Vector Byte 7)
  /-- R40. -/
  | clearDone (seg : Seg) (addr : Byte)
  /-- R53. -/
  | bye (seg : Seg) (addr : Byte)
  /-- R19. -/
  | here (seg : Seg) (addr : Byte) (type : BitVec 16) (hours : BitVec 16)
  /-- R184: the access in flight ends with completion; `hostBytes` are the host's own writes to its RAM that landed
  since the access before it (log 4). -/
  | exchangeAccessCompletion (hostBytes : List (Word × Byte))
  /-- R191: the access in flight ends with an error. -/
  | exchangeAccessError
  deriving DecidableEq, Repr

end Sys2Proof
end

