-- ==== Sys2Proof/Decode.lean ====
section
/-!
DEFINITION. The command that a table word spells. spec/opcode_table.json gives no row any bits (every row's
"fields" is empty and none has "fixed"), so no word spells a command. The frames of the wire are decoded in
Machine/Operands.lean.
-/

namespace Sys2Proof

/-- The command spelled by the `nbits` bits of `w`: none, since no row of the table has bits. -/
def decodeTableWord (_nbits _w : Nat) : Option Instr := none

end Sys2Proof
end

