-- ==== Sys2Proof/Config.lean ====
section
/-!
DEFINITION. What the spec leaves open, as values without a body (no proof can see them), and the fixed numbers
of the part (offsets, timer lengths, capacities).
-/

namespace Sys2Proof.Config

/-- FREE VALUE (log 6). R184: when two blocks hand over requests at the same moment, either may be served first;
and of two expiries that fall due together either may be taken first. `order n` decides the n-th such choice. -/
opaque order : Nat → Nat

/-- FREE VALUE (log 7). R184: a write that failed may or may not have reached host RAM. -/
opaque failedWriteLands : Nat → Bool

/-- FREE VALUE (log 43). R66, R73: the transmit error count is 0-255, and the spec does not say what it shows between a
bus-off, whose failure takes it past 255, and the end of the recovery. -/
opaque busOffErrors : Nat → Byte

/-- FREE VALUE (log 51). R19, R22, R25: the spec does not say what the fields of a HERE are that a frame of fewer than 8
data bytes does not carry. `absentByte data j` is byte `j` of the frame whose bytes are `data`. -/
opaque absentByte : List Byte → Nat → Byte

/-- What a byte of host RAM reads as before anyone wrote it (log 5, DESIGN CHOICE). -/
def unwritten : Byte := 0

/-- Debounce time of the ignition input in ms (R165). -/
def debounceMs : Nat := 20
/-- Ignition-on time of one CT unit in ms (R168). -/
def ctUnitMs : Nat := 6000
/-- Dip-entry time in ms (R179). -/
def dipEntryMs : Nat := 2
/-- Settle time in ms (R179). -/
def settleMs : Nat := 50
/-- Period of the card scan in ms (R195). -/
def scanMs : Nat := 250
/-- Length of the STOPPING timer in ms (R189). -/
def stoppingMs : Nat := 500
/-- Length of the recovery timer after a bus-off in ms (R73). -/
def recoveryMs : Nat := 200
/-- The status record is rewritten at most once in this time when the error counts alone change (R83). -/
def errorRewriteMs : Nat := 1000

/-- Units of one segment at most (R1). -/
def unitsPerSegment : Nat := 24
/-- Session slots of one segment (R55). -/
def sessionSlots : Nat := 6
/-- OPENs in the open window at most (R81). -/
def windowEntries : Nat := 4
/-- Items of the history intake at most (R126). -/
def intakeItems : Nat := 64

/-- Regions of the exchange area (R192). -/
def headerOff : Nat := 0x0000
def cardOff : Nat := 0x0100
def profileOff : Nat := 0x1100
def mirrorOff : Nat := 0x1900
def regionOff : Nat := 0x2100
def historyOff : Nat := 0x2200
def poolOff : Nat := 0xA200

/-- The history signature (R148). -/
def historySignature : Nat := 0x48495354

/-- Largest 32-bit value: where CT and the change sequence stop (R127, R168). -/
def max32 : Nat := 4294967295
/-- Largest 24-bit value: where K stops (R167). -/
def max24 : Nat := 16777215
/-- Largest 16-bit value. -/
def max16 : Nat := 65535

end Sys2Proof.Config
end

