-- ==== Sys2Proof/Machine/State.lean ====
section
/-!
DEFINITION. The state of the RZH64 as plain data: everything spec/ gives the part, the queue of waiting commands and
the exchange area in host RAM, and the state after reset. INVENTORY.md, section State, names the rule of each field.
-/

namespace Sys2Proof.Machine

/-- No command of this part stops the machine: an access error is an effect on State (R191). Closed and empty. -/
inductive Fault where
  deriving DecidableEq, Repr

/-- Why a command has no meaning. -/
inductive Refusal where
  /-- Raised by exec alone, for a command of the table that has no meaning yet; safe: nothing is claimed of it. -/
  | notModelled (mnemonic : String)
  deriving DecidableEq, Repr

/-- A timer: stopped, or running with the milliseconds left. -/
abbrev Timer := Option Nat

/-! ## Named codes -/

/-- Collector states (10.3). -/
inductive Collector where
  | stopped | starting | running | parked | stopping | halted
  deriving DecidableEq, Repr

/-- XSTAT start result (R185). -/
inductive StartResult where
  | noResult | ok | baseBad | warmRefused
  deriving DecidableEq, Repr

/-- Profile state (R9). -/
inductive ProfileState where
  | absent | loaded | adjusted | defaults
  deriving DecidableEq, Repr

/-- Segment modes (4.2). -/
inductive Mode where
  | off | active | listen
  deriving DecidableEq, Repr

/-- Bit rates (R66). -/
inductive BitRate where
  | k250 | k500
  deriving DecidableEq, Repr

/-- Supply classes (R179). -/
inductive SupplyClass where
  | v12 | v24
  deriving DecidableEq, Repr

/-- Segment states (4.2). -/
inductive SegState where
  | down | live | held | quiet | recovering
  deriving DecidableEq, Repr

/-- Presence of a unit (1.2). -/
inductive Presence where
  | unknown | present | lost | silent
  deriving DecidableEq, Repr

/-- Where a unit record comes from (R2). -/
inductive Origin where
  | profile | census
  deriving DecidableEq, Repr

/-- Session states (R44). -/
inductive SessState where
  | closed | opening | opened | exchanging | closing | cooling
  deriving DecidableEq, Repr

/-- Reasons of a REFUSE (R25). -/
inductive Reason where
  | busy | denied | unknown
  deriving DecidableEq, Repr

/-- Order kinds (R85). -/
inductive OrderKind where
  | harvest | census | setClock | reload | purge
  deriving DecidableEq, Repr

/-- Context states (R84). -/
inductive CtxState where
  | free | running | writing
  deriving DecidableEq, Repr

/-- Error codes of a card result (R87, R108; codes in 11_formats.md 11.3). -/
inductive ErrorCode where
  | noError | badKind | emptyTarget | stepCount | flagRange | pairNest | pairEnd | stepOrder | badGroup
  | segmentMode | badUnit | withdrawn | cut | profileInvalid
  deriving DecidableEq, Repr

/-- Status of a history entry (R124). -/
inductive Status where
  | pending | stored | active | vanished | cleared
  deriving DecidableEq, Repr

/-- Lamps, in rising order (R124). -/
inductive Lamp where
  | off | amber | red | flash
  deriving DecidableEq, Repr

/-- Dip states (R179). -/
inductive DipState where
  | normal | falling | dipped | settling
  deriving DecidableEq, Repr

/-! ## Profile settings (R11, R12) and descriptors (R3) -/

/-- Settings of one segment. -/
structure SegSettings where
  mode : Mode
  bitRate : BitRate
  keepInterval : Nat
  openWindow : Nat
  waitExtension : Nat
  pullCredit : Nat
  bandOrder : Nat
  plFirst : Bool
  csFirst : Bool
  clFirst : Bool
  rollWindow : Nat
  deriving DecidableEq, Repr

/-- Sweep settings (9.5); `scale` in seconds. -/
structure SweepSettings where
  enable : Bool
  count : Nat
  scale : Nat
  repeats : Bool
  continues : Bool
  deriving DecidableEq, Repr

/-- The settings a profile load puts into force. `grace` in seconds. -/
structure Settings where
  collector : Byte
  grace : Nat
  supply : SupplyClass
  sweep : SweepSettings
  segs : Vector SegSettings 4
  deriving DecidableEq, Repr

/-- Descriptor timing and flags of a unit (R3). -/
structure Descriptor where
  openTimeout : Nat
  replyTimeout : Nat
  retries : Nat
  restTime : Nat
  clearRecovery : Nat
  group : Nat
  clearPermitted : Bool
  noSnapshot : Bool
  sweepExclude : Bool
  deriving DecidableEq, Repr

/-- The defaults of R3: what a census unit takes. -/
def Descriptor.default : Descriptor :=
  { openTimeout := 50, replyTimeout := 150, retries := 2, restTime := 20, clearRecovery := 500, group := 8,
    clearPermitted := false, noSnapshot := false, sweepExclude := false }

/-! ## Requests, exchange records and sessions -/

/-- A request (R24). A DRAW carries its start slot, its group and the draw base n_d of its step (R112); a SNAP the
history slot and the code and kind it asks about (R96). -/
inductive ReqKind where
  | list
  | draw (start group base : Nat)
  | snap (slot : SlotIx) (code : BitVec 24) (kind : Byte)
  | clear
  deriving DecidableEq, Repr

/-- A request and the plan it belongs to, by serial number. -/
structure Req where
  kind : ReqKind
  plan : Nat
  deriving DecidableEq, Repr

/-- What an exchange record is about (R26). -/
inductive ExKind where
  | opn
  | request (r : Req)
  | close
  deriving DecidableEq, Repr

/-- Phases of an exchange (R26). -/
inductive Phase where
  | awaitAccept | awaitAnswer | awaitPull | receiving | awaitBye | repeatHeld
  deriving DecidableEq, Repr

/-- The exchange record of a unit (R26). `timer` is the open or the reply timer, `rest` the rest timer of an attempt
held after REFUSE BUSY. -/
structure Exchange where
  kind : ExKind
  attempt : Nat
  phase : Phase
  waits : Nat
  answered : Bool
  timer : Timer
  rest : Timer
  announced : Nat
  needed : Nat
  taken : Nat
  credit : Nat
  nextSeq : Nat
  bytes : List Byte
  arrived : List Nat
  deriving DecidableEq, Repr

/-- The session record of a unit (R44). `closeAtAccept` is the close asked while OPENING (R53), `graceDrop` the
deferred drop of R65. -/
structure Session where
  state : SessState
  openAttempts : Nat
  keepDebt : Nat
  keepTimer : Timer
  coolTimer : Timer
  clearMark : Bool
  posted : Option Req
  heldClose : Bool
  closeAtAccept : Bool
  graceDrop : Bool
  deriving DecidableEq, Repr

/-- A session record as a unit enters the roster (R44). -/
def Session.fresh : Session :=
  { state := .closed, openAttempts := 0, keepDebt := 0, keepTimer := none, coolTimer := none, clearMark := false,
    posted := none, heldClose := false, closeAtAccept := false, graceDrop := false }

/-! ## Plans (R91, R111) -/

/-- Conditions of a step (R93). -/
inductive Cond where
  | always
  | ifSet (flag : Nat)
  | ifClear (flag : Nat)
  deriving DecidableEq, Repr

/-- Pairing of a step (R102). -/
inductive Pairing where
  | alone | strict | eager
  deriving DecidableEq, Repr

/-- Quantities of a TEST (R100). -/
inductive Quantity where
  | listedCount | activeMerged | unitHours | highestU | unitEntries
  deriving DecidableEq, Repr

/-- Relations of a TEST (R100). -/
inductive Relation where
  | eq | ne | lt | ge
  deriving DecidableEq, Repr

/-- What a step does (5.5). -/
inductive StepKind where
  | list
  | draw (group : Nat)
  | snap
  | clear
  | close
  | hold (ms : Nat)
  | test (flag : Nat) (quantity : Quantity) (relation : Relation) (constant : Nat)
  deriving DecidableEq, Repr

/-- One step of a plan. -/
structure Step where
  kind : StepKind
  cond : Cond
  pairing : Pairing
  deriving DecidableEq, Repr

/-- A candidate of a SNAP step (R96). -/
structure Candidate where
  slot : SlotIx
  code : BitVec 24
  kind : Byte
  deriving DecidableEq, Repr

/-- The step in flight and its progress (R91, R93). A DRAW keeps its draw base, group size, current group and the
start slot of the current attempt; a HOLD its timer. -/
inductive Work where
  | list
  | draw (base group index start : Nat)
  | snap (candidates : List Candidate)
  | clear
  | close
  | hold (full : Nat) (timer : Timer)
  deriving DecidableEq, Repr

/-- How a request ends for its step (R30), an open's end among them (R50). -/
inductive ReqEnd where
  | complete
  | refused (reason : Reason)
  | broken
  | unanswered
  | openRefused (reason : Reason)
  | openUnanswered
  deriving DecidableEq, Repr

/-- Reasons of a FAILED step (R93). -/
inductive FailReason where
  | busy | denied | unknown | broken | clearLocked
  deriving DecidableEq, Repr

/-- How a step ends (R93). -/
inductive StepEnd where
  | done
  | skipped
  | failed (reason : FailReason)
  | lost
  deriving DecidableEq, Repr

/-- Plan outcomes with their reasons (R103). -/
inductive Verdict where
  | complete | lost | dropped
  | refused (reason : FailReason)
  | skippedOff | skippedListen | skippedSilent | skippedNoUnit
  | cutWithdrawn | cutGrace | cutStop
  deriving DecidableEq, Repr

/-- Pair state of a plan (R91, R102). -/
inductive PairState where
  | unpaired | followerRuns | followerAnnulled
  deriving DecidableEq, Repr

/-- A plan (R91) with its harvest account (R111). `listed` is the plan listed count, the base of the account;
`ended` the outcome and step number once the plan has ended and its plan-end item is in the intake (log 13);
`heldEnd` a request's end that waits for the merges of its records (R115, R157). -/
structure Plan where
  serial : Nat
  ctx : CtxIx
  running : Bool
  cursor : Nat
  flags : BitVec 8
  drops : Nat
  listed : Option Nat
  pair : PairState
  work : Option Work
  heldEnd : Option ReqEnd
  highU : Nat
  covered : List Nat
  spoiled : Bool
  ended : Option (Verdict × Nat)
  deriving DecidableEq, Repr

/-- The record of a unit in the roster (R2), with its session, its exchange record, its ignore count (R39) and its
plan queue. -/
structure UnitRec where
  origin : Origin
  seg : Seg
  addr : Byte
  typeCode : Nat
  desc : Descriptor
  presence : Presence
  losses : Nat
  session : Session
  drops : Nat
  malformed : Nat
  refused : Nat
  strays : Nat
  lastN : Option Nat
  hours : Option Nat
  clearUncertain : Bool
  exch : Option Exchange
  ignore : Nat
  queue : List Plan
  deriving DecidableEq, Repr

/-! ## Segment controllers (R66, R76) -/

/-- What a pending item sends (R24). -/
inductive Msg where
  | opn
  | keep
  | request (r : Req)
  | close
  | pull (credit : Nat)
  | roll
  deriving DecidableEq, Repr

/-- A pending item: its unit's address (0xFF in a ROLL), its message, its place in posting order, the collector
address in force when it was posted (R21), and whether it is the repeat of an earlier attempt. -/
structure Item where
  addr : Byte
  msg : Msg
  stamp : Nat
  collector : Byte
  again : Bool
  deriving DecidableEq, Repr

/-- A CAN frame of the query exchange (11.8). -/
structure Frame where
  id : BitVec 29
  data : Vector Byte 8
  deriving DecidableEq, Repr

/-- What becomes of the frame in the transmit slot if its transmission fails (R68): it is sent again; it goes back to its
class, once the segment has entered HELD; it is withdrawn, once the segment has entered QUIET or DOWN. -/
inductive SlotFate where
  | again | back | gone
  deriving DecidableEq, Repr

/-- The transmit slot's content (R78). `stale` marks a frame on the wire whose session was dropped or ended
meanwhile: its completion is ignored by the session (R59). `fate` goes by the state entered since the grant (R68, log 54). -/
structure TxSlot where
  item : Item
  frame : Frame
  stale : Bool
  fate : SlotFate
  deriving DecidableEq, Repr

/-- A message received from a unit address (R25). -/
inductive RxMsg where
  | accept
  | refuse (reason : Reason)
  | wait
  | listed (n : Nat) (hours : Option Nat)
  | head (count : Nat)
  | part (seq : Nat) (data : List Byte)
  | clearDone
  | bye
  | here (type : Nat) (hours : Option Nat)
  | unknown
  deriving DecidableEq, Repr

/-- A received frame: the address it comes from and what it says. -/
structure RxFrame where
  addr : Byte
  msg : RxMsg
  deriving DecidableEq, Repr

/-- A census on a segment (R18): its context, the answered list, the units added, the posting stamp of its ROLL and
its roll window. -/
structure Census where
  ctx : CtxIx
  answered : List Byte
  created : Nat
  rollStamp : Nat
  window : Timer
  deriving DecidableEq, Repr

/-- The record of a segment controller (R66). `window` holds the ages of the open window's entries, oldest first;
`rxWait` the received frames that wait while a hand-over of this controller waits (R126). -/
structure SegRec where
  state : SegState
  txErrors : Nat
  rxErrors : Nat
  unanswered : Nat
  busOff : Nat
  strays : Nat
  ka : List Item
  pl : List Item
  op : List Item
  cs : List Item
  rq : List Item
  cl : List Item
  slot : Option TxSlot
  window : List Nat
  recovery : Timer
  nextStamp : Nat
  census : Option Census
  rxWait : List RxFrame
  errTimer : Timer
  deriving DecidableEq, Repr

/-- A segment record after reset (R66). -/
def SegRec.reset : SegRec :=
  { state := .down, txErrors := 0, rxErrors := 0, unanswered := 0, busOff := 0, strays := 0,
    ka := [], pl := [], op := [], cs := [], rq := [], cl := [], slot := none, window := [], recovery := none,
    nextStamp := 0, census := none, rxWait := [], errTimer := none }

/-! ## Order contexts (R84) -/

/-- Where an order comes from (R84). -/
inductive Source where
  | card (c : Fin 16)
  | sweep
  deriving DecidableEq, Repr

/-- What an order carries, copied at take (R85). -/
inductive Content where
  | harvest (mask : BitVec 64) (keepOpen refresh : Bool) (steps : List Step)
  | census (seg : Seg)
  | setClock (ct k : Nat)
  | reload
  | purge (scope : Option (Seg × Byte))
  deriving DecidableEq, Repr

/-- The order kind of a content (R85). -/
def Content.kind : Content → OrderKind
  | .harvest .. => .harvest
  | .census _ => .census
  | .setClock .. => .setClock
  | .reload => .reload
  | .purge _ => .purge

/-- An order context (R84). `clockWait` counts the header rewrites a SET-CLOCK still waits for (R170). -/
structure Ctx where
  state : CtxState
  source : Source
  content : Content
  outstanding : Nat
  withdrawn : Bool
  endCode : ErrorCode
  doneMask : BitVec 64
  failedMask : BitVec 64
  skippedMask : BitVec 64
  outcomes : Vector Byte 64
  created : Nat
  changed : Nat
  freed : Nat
  clockWait : Nat
  deriving DecidableEq, Repr

/-- A FREE context with every other field cleared (R84). -/
def Ctx.cleared : Ctx :=
  { state := .free, source := .sweep, content := .reload, outstanding := 0, withdrawn := false, endCode := .noError,
    doneMask := 0, failedMask := 0, skippedMask := 0, outcomes := .replicate 64 0, created := 0, changed := 0,
    freed := 0, clockWait := 0 }

/-! ## History Table (R124 to R127) and its intake -/

/-- The key of an entry (R124). -/
structure Key where
  seg : Seg
  addr : Byte
  code : BitVec 24
  kind : Byte
  deriving DecidableEq, Repr

/-- A snapshot reference (R155). -/
structure SnapRef where
  head : Byte
  second : Byte
  third : Byte
  length : Nat
  ct : Option Nat
  cycle : Nat
  deriving DecidableEq, Repr

/-- The on-chip copy of a valid entry: every shared field (R124, R125). `bareCt` is the flag bit of a known capture CT as a
warm start read it beside no snapshot (R200); with a snapshot the bit is that of its own capture CT. -/
structure Entry where
  key : Key
  lastChange : Nat
  status : Status
  lamp : Lamp
  peak : Lamp
  total : Nat
  baseline : Nat
  restarts : Nat
  saturated : Bool
  floor : Bool
  skew : Bool
  early : Bool
  clockUnset : Bool
  snapNone : Bool
  snapDropped : Bool
  bareCt : Bool
  firstSeen : Option Nat
  lastSeen : Option Nat
  lastCycle : Option Nat
  createdCycle : Nat
  createdSeq : Nat
  clearedAt : Option Nat
  snap : Option SnapRef
  deriving DecidableEq, Repr

/-- A slot record (R125) with its two marks (R121). -/
structure SlotRec where
  entry : Option Entry
  version : Word
  seen : Bool
  activeMerged : Bool
  deriving DecidableEq, Repr

/-- A free slot with version 0 and clear marks. -/
def SlotRec.free : SlotRec := { entry := none, version := 0, seen := false, activeMerged := false }

/-- A unit record of a DRAW transfer that passed screening (R37). -/
structure FaultRec where
  code : BitVec 24
  kind : Byte
  state : Status
  lamp : Lamp
  u : Nat
  c : Option Nat
  hFirst : Option Nat
  hLast : Option Nat
  deriving DecidableEq, Repr

/-- A work item of the history intake (R126). Each names the plan it comes from by serial number. -/
inductive WorkItem where
  | merge (plan : Nat) (seg : Seg) (addr : Byte) (record : FaultRec)
  | planEnd (plan : Nat) (seg : Seg) (addr : Byte) (complete : Bool)
  | cleared (plan : Nat) (seg : Seg) (addr : Byte)
  | purge (ctx : CtxIx) (scope : Option (Seg × Byte))
  | capture (plan : Nat) (slot : SlotIx) (key : Key) (bytes : List Byte)
  | noSnap (plan : Nat) (slot : SlotIx) (key : Key)
  deriving DecidableEq, Repr

/-- Merge results (R116). -/
inductive MergeResult where
  | created | changed | unchanged | refused
  deriving DecidableEq, Repr

/-- The harvest context of a merge (R115): CT_now or unset, K_now, H_u or unknown. -/
structure HarvestCtx where
  ct : Option Nat
  k : Nat
  hours : Option Nat
  deriving DecidableEq, Repr

/-- Where the item under way stands (R128, R141, R145, R159, R161): reading archive words, writing snapshot bytes, waiting
for the header rewrite of a shortage, writing a slot, waiting for the header rewrite that carries write 4, writing the
stored sequence (write 5), waiting for the item's last header rewrite. A search keeps the harvest context of the merge
that makes it. `waits` counts the header rewrites that end before the item goes on. -/
inductive RunPhase where
  | search (slots : List SlotIx) (h : HarvestCtx)
  | purgeRead (slot : SlotIx)
  | purgeFree (slot : SlotIx)
  | data (blocks : List (Fin 256))
  | shortHeader (waits : Nat)
  | slotWrite (slot : SlotIx)
  | published (waits : Nat)
  | stored
  | lastHeader (waits : Nat)
  deriving DecidableEq, Repr

/-- The item under way: its phase, the slots still to be treated, the slot and result of a merge, whether its lamp
rose (R135), and whether a header rewrite closes the item. -/
structure Run where
  phase : RunPhase
  todo : List SlotIx
  slot : SlotIx
  result : MergeResult
  lampRise : Bool
  closing : Bool
  deriving DecidableEq, Repr

/-- The History Table (R125 to R127, R144). -/
structure Hist where
  slots : Vector SlotRec 512
  changeSeq : Nat
  published : Nat
  inUse : Nat
  refused : Nat
  intake : List WorkItem
  run : Option Run
  handWait : List (WorkItem × Option Seg)
  deriving DecidableEq, Repr

/-- The Snapshot Pool (R154, R161). -/
structure Pool where
  owner : Vector (Option SlotIx) 256
  free : List (Fin 256)
  shortage : Nat
  deriving DecidableEq, Repr

/-- The pool after reset: every block FREE, block 0 on top (R154). -/
def Pool.reset : Pool := { owner := .replicate 256 none, free := List.finRange 256, shortage := 0 }

/-! ## Ignition and Supply Monitor (R165 to R182) -/

/-- The monitor. `supply` is the comparator's input in millivolts; `rises` the rises of CT since the header was last
written (R171). -/
structure Monitor where
  ign : Bool
  raw : Bool
  debounce : Timer
  supply : Nat
  dip : DipState
  dipTimer : Timer
  settleTimer : Timer
  dipCount : Nat
  ct : Nat
  phase : Nat
  k : Nat
  clockUnset : Bool
  resumed : Bool
  rises : Nat
  grace : Timer
  parkPending : Bool
  sweepMs : Nat
  spent : Bool
  deriving DecidableEq, Repr

/-! ## Exchange Port (R184) -/

/-- What a write carries: a number, or a word that is worked out when its access starts. -/
inductive Src where
  | lit (w : Word)
  | header (index : Nat)
  | mirror (unit : UnitIx) (index : Nat)
  | published
  deriving DecidableEq, Repr

/-- One access of a request, at an offset of the exchange area. -/
inductive Acc where
  | read (off : Nat)
  | write (off : Nat) (src : Src)
  deriving DecidableEq, Repr

/-- Whose request it is. `orphan`: its owner gave it up. -/
inductive Owner where
  | header
  | mirror (unit : UnitIx)
  | scan
  | result (ctx : CtxIx)
  | loader
  | history
  | starting
  | orphan
  deriving DecidableEq, Repr

/-- A request: its accesses still to be made, the first the one in flight, and the words read so far. -/
structure Request where
  owner : Owner
  accs : List Acc
  got : List Word
  deriving DecidableEq, Repr

/-- The access in flight: its host address, and for a write its data. -/
structure Bus where
  addr : Nat
  data : Option Word
  deriving DecidableEq, Repr

/-- The Exchange Port's accesses (R184). `fresh` holds the requests handed over within one command. -/
structure Port where
  bus : Option Bus
  serving : Option Request
  waiting : List Request
  fresh : List Request
  deriving DecidableEq, Repr

/-- A port at rest. -/
def Port.idle : Port := { bus := none, serving := none, waiting := [], fresh := [] }

/-- What a card scan is doing (R196): reading an owner word, the kind word, the order fields; writing TAKEN; writing
a card FAILED. -/
inductive ScanStage where
  | owner (card : Fin 16)
  | kind (card : Fin 16)
  | fields (card : Fin 16) (ctx : CtxIx) (kindWord : Word)
  | taking (card : Fin 16) (ctx : CtxIx) (content : Content)
  | failing (card : Fin 16)
  deriving DecidableEq, Repr

/-- The card scan (R195, R196). -/
structure Scan where
  stage : Option ScanStage
  taking : Bool
  again : Bool
  timer : Timer
  deriving DecidableEq, Repr

/-- The header rewrite (R193). `wanted`: asked for within the command under way. -/
structure Header where
  busy : Bool
  pending : Bool
  wanted : Bool
  deriving DecidableEq, Repr

/-- A roster mirror record's rewrite (R194). -/
structure Mirror where
  version : Word
  busy : Bool
  pending : Bool
  deriving DecidableEq, Repr

/-- A mirror record after reset (R194). -/
def Mirror.reset : Mirror := { version := 0, busy := false, pending := false }

/-- A profile load under way (R9): the words read, and the context of its order (none in STARTING). -/
structure Load where
  words : List Word
  ctx : Option CtxIx
  deriving DecidableEq, Repr

/-- The warm-start report (R153). -/
structure Report where
  adopted : Nat
  torn : Nat
  malformed : Nat
  duplicate : Nat
  dropped : Nat
  repaired : Nat
  deriving DecidableEq, Repr

/-- A report of zeros. -/
def Report.zero : Report := { adopted := 0, torn := 0, malformed := 0, duplicate := 0, dropped := 0, repaired := 0 }

/-- Where STARTING stands (R188). -/
inductive StartStage where
  | mark
  | profile
  | coldSlot (next : Nat)
  | warmRegion
  | warmSlot (slot : SlotIx)
  | warmFree (slot : SlotIx)
  | repair (todo : List SlotIx)
  | repairStored (todo : List SlotIx)
  | region
  | publish
  | clock
  | mirrors (next : Nat)
  | header (chosen : Collector) (waits : Nat)
  deriving DecidableEq, Repr

/-- STARTING (R188): its stage, the START MODE read at entry, whether R149 fell back to a cold start, the stored
sequence read, the report so far. -/
structure Starting where
  stage : StartStage
  mode : StartMode
  fellBack : Bool
  stored : Nat
  report : Report
  deriving DecidableEq, Repr

/-- The registers (R185). -/
structure Regs where
  xbase : Word
  run : Bool
  startMode : StartMode
  startResult : StartResult
  notice : Word
  nmask : Word
  deriving DecidableEq, Repr

/-- The part itself: everything on chip. -/
structure Chip where
  regs : Regs
  col : Collector
  stopRequest : Bool
  stopTimer : Timer
  profileState : ProfileState
  profileFaults : Nat
  settings : Option Settings
  roster : Vector (Option UnitRec) 64
  rosterFull : Nat
  segs : Vector SegRec 4
  ctxs : Vector Ctx 4
  sweepCount : Nat
  lastSweepSeq : Nat
  sweepOverruns : Nat
  hist : Hist
  pool : Pool
  mon : Monitor
  port : Port
  scan : Scan
  hdr : Header
  mirrors : Vector Mirror 64
  load : Option Load
  start : Option Starting
  nextSerial : Nat
  freeIdx : Nat
  deriving DecidableEq, Repr

/-- The history table after reset (R125, R127). -/
def Hist.reset : Hist :=
  { slots := .replicate 512 .free, changeSeq := 0, published := 0, inUse := 0, refused := 0, intake := [], run := none,
    handWait := [] }

/-- The monitor after reset, with the raw level and the supply as they stand at that time (R165, R169, R179). A raw
level that is on counts as a raw change. -/
def Monitor.reset (raw : Bool) (supply : Nat) : Monitor :=
  { ign := false, raw := raw, debounce := if raw then some Config.debounceMs else none, supply := supply,
    dip := .normal, dipTimer := none, settleTimer := none, dipCount := 0, ct := 0, phase := 0, k := 0,
    clockUnset := true, resumed := false, rises := 0, grace := none, parkPending := false, sweepMs := 0, spent := false }

/-- Every on-chip block in its reset state (R187), with the given XBASE and NMASK, the inputs as they stand, and the
counter of free values running on. -/
def Chip.resetWith (xbase nmask : Word) (raw : Bool) (supply freeIdx : Nat) : Chip :=
  { regs := { xbase := xbase, run := false, startMode := .cold, startResult := .noResult, notice := 0, nmask := nmask }
    col := .stopped
    stopRequest := false
    stopTimer := none
    profileState := .absent
    profileFaults := 0
    settings := none
    roster := .replicate 64 none
    rosterFull := 0
    segs := .replicate 4 .reset
    ctxs := .replicate 4 .cleared
    sweepCount := 0
    lastSweepSeq := 0
    sweepOverruns := 0
    hist := .reset
    pool := .reset
    mon := .reset raw supply
    port := .idle
    scan := { stage := none, taking := true, again := false, timer := none }
    hdr := { busy := false, pending := false, wanted := false }
    mirrors := .replicate 64 .reset
    load := none
    start := none
    nextSerial := 1
    freeIdx := freeIdx }

/-- The machine: the commands that wait, first in first out; the exchange area's bytes in host RAM (keys are host
addresses, XBASE plus the offset of R192), in canonical form; and the part. -/
structure State where
  pending : List Instr
  mem : List Host.Cell
  chip : Chip
  deriving DecidableEq, Repr

/-- The machine right after power-on reset (R187): nothing pending, host RAM as nobody wrote it, the raw ignition
level off and the supply at 12,000 mV (log 19). -/
def State.reset : State :=
  { pending := [], mem := [], chip := .resetWith 0 0 false 12000 0 }

end Sys2Proof.Machine
end

