-- ==== Sys2Proof/Machine/Ops.lean ====
section
/-!
DEFINITION. The named operations over memory, the roster, the segments, the contexts and the slot records, which every
block's rules are written with; and the order of things that come at the same moment (a free value, log 6).
-/

namespace Sys2Proof.Machine

/-! ## The exchange area in host RAM (R184, R192) -/

/-- The byte at a host address. -/
def Memory.read : List Host.Cell → Nat → Byte
  | [], _ => Config.unwritten
  | (a, b) :: rest, x => if a = x then b else Memory.read rest x

/-- The memory with a byte written: sorted by address, and no entry that equals an unlisted byte. -/
def Memory.write : List Host.Cell → Nat → Byte → List Host.Cell
  | [], x, v => if v = Config.unwritten then [] else [(x, v)]
  | (a, b) :: rest, x, v =>
    if x < a then (if v = Config.unwritten then (a, b) :: rest else (x, v) :: (a, b) :: rest)
    else if x = a then (if v = Config.unwritten then rest else (x, v) :: rest)
    else (a, b) :: Memory.write rest x v

/-- The canonical form: addresses strictly rising, no byte that an unlisted address reads as. -/
def Memory.wf : List Host.Cell → Bool
  | [] => true
  | [(_, b)] => b != Config.unwritten
  | (a, b) :: (a', b') :: rest =>
    b != Config.unwritten && decide (a < a') && Memory.wf ((a', b') :: rest)

/-- A 32-bit word at a host address, little-endian (00_scope.md 4.1). -/
def Memory.readWord (m : List Host.Cell) (x : Nat) : Word :=
  Memory.read m (x + 3) ++ Memory.read m (x + 2) ++ Memory.read m (x + 1) ++ Memory.read m x

/-- A 32-bit word written at a host address, little-endian. -/
def Memory.writeWord (m : List Host.Cell) (x : Nat) (w : Word) : List Host.Cell :=
  Memory.write (Memory.write (Memory.write (Memory.write m x (w.extractLsb' 0 8)) (x + 1) (w.extractLsb' 8 8))
    (x + 2) (w.extractLsb' 16 8)) (x + 3) (w.extractLsb' 24 8)

/-- The host's own byte writes, in the order in which they landed. -/
def Memory.writeBytes (m : List Host.Cell) : List (Word × Byte) → List Host.Cell
  | [] => m
  | (a, b) :: rest => Memory.writeBytes (Memory.write m a.toNat b) rest

/-! ## Things that come at the same moment (log 6) -/

/-- A list whose order the spec leaves open but for the things that `same` says are of one kind, which keep theirs: in the
order that the free values from `n` on decide. One thing alone consults none. -/
def arrange {α : Type} (same : α → α → Bool) (n : Nat) : List α → List α
  | [] => []
  | [x] => [x]
  | x :: rest =>
    let others := arrange same (n + 1) rest
    let place := Config.order n % (others.findIdx (same x) + 1)
    others.take place ++ x :: others.drop place

/-! ## Roster (R1) -/

/-- The unit at a roster index. -/
def Chip.unit (c : Chip) (u : UnitIx) : Option UnitRec := c.roster[u]

/-- The chip with the place at a roster index set. -/
def Chip.setUnit (c : Chip) (u : UnitIx) (r : Option UnitRec) : Chip := { c with roster := c.roster.set u r }

/-- The chip with the unit at a roster index changed; nothing where the index is empty. -/
def Chip.modUnit (c : Chip) (u : UnitIx) (f : UnitRec → UnitRec) : Chip :=
  match c.unit u with
  | some r => c.setUnit u (some (f r))
  | none => c

/-- The chip with the session of a unit changed. -/
def Chip.modSession (c : Chip) (u : UnitIx) (f : Session → Session) : Chip :=
  c.modUnit u fun r => { r with session := f r.session }

/-- The chip with the exchange record of a unit changed, if it has one (R26). -/
def Chip.modExch (c : Chip) (u : UnitIx) (f : Exchange → Exchange) : Chip :=
  c.modUnit u fun r => { r with exch := r.exch.map f }

/-- The chip with the first plan of a unit's queue changed, if there is one (R91). -/
def Chip.modPlan (c : Chip) (u : UnitIx) (f : Plan → Plan) : Chip :=
  c.modUnit u fun r => match r.queue with
    | p :: rest => { r with queue := f p :: rest }
    | [] => r

/-- The first plan of a unit's queue. -/
def Chip.firstPlan (c : Chip) (u : UnitIx) : Option Plan := (c.unit u).bind fun r => r.queue.head?

/-- Every roster index, in ascending order. -/
def allUnits : List UnitIx := List.finRange 64

/-- Every segment. -/
def allSegs : List Seg := [0, 1, 2, 3]

/-- Every context. -/
def allCtxs : List CtxIx := [0, 1, 2, 3]

/-- Every history slot, in ascending order. -/
def allSlots : List SlotIx := List.finRange 512

/-- The roster index of a segment and unit address (R22, test 4). -/
def Chip.findUnit (c : Chip) (seg : Seg) (addr : Byte) : Option UnitIx :=
  allUnits.find? fun u => match c.unit u with
    | some r => decide (r.seg = seg) && decide (r.addr = addr)
    | none => false

/-- The lowest free roster index (R1). -/
def Chip.freeIndex (c : Chip) : Option UnitIx := allUnits.find? fun u => (c.unit u).isNone

/-- The units of the roster, ascending. -/
def Chip.units (c : Chip) : List UnitIx := allUnits.filter fun u => (c.unit u).isSome

/-- The units of a segment, ascending. -/
def Chip.unitsOf (c : Chip) (seg : Seg) : List UnitIx :=
  allUnits.filter fun u => match c.unit u with
    | some r => decide (r.seg = seg)
    | none => false

/-- A session state that holds a session slot (R55). -/
def SessState.holdsSlot : SessState → Bool
  | .opening | .opened | .exchanging | .closing => true
  | .closed | .cooling => false

/-- Session slots held on a segment (R55): computed from the sessions, which hold them (log 35). -/
def Chip.slotsHeld (c : Chip) (seg : Seg) : Nat :=
  ((c.unitsOf seg).filter fun u => match c.unit u with
    | some r => r.session.state.holdsSlot
    | none => false).length

/-- The state of a unit's session; CLOSED where there is no unit. -/
def Chip.sessState (c : Chip) (u : UnitIx) : SessState :=
  match c.unit u with
  | some r => r.session.state
  | none => .closed

/-- A unit whose CLEAR awaits CLEAR-DONE (R62): its exchange record is that of a CLEAR, REPEAT-HELD included. -/
def UnitRec.clearAwaits (r : UnitRec) : Bool :=
  match r.exch with
  | some x => match x.kind with
    | .request q => decide (q.kind = .clear)
    | _ => false
  | none => false

/-- Whether some CLEAR awaits CLEAR-DONE (R175). -/
def Chip.anyClearAwaits (c : Chip) : Bool :=
  allUnits.any fun u => match c.unit u with
    | some r => r.clearAwaits
    | none => false

/-! ## Segments, contexts, slots -/

/-- A segment's record. -/
def Chip.seg (c : Chip) (g : Seg) : SegRec := c.segs[g]

/-- The chip with a segment's record changed. -/
def Chip.modSeg (c : Chip) (g : Seg) (f : SegRec → SegRec) : Chip := { c with segs := c.segs.set g (f (c.seg g)) }

/-- An order context. -/
def Chip.ctx (c : Chip) (k : CtxIx) : Ctx := c.ctxs[k]

/-- The chip with a context changed. -/
def Chip.modCtx (c : Chip) (k : CtxIx) (f : Ctx → Ctx) : Chip := { c with ctxs := c.ctxs.set k (f (c.ctx k)) }

/-- A slot record. -/
def Chip.slot (c : Chip) (i : SlotIx) : SlotRec := c.hist.slots[i]

/-- The chip with a slot record changed. -/
def Chip.modSlot (c : Chip) (i : SlotIx) (f : SlotRec → SlotRec) : Chip :=
  { c with hist := { c.hist with slots := c.hist.slots.set i (f (c.slot i)) } }

/-- The chip with the monitor changed. -/
def Chip.modMon (c : Chip) (f : Monitor → Monitor) : Chip := { c with mon := f c.mon }

/-- The chip with the history table changed. -/
def Chip.modHist (c : Chip) (f : Hist → Hist) : Chip := { c with hist := f c.hist }

/-- The chip with the port changed. -/
def Chip.modPort (c : Chip) (f : Port → Port) : Chip := { c with port := f c.port }

/-- The default settings of R11. -/
def SegSettings.default : SegSettings :=
  { mode := .active, bitRate := .k250, keepInterval := 1000, openWindow := 100, waitExtension := 2000, pullCredit := 4,
    bandOrder := 1, plFirst := false, csFirst := false, clFirst := false, rollWindow := 200 }

/-- The default settings of R11. -/
def Settings.default : Settings :=
  { collector := 0xF4, grace := 10, supply := .v12
    sweep := { enable := false, count := 60, scale := 16, repeats := true, continues := false }
    segs := .replicate 4 .default }

/-- The settings in force; before the first apply point, where none are, the defaults stand in (nothing reads them:
the collector is STOPPED or STARTING, log 20). -/
def Chip.sets (c : Chip) : Settings := c.settings.getD .default

/-- The settings of a segment. -/
def Chip.segSets (c : Chip) (g : Seg) : SegSettings := c.sets.segs[g]

/-- The mode of a segment; none before the first apply point (R66). -/
def Chip.mode (c : Chip) (g : Seg) : Option Mode := c.settings.map fun s => s.segs[g].mode

/-- The segment receives frames (R22): LIVE, HELD or QUIET. -/
def Chip.receives (c : Chip) (g : Seg) : Bool :=
  match (c.seg g).state with
  | .live | .held | .quiet => true
  | .down | .recovering => false

/-- The running state of a segment (R67). -/
def Chip.runningState (c : Chip) : SegState :=
  if c.col = .parked then .quiet
  else match c.mon.dip with
    | .dipped | .settling => .held
    | .normal | .falling => .live

/-- A header rewrite is asked for within this command (R193). -/
def Chip.wantHeader (c : Chip) : Chip := { c with hdr := { c.hdr with wanted := true } }

/-- How many header rewrites end before one asked for now has carried everything: the one under way, and one more
(R193). -/
def Chip.headerWaits (c : Chip) : Nat := if c.hdr.busy then 2 else 1

/-- A request is handed over to the Exchange Port (R184). -/
def Chip.hand (c : Chip) (owner : Owner) (accs : List Acc) : Chip :=
  c.modPort fun p => { p with fresh := p.fresh ++ [{ owner := owner, accs := accs, got := [] }] }

/-- The requests of an owner are given up: those that wait are taken out, and the access in flight ends unheard. -/
def Chip.giveUp (c : Chip) (owner : Owner) : Chip :=
  c.modPort fun p => { p with
    waiting := p.waiting.filter fun r => decide (r.owner ≠ owner)
    fresh := p.fresh.filter fun r => decide (r.owner ≠ owner)
    serving := p.serving.map fun r =>
      if r.owner = owner then { owner := .orphan, accs := r.accs.take 1, got := [] } else r }

/-- The on-chip clock as a merge reads it: CT, or unset (R168). -/
def Chip.ctNow (c : Chip) : Option Nat := if c.mon.clockUnset then none else some c.mon.ct

/-- The ignition-on time base runs (R168). -/
def Chip.timeBase (c : Chip) : Bool := decide (c.col = .running) && c.mon.ign

/-- The dip monitor is active (R178). -/
def Collector.dipActive : Collector → Bool
  | .running | .stopping => true
  | _ => false

end Sys2Proof.Machine
end

