-- ==== Sys2Proof/Machine/Formats.lean ====
section
/-!
DEFINITION. The byte layouts of the exchange area (11_formats.md): codes of the named values, the words of the
exchange header, of a roster mirror record, of a history entry, of the history region header and of a card result,
and the decoding of history entries and order cards with the treatment of codes out of range (R200).
-/

namespace Sys2Proof.Machine

/-! ## Packing and unpacking (00_scope.md 4.1) -/

/-- Four bytes as a word, the first the least significant. -/
def pack4 (a b c d : Nat) : Word :=
  BitVec.ofNat 32 (a % 256 + (b % 256) * 256 + (c % 256) * 65536 + (d % 256) * 16777216)

/-- Two 16-bit fields as a word, the first the lower. -/
def pack2 (a b : Nat) : Word := BitVec.ofNat 32 (a % 65536 + (b % 65536) * 65536)

/-- A 32-bit field. -/
def word (n : Nat) : Word := BitVec.ofNat 32 n

/-- An optional field: its value, or 0 where it is unknown (11_formats.md, first section). -/
def optWord (n : Option Nat) : Word := word (n.getD 0)

/-- Byte `i` of a word. -/
def byteOf (w : Word) (i : Nat) : Nat := w.toNat / 256 ^ i % 256

/-- The low or high half of a word. -/
def halfOf (w : Word) (i : Nat) : Nat := w.toNat / 65536 ^ i % 65536

/-- The low three bytes of a word. -/
def low24 (w : Word) : Nat := w.toNat % 16777216

/-- The word at an index of a list of words read; 0 beyond it. -/
def wordAt (ws : List Word) (i : Nat) : Word := ws.getD i 0

/-- A flag as a bit of weight `w`. -/
def bitIf (b : Bool) (w : Nat) : Nat := if b then w else 0

/-! ## Codes -/

/-- Collector state code (11.1). -/
def Collector.code : Collector → Nat
  | .stopped => 0 | .starting => 1 | .running => 2 | .parked => 3 | .stopping => 4 | .halted => 5

/-- Start result code (11.1). -/
def StartResult.code : StartResult → Nat
  | .noResult => 0 | .ok => 1 | .baseBad => 2 | .warmRefused => 3

/-- Profile state code (11.1). -/
def ProfileState.code : ProfileState → Nat
  | .absent => 0 | .loaded => 1 | .adjusted => 2 | .defaults => 3

/-- Segment mode code (11.2); a segment with no mode yet shows OFF. -/
def modeCode : Option Mode → Nat
  | some .active => 1 | some .listen => 2 | some .off => 0 | none => 0

/-- Segment state code (11.2). -/
def SegState.code : SegState → Nat
  | .down => 0 | .live => 1 | .held => 2 | .quiet => 3 | .recovering => 4

/-- Origin code (11.5). -/
def Origin.code : Origin → Nat
  | .profile => 1 | .census => 2

/-- Presence code (11.5). -/
def Presence.code : Presence → Nat
  | .unknown => 0 | .present => 1 | .lost => 2 | .silent => 3

/-- Session state code (11.5). -/
def SessState.code : SessState → Nat
  | .closed => 0 | .opening => 1 | .opened => 2 | .exchanging => 3 | .closing => 4 | .cooling => 5

/-- Status code (11.6). -/
def Status.code : Status → Nat
  | .pending => 1 | .stored => 2 | .active => 3 | .vanished => 4 | .cleared => 5

/-- The status a code names, if any (R200). -/
def Status.ofCode : Nat → Option Status
  | 1 => some .pending | 2 => some .stored | 3 => some .active | 4 => some .vanished | 5 => some .cleared | _ => none

/-- Lamp code (11.6). -/
def Lamp.code : Lamp → Nat
  | .off => 0 | .amber => 1 | .red => 2 | .flash => 3

/-- The lamp a code names, if any (R200). -/
def Lamp.ofCode : Nat → Option Lamp
  | 0 => some .off | 1 => some .amber | 2 => some .red | 3 => some .flash | _ => none

/-- Error code of a card result (11.3). -/
def ErrorCode.code : ErrorCode → Nat
  | .noError => 0 | .badKind => 1 | .emptyTarget => 2 | .stepCount => 3 | .flagRange => 4 | .pairNest => 5
  | .pairEnd => 6 | .stepOrder => 7 | .badGroup => 8 | .segmentMode => 9 | .badUnit => 10 | .withdrawn => 11
  | .cut => 12 | .profileInvalid => 13

/-- Outcome and reason code of the outcome list (11.3). -/
def Verdict.code : Verdict → Nat
  | .complete => 1
  | .lost => 2
  | .dropped => 3
  | .refused .busy => 4
  | .refused .denied => 5
  | .refused .unknown => 6
  | .refused .broken => 7
  | .refused .clearLocked => 8
  | .skippedOff => 9
  | .skippedListen => 10
  | .skippedSilent => 11
  | .skippedNoUnit => 12
  | .cutWithdrawn => 13
  | .cutGrace => 14
  | .cutStop => 15

/-- An outcome list byte: the code in bits 7-4, the step number in bits 3-0 (11.3). -/
def outcomeByte (v : Verdict) (step : Nat) : Byte := BitVec.ofNat 8 (v.code * 16 + step % 16)

/-! ## Exchange header (R193, 11.2) -/

/-- A segment is error-passive: one of its error counts is 128 or more (R72). -/
def SegRec.errorPassive (g : SegRec) : Bool := decide (128 ≤ g.txErrors) || decide (128 ≤ g.rxErrors)

/-- The collector state as the header shows it: the state in force, and in step 7 of STARTING the state chosen in
step 6 (R188). -/
def Chip.shownState (c : Chip) : Collector :=
  match c.start with
  | some st => match st.stage with
    | .header chosen _ => chosen
    | _ => c.col
  | none => c.col

/-- The published change sequence is being written: by the header rewrite that carries write 4 of an entry change (R128), or
at the end of either path of STARTING (R148, R152). -/
def Chip.publishing (c : Chip) : Bool :=
  (match c.hist.run with
    | some run => match run.phase with
      | .published n => decide (n ≤ 1)
      | _ => false
    | none => false)
  || match c.start with
    | some st => decide (st.stage = .publish)
    | none => false

/-- The change sequence that the header word of the published one carries. -/
def Chip.sequenceShown (c : Chip) : Nat := if c.publishing then c.hist.changeSeq else c.hist.published

/-- Word `j` of a segment's status record (R83). -/
def segWord (c : Chip) (g : Seg) (j : Nat) : Word :=
  let r := c.seg g
  match j with
  | 0 => pack4 (modeCode (c.mode g)) r.state.code (bitIf r.errorPassive 1) (c.slotsHeld g)
  | 1 => pack4 r.txErrors r.rxErrors r.busOff 0
  | 2 => pack2 r.strays 0
  | _ => 0

/-- Word `i` of the exchange header, 0 to 63: each field with the value it holds now; unused bytes are 0. -/
def headerWord (c : Chip) (i : Nat) : Word :=
  match i with
  | 0 => pack2 0x4173 0x0B64
  | 1 => pack4 1 c.shownState.code c.profileState.code c.regs.startResult.code
  | 2 => pack4 c.profileFaults (bitIf c.mon.clockUnset 1 + bitIf c.mon.resumed 2) c.rosterFull c.sweepOverruns
  | 3 => word c.sequenceShown
  | 4 => word c.mon.ct
  | 5 => word c.mon.k
  | 6 => pack2 c.hist.inUse c.hist.refused
  | 7 => pack2 c.pool.free.length c.pool.shortage
  | 8 => pack2 c.mon.dipCount c.sweepCount
  | 9 => word c.lastSweepSeq
  | _ => if h : 12 ≤ i ∧ i < 28 then segWord c ⟨(i - 12) / 4, by omega⟩ ((i - 12) % 4) else 0

/-- The offset of a segment's error counts in the header. -/
def errorWordIndex (g : Seg) : Nat := 13 + 4 * g.val

/-! ## Roster mirror (R194, 11.5) -/

/-- Words 1 to 7 of a mirror record: a unit, or an empty record. -/
def mirrorWords : Option UnitRec → List Word
  | none => [0, 0, 0, 0, 0, 0, 0]
  | some r =>
    [ pack4 r.origin.code r.seg.val r.addr.toNat r.presence.code,
      pack4 r.typeCode (r.typeCode / 256) r.session.state.code r.losses,
      pack4 r.drops r.malformed r.refused r.strays,
      pack2 (r.lastN.getD 0xFFFF) (r.hours.getD 0xFFFF),
      pack2 r.desc.openTimeout r.desc.replyTimeout,
      pack4 r.desc.clearRecovery (r.desc.clearRecovery / 256) r.desc.restTime r.desc.retries,
      pack4 r.desc.group
        (bitIf r.desc.clearPermitted 1 + bitIf r.desc.noSnapshot 2 + bitIf r.desc.sweepExclude 4
          + bitIf r.clearUncertain 8) 0 0 ]

/-! ## History entries (11.6) -/

/-- The entry flags. -/
def Entry.flagBits (e : Entry) : Nat :=
  bitIf e.saturated 1 + bitIf e.floor 2 + bitIf e.skew 4 + bitIf e.early 8 + bitIf e.clockUnset 16
    + bitIf e.snapNone 32 + bitIf e.snapDropped 64 + bitIf e.firstSeen.isSome 256 + bitIf e.lastSeen.isSome 512
    + bitIf e.lastCycle.isSome 1024 + bitIf e.clearedAt.isSome 2048
    + bitIf (match e.snap with | some r => r.ct.isSome | none => e.bareCt) 4096

/-- The words of an entry by index, the version (0) and the archive word (3) left out. Without a snapshot the words of its
reference are 0, the capture CT among them, whether its flag bit is set or not (log 71). The links of an adopted reference are
written as they were read, those beyond its chain's length among them (log 77). -/
def entryWords (e : Entry) : List (Nat × Word) :=
  [ (1, pack4 1 e.key.seg.val e.key.addr.toNat e.key.kind.toNat),
    (2, BitVec.ofNat 32 (e.key.code.toNat + e.status.code * 16777216)),
    (4, word e.lastChange),
    (5, word e.createdSeq),
    (6, BitVec.ofNat 32 (e.total % 65536 + (e.baseline % 256) * 65536 + (e.restarts % 256) * 16777216)),
    (7, BitVec.ofNat 32 (e.lamp.code + e.peak.code * 256 + e.flagBits * 65536)),
    (8, optWord e.firstSeen),
    (9, optWord e.lastSeen),
    (10, optWord e.lastCycle),
    (11, word e.createdCycle),
    (12, optWord e.clearedAt),
    (13, match e.snap with
      | some r => pack4 r.head.toNat r.second.toNat r.third.toNat r.length
      | none => 0),
    (14, match e.snap with
      | some r => optWord r.ct
      | none => 0),
    (15, match e.snap with
      | some r => word r.cycle
      | none => 0) ]

/-- The offset of a slot (R124). -/
def slotOff (i : SlotIx) : Nat := Config.historyOff + 64 * i.val

/-- A history slot as a warm start reads it (R150): free, or valid with its version and either a decoded entry or a
field out of range. -/
inductive SlotRead where
  | free
  | torn
  | malformed
  | entry (e : Entry)
  deriving DecidableEq, Repr

/-- An optional field whose known bit is `b`. -/
def optField (b : Bool) (n : Nat) : Option Nat := if b then some n else none

/-- The entry whose 16 words these are, its key in range and its codes named (R150, R200): numeric fields as read,
an absent snapshot reference shown by length 0, flag bits as read. -/
def decodeEntry (ws : List Word) : Option Entry :=
  let w := wordAt ws
  let flags := halfOf (w 7) 1
  let bit := fun n => decide (flags / 2 ^ n % 2 = 1)
  let code := low24 (w 2)
  let addr := byteOf (w 1) 2
  let length := byteOf (w 13) 3
  if h : byteOf (w 1) 1 < 4 then
    if 1 ≤ addr ∧ addr ≤ 0xEE ∧ code ≠ 0 ∧ code ≠ 0xFFFFFF ∧ byteOf (w 1) 3 ≤ 15 then
      match Status.ofCode (byteOf (w 2) 3), Lamp.ofCode (byteOf (w 7) 0), Lamp.ofCode (byteOf (w 7) 1) with
      | some status, some lamp, some peak => some
        { key := { seg := ⟨byteOf (w 1) 1, h⟩, addr := BitVec.ofNat 8 addr, code := BitVec.ofNat 24 code,
                   kind := BitVec.ofNat 8 (byteOf (w 1) 3) }
          lastChange := (w 4).toNat
          status := status
          lamp := lamp
          peak := peak
          total := halfOf (w 6) 0
          baseline := byteOf (w 6) 2
          restarts := byteOf (w 6) 3
          saturated := bit 0
          floor := bit 1
          skew := bit 2
          early := bit 3
          clockUnset := bit 4
          snapNone := bit 5
          snapDropped := bit 6
          bareCt := decide (length = 0) && bit 12
          firstSeen := optField (bit 8) (w 8).toNat
          lastSeen := optField (bit 9) (w 9).toNat
          lastCycle := optField (bit 10) (low24 (w 10))
          createdCycle := low24 (w 11)
          createdSeq := (w 5).toNat
          clearedAt := optField (bit 11) (w 12).toNat
          snap := if length = 0 then none else some
            { head := BitVec.ofNat 8 (byteOf (w 13) 0)
              second := BitVec.ofNat 8 (byteOf (w 13) 1)
              third := BitVec.ofNat 8 (byteOf (w 13) 2)
              length := length
              ct := optField (bit 12) (w 14).toNat
              cycle := low24 (w 15) } }
      | _, _, _ => none
    else none
  else none

/-- A slot's 16 words, settled by the first cases of R150: a valid byte other than 1 reads as free (R200). -/
def readSlot (ws : List Word) : SlotRead :=
  if byteOf (wordAt ws 1) 0 ≠ 1 then .free
  else if (wordAt ws 0).toNat % 2 = 1 then .torn
  else match decodeEntry ws with
    | some e => .entry e
    | none => .malformed

/-! ## History region header (11.6) -/

/-- Word `i` of the history region header. -/
def regionWord (warm : Bool) (stored : Nat) (r : Report) (i : Nat) : Word :=
  match i with
  | 0 => word Config.historySignature
  | 1 => pack2 1 64
  | 2 => BitVec.ofNat 32 (512 + bitIf warm 65536)
  | 3 => word stored
  | 4 => pack2 r.adopted r.torn
  | 5 => pack2 r.malformed r.duplicate
  | 6 => pack2 r.dropped r.repaired
  | _ => 0

/-! ## Order cards (11.3) -/

/-- The offset of a card (R192). -/
def cardBase (card : Fin 16) : Nat := Config.cardOff + 256 * card.val

/-- The order kind a code names (11.3, R200). -/
def orderKindOf : Nat → Option OrderKind
  | 1 => some .harvest | 2 => some .census | 3 => some .setClock | 4 => some .reload | 5 => some .purge | _ => none

/-- A 64-bit mask from its two words. -/
def maskOf (lo hi : Word) : BitVec 64 := hi ++ lo

/-- The two words of a mask. -/
def maskWords (m : BitVec 64) : List Word := [m.extractLsb' 0 32, m.extractLsb' 32 32]

/-- The outcome list as 16 words. -/
def outcomeWords (o : Vector Byte 64) : List Word :=
  (List.range 16).map fun i =>
    let b := fun j => (o.toList.getD (4 * i + j) 0).toNat
    pack4 (b 0) (b 1) (b 2) (b 3)

/-- The writes of a card's result in the order of R108: masks, outcome list, counts, error code and step number; then
the finish sequence; then the owner word. -/
def resultAccs (card : Fin 16) (k : Ctx) (code : ErrorCode) (step owner : Nat) : List Acc :=
  let base := cardBase card
  let lits := fun (off : Nat) (ws : List Word) =>
    (List.range ws.length).map fun i => Acc.write (base + off + 4 * i) (.lit (wordAt ws i))
  lits 0x90 (maskWords k.doneMask ++ maskWords k.failedMask ++ maskWords k.skippedMask)
    ++ lits 0xC0 (outcomeWords k.outcomes)
    ++ lits 0x84 [pack2 k.created k.changed, pack2 k.freed 0]
    ++ lits 0x80 [pack4 code.code step 0 0]
    ++ [.write (base + 0x8C) .published]
    ++ [.write base (.lit (word owner))]

end Sys2Proof.Machine
end

