-- ==== Sys2Proof/Machine/Merge.lean ====
section
/-!
DEFINITION. The arithmetic of the merge (R131 to R137) on an entry alone: occurrence count, first-seen and last-seen
stamps, last-seen cycle, status and lamps; and the clearing and vanish markings of one entry (R138, R139).
-/

namespace Sys2Proof.Machine

/-- The row of R131 for an existing baseline: increment, floor set, restart counted. R131's first row sets floor at 127 on
127, also where the 127 there is this record's own, merged before (log 68). -/
def occurrence (baseline u : Nat) : Nat × Bool × Bool :=
  if u = 127 ∧ baseline = 127 then (0, true, false)
  else if baseline ≤ u then (u - baseline, false, false)
  else (u, false, true)

/-- R131 for an existing entry. A restart count read above 15 at a warm start stays as it is (log 76). -/
def countStep (u : Nat) (e : Entry) : Entry :=
  let (d, floor, restart) := occurrence e.baseline u
  { e with
    total := if e.total + d ≤ Config.max16 then e.total + d else Config.max16
    saturated := e.saturated || decide (Config.max16 < e.total + d)
    floor := e.floor || floor
    restarts := if restart then satInc 15 e.restarts else e.restarts
    baseline := u }

/-- R131 for a new entry. -/
def countNew (u : Nat) (e : Entry) : Entry :=
  { e with total := u, baseline := u, floor := decide (u = 127) }

/-- An age in CT units from two hour readings, and whether it shows skew (R132 step 3, R133 step 1). -/
def age (hours h : Nat) : Nat × Bool := if h ≤ hours then ((hours - h) * 60, false) else (0, true)

/-- h_first as R132 step 2 clamps it. -/
def clampedFirst (r : FaultRec) : Option Nat :=
  match r.hFirst, r.hLast with
  | some f, some l => if l < f then some l else some f
  | f, _ => f

/-- R132: first-seen stamp, skew and early. -/
def firstSeenStep (h : HarvestCtx) (r : FaultRec) (e : Entry) : Entry :=
  match h.ct with
  | none => e
  | some now =>
    match h.hours, clampedFirst r with
    | some hours, some first =>
      let (a, skew) := age hours first
      let early := decide (now < a)
      let estimate := if a ≤ now then now - a else 0
      { e with firstSeen := optMin e.firstSeen (some estimate), skew := e.skew || skew, early := e.early || early }
    | _, _ => e

/-- R133 steps 1 to 3: the estimate of the last occurrence, and whether it shows skew. -/
def lastEstimate (now : Nat) (hours : Option Nat) (r : FaultRec) : Option Nat × Bool :=
  match hours, r.hLast with
  | some hours, some last =>
    let (a, skew) := age hours last
    (some (if a ≤ now then now - a else 0), skew)
  | _, _ => (if r.c = some 0 then some now else none, false)

/-- R133 step 5, and the repair of R152: first-seen is no later than last-seen. -/
def clampFirstSeen (e : Entry) : Entry :=
  match e.firstSeen, e.lastSeen with
  | some f, some l => if l < f then { e with firstSeen := some l } else e
  | _, _ => e

/-- R133: last-seen stamp. -/
def lastSeenStep (h : HarvestCtx) (r : FaultRec) (e : Entry) : Entry :=
  match h.ct with
  | none => e
  | some now =>
    let (estimate, skew) := lastEstimate now h.hours r
    clampFirstSeen { e with lastSeen := optMax e.lastSeen estimate, skew := e.skew || skew }

/-- R134: last-seen cycle. -/
def cycleStep (k : Nat) (c : Option Nat) (e : Entry) : Entry :=
  match c with
  | none => e
  | some c => { e with lastCycle := optMax e.lastCycle (some (if c ≤ k then k - c else 0)) }

/-- The higher of two lamps (NONE < AMBER < RED < FLASH). -/
def Lamp.max (a b : Lamp) : Lamp := if a.code ≤ b.code then b else a

/-- R135: status, lamp and peak lamp. -/
def statusStep (r : FaultRec) (e : Entry) : Entry :=
  { e with status := r.state, lamp := r.lamp, peak := Lamp.max e.peak r.lamp }

/-- R131 to R135 on an entry whose key was present. -/
def mergeEntry (h : HarvestCtx) (r : FaultRec) (e : Entry) : Entry :=
  statusStep r (cycleStep h.k r.c (lastSeenStep h r (firstSeenStep h r (countStep r.u e))))

/-- An entry of a new key before R131 to R135 have given its values (R124, last column). -/
def blankEntry (key : Key) (h : HarvestCtx) : Entry :=
  { key := key, lastChange := 0, status := .pending, lamp := .off, peak := .off, total := 0, baseline := 0, restarts := 0,
    saturated := false, floor := false, skew := false, early := false, clockUnset := h.ct.isNone, snapNone := false,
    snapDropped := false, bareCt := false, firstSeen := none, lastSeen := none, lastCycle := none, createdCycle := h.k, createdSeq := 0,
    clearedAt := none, snap := none }

/-- R136: the entry that a merge creates; its sequences are given by the entry change. -/
def createEntry (key : Key) (h : HarvestCtx) (r : FaultRec) : Entry :=
  statusStep r (cycleStep h.k r.c (lastSeenStep h r (firstSeenStep h r (countNew r.u (blankEntry key h)))))

/-- The lamp rises to RED or FLASH from a lower value (R135); a creation rises from NONE. -/
def lampRises (before after : Lamp) : Bool :=
  decide (before.code < after.code) && (decide (after = .red) || decide (after = .flash))

/-- R138: a VANISHED marking. -/
def vanishEntry (e : Entry) : Entry := { e with status := .vanished }

/-- The statuses that a complete harvest marks VANISHED when unseen (R120). -/
def Status.present : Status → Bool
  | .active | .stored | .pending => true
  | .vanished | .cleared => false

/-- R139: a CLEARED marking. -/
def clearEntry (ct : Option Nat) (e : Entry) : Entry :=
  { e with status := .cleared, baseline := 0, clearedAt := match ct with | some now => some now | none => e.clearedAt }

/-- The statuses that an eviction or a purge may free (R141, R145). -/
def Status.evictable : Status → Bool
  | .stored | .vanished | .cleared => true
  | .active | .pending => false

end Sys2Proof.Machine
end

