-- ==== Sys2Proof/Machine/Flags.lean ====
section
/-!
DEFINITION. The flags of the part: the notice causes and the NOTICE_N line (R198), and the condition flags F0 to F7
of a plan with the conditions and TEST relations that read and set them (R93, R100, R101).
-/

namespace Sys2Proof.Machine

/-- Notice causes (R185). -/
inductive Cause where
  | orderDone | sweepDone | history | lamp | unitLost | historyFull | dip | park | busOff | profile | memFault
  deriving DecidableEq, Repr

/-- The bit of a cause in NOTICE and NMASK (11_formats.md 11.1). -/
def Cause.bit : Cause → Word
  | .orderDone => 0x001
  | .sweepDone => 0x002
  | .history => 0x004
  | .lamp => 0x008
  | .unitLost => 0x010
  | .historyFull => 0x020
  | .dip => 0x040
  | .park => 0x080
  | .busOff => 0x100
  | .profile => 0x200
  | .memFault => 0x400

/-- The named bits of NOTICE and NMASK. -/
def noticeBits : Word := 0x7FF

/-- A cause is set by its event: in every collector state, but in STOPPED only MEMFAULT (R198). -/
def Chip.setCause (c : Chip) (cause : Cause) : Chip :=
  if c.col = .stopped ∧ cause ≠ .memFault then c
  else { c with regs := { c.regs with notice := c.regs.notice ||| cause.bit } }

/-- NOTICE_N is asserted: some cause is both set and enabled (R198). -/
def Chip.noticeAsserted (c : Chip) : Bool := decide (c.regs.notice &&& c.regs.nmask ≠ 0)

/-- A condition flag of a plan. -/
def flagSet (flags : BitVec 8) (f : Nat) : Bool := flags.getLsbD f

/-- The flags with one flag set or cleared. -/
def writeFlag (flags : BitVec 8) (f : Nat) (value : Bool) : BitVec 8 :=
  if value then flags ||| BitVec.ofNat 8 (2 ^ f) else flags &&& ~~~ BitVec.ofNat 8 (2 ^ f)

/-- A condition against the plan's flags at the moment its step is reached (R93). -/
def Cond.holds (flags : BitVec 8) : Cond → Bool
  | .always => true
  | .ifSet f => flagSet flags f
  | .ifClear f => !flagSet flags f

/-- A relation of a TEST; an unknown quantity satisfies none (R100). -/
def Relation.holds (r : Relation) (constant : Nat) : Option Nat → Bool
  | none => false
  | some q => match r with
    | .eq => decide (q = constant)
    | .ne => decide (q ≠ constant)
    | .lt => decide (q < constant)
    | .ge => decide (constant ≤ q)

/-- F1 to F2 at the hand-over of a record: F1 when its state is ACTIVE, F2 when its lamp is RED or FLASH (R101). -/
def handOverFlags (flags : BitVec 8) (r : FaultRec) : BitVec 8 :=
  let f1 := if r.state = .active then writeFlag flags 1 true else flags
  if r.lamp = .red ∨ r.lamp = .flash then writeFlag f1 2 true else f1

end Sys2Proof.Machine
end

