-- ==== Sys2Proof/Machine/Operands.lean ====
section
/-!
DEFINITION. The operand forms of the commands: the frames the part sends (R21, R24), the frames it receives with the
receive filter and the decoding of every field (R22, R25, R199), the unit record of a DRAW (R37), and the values that
the registers show when read (R185).
-/

namespace Sys2Proof.Machine

/-! ## Frames (11.8) -/

/-- The identifier: marker, direction, unit address, collector address, tail 0. -/
def frameId (direction : Nat) (addr collector : Byte) : BitVec 29 :=
  BitVec.ofNat 29 (0x13A * 1048576 + direction * 524288 + addr.toNat * 2048 + collector.toNat * 8)

/-- The message type code of a frame of the part (11.8, direction 0). -/
def Msg.type : Msg → Nat
  | .opn => 1
  | .keep => 2
  | .request r => match r.kind with
    | .list => 3
    | .draw .. => 4
    | .snap .. => 5
    | .clear => 6
  | .close => 7
  | .pull _ => 8
  | .roll => 9

/-- The payload bytes 1 to 7 of a frame of the part; bytes not used are 0 (R21). -/
def Msg.payload : Msg → List Nat
  | .request r => match r.kind with
    | .draw start group _ => [start, group, 0, 0, 0, 0, 0]
    | .snap _ code kind =>
      [code.toNat / 65536, code.toNat / 256 % 256, code.toNat % 256, kind.toNat, 0, 0, 0]
    | _ => [0, 0, 0, 0, 0, 0, 0]
  | .pull credit => [credit, 0, 0, 0, 0, 0, 0]
  | _ => [0, 0, 0, 0, 0, 0, 0]

/-- The frame of a granted item (R21, R78). -/
def frameOf (i : Item) : Frame :=
  { id := frameId 0 i.addr i.collector
    data := Vector.ofFn fun (j : Fin 8) =>
      BitVec.ofNat 8 (if j.val = 0 then i.msg.type * 16 else i.msg.payload.getD (j.val - 1) 0) }

/-- The reason of a REFUSE: a code that names none of the three is DENIED (R25, R199). -/
def reasonOf (code : BitVec 4) : Reason :=
  match code.toNat with
  | 1 => .busy
  | 3 => .unknown
  | _ => .denied

/-- An hour meter reading of 16 bits; 65,535 is unknown (R25, R199). -/
def hoursOf (h : Nat) : Option Nat := if h = 65535 then none else some h

/-- Big-endian number of a list of bytes. -/
def bigEndian (bs : List Byte) : Nat := bs.foldl (fun n b => n * 256 + b.toNat) 0

/-- Tests 1 to 3 of the receive filter (R22): an extended data frame with marker and tail, direction, collector
address. -/
def filterPasses (collector : Byte) (form : FrameForm) (id : BitVec 29) : Bool :=
  form.extended && !form.remote && decide (id.toNat / 1048576 = 0x13A) && decide (id.toNat % 8 = 0)
    && decide (id.toNat / 524288 % 2 = 1) && decide (id.toNat / 8 % 256 = collector.toNat)

/-- The unit address field of an identifier. -/
def idAddr (id : BitVec 29) : Byte := BitVec.ofNat 8 (id.toNat / 2048 % 256)

/-- The command that a received frame is (R22, R23, 11.8): which row of the table stands for a frame received whole on
a segment, with its fields decoded. A frame that fails tests 1 to 3, or whose pair of segment and address is no roster
unit's and which is no HERE, is foreign. From a roster unit a frame of fewer than 8 bytes is a stray whatever its type
(R23); from another address it is a HERE by its type alone (R22, test 5), and what it does not carry is a free value
(log 51). -/
def commandOfFrame (c : Chip) (g : Seg) (form : FrameForm) (id : BitVec 29) (data : List Byte) : Instr :=
  let addr := idAddr id
  let b := fun i => data.getD i (Config.absentByte data i)
  let type : BitVec 4 := (data.getD 0 0).extractLsb' 4 4
  let low : BitVec 4 := (b 0).extractLsb' 0 4
  let half := fun i => (b i ++ b (i + 1) : BitVec 16)
  let known := (c.findUnit g addr).isSome
  if !filterPasses c.sets.collector form id then .foreignFrame g form id
  else if !known && decide (type ≠ 9) then .foreignFrame g form id
  else if known && decide (data.length < 8) then .unknownMessage g addr data.length type
  else match type.toNat with
    | 1 => .accept g addr
    | 2 => .refuse g addr low
    | 3 => .wait g addr
    | 4 => .listed g addr (b 1) (half 2)
    | 5 => .head g addr (half 1)
    | 6 => .part g addr low #v[b 1, b 2, b 3, b 4, b 5, b 6, b 7]
    | 7 => .clearDone g addr
    | 8 => .bye g addr
    | 9 => .here g addr (half 1) (half 3)
    | _ => .unknownMessage g addr data.length type

/-! ## Unit records (R37, 11.8) -/

/-- The record is malformed (R37, R199): its code, its state or its kind is out of range. -/
def recordMalformed (bs : List Byte) : Bool :=
  let code := bigEndian (bs.take 3)
  let state := (bs.getD 4 0).toNat / 16
  decide (code = 0) || decide (code = 0xFFFFFF) || decide (state = 0) || decide (4 ≤ state)
    || decide (15 < (bs.getD 3 0).toNat)

/-- The fields of a record of 12 bytes that is not malformed (R37). -/
def recordOf (bs : List Byte) : FaultRec :=
  let b := fun i => (bs.getD i 0).toNat
  { code := BitVec.ofNat 24 (bigEndian (bs.take 3))
    kind := bs.getD 3 0
    state := if b 4 / 16 = 1 then .pending else if b 4 / 16 = 2 then .stored else .active
    lamp := (Lamp.ofCode (b 4 % 4)).getD .off
    u := if b 5 ≤ 127 then b 5 else 127
    c := if b 6 = 255 then none else some (b 6)
    hFirst := hoursOf (b 7 * 256 + b 8)
    hLast := hoursOf (b 9 * 256 + b 10) }

/-- The slot echo of a record (R36). -/
def slotEcho (bs : List Byte) : Nat := (bs.getD 11 0).toNat

/-- The j-th slot of the wrap order of a DRAW with start slot `start` and group size `group` (R36). -/
def wrapSlot (start group j : Nat) : Nat :=
  if group = 0 then start else start / group * group + (start % group + j) % group

/-- The wrap order of a DRAW (R36). -/
def wrapOrder (start group : Nat) : List Nat := (List.range group).map (wrapSlot start group)

/-! ## Register reads (R185, 11.1) -/

/-- XSTAT. -/
def xstat (c : Chip) : Word :=
  let dip := match c.mon.dip with
    | .dipped | .settling => 1
    | .normal | .falling => 0
  BitVec.ofNat 32 (c.col.code + c.regs.startResult.code * 16 + c.profileState.code * 256 + dip * 4096)

/-- The value a register shows: ATTEND and every other offset read 0. -/
def readRegister (c : Chip) (offset : Nat) : Word :=
  match offset with
  | 0x00 => c.regs.xbase
  | 0x04 => BitVec.ofNat 32 (bitIf c.regs.run 1 + (match c.regs.startMode with | .cold => 0 | .warm => 2))
  | 0x08 => xstat c
  | 0x10 => c.regs.notice
  | 0x14 => c.regs.nmask
  | _ => 0

end Sys2Proof.Machine
end

