-- ==== Sys2Proof/Machine/Segment.lean ====
section
/-!
DEFINITION. A segment controller's pending work and its arbiter (R66 to R81): posting and withdrawing items, which
items are eligible, the grant, and what entering a segment state does to the work.
-/

namespace Sys2Proof.Machine

/-- The six classes (R76). -/
inductive Cls where
  | ka | pl | op | cs | rq | cl
  deriving DecidableEq, Repr

/-- The class of a message (R76). -/
def Msg.cls : Msg → Cls
  | .keep => .ka
  | .pull _ => .pl
  | .opn | .roll => .op
  | .close => .cs
  | .request r => if r.kind = .clear then .cl else .rq

/-- The items of a class. -/
def SegRec.items (g : SegRec) : Cls → List Item
  | .ka => g.ka | .pl => g.pl | .op => g.op | .cs => g.cs | .rq => g.rq | .cl => g.cl

/-- The record with the items of one class changed. -/
def SegRec.modItems (g : SegRec) (k : Cls) (f : List Item → List Item) : SegRec :=
  match k with
  | .ka => { g with ka := f g.ka }
  | .pl => { g with pl := f g.pl }
  | .op => { g with op := f g.op }
  | .cs => { g with cs := f g.cs }
  | .rq => { g with rq := f g.rq }
  | .cl => { g with cl := f g.cl }

/-- The record with every class filtered. -/
def SegRec.filterItems (g : SegRec) (keep : Item → Bool) : SegRec :=
  { g with ka := g.ka.filter keep, pl := g.pl.filter keep, op := g.op.filter keep, cs := g.cs.filter keep,
           rq := g.rq.filter keep, cl := g.cl.filter keep }

/-- An item put at its place in posting order (R68, R73, R76). -/
def insertByStamp (i : Item) : List Item → List Item
  | [] => [i]
  | j :: rest => if i.stamp < j.stamp then i :: j :: rest else j :: insertByStamp i rest

/-! ## Eligibility and the grant (R77 to R79) -/

/-- Whether a pending item may be granted (R79). -/
def Chip.eligible (c : Chip) (g : Seg) (i : Item) : Bool :=
  match i.msg with
  | .opn =>
    let room := decide ((c.seg g).window.length < Config.windowEntries)
    match c.findUnit g i.addr with
    | some u => match c.sessState u with
      | .closed => decide (c.slotsHeld g < Config.sessionSlots) && room
      | .opening => room
      | _ => false
    | none => false
  | _ => true

/-- A KEEP is overdue while the debt of its session is 3 (R57). -/
def Chip.overdue (c : Chip) (g : Seg) (i : Item) : Bool :=
  match c.findUnit g i.addr with
  | some u => match c.unit u with
    | some r => decide (r.session.keepDebt = 3)
    | none => false
  | none => false

/-- The order in which a band order code offers the bands (R77). -/
def bandsOf : Nat → List Nat
  | 2 => [1, 3, 2]
  | 3 => [2, 1, 3]
  | 4 => [2, 3, 1]
  | 5 => [3, 1, 2]
  | 6 => [3, 2, 1]
  | _ => [1, 2, 3]

/-- The classes of a band, the one named by the intra-band choice first (R77). -/
def classesOf (s : SegSettings) : Nat → List Cls
  | 1 => if s.plFirst then [.pl, .ka] else [.ka, .pl]
  | 2 => if s.csFirst then [.cs, .op] else [.op, .cs]
  | _ => if s.clFirst then [.cl, .rq] else [.rq, .cl]

/-- The item the arbiter picks (R78): the oldest overdue KEEP, or else the first eligible item in the order of bands,
classes and posting. -/
def Chip.pick (c : Chip) (g : Seg) : Option Item :=
  let r := c.seg g
  match r.ka.find? (c.overdue g) with
  | some i => some i
  | none =>
    let offered := (bandsOf (c.segSets g).bandOrder).flatMap fun b => (classesOf (c.segSets g) b).flatMap r.items
    offered.find? (c.eligible g)

/-- The arbiter of a segment grants if it may (R78): slot empty, LIVE, ACTIVE, some item eligible. The granted item
leaves its class and its frame is built (R21). -/
def Chip.grant (c : Chip) (g : Seg) : Chip :=
  if (c.seg g).slot.isNone ∧ (c.seg g).state = .live ∧ c.mode g = some .active then
    match c.pick g with
    | some i => c.modSeg g fun r =>
        { r.modItems i.msg.cls (fun l => l.filter fun j => decide (j.stamp ≠ i.stamp)) with
          slot := some { item := i, frame := frameOf i, stale := false, fate := .again } }
    | none => c
  else c

/-! ## Posting and withdrawing (R76) -/

/-- The unit of an item has an item in its class already (R76); the one ROLL of a census counts for no unit. -/
def SegRec.occupied (r : SegRec) (i : Item) : Bool :=
  decide (i.msg ≠ .roll) && (r.items i.msg.cls).any fun j => decide (j.addr = i.addr) && decide (j.msg ≠ .roll)

/-- An item joins its class at the place `into` gives it. A unit has at most one item in each class (R76): where it has
one there already, that one stays, and stands for both (log 63). -/
def SegRec.join (r : SegRec) (i : Item) (into : List Item → List Item) : SegRec :=
  if r.occupied i then r else r.modItems i.msg.cls into

/-- An item is posted as the newest of its class, and the arbiter may grant (R76, R78). -/
def Chip.post (c : Chip) (g : Seg) (addr : Byte) (msg : Msg) (again : Bool) : Chip :=
  let c1 := c.modSeg g fun r =>
    let i : Item := { addr := addr, msg := msg, stamp := r.nextStamp, collector := c.sets.collector, again := again }
    { r.join i (fun l => l ++ [i]) with nextStamp := r.nextStamp + 1 }
  c1.grant g

/-- The pending items of a unit whose message satisfies `which` are withdrawn. -/
def Chip.withdraw (c : Chip) (g : Seg) (addr : Byte) (which : Msg → Bool) : Chip :=
  c.modSeg g fun r => r.filterItems fun i => !(decide (i.addr = addr) && which i.msg)

/-- Messages by what they are. -/
def Msg.isOpen : Msg → Bool | .opn => true | _ => false
def Msg.isKeep : Msg → Bool | .keep => true | _ => false
def Msg.isClose : Msg → Bool | .close => true | _ => false
def Msg.isPull : Msg → Bool | .pull _ => true | _ => false
def Msg.isRequest : Msg → Bool | .request _ => true | _ => false

/-- A unit's item is pending in a class. -/
def SegRec.hasPending (r : SegRec) (addr : Byte) (which : Msg → Bool) : Bool :=
  (r.ka ++ r.pl ++ r.op ++ r.cs ++ r.rq ++ r.cl).any fun i => decide (i.addr = addr) && which i.msg

/-- A unit's item is in the transmit slot, its session not ended meanwhile. -/
def SegRec.hasGranted (r : SegRec) (addr : Byte) (which : Msg → Bool) : Bool :=
  match r.slot with
  | some t => decide (t.item.addr = addr) && which t.item.msg && !t.stale
  | none => false

/-- The frame of a unit on the wire is marked: its session was dropped or ended (R59). -/
def SegRec.markStale (r : SegRec) (addr : Byte) : SegRec :=
  { r with slot := r.slot.map fun t => if t.item.addr = addr then { t with stale := true } else t }

/-- Every pending item of every class is withdrawn (R68). -/
def SegRec.emptyClasses (r : SegRec) : SegRec := r.filterItems fun _ => false

/-! ## Entering states (R67, R68) -/

/-- The frame in the slot as the segment enters a state (R68): the state entered last decides what becomes of it if its
transmission fails (log 54). -/
def SegRec.doom (f : SlotFate) (r : SegRec) : SegRec := { r with slot := r.slot.map fun t => { t with fate := f } }

/-- A segment enters DOWN: the classes are emptied, the recovery timer stops, the error counts and the unanswered
bus-off count become 0 (R66, R68). A frame on the wire runs to its end unheard by any session; frames that waited for
a hand-over are discarded with it (log 29). -/
def SegRec.enterDown (r : SegRec) : SegRec :=
  { r.emptyClasses with
    state := .down, recovery := none, txErrors := 0, rxErrors := 0, unanswered := 0, rxWait := []
    slot := r.slot.map fun t => { t with stale := true, fate := .gone } }

/-- A LIVE segment enters HELD (R67, R68). -/
def SegRec.hold (r : SegRec) : SegRec := if r.state = .live then { r.doom .back with state := .held } else r

/-- A segment that is LIVE or HELD enters QUIET at parking (R67, R68). -/
def SegRec.park (r : SegRec) : SegRec :=
  match r.state with
  | .live | .held => { r.emptyClasses.doom .gone with state := .quiet }
  | _ => r

/-- A segment's recovery is over: it enters its running state; entering QUIET withdraws every pending item (R67, R68,
R74). -/
def SegRec.recovered (running : SegState) (r : SegRec) : SegRec :=
  let r := { r with recovery := none, txErrors := 0, rxErrors := 0, state := running }
  if running = .quiet then r.emptyClasses else r

/-- The record of a segment changes state from one named state to another, and from no other (R67). -/
def SegRec.moveFrom (r : SegRec) (old new : SegState) : SegRec := if r.state = old then { r with state := new } else r

/-- Every segment's record changed by the same rule. -/
def Chip.modAllSegs (c : Chip) (f : SegRec → SegRec) : Chip := { c with segs := c.segs.map f }

/-- Every arbiter grants if it may. -/
def Chip.grantAll (c : Chip) : Chip := allSegs.foldl Chip.grant c

/-- The stray count of a segment rises (R82). -/
def Chip.strayOf (c : Chip) (g : Seg) : Chip := c.modSeg g fun r => { r with strays := satInc Config.max16 r.strays }

end Sys2Proof.Machine
end

