-- ==== Sys2Proof/Machine/Session.lean ====
section
/-!
DEFINITION. A unit's presence and counters (R4 to R7) and its session (R44 to R65), as far as no plan is concerned:
needing a session, closing it, cooling, the keep debt, the drop.
-/

namespace Sys2Proof.Machine

/-! ## Presence and counters -/

/-- A frame from the unit passed the filter (R6). -/
def Chip.hear (c : Chip) (u : UnitIx) : Chip := c.modUnit u fun r => { r with presence := .present, losses := 0 }

/-- The unit loses presence (R7): an open or a request went unanswered through all its attempts. -/
def Chip.lose (c : Chip) (u : UnitIx) : Chip :=
  (c.modUnit u fun r =>
    let n := satInc 3 r.losses
    { r with losses := n, presence := if n = 3 then .silent else .lost }).setCause .unitLost

/-- A stray of the unit (R4, R43). -/
def Chip.strayUnit (c : Chip) (u : UnitIx) : Chip := c.modUnit u fun r => { r with strays := satInc 255 r.strays }

/-! ## Posting for a unit -/

/-- An item is posted for a unit on its segment. -/
def Chip.postFor (c : Chip) (u : UnitIx) (msg : Msg) (again : Bool) : Chip :=
  match c.unit u with
  | some r => c.post r.seg r.addr msg again
  | none => c

/-- Pending items of a unit are withdrawn. -/
def Chip.withdrawFor (c : Chip) (u : UnitIx) (which : Msg → Bool) : Chip :=
  match c.unit u with
  | some r => c.withdraw r.seg r.addr which
  | none => c

/-- A unit's item is pending. -/
def Chip.pendingFor (c : Chip) (u : UnitIx) (which : Msg → Bool) : Bool :=
  match c.unit u with
  | some r => (c.seg r.seg).hasPending r.addr which
  | none => false

/-- A unit's item is in the transmit slot. -/
def Chip.grantedFor (c : Chip) (u : UnitIx) (which : Msg → Bool) : Bool :=
  match c.unit u with
  | some r => (c.seg r.seg).hasGranted r.addr which
  | none => false

/-! ## Cooling (R54) -/

/-- The cooling timer has run out: CLOSED, the clear-done mark clear. -/
def Session.closed (s : Session) : Session := { s with state := .closed, coolTimer := none, clearMark := false }

/-- The session enters COOLING for a length; a length of 0 passes through it at once. Keep timer and debt end, the
slot is freed with the state. -/
def Session.cool (s : Session) (length : Nat) : Session :=
  let s1 := { s with state := .cooling, keepTimer := none, keepDebt := 0, coolTimer := some length }
  if length = 0 then s1.closed else s1

/-- The cooling length: the rest time, plus the clear recovery if it counts and the clear-done mark is set (R54). -/
def UnitRec.coolLength (r : UnitRec) (recovery : Bool) : Nat :=
  r.desc.restTime + (if recovery && r.session.clearMark then r.desc.clearRecovery else 0)

/-- A unit's session enters COOLING; its pending KEEP is withdrawn (R57). -/
def Chip.coolUnit (c : Chip) (u : UnitIx) (recovery : Bool) : Chip :=
  (c.modUnit u fun r => { r with session := r.session.cool (r.coolLength recovery) }).withdrawFor u Msg.isKeep

/-! ## The keep debt (R58) -/

/-- A completed frame pays the debt while the session is OPEN or EXCHANGING. -/
def Chip.payDebt (c : Chip) (u : UnitIx) : Chip :=
  match c.sessState u with
  | .opened | .exchanging =>
    (c.modSession u fun s => { s with keepDebt := 0 }).withdrawFor u Msg.isKeep
  | _ => c

/-! ## Needing a session (R45) -/

/-- An OPEN is first posted for a new session (R45): the attempt count becomes 0; one OPEN is pending at most. Where an
OPEN of the unit is in the transmit slot none is posted and the count stands: that OPEN opens the session (log 52). -/
def Chip.postOpen (c : Chip) (u : UnitIx) : Chip :=
  if c.pendingFor u Msg.isOpen || c.grantedFor u Msg.isOpen then c
  else (c.modSession u fun s => { s with openAttempts := 0 }).postFor u .opn false

/-- A step needs the session of a unit (R45), with the request it is to carry or, for a HOLD, none (R99). On an OPEN
session whose CLOSE has not been granted, that CLOSE is withdrawn and the request goes straight into its class (R51,
R53). -/
def Chip.needSession (c : Chip) (u : UnitIx) (req : Option Req) : Chip :=
  let c := c.modSession u fun s => { s with closeAtAccept := false }
  match c.sessState u with
  | .opened =>
    if c.grantedFor u Msg.isClose then
      (c.modSession u fun s => { s with posted := req }).postOpen u
    else
      let c := c.withdrawFor u Msg.isClose
      match req with
      | some q => c.postFor u (.request q) false
      | none => c
  | .closed | .closing | .cooling => (c.modSession u fun s => { s with posted := req }).postOpen u
  | .opening | .exchanging => c.modSession u fun s => { s with posted := req }

/-- The session is OPEN and stays so: no CLOSE has been granted (R45). -/
def Chip.sessionUsable (c : Chip) (u : UnitIx) : Bool :=
  decide (c.sessState u = .opened) && !c.grantedFor u Msg.isClose

/-! ## Closing (R53, R62) -/

/-- The open of a unit that waits in REPEAT-HELD ends with its pending OPEN, which the segment withdraws (R53, R64, R68;
log 46). -/
def UnitRec.shedOpen (r : UnitRec) : UnitRec :=
  { r with exch := match r.exch with
      | some x => if x.kind = .opn ∧ x.phase = .repeatHeld then none else some x
      | none => none }

/-- The open of a unit ends so unless its OPEN is in the transmit slot, not pending: that OPEN runs to its end, and its
record waits for it. -/
def Chip.shedOpen (c : Chip) (u : UnitIx) : Chip :=
  if c.grantedFor u Msg.isOpen then c else c.modUnit u UnitRec.shedOpen

/-- The pending OPENs of a segment are gone: their exchange records in REPEAT-HELD go with them. -/
def Chip.shedOpens (c : Chip) (g : Seg) : Chip := (c.unitsOf g).foldl Chip.shedOpen c

/-- The frame in the slot is withdrawn: with its failure (R68), or at a reload of its segment (R69). The record of an open in
REPEAT-HELD goes with its OPEN (log 46). A completion that still comes finds the slot empty: it joins no window and changes
no count (log 66). -/
def Chip.withdrawSlot (c : Chip) (g : Seg) : Chip :=
  match (c.seg g).slot with
  | none => c
  | some t =>
    let c := c.modSeg g fun r => { r with slot := none }
    if t.item.msg.isOpen && !t.stale then
      match c.findUnit g t.item.addr with
      | some u => c.shedOpen u
      | none => c else c

/-- A pending OPEN is withdrawn with its exchange record in REPEAT-HELD, and the posted request is discarded (R53,
R64). -/
def Chip.dropOpen (c : Chip) (u : UnitIx) : Chip :=
  ((c.modSession u fun s => { s with posted := none }).shedOpen u).withdrawFor u Msg.isOpen

/-- A close is asked of the session (R53). R53 has no row for CLOSING: nothing is done there, nor in OPEN behind a CLOSE that
is in the slot, and an OPEN pending behind that CLOSE stays (log 65). -/
def Chip.askClose (c : Chip) (u : UnitIx) : Chip :=
  match c.unit u with
  | none => c
  | some r => match r.session.state with
    | .opened =>
      if c.pendingFor u Msg.isClose || c.grantedFor u Msg.isClose then c else c.postFor u .close false
    | .exchanging => if r.clearAwaits then c.modSession u fun s => { s with heldClose := true } else c
    | .opening => c.modSession u fun s => { s with closeAtAccept := true }
    | .closed | .cooling => c.dropOpen u
    | .closing => c

/-! ## Drops and ends (R59, R64) -/

/-- The session ends where it stands: what a drop does to the session record, the exchange record and the pending
work (R59, R42). The frame on the wire, if any, is marked. A posted request stays for R60 to take up. -/
def Chip.dropSession (c : Chip) (u : UnitIx) : Chip :=
  match c.unit u with
  | none => c
  | some r =>
    let c := c.setUnit u (some { r with
      session := { r.session.cool (r.coolLength true) with heldClose := false, closeAtAccept := false, graceDrop := false }
      clearUncertain := r.clearUncertain || r.clearAwaits
      exch := none
      ignore := 0
      drops := satInc 255 r.drops })
    (c.withdrawFor u fun _ => true).modSeg r.seg fun g => g.markStale r.addr

/-- A drop reaches only a session that is OPENING, OPEN, EXCHANGING or CLOSING (R59). -/
def Chip.droppable (c : Chip) (u : UnitIx) : Bool := (c.sessState u).holdsSlot

/-- The session ends without a frame at STOPPED or HALTED (R64), or as its unit leaves the roster (R16): every field as
on entering the roster; clear-uncertain for a CLEAR that awaits CLEAR-DONE. No drop is counted. -/
def Chip.endSession (c : Chip) (u : UnitIx) : Chip :=
  match c.unit u with
  | none => c
  | some r =>
    let c := c.setUnit u (some { r with
      session := .fresh, clearUncertain := r.clearUncertain || r.clearAwaits, exch := none })
    (c.withdrawFor u fun _ => true).modSeg r.seg fun g => g.markStale r.addr

end Sys2Proof.Machine
end

