-- ==== Sys2Proof/Machine/Plan.lean ====
section
/-!
DEFINITION. The Order Engine's plans and contexts (R84 to R110) and the harvest account (R111 to R122): the begin of a
plan, its steps, pairing, outcomes, drops handed to a plan, withdrawal and cutting, and the end of an order.
-/

namespace Sys2Proof.Machine

/-! ## Hand-over to the history intake (R126) -/

/-- An item joins the intake; a hand-over that finds it full waits. -/
def Chip.handOver (c : Chip) (i : WorkItem) (origin : Option Seg) : Chip :=
  c.modHist fun h =>
    if h.intake.length < Config.intakeItems ∧ h.handWait = [] then { h with intake := h.intake ++ [i] }
    else { h with handWait := h.handWait ++ [(i, origin)] }

/-- The plan whose records or snapshots an item carries; 0 for an item that holds no request's end back. A CLEARED marking
holds none: its CLEAR step ends DONE while the marking waits (log 67). -/
def WorkItem.holds : WorkItem → Nat
  | .merge p .. => p
  | .capture p .. => p
  | .noSnap p .. => p
  | _ => 0

/-- Some record or snapshot of a plan still waits for the History Table (R115, R157). -/
def Chip.itemsLeft (c : Chip) (serial : Nat) : Bool :=
  c.hist.intake.any (fun i => decide (i.holds = serial))
    || c.hist.handWait.any (fun i => decide (i.1.holds = serial))

/-! ## Contexts and results (R84, R107, R108, R110) -/

/-- The steps of a context's order; none for another kind. -/
def Ctx.steps (k : Ctx) : List Step :=
  match k.content with
  | .harvest _ _ _ steps => steps
  | _ => []

/-- The order's keep-open flag. -/
def Ctx.keepOpen (k : Ctx) : Bool :=
  match k.content with
  | .harvest _ keepOpen _ _ => keepOpen
  | _ => false

/-- The order's refresh-snapshots flag. -/
def Ctx.refresh (k : Ctx) : Bool :=
  match k.content with
  | .harvest _ _ refresh _ => refresh
  | _ => false

/-- The bit of a roster index in a mask. -/
def unitBit (u : UnitIx) : BitVec 64 := BitVec.ofNat 64 (2 ^ u.val)

/-- The mask of a list of roster indices. -/
def maskOfUnits (us : List UnitIx) : BitVec 64 := us.foldl (fun m u => m ||| unitBit u) 0

/-- The result so far takes an outcome (R104, step 3): the unit's bit and its outcome list entry. -/
def Ctx.record (k : Ctx) (u : UnitIx) (v : Verdict) (step : Nat) : Ctx :=
  let k := { k with outcomes := k.outcomes.set u (outcomeByte v step) }
  match v with
  | .complete => { k with doneMask := k.doneMask ||| unitBit u }
  | .lost | .dropped | .refused _ => { k with failedMask := k.failedMask ||| unitBit u }
  | _ => { k with skippedMask := k.skippedMask ||| unitBit u }

/-- A plan's outcome is recorded and the plans outstanding fall by 1 (R104, step 3). -/
def Chip.recordOutcome (c : Chip) (k : CtxIx) (u : UnitIx) (v : Verdict) (step : Nat) : Chip :=
  c.modCtx k fun x => { x.record u v step with outstanding := x.outstanding - 1 }

/-- An order ends (R108): for a card the context becomes WRITING and its result is written; a sweep writes no card
(R110), and one that was cut frees its context alone. -/
def Chip.orderEnd (c : Chip) (k : CtxIx) : Chip :=
  let x := c.ctx k
  match x.source with
  | .card card =>
    (c.modCtx k fun x => { x with state := .writing }).hand (.result k) (resultAccs card x x.endCode 0 3)
  | .sweep =>
    if x.endCode = .cut then c.modCtx k fun _ => .cleared
    else
      let c := { c with sweepCount := satInc Config.max16 c.sweepCount, lastSweepSeq := c.hist.published }
      (c.setCause .sweepDone).modCtx k fun _ => .cleared

/-- A HARVEST ends when its plans outstanding count is 0 (R108). -/
def Chip.endIfDone (c : Chip) (k : CtxIx) : Chip :=
  let x := c.ctx k
  if x.state = .running ∧ x.content.kind = .harvest ∧ x.outstanding = 0 then c.orderEnd k else c

/-! ## Candidates and quantities (R96, R100) -/

/-- The valid entries keyed with a segment and address, in ascending slot. -/
def Chip.entriesOf (c : Chip) (g : Seg) (addr : Byte) : List SlotIx :=
  allSlots.filter fun i => match (c.slot i).entry with
    | some e => decide (e.key.seg = g) && decide (e.key.addr = addr)
    | none => false

/-- A slot still holds a candidate's key (R96, R158). -/
def Chip.holdsKey (c : Chip) (i : SlotIx) (key : Key) : Bool :=
  match (c.slot i).entry with
  | some e => decide (e.key = key)
  | none => false

/-- The candidate list of a SNAP step (R96). -/
def Chip.candidates (c : Chip) (g : Seg) (addr : Byte) (refresh : Bool) : List Candidate :=
  (c.entriesOf g addr).filterMap fun i =>
    let r := c.slot i
    match r.entry with
    | some e =>
      if r.activeMerged && decide (e.status = .active) && (refresh || (e.snap.isNone && !e.snapNone)) then
        some { slot := i, code := e.key.code, kind := e.key.kind }
      else none
    | none => none

/-- The tally of active entries merged: the slots that carry the mark for this unit (R116). -/
def Chip.activeTally (c : Chip) (g : Seg) (addr : Byte) : Nat :=
  ((c.entriesOf g addr).filter fun i => (c.slot i).activeMerged).length

/-- Every mark of a unit's slots is cleared (R121). -/
def Chip.clearMarks (c : Chip) (g : Seg) (addr : Byte) : Chip :=
  (c.entriesOf g addr).foldl (fun c i => c.modSlot i fun r => { r with seen := false, activeMerged := false }) c

/-- A quantity of a TEST at this moment (R100). -/
def Chip.quantity (c : Chip) (r : UnitRec) (p : Plan) : Quantity → Option Nat
  | .listedCount => p.listed
  | .activeMerged => some (c.activeTally r.seg r.addr)
  | .unitHours => r.hours
  | .highestU => some p.highU
  | .unitEntries => some (c.entriesOf r.seg r.addr).length

/-! ## The end of a plan, first part (R104 step 1, R120) -/

/-- Every slot from 0 to n - 1 is covered. -/
def coversAll (covered : List Nat) (n : Nat) : Bool := (List.range n).all fun i => covered.contains i

/-- Whether a plan that ends so is a complete harvest (R120). -/
def Plan.completeHarvest (p : Plan) (v : Verdict) : Bool :=
  match v with
  | .complete | .refused _ | .lost | .dropped =>
    match p.listed with
    | some n => coversAll p.covered n && !p.spoiled
    | none => false
  | _ => false

/-- The end of a plan that has ended is handed to the History Table (R104, step 1); steps 2 to 4 of R104 follow when that
item is finished (log 13). -/
def Chip.handPlanEnd (c : Chip) (u : UnitIx) : Chip :=
  match c.unit u, c.firstPlan u with
  | some r, some p => match p.ended with
    | some (v, _) => c.handOver (.planEnd p.serial r.seg r.addr (p.completeHarvest v)) none
    | none => c
  | _, _ => c

/-- A plan ends (R103): the posted request is discarded, and its end is handed to the History Table, after every record
of the plan has been merged (R115). -/
def Chip.endPlan (c : Chip) (u : UnitIx) (v : Verdict) (step : Nat) : Chip :=
  match c.firstPlan u with
  | some p =>
    let c := c.modPlan u fun p => { p with ended := some (v, step), work := none, heldEnd := none }
    let c := c.modSession u fun s => { s with posted := none }
    if c.itemsLeft p.serial then c else c.handPlanEnd u
  | none => c

/-! ## Steps (R93 to R103) -/

/-- A DRAW request of a step. -/
def drawReq (p : Plan) (start group base : Nat) : Req := { kind := .draw start group base, plan := p.serial }

/-- A SNAP request for a candidate. -/
def snapReq (p : Plan) (k : Candidate) : Req := { kind := .snap k.slot k.code k.kind, plan := p.serial }

/-- A step whose condition is true starts its work (R94 to R100): in flight, or ended at once. A CLOSE step that finds
the session OPENING, or EXCHANGING with a CLEAR of an earlier plan, waits for what becomes of it (log 59). -/
def Chip.startWork (c : Chip) (u : UnitIx) (r : UnitRec) (p : Plan) (s : Step) : Chip × Option StepEnd :=
  let fly := fun (w : Work) => c.modPlan u fun p => { p with work := some w }
  match s.kind with
  | .list => ((fly .list).needSession u (some { kind := .list, plan := p.serial }), none)
  | .draw group =>
    match p.listed with
    | none => (c, some .skipped)
    | some 0 => (c, some .done)
    | some n =>
      let g := if group = 0 then r.desc.group else group
      ((fly (.draw n g 0 0)).needSession u (some (drawReq p 0 g n)), none)
  | .snap =>
    match c.candidates r.seg r.addr (c.ctx p.ctx).refresh with
    | [] => (c, some .done)
    | k :: rest =>
      if r.desc.noSnapshot then (c, some .done)
      else ((fly (.snap (k :: rest))).needSession u (some (snapReq p k)), none)
  | .clear =>
    if r.desc.clearPermitted then
      ((fly .clear).needSession u (some { kind := .clear, plan := p.serial }), none)
    else (c, some (.failed .clearLocked))
  | .close =>
    match r.session.state with
    | .closed | .cooling => (c.askClose u, some .done)
    | _ => ((fly .close).askClose u, none)
  | .hold ms =>
    if ms = 0 then (c, some .done)
    else if c.sessionUsable u then ((fly (.hold ms (some ms))).needSession u none, none)
    else ((fly (.hold ms none)).needSession u none, none)
  | .test flag quantity relation constant =>
    let holds := relation.holds constant (c.quantity r p quantity)
    (c.modPlan u fun p => { p with flags := writeFlag p.flags flag holds }, some .done)

/-- A step has ended (R102, R103, R105): the pair state and the cursor, or the plan's end. True when the plan goes on
to its next step. -/
def Chip.settleStep (c : Chip) (u : UnitIx) (e : StepEnd) : Chip × Bool :=
  match c.firstPlan u with
  | none => (c, false)
  | some p =>
    let x := c.ctx p.ctx
    let i := p.cursor
    let pairing := match x.steps[i - 1]? with
      | some s => s.pairing
      | none => .alone
    let goOn := fun (pair : PairState) =>
      if x.steps.length ≤ i then
        if x.withdrawn && decide (e ≠ .done) then (c.endPlan u .cutWithdrawn i, false)
        else (c.endPlan u .complete i, false)
      else if x.withdrawn then (c.endPlan u .cutWithdrawn i, false)
      else (c.modPlan u fun p => { p with cursor := i + 1, pair := pair, work := none, heldEnd := none }, true)
    match e, pairing with
    | .lost, _ => (c.endPlan u .lost i, false)
    | .failed reason, .alone => (c.endPlan u (.refused reason) i, false)
    | .failed _, .strict => goOn .followerAnnulled
    | .failed _, .eager => goOn .followerRuns
    | .done, .alone => goOn .unpaired
    | .done, _ => goOn .followerRuns
    | .skipped, .alone => goOn .unpaired
    | .skipped, .strict => goOn .followerAnnulled
    | .skipped, .eager => goOn .followerRuns

/-- The cursor is at a step (R93): the step is skipped, ends at once, or is in flight; `fuel` bounds the steps reached
(a plan has 12 at most). -/
def Chip.runPlan : Nat → Chip → UnitIx → Chip
  | 0, c, _ => c
  | fuel + 1, c, u =>
    match c.unit u, c.firstPlan u with
    | some r, some p =>
      if p.running && p.ended.isNone && p.work.isNone then
        match (c.ctx p.ctx).steps[p.cursor - 1]? with
        | none => c
        | some s =>
          if p.pair = .followerAnnulled ∨ s.cond.holds p.flags = false then
            let (c, more) := c.settleStep u .skipped
            if more then runPlan fuel c u else c
          else
            match c.startWork u r p s with
            | (c, none) => c
            | (c, some e) =>
              let (c, more) := c.settleStep u e
              if more then runPlan fuel c u else c
      else c
    | _, _ => c

/-- Steps of a plan at most, and one more look. -/
def planFuel : Nat := 13

/-- The step in flight ends, and the plan goes on. -/
def Chip.stepEnds (c : Chip) (u : UnitIx) (e : StepEnd) : Chip :=
  let (c, more) := c.settleStep u e
  if more then c.runPlan planFuel u else c

/-- The step end that a request's failure gives (R93). -/
def ReqEnd.failure : ReqEnd → StepEnd
  | .complete => .done
  | .refused .busy | .openRefused .busy => .failed .busy
  | .refused .denied | .openRefused .denied => .failed .denied
  | .refused .unknown | .openRefused .unknown => .failed .unknown
  | .broken => .failed .broken
  | .unanswered | .openUnanswered => .lost

/-- A request's end reaches the step in flight (R94 to R99). -/
def Chip.deliver (c : Chip) (u : UnitIx) (e : ReqEnd) : Chip :=
  match c.firstPlan u with
  | none => c
  | some p =>
    if p.running && p.ended.isNone then
      let c := c.modPlan u fun p => { p with heldEnd := none }
      match p.work with
      | none => c
      | some (.draw base g m _) =>
        if e = .complete then
          if m + 1 < ceilDiv base g then
            (c.modPlan u fun p => { p with work := some (.draw base g (m + 1) (g * (m + 1))) }).needSession u
              (some (drawReq p (g * (m + 1)) g base))
          else c.stepEnds u .done
        else c.stepEnds u e.failure
      | some (.snap ks) =>
        if e = .complete ∨ e = .refused .unknown then
          match c.unit u with
          | none => c
          | some r =>
            match (ks.drop 1).dropWhile fun k =>
              !c.holdsKey k.slot { seg := r.seg, addr := r.addr, code := k.code, kind := k.kind } with
            | [] => c.stepEnds u .done
            | k :: rest =>
              (c.modPlan u fun p => { p with work := some (.snap (k :: rest)) }).needSession u (some (snapReq p k))
        else c.stepEnds u e.failure
      | some .close => c
      | some _ => c.stepEnds u e.failure
    else c

/-- The step in flight is a DRAW. -/
def Plan.draws (p : Plan) : Bool :=
  match p.work with
  | some (.draw ..) => true
  | _ => false

/-- The ends that wait for the plan's records and snapshots (R115, R157); an UNANSWERED request brought none. -/
def ReqEnd.waits : ReqEnd → Bool
  | .complete | .refused _ | .broken | .openRefused _ => true
  | .unanswered | .openUnanswered => false

/-- A request of a plan has ended. A DRAW group's end other than COMPLETE spoils the harvest account at once (R119). The
end is handed to the step, or held until the plan's records and snapshots have been merged (R115, R157). -/
def Chip.requestEnded (c : Chip) (u : UnitIx) (serial : Nat) (e : ReqEnd) : Chip :=
  match c.firstPlan u with
  | none => c
  | some p =>
    if p.serial = serial ∧ p.ended.isNone then
      let c := if p.draws && decide (e ≠ .complete) then c.modPlan u fun p => { p with spoiled := true } else c
      if e.waits && c.itemsLeft serial then c.modPlan u fun p => { p with heldEnd := some e } else c.deliver u e
    else c

/-- An open that carried the running plan's request, or that its HOLD waits for, has ended: the end is the request's (R50). -/
def Chip.firstPlanEnd (c : Chip) (u : UnitIx) (e : ReqEnd) : Chip :=
  match c.firstPlan u with
  | none => c
  | some p => c.requestEnded u p.serial e

/-- The session holds no slot any more, COOLING or CLOSED after it: a CLOSE step in flight ends DONE (R98). -/
def Chip.closeStepDone (c : Chip) (u : UnitIx) : Chip :=
  match c.firstPlan u with
  | some p => if p.work = some .close ∧ p.ended.isNone then c.stepEnds u .done else c
  | none => c

/-- The running plan has a HOLD in flight whose timer does not run: it waits for its session (R99). -/
def Plan.holdWaits (p : Plan) : Bool :=
  match p.work with
  | some (.hold _ none) => true
  | _ => false

/-- The full time of the HOLD in flight. -/
def Plan.holdFull (p : Plan) : Nat :=
  match p.work with
  | some (.hold full _) => full
  | _ => 0

/-- The session is open: a HOLD that waits for it starts its time (R99). -/
def Chip.startHold (c : Chip) (u : UnitIx) : Chip :=
  match c.firstPlan u with
  | some p =>
    if p.holdWaits then c.modPlan u fun p => { p with work := some (.hold p.holdFull (some p.holdFull)) } else c
  | none => c

/-- What waits for the unit's session is looked at again under R45: after a CLEAR that no plan owned has ended. -/
def Chip.resume (c : Chip) (u : UnitIx) : Chip :=
  match c.unit u with
  | none => c
  | some r =>
    let waits := match c.firstPlan u with
      | some p => p.holdWaits
      | none => false
    if r.session.posted.isSome then
      let c' := c.modSession u fun s => { s with posted := none }
      c'.needSession u r.session.posted
    else if waits then
      let c := c.needSession u none
      if c.sessionUsable u then c.startHold u else c
    else c

/-! ## Plan begin and plan end, second part (R92, R104) -/

/-- The first plan of a unit's queue begins if it has not (R92). -/
def Chip.beginPlan (c : Chip) (u : UnitIx) : Chip :=
  match c.unit u, c.firstPlan u with
  | some r, some p =>
    if p.running then c
    else
      let c := c.modPlan u fun p => { p with running := true }
      match c.mode r.seg with
      | some .active =>
        if (c.ctx p.ctx).source = .sweep ∧ r.presence = .silent then c.endPlan u .skippedSilent 0
        else c.runPlan planFuel u
      | some .listen => c.endPlan u .skippedListen 0
      | _ => c.endPlan u .skippedOff 0
  | _, _ => c

/-- Whether the session is closed at a plan's end (R104 step 2, R105). -/
def Ctx.closesAfter (k : Ctx) (v : Verdict) : Bool :=
  match v with
  | .lost | .dropped => false
  | .complete | .refused _ | .skippedOff | .skippedListen | .skippedSilent | .skippedNoUnit =>
    !k.keepOpen || k.withdrawn
  | .cutWithdrawn | .cutGrace | .cutStop => true

/-- The plan-end item is finished: steps 2 to 4 of R104 for the first plan of the queue. -/
def Chip.planFinish (c : Chip) (u : UnitIx) : Chip :=
  match c.firstPlan u with
  | none => c
  | some p => match p.ended with
    | none => c
    | some (v, step) =>
      let c := if (c.ctx p.ctx).closesAfter v then c.askClose u else c
      let c := c.recordOutcome p.ctx u v step
      let c := c.modUnit u fun r => { r with queue := r.queue.drop 1 }
      (c.endIfDone p.ctx).beginPlan u

/-- A plan made at take (R91): QUEUED. -/
def Plan.new (serial : Nat) (k : CtxIx) : Plan :=
  { serial := serial, ctx := k, running := false, cursor := 1, flags := 0, drops := 0, listed := none, pair := .unpaired,
    work := none, heldEnd := none, highU := 0, covered := [], spoiled := false, ended := none }

/-- A plan is appended to the queue of a unit, and begins if the queue was empty (R89, R92). -/
def Chip.addPlan (c : Chip) (k : CtxIx) (u : UnitIx) : Chip :=
  let c := { c.modUnit u fun r => { r with queue := r.queue ++ [Plan.new c.nextSerial k] } with
    nextSerial := c.nextSerial + 1 }
  c.beginPlan u

/-- The work of a HARVEST starts (R89): the empty indices named are recorded, then one plan for each occupied index, in
ascending order. With no occupied index left the order ends. -/
def Chip.startHarvest (c : Chip) (k : CtxIx) (mask : BitVec 64) : Chip :=
  let named := allUnits.filter fun u => mask.getLsbD u.val
  let targets := named.filter fun u => (c.unit u).isSome
  let empty := named.filter fun u => (c.unit u).isNone
  let c := c.modCtx k fun x =>
    let x := empty.foldl (fun x u => x.record u .skippedNoUnit 0) x
    { x with outstanding := targets.length }
  (targets.foldl (fun c u => c.addPlan k u) c).endIfDone k

/-! ## Drops handed to the plan (R60, R61, R103) -/

/-- The first slot, in the wrap order of an attempt, whose record did not arrive complete (R38). -/
def nextStart (start group : Nat) (arrived : List Nat) : Nat :=
  ((wrapOrder start group).find? fun s => !arrived.contains s).getD start

/-- The start slot at which a DRAW goes on after its exchange `x` was ended (R38). -/
def Exchange.restart (x : Exchange) : Option Nat :=
  match x.kind with
  | .request { kind := .draw start group _, .. } => some (nextStart start group x.arrived)
  | _ => none

/-- The step in flight is restarted fresh after a reopen (R60). `old` is the exchange the drop abandoned. -/
def Chip.restartStep (c : Chip) (u : UnitIx) (p : Plan) (old : Option Exchange) : Chip :=
  match p.work with
  | none | some .close => c
  | some .list => c.needSession u (some { kind := .list, plan := p.serial })
  | some .clear => c.needSession u (some { kind := .clear, plan := p.serial })
  | some (.draw base g m start) =>
    let start := ((old.bind Exchange.restart).getD start)
    (c.modPlan u fun p => { p with work := some (.draw base g m start) }).needSession u (some (drawReq p start g base))
  | some (.snap ks) => match ks with
    | k :: _ => c.needSession u (some (snapReq p k))
    | [] => c
  | some (.hold full _) =>
    (c.modPlan u fun p => { p with work := some (.hold full none) }).needSession u none

/-- A drop now finds a close under way, and counts against no plan (R60, R61, R103): the session is CLOSING, or the running
plan has a CLOSE step in flight whose CLOSE waits to go out, in its class or in the transmit slot. CLOSING on an earlier
plan's CLOSE counts as little (log 58). -/
def Chip.closeUnderWay (c : Chip) (u : UnitIx) : Bool :=
  let stepCloses := match c.firstPlan u with
    | some p => decide (p.work = some .close)
    | none => false
  decide (c.sessState u = .closing) || stepCloses && (c.pendingFor u Msg.isClose || c.grantedFor u Msg.isClose)

/-- A drop of the unit's session is handed to its running plan (R60, R61, R103, R105). A CLOSE step in flight ends DONE, the
session being closed (R98). A step whose request has ended and waits for its merges alone is not restarted. -/
def Chip.planDrop (c : Chip) (u : UnitIx) (counted : Bool) (old : Option Exchange) : Chip :=
  let discard := c.modSession u fun s => { s with posted := none }
  match c.firstPlan u with
  | none => discard
  | some p =>
    if !p.running || p.ended.isSome then discard
    else
      let n := if counted then satInc 2 p.drops else p.drops
      let c := discard.modPlan u fun p => { p with drops := n }
      if counted ∧ n = 2 then c.endPlan u .dropped p.cursor
      else if counted ∧ (c.ctx p.ctx).withdrawn then c.endPlan u .cutWithdrawn p.cursor
      else if p.work = some .close then c.stepEnds u .done
      else if p.heldEnd.isSome then c
      else c.restartStep u p old

/-- A session is dropped (R59, R60): the session first, then the plan. A drop that finds it CLOSED or COOLING has no
effect. -/
def Chip.drop (c : Chip) (u : UnitIx) (counted : Bool) : Chip :=
  if c.droppable u then
    let old := (c.unit u).bind fun r => r.exch
    (c.dropSession u).planDrop u (counted && !c.closeUnderWay u) old
  else c

/-- Every session of a segment is dropped (R73), in ascending roster index (log 60). -/
def Chip.dropSegment (c : Chip) (g : Seg) (counted : Bool) : Chip :=
  (c.unitsOf g).foldl (fun c u => c.drop u counted) c

/-! ## Withdrawal and cutting (R105, R106) -/

/-- One plan of a withdrawn order on a unit: QUEUED plans leave their queue; a HOLD in flight ends; a step in flight
goes on; a plan between steps is cut. -/
def Chip.withdrawPlan (c : Chip) (k : CtxIx) (u : UnitIx) : Chip :=
  match c.unit u with
  | none => c
  | some r =>
    let queued := r.queue.filter fun p => decide (p.ctx = k) && !p.running
    let c := c.modUnit u fun r => { r with queue := r.queue.filter fun p => !(decide (p.ctx = k) && !p.running) }
    let c := queued.foldl (fun c _ => c.recordOutcome k u .cutWithdrawn 0) c
    match c.firstPlan u with
    | some p =>
      if p.ctx = k ∧ p.ended.isNone then
        match p.work with
        | some (.hold ..) => c.stepEnds u .done
        | some _ => c
        | none => c.endPlan u .cutWithdrawn p.cursor
      else c
    | none => c

/-- A HARVEST is withdrawn (R105). -/
def Chip.withdrawHarvest (c : Chip) (k : CtxIx) : Chip :=
  let c := c.modCtx k fun x => { x with withdrawn := true, endCode := .withdrawn }
  (allUnits.foldl (fun c u => c.withdrawPlan k u) c).endIfDone k

/-- The plans of one unit that have not ended are cut (R106); one that has ended keeps its outcome (log 14). The marks of a
plan cut while it runs are cleared with it, so that the unit's next plan begins with none (R91, R121); its plan-end item
joins the intake at once and changes nothing more (log 62). -/
def Chip.cutUnit (v : Verdict) (c : Chip) (u : UnitIx) : Chip :=
  match c.unit u with
  | none => c
  | some r =>
    let cut := r.queue.filter fun p => p.ended.isNone
    if cut.isEmpty then c
    else
      let c := c.setUnit u (some { r with
        queue := r.queue.filter fun p => p.ended.isSome, session := { r.session with posted := none } })
      cut.foldl (fun c p =>
        let c := c.recordOutcome p.ctx u v (if p.running then p.cursor else 0)
        if p.running then (c.clearMarks r.seg r.addr).handOver (.planEnd p.serial r.seg r.addr false) none else c) c

/-- A HARVEST or sweep that runs takes the end code CUT (R106), one whose plans have all ended and wait for their plan-end
items among them (log 14). -/
def Ctx.cut (k : Ctx) : Ctx :=
  if k.state = .running ∧ k.content.kind = .harvest then { k with endCode := .cut } else k

/-- Every plan of every order ends CUT (R106), in ascending roster index; then the orders whose plans are all ended end, in
ascending context (log 69). -/
def Chip.cutPlans (c : Chip) (v : Verdict) : Chip :=
  allCtxs.foldl Chip.endIfDone (allUnits.foldl (Chip.cutUnit v) { c with ctxs := c.ctxs.map Ctx.cut })

/-! ## Census (R18 to R20) -/

/-- A census is taken (R18): the answered list is empty and one ROLL is posted. -/
def Chip.startCensus (c : Chip) (k : CtxIx) (g : Seg) : Chip :=
  let stamp := (c.seg g).nextStamp
  (c.modSeg g fun r => { r with
    census := some { ctx := k, answered := [], created := 0, rollStamp := stamp, window := none } }).post g 0xFF .roll
    false

/-- A census ends (R20): a ROLL still pending is withdrawn, the window is stopped, and the result is written. -/
def Chip.endCensus (c : Chip) (g : Seg) (code : ErrorCode) : Chip :=
  match (c.seg g).census with
  | none => c
  | some n =>
    let answered := (c.unitsOf g).filter fun u => match c.unit u with
      | some r => n.answered.contains r.addr
      | none => false
    let c := c.modSeg g fun r => { r with
      census := none, op := r.op.filter fun i => decide (i.stamp ≠ n.rollStamp) }
    (c.modCtx n.ctx fun x => { x with
      doneMask := maskOfUnits answered, created := n.created, endCode := code }).orderEnd n.ctx

/-- Every census ends with CUT (R20), in ascending segment (log 69). -/
def Chip.cutCensuses (c : Chip) : Chip := allSegs.foldl (fun c g => c.endCensus g .cut) c

end Sys2Proof.Machine
end

