-- ==== Sys2Proof/Machine/Exchange.lean ====
section
/-!
DEFINITION. The query exchange of a unit (R26 to R43): transmit completions, the ends of attempts, requests, opens and
closes, refusals and waits, segmented answers and the unit records they bring (R111, R114), and the matching of a
received frame.
-/

namespace Sys2Proof.Machine

/-- A fresh exchange record. -/
def Exchange.new (kind : ExKind) (attempt : Nat) (phase : Phase) (timer : Nat) : Exchange :=
  { kind := kind, attempt := attempt, phase := phase, waits := 0, answered := false, timer := some timer, rest := none,
    announced := 0, needed := 0, taken := 0, credit := 0, nextSeq := 1, bytes := [], arrived := [] }

/-! ## Transmit completions (R46, R51, R35, R53, R58) -/

/-- The OPEN of a unit went out (R46): the attempt counts; a CLOSED session becomes OPENING, an OPENING one stays. -/
def Chip.openWentOut (c : Chip) (u : UnitIx) : Chip :=
  match c.unit u with
  | none => c
  | some r =>
    if r.session.state = .closed ∨ r.session.state = .opening then
      let n := r.session.openAttempts + 1
      let x := match r.exch with
        | some x => { x with attempt := n, phase := .awaitAccept, waits := 0, timer := some r.desc.openTimeout, rest := none }
        | none => Exchange.new .opn n .awaitAccept r.desc.openTimeout
      c.setUnit u (some { r with
        session := { r.session with state := .opening, openAttempts := n, coolTimer := none }, exch := some x })
    else c

/-- The exchange record as a request's attempt goes out (R26, R28, R32, R38). -/
def Exchange.attemptOut (x : Exchange) (reply : Nat) : Exchange :=
  { x with attempt := x.attempt + 1, phase := .awaitAnswer, waits := 0, timer := some reply, rest := none, announced := 0,
           needed := 0, taken := 0, credit := 0, nextSeq := 1, bytes := [], arrived := [] }

/-- A request of a unit went out (R51): the first attempt makes an OPEN session EXCHANGING and creates the record; a
repeat moves a record in REPEAT-HELD. Completed to a session that is OPEN or EXCHANGING it pays the debt (R58). A CLOSE
still pending as a CLEAR goes out is held back behind it (R62, log 38). -/
def Chip.requestWentOut (c : Chip) (u : UnitIx) (q : Req) (again : Bool) : Chip :=
  match c.unit u with
  | none => c
  | some r =>
    let c := match r.session.state, r.exch, again with
      | .opened, none, false =>
        c.setUnit u (some { r with
          session := { r.session with state := .exchanging }, ignore := 0
          exch := some (Exchange.new (.request q) 1 .awaitAnswer r.desc.replyTimeout) })
      | .exchanging, some x, true =>
        if x.phase = Phase.repeatHeld then
          c.setUnit u (some { r with ignore := 0, exch := some (x.attemptOut r.desc.replyTimeout) })
        else c
      | _, _, _ => c
    let c := if q.kind = .clear ∧ c.sessState u = .exchanging ∧ c.pendingFor u Msg.isClose then
        (c.withdrawFor u Msg.isClose).modSession u fun s => { s with heldClose := true }
      else c
    c.payDebt u

/-- A PULL of a unit went out (R35). A PULL that was in the slot as its attempt ended pays the debt as any frame does
(R58), and leaves the record in its phase (log 56). -/
def Chip.pullWentOut (c : Chip) (u : UnitIx) (credit : Nat) : Chip :=
  match c.unit u with
  | none => c
  | some r =>
    let c := c.modExch u fun x =>
      if x.phase = .awaitPull then
        { x with phase := .receiving, credit := credit, timer := some r.desc.replyTimeout }
      else x
    c.payDebt u

/-- A CLOSE of a unit went out (R53): CLOSING, with the record in AWAITING-BYE; beside the KEEP that R53 names a pending PULL
or request goes, since a CLOSING unit may be sent nothing (log 73). A CLOSE posted at STOPPING (R64) may find
the session EXCHANGING, where a request already in the slot went out before it: its record takes that request's place
(log 57). -/
def Chip.closeWentOut (c : Chip) (u : UnitIx) : Chip :=
  match c.unit u with
  | none => c
  | some r =>
    if r.session.state = .opened ∨ r.session.state = .exchanging then
      (c.setUnit u (some { r with
        session := { r.session with state := .closing, keepTimer := none, keepDebt := 0, heldClose := false }
        clearUncertain := r.clearUncertain || r.clearAwaits
        ignore := 0
        exch := some (Exchange.new .close 1 .awaitBye r.desc.replyTimeout) })).withdrawFor u fun m =>
          m.isKeep || m.isPull || m.isRequest
    else c

/-! ## Ends (R29, R30, R48, R49, R52) -/

/-- An open ends otherwise than ACCEPTED (R48 to R50): the record is removed, the session cools for the rest time, the
posted request is discarded, and the step that needed the session receives the end. -/
def Chip.openEnds (c : Chip) (u : UnitIx) (e : ReqEnd) : Chip :=
  match c.unit u with
  | none => c
  | some r =>
    let waits := r.session.posted.isSome || (match r.queue with | p :: _ => p.holdWaits | [] => false)
    let c := c.modUnit u fun r => { r with
      exch := none, session := { r.session with posted := none, closeAtAccept := false } }
    let c := if e = .openUnanswered then c.lose u else c
    let c := c.coolUnit u false
    let c := if waits then c.firstPlanEnd u e else c
    c.closeStepDone u

/-- An open attempt has ended by timeout (R48): repeat, or the open's end. -/
def Chip.openTimesOut (c : Chip) (u : UnitIx) : Chip :=
  match c.unit u with
  | none => c
  | some r => match r.exch with
    | none => c
    | some x =>
      if r.session.openAttempts < 1 + r.desc.retries then
        (c.modExch u fun x => { x with phase := .repeatHeld, timer := none }).postFor u .opn true
      else if x.answered then c.openEnds u (.openRefused .busy)
      else c.openEnds u .openUnanswered

/-- The close of a session ends, by BYE or by timeout (R53): COOLING, the slot freed. -/
def Chip.closeEnds (c : Chip) (u : UnitIx) : Chip :=
  ((c.modUnit u fun r => { r with exch := none }).coolUnit u true).closeStepDone u

/-- What follows the session's move at a request's end: the held close (R62), the deferred drop (R65), the end handed to
the step (R52), and what waits for the session behind a CLEAR that no plan owned (R45). Where both are due the CLOSE is posted
first, and may be granted, before the drop (log 64). -/
def Chip.afterRequest (c : Chip) (u : UnitIx) (serial : Nat) (e : ReqEnd) : Chip :=
  match c.unit u with
  | none => c
  | some r =>
    let c := c.modSession u fun s => { s with heldClose := false, graceDrop := false }
    let c := if r.session.heldClose && decide (r.session.state = .opened) then c.askClose u else c
    let c := if r.session.graceDrop && decide (r.session.state = .opened) then c.drop u false else c
    let c := c.requestEnded u serial e
    let c := match c.firstPlan u with
      | some p =>
        if p.serial = serial then c else (if (c.sessState u).holdsSlot then c else c.closeStepDone u).resume u
      | none => c
    c

/-- A request ends under R30, and the session moves by its end (R52). A CLOSE that stands pending as an UNANSWERED end takes the
session to COOLING stays in its class (log 57). -/
def Chip.requestEnds (c : Chip) (u : UnitIx) (e : ReqEnd) : Chip :=
  match c.unit u with
  | none => c
  | some r => match r.exch with
    | some { kind := .request q, .. } =>
      let c := c.modUnit u fun r => { r with exch := none }
      let c := c.withdrawFor u fun m => m.isPull || m.isRequest
      let c := if q.kind = .clear ∧ (e = .broken ∨ e = .unanswered) then
          c.modUnit u fun r => { r with clearUncertain := true }
        else c
      let c := if e = .unanswered then (c.lose u).coolUnit u true
        else c.modSession u fun s => { s with state := .opened }
      c.afterRequest u q.plan e
    | _ => c

/-- A request's attempt has ended and is to be repeated (R29, R31, R35, R38): the transfer is given up, the record is in
REPEAT-HELD with the repeat's start slot, and a PULL still pending is withdrawn (log 16). -/
def Exchange.hold (x : Exchange) (rest : Timer) : Exchange :=
  let kind := match x.kind with
    | .request { kind := .draw start group base, plan := p } =>
      .request { kind := .draw (nextStart start group x.arrived) group base, plan := p }
    | k => k
  { x with kind := kind, phase := .repeatHeld, timer := none, rest := rest, bytes := [], arrived := [], taken := 0,
           needed := 0, credit := 0 }

/-- The repeat of a unit's request is posted in its class (R29, R31). -/
def Chip.postRepeat (c : Chip) (u : UnitIx) : Chip :=
  match c.unit u with
  | none => c
  | some r => match r.exch with
    | some { kind := .request q, .. } =>
      (c.modExch u fun x => { x with rest := none }).postFor u (.request q) true
    | _ => c

/-- A request's attempt ends by timeout, by the ninth WAIT or by a sequence break (R29, R32, R35): the repeat is posted
at once, or the request ends BROKEN, or UNANSWERED where no attempt took a frame. -/
def Chip.attemptFails (c : Chip) (u : UnitIx) : Chip :=
  match c.unit u with
  | none => c
  | some r => match r.exch with
    | none => c
    | some x =>
      if x.attempt < 1 + r.desc.retries then
        ((c.modExch u fun x => x.hold none).withdrawFor u Msg.isPull).postRepeat u
      else c.requestEnds u (if x.answered then .broken else .unanswered)

/-! ## Refusals and waits (R31, R32, R49) -/

/-- A REFUSE taken in AWAITING-ACCEPT (R49). -/
def Chip.openRefusedBy (c : Chip) (u : UnitIx) (reason : Reason) : Chip :=
  match c.unit u with
  | none => c
  | some r =>
    if reason = .busy ∧ r.session.openAttempts < 1 + r.desc.retries then
      ((c.modExch u fun x => { x with phase := .repeatHeld, timer := none }).coolUnit u false).postFor u .opn true
    else c.openEnds u (.openRefused reason)

/-- A REFUSE taken for a request (R31): BUSY with attempts left is repeated after the rest time; a SNAP refused UNKNOWN
makes a snapshot-none item first (R157). -/
def Chip.requestRefusedBy (c : Chip) (u : UnitIx) (reason : Reason) : Chip :=
  match c.unit u with
  | none => c
  | some r => match r.exch with
    | none => c
    | some x =>
      if reason = .busy ∧ x.attempt < 1 + r.desc.retries then
        let c := (c.modExch u fun x => x.hold (some r.desc.restTime)).withdrawFor u Msg.isPull
        if r.desc.restTime = 0 then c.postRepeat u else c
      else
        let c := match x.kind with
          | .request { kind := .snap slot code kind, plan := p } =>
            if reason = Reason.unknown then
              c.handOver (.noSnap p slot { seg := r.seg, addr := r.addr, code := code, kind := kind }) none
            else c
          | _ => c
        c.requestEnds u (.refused reason)

/-- A WAIT taken (R32). -/
def Chip.takeWait (c : Chip) (u : UnitIx) : Chip :=
  match c.unit u with
  | none => c
  | some r => match r.exch with
    | none => c
    | some x =>
      if x.waits < 8 then
        c.modExch u fun x => { x with waits := x.waits + 1, timer := some (c.segSets r.seg).waitExtension }
      else c.attemptFails u

/-! ## ACCEPT, LISTED, CLEAR-DONE (R33, R40, R47) -/

/-- An ACCEPT taken in AWAITING-ACCEPT (R47). In STOPPING, and where a close was asked while OPENING and no request is
held, a CLOSE follows at once (R53, R64). -/
def Chip.takeAccept (c : Chip) (u : UnitIx) : Chip :=
  match c.unit u with
  | none => c
  | some r =>
    let posted := r.session.posted
    let c := c.modUnit u fun r => { r with
      exch := none
      session := { r.session with
        state := .opened, keepDebt := 0, keepTimer := some (c.segSets r.seg).keepInterval, clearMark := false
        heldClose := false, openAttempts := 0, posted := none, closeAtAccept := false } }
    if c.col = .stopping then c.askClose u
    else match posted with
      | some q => c.postFor u (.request q) false
      | none => if r.session.closeAtAccept then c.askClose u else c.startHold u

/-- A LISTED taken for a LIST (R33, R94, R111): the unit's last LIST result, and the plan's listed count, F0 and
harvest account, before the request ends COMPLETE. -/
def Chip.takeListed (c : Chip) (u : UnitIx) (n : Nat) (hours : Option Nat) : Chip :=
  match c.unit u with
  | none => c
  | some r =>
    let serial := match r.exch with
      | some { kind := .request q, .. } => q.plan
      | _ => 0
    let c := c.modUnit u fun r => { r with lastN := some n, hours := hours }
    let c := c.modPlan u fun p =>
      if p.serial = serial then
        { p with listed := some n, flags := writeFlag p.flags 0 (decide (0 < n)), covered := [], spoiled := false }
      else p
    c.requestEnds u .complete

/-- A CLEAR-DONE taken for a CLEAR (R40, R63): the clear-done mark, clear-uncertain, and the CLEARED marking handed to
the History Table. The request, and with it the step, ends while the marking waits in the intake (log 67). -/
def Chip.takeClearDone (c : Chip) (u : UnitIx) : Chip :=
  match c.unit u with
  | none => c
  | some r =>
    let serial := match r.exch with
      | some { kind := .request q, .. } => q.plan
      | _ => 0
    let c := c.modUnit u fun r => { r with
      clearUncertain := false, session := { r.session with clearMark := true } }
    let c := c.handOver (.cleared serial r.seg r.addr) (some r.seg)
    c.requestEnds u .complete

/-! ## Segmented answers (R34 to R39, R114) -/

/-- A PULL with the segment's pull credit is posted, and the record awaits its going out (R34, R35). -/
def Chip.pullMore (c : Chip) (u : UnitIx) : Chip :=
  match c.unit u with
  | none => c
  | some r =>
    (c.modExch u fun x => { x with phase := .awaitPull, credit := 0 }).postFor u (.pull (c.segSets r.seg).pullCredit) false

/-- A HEAD taken in AWAITING-ANSWER of a DRAW or a SNAP (R34, R39). -/
def Chip.takeHead (c : Chip) (u : UnitIx) (count : Nat) : Chip :=
  match c.unit u with
  | none => c
  | some r => match r.exch with
    | some { kind := .request q, .. } =>
      let transfer := fun (kept : Nat) =>
        (c.modExch u fun x => { x with
          announced := count, needed := ceilDiv kept 7, taken := 0, credit := 0, nextSeq := 1, bytes := [], arrived := []
          timer := some r.desc.replyTimeout }).pullMore u
      match q.kind with
      | .draw _ group _ => if count = 12 * group then transfer count else c.attemptFails u
      | .snap slot code kind =>
        if count = 0 then
          (c.handOver (.noSnap q.plan slot { seg := r.seg, addr := r.addr, code := code, kind := kind }) none).requestEnds u
            .complete
        else transfer (min count 48)
      | _ => c
    | _ => c

/-- A record that arrived complete with the right slot echo (R114): screening, coverage, flags and tally, hand-over. -/
def Chip.takeRecord (c : Chip) (u : UnitIx) (serial base slot : Nat) (bytes : List Byte) : Chip :=
  match c.unit u with
  | none => c
  | some r =>
    if base ≤ slot then c
    else if recordMalformed bytes then c.modUnit u fun r => { r with malformed := satInc 255 r.malformed }
    else
      let f := recordOf bytes
      let c := c.modPlan u fun p =>
        if p.serial = serial then
          { p with covered := if p.covered.contains slot then p.covered else p.covered ++ [slot]
                   flags := handOverFlags p.flags f
                   highU := if p.highU < f.u then f.u else p.highU }
        else p
      c.handOver (.merge serial r.seg r.addr f) (some r.seg)

/-- The answer is whole (R35, R39): a SNAP hands its kept bytes to the Snapshot Pool, and leaves the parts still open in
the last credit to be ignored where the unit announced more than 48 bytes. -/
def Chip.answerWhole (c : Chip) (u : UnitIx) (r : UnitRec) (x : Exchange) : Chip :=
  let c := match x.kind with
    | .request { kind := .snap slot code kind, plan := p } =>
      let c := if 48 < x.announced then c.modUnit u fun r => { r with ignore := x.credit } else c
      c.handOver (.capture p slot { seg := r.seg, addr := r.addr, code := code, kind := kind }
        (x.bytes.take (min x.announced 48))) none
    | _ => c
  c.requestEnds u .complete

/-- A PART taken in RECEIVING with the next sequence number (R35, R36): its bytes join the transfer; a record of a DRAW
that it completes is checked and handed on before anything else. -/
def Chip.appendPart (c : Chip) (u : UnitIx) (data : List Byte) : Chip :=
  match c.unit u with
  | none => c
  | some r => match r.exch with
    | none => c
    | some old =>
      let bytes := old.bytes ++ data
      let x := { old with
        bytes := bytes, taken := old.taken + 1, credit := old.credit - 1, nextSeq := (old.nextSeq + 1) % 16
        timer := some r.desc.replyTimeout }
      let goOn := fun (c : Chip) (x : Exchange) =>
        if x.taken = x.needed then c.answerWhole u r x
        else if x.credit = 0 then c.pullMore u
        else c
      match x.kind with
      | .request { kind := .draw start group base, plan := p } =>
        let j := old.bytes.length / 12
        if 12 * (j + 1) ≤ bytes.length ∧ j < group then
          let rec12 := (bytes.drop (12 * j)).take 12
          let slot := wrapSlot start group j
          if slotEcho rec12 = slot then
            let x := { x with arrived := x.arrived ++ [slot] }
            goOn ((c.modExch u fun _ => x).takeRecord u p base slot rec12) x
          else (c.modExch u fun _ => x).attemptFails u
        else goOn (c.modExch u fun _ => x) x
      | _ => goOn (c.modExch u fun _ => x) x

/-! ## Matching of a received frame (R23, R27) -/

/-- The exchange's answered mark is set by each frame taken (R27). -/
def Chip.markAnswered (c : Chip) (u : UnitIx) : Chip := c.modExch u fun x => { x with answered := true }

/-- A frame that a phase of a request attempt takes (R27): WAIT and REFUSE in every phase of an attempt, an answer of the
right kind in AWAITING-ANSWER, a PART in RECEIVING, and as a sequence break in AWAITING-PULL. -/
def Chip.requestFrame (c : Chip) (u : UnitIx) (x : Exchange) (k : ReqKind) (m : RxMsg) : Chip :=
  let taken := c.markAnswered u
  match m, x.phase, k with
  | .refuse reason, .awaitAnswer, _ | .refuse reason, .awaitPull, _ | .refuse reason, .receiving, _ =>
    taken.requestRefusedBy u reason
  | .wait, .awaitAnswer, _ | .wait, .awaitPull, _ | .wait, .receiving, _ => taken.takeWait u
  | .listed n hours, .awaitAnswer, .list => taken.takeListed u n hours
  | .head count, .awaitAnswer, .draw .. | .head count, .awaitAnswer, .snap .. => taken.takeHead u count
  | .clearDone, .awaitAnswer, .clear => taken.takeClearDone u
  | .part _ _, .awaitPull, _ => taken.attemptFails u
  | .part seq data, .receiving, _ => if seq = x.nextSeq then taken.appendPart u data else taken.attemptFails u
  | _, _, _ => c.strayUnit u

/-- A frame from a unit is matched against its exchange record (R27); without one it is a stray, or a PART that the
ignore count lets pass (R39). -/
def Chip.matchFrame (c : Chip) (u : UnitIx) (m : RxMsg) : Chip :=
  match c.unit u with
  | none => c
  | some r => match r.exch with
    | none => match m with
      | .part _ _ =>
        if 0 < r.ignore then c.modUnit u fun r => { r with ignore := r.ignore - 1 } else c.strayUnit u
      | _ => c.strayUnit u
    | some x => match x.kind with
      | .opn =>
        if x.phase = .awaitAccept then
          match m with
          | .accept => c.takeAccept u
          | .refuse reason => (c.markAnswered u).openRefusedBy u reason
          | _ => c.strayUnit u
        else c.strayUnit u
      | .close => if m = .bye ∧ x.phase = .awaitBye then c.closeEnds u else c.strayUnit u
      | .request q => c.requestFrame u x q.kind m

/-- A HERE of a roster unit (R19, R23): without a census on the segment it is a stray; handed to one, it has its effect while
the roll window runs, once, and none before (log 40). -/
def Chip.hereKnown (c : Chip) (g : Seg) (u : UnitIx) (addr : Byte) (type : Nat) (hours : Option Nat) : Chip :=
  match (c.seg g).census with
  | none => c.strayUnit u
  | some n =>
    if n.window.isNone || n.answered.contains addr then c
    else
      (c.modSeg g fun r => { r with census := some { n with answered := n.answered ++ [addr] } }).modUnit u fun r =>
        { r with typeCode := type, hours := hours }

/-- A unit that a census adds (R2, R19). -/
def UnitRec.ofCensus (g : Seg) (addr : Byte) (type : Nat) (hours : Option Nat) : UnitRec :=
  { origin := .census, seg := g, addr := addr, typeCode := type, desc := .default, presence := .present, losses := 0,
    session := .fresh, drops := 0, malformed := 0, refused := 0, strays := 0, lastN := none, hours := hours,
    clearUncertain := false, exch := none, ignore := 0, queue := [] }

/-- A HERE of an address that is no roster unit's (R19, R22): without a census on the segment it is a stray of the segment, and
so is one from an address out of range during a census (R82); handed to a census, it has its effect while the roll window runs,
once, and none before (log 40). -/
def Chip.hereNew (c : Chip) (g : Seg) (addr : Byte) (type : Nat) (hours : Option Nat) : Chip :=
  match (c.seg g).census with
  | none => c.strayOf g
  | some n =>
    if addr.toNat = 0 ∨ 0xEE < addr.toNat then c.strayOf g
    else if n.window.isNone || n.answered.contains addr then c
    else
      let room := decide ((c.unitsOf g).length < Config.unitsPerSegment)
      match c.freeIndex, room with
      | some u, true =>
        (c.modSeg g fun r => { r with
          census := some { n with answered := n.answered ++ [addr], created := n.created + 1 } }).setUnit u
            (some (UnitRec.ofCensus g addr type hours))
      | _, _ =>
        { c.modSeg g fun r => { r with census := some { n with answered := n.answered ++ [addr] } } with
          rosterFull := satInc 255 c.rosterFull }

/-- The roll window of the segment's census runs (R18). -/
def Chip.rollWindowRuns (c : Chip) (g : Seg) : Bool :=
  match (c.seg g).census with
  | some n => n.window.isSome
  | none => false

/-- A frame that passed tests 1 to 3 of the filter is handled (R22, R23, R70): from a roster unit it makes the unit
PRESENT, and on a segment that is not LISTEN it is matched; otherwise it is the census's or a stray of the segment. -/
def Chip.handleFrame (c : Chip) (g : Seg) (f : RxFrame) : Chip :=
  match c.findUnit g f.addr with
  | some u =>
    let c := c.hear u
    if c.mode g = some .listen then c
    else match f.msg with
      | .unknown => c.strayUnit u
      | .here type hours => c.hereKnown g u f.addr type hours
      | m => c.matchFrame u m
  | none => match f.msg with
    | .here type hours => c.hereNew g f.addr type hours
    | _ => c.strayOf g

/-- A frame was received whole on a segment that receives: without error it lowers the receive error count of an ACTIVE
segment (R72). -/
def Chip.receivedWhole (c : Chip) (g : Seg) : Chip :=
  if c.mode g = some .active then c.modSeg g fun r => { r with rxErrors := r.rxErrors - 1 } else c

/-- The controller's hand-over waits: it handles no further frame (R126). -/
def Chip.rxBlocked (c : Chip) (g : Seg) : Bool := c.hist.handWait.any fun h => decide (h.2 = some g)

/-- A frame from a unit address arrives (R22, R126): nothing on a segment that does not receive; behind a hand-over that
waits it waits in its order of arrival. -/
def Chip.receive (c : Chip) (g : Seg) (f : RxFrame) : Chip :=
  if c.receives g then
    let c := c.receivedWhole g
    if c.rxBlocked g || !(c.seg g).rxWait.isEmpty then c.modSeg g fun r => { r with rxWait := r.rxWait ++ [f] }
    else c.handleFrame g f
  else c

end Sys2Proof.Machine
end

