-- ==== Sys2Proof/Machine/History.lean ====
section
/-!
DEFINITION. The History Table's work (R124 to R146) and the Snapshot Pool (R154 to R163): taking an item of the intake,
entry changes and their writes, slots for new keys, purge, capture and refresh, what a finished item hands to the plan,
and the marks (R116, R121).
-/

namespace Sys2Proof.Machine

/-! ## The writes of a rewrite (R128) -/

/-- Writes of words of a slot. -/
def slotWrites (i : SlotIx) (ws : List (Nat × Word)) : List Acc :=
  ws.map fun x => .write (slotOff i + 4 * x.1) (.lit x.2)

/-- Writes 1 to 3 of R128: the version made odd, the words, the version made even. -/
def rewriteAccs (i : SlotIx) (version : Word) (ws : List (Nat × Word)) : List Acc :=
  .write (slotOff i) (.lit (version + 1)) :: slotWrites i ws ++ [.write (slotOff i) (.lit (version + 2))]

/-- Words with the archive word 0 at its place. -/
def withArchiveZero (ws : List (Nat × Word)) : List (Nat × Word) :=
  ws.filter (fun x => decide (x.1 < 3)) ++ [(3, 0)] ++ ws.filter fun x => decide (3 < x.1)

/-- The words that a change of an entry writes: every shared field, so that a host write to another word of the slot is
overwritten and unused bits become 0 (R125, R128, R200; log 42); the archive word 0 where the change sequence was
saturated (R127). -/
def changedWords (saturated : Bool) (e : Entry) : List (Nat × Word) :=
  if saturated then withArchiveZero (entryWords e) else entryWords e

/-- The words of a slot written whole (R136, R142). -/
def wholeWords (e : Entry) : List (Nat × Word) := withArchiveZero (entryWords e)

/-- The words of a slot written free (R128). -/
def freeWords : List (Nat × Word) := (List.range 15).map fun j => (j + 1, 0)

/-- The change sequence stands at its end (R127). -/
def Hist.saturated (h : Hist) : Bool := decide (h.changeSeq = Config.max32)

/-- The sequence of the next entry change (R127). -/
def Hist.nextSeq (h : Hist) : Nat := satInc Config.max32 h.changeSeq

/-- The version of a slot after one rewrite (R128). -/
def Chip.bumpVersion (c : Chip) (i : SlotIx) : Chip := c.modSlot i fun r => { r with version := r.version + 2 }

/-! ## The pool (R154 to R156, R163) -/

/-- The blocks of a chain in walk order (R155). -/
def SnapRef.chain (r : SnapRef) : List (Fin 256) :=
  ([r.head, r.second, r.third].take (ceilDiv r.length 16)).map fun b => b.toFin

/-- Blocks leave the free list and take an owner. -/
def Pool.attach (p : Pool) (i : SlotIx) (bs : List (Fin 256)) : Pool :=
  { p with owner := bs.foldl (fun o (b : Fin 256) => o.set b (some i)) p.owner, free := p.free.filter fun b => !bs.contains b }

/-- A block is given back: FREE, on top of the free list (R156). A block that is FREE stays where it is. -/
def Pool.giveBlock (p : Pool) (b : Fin 256) : Pool :=
  if p.owner[b] = none then p else { p with owner := p.owner.set b none, free := b :: p.free }

/-- A chain is given back, block by block in walk order, head first (R156). -/
def Pool.giveBack (p : Pool) (bs : List (Fin 256)) : Pool := bs.foldl Pool.giveBlock p

/-- The chain of a slot's entry is given back (R163). -/
def Chip.releaseChain (c : Chip) (i : SlotIx) : Chip :=
  match (c.slot i).entry.bind Entry.snap with
  | some r => { c with pool := c.pool.giveBack r.chain }
  | none => c

/-- The writes of snapshot bytes into staged blocks, 16 bytes each, padded with 0 (R155, R159). -/
def blockAccs (bs : List (Fin 256)) (bytes : List Byte) : List Acc :=
  (List.range bs.length).flatMap fun p =>
    (List.range 4).map fun q =>
      let b := fun j => (bytes.getD (16 * p + 4 * q + j) 0).toNat
      Acc.write (Config.poolOff + 16 * (bs.getD p 0).val + 4 * q) (.lit (pack4 (b 0) (b 1) (b 2) (b 3)))

/-! ## Entry changes (R127) -/

/-- A run that begins: `phase`, and nothing more. -/
def Run.start (phase : RunPhase) : Run :=
  { phase := phase, todo := [], slot := 0, result := .unchanged, lampRise := false, closing := false }

/-- The item under way moves on. -/
def Chip.setRun (c : Chip) (r : Option Run) : Chip := c.modHist fun h => { h with run := r }

/-- An entry change of a valid entry: the next sequence, the slot record, and writes 1 to 3. -/
def Chip.changeEntry (c : Chip) (i : SlotIx) (run : Run) (new : Entry) : Chip :=
  let e := { new with lastChange := c.hist.nextSeq }
  let accs := rewriteAccs i (c.slot i).version (changedWords c.hist.saturated e)
  (((c.modSlot i fun r => { r with entry := some e }).modHist fun h => { h with changeSeq := h.nextSeq }).setRun
    (some { run with phase := .slotWrite i, slot := i })).hand .history accs

/-- A creation in a slot (R136, R142): one entry change, the slot written whole, its marks clear. -/
def Chip.createAt (c : Chip) (i : SlotIx) (new : Entry) : Chip :=
  let e := { new with lastChange := c.hist.nextSeq, createdSeq := c.hist.nextSeq }
  let accs := rewriteAccs i (c.slot i).version (wholeWords e)
  let run := { Run.start (.slotWrite i) with slot := i, result := .created, lampRise := lampRises .off e.lamp }
  (((c.modSlot i fun r => { r with entry := some e, seen := false, activeMerged := false }).modHist fun h =>
    { h with changeSeq := h.nextSeq }).setRun (some run)).hand .history accs

/-- A slot is freed on chip: its key leaves the index, its marks are clear, its chain is given back (R145, R163). -/
def Chip.freeSlot (c : Chip) (i : SlotIx) : Chip :=
  ((c.releaseChain i).modSlot i fun r => { r with entry := none, seen := false, activeMerged := false }).modHist fun h =>
    { h with inUse := h.inUse - 1 }

/-! ## The plan that an item belongs to (R107, R116) -/

/-- Unit and plan that an item's plan serial names: the first plan of the unit's queue, if it is that plan still. -/
def Chip.planOf (c : Chip) (g : Seg) (addr : Byte) (serial : Nat) : Option (UnitIx × Plan) :=
  match c.findUnit g addr with
  | none => none
  | some u => match c.firstPlan u with
    | some p => if p.serial = serial then some (u, p) else none
    | none => none

/-- An entry change other than a creation is counted in the order of a running plan (R107). -/
def Chip.countChanged (c : Chip) (g : Seg) (addr : Byte) (serial : Nat) : Chip :=
  match c.planOf g addr serial with
  | some (_, p) => c.modCtx p.ctx fun x => { x with changed := satInc Config.max16 x.changed }
  | none => c

/-- A creation is counted in the order of a running plan (R107). -/
def Chip.countCreated (c : Chip) (g : Seg) (addr : Byte) (serial : Nat) : Chip :=
  match c.planOf g addr serial with
  | some (_, p) => c.modCtx p.ctx fun x => { x with created := satInc Config.max16 x.created }
  | none => c

/-- The plan takes a merge result (R116, R101): F3 and the created count, the changed count, and the marks of the slot;
a refusal sets no mark. -/
def Chip.takeResult (c : Chip) (g : Seg) (addr : Byte) (serial : Nat) (r : FaultRec) (i : SlotIx) (res : MergeResult) :
    Chip :=
  match c.planOf g addr serial with
  | none => c
  | some (u, _) =>
    let marked := fun (c : Chip) => c.modSlot i fun x =>
      { x with seen := true, activeMerged := x.activeMerged || decide (r.state = .active) }
    match res with
    | .created => marked ((c.modPlan u fun p => { p with flags := writeFlag p.flags 3 true }).countCreated g addr serial)
    | .changed => marked (c.countChanged g addr serial)
    | .unchanged => marked c
    | .refused => c

/-! ## Finishing an item (R115, R126) -/

/-- A hand-over that waited for the oldest item joins the intake as room appears. -/
def Hist.moveIn (h : Hist) : Hist :=
  match h.handWait with
  | (i, _) :: rest =>
    if h.intake.length < Config.intakeItems then { h with intake := h.intake ++ [i], handWait := rest } else h
  | [] => h

/-- What waited for the merges of a plan's records is handed on when none is left: the end of the plan, or the end of a
request to its step (R115, R157). -/
def Chip.deliverHeld (c : Chip) (g : Seg) (addr : Byte) (serial : Nat) : Chip :=
  match c.planOf g addr serial with
  | some (u, p) =>
    if c.itemsLeft serial then c
    else if p.ended.isSome then c.handPlanEnd u
    else match p.heldEnd with
      | some e => c.deliver u e
      | none => c
  | none => c

/-- What a finished item hands on: a merge result to its plan, a plan's end to the Order Engine, a purge's end to its
order (R116, R104, R145). -/
def Chip.handOn (c : Chip) (i : WorkItem) (run : Run) : Chip :=
  match i with
  | .merge p g a r => (c.takeResult g a p r run.slot run.result).deliverHeld g a p
  | .planEnd p g a _ => match c.planOf g a p with
    | some (u, _) => c.planFinish u
    | none => c
  | .cleared _ _ _ => c
  | .purge k _ => if (c.ctx k).state = .running then c.orderEnd k else c
  | .capture p _ key _ | .noSnap p _ key => c.deliverHeld key.seg key.addr p

/-- The oldest item is finished: it leaves the intake, and what it hands on is handed on. -/
def Chip.finishItem (c : Chip) (run : Run) : Chip :=
  match c.hist.intake with
  | [] => c.setRun none
  | i :: rest => (c.modHist fun h => { h with intake := rest, run := none }.moveIn).handOn i run

/-- An item's last header rewrite is asked for, and the item waits for it (R145, R159, R161). -/
def Chip.closeItem (c : Chip) (run : Run) : Chip :=
  (c.setRun (some { run with phase := .lastHeader c.headerWaits })).wantHeader

/-! ## Slots taken one after another: plan end, CLEARED marking, purge (R120, R138, R139, R145) -/

/-- The next slot of an item that treats several; after the last the item closes. -/
def Chip.nextSlot (c : Chip) (run : Run) : Chip :=
  match run.todo, c.hist.intake.head? with
  | i :: rest, some item =>
    let run := { run with todo := rest }
    match item, (c.slot i).entry with
    | .planEnd p g a _, some e => (c.countChanged g a p).changeEntry i run (vanishEntry e)
    | .cleared p g a, some e => (c.countChanged g a p).changeEntry i run (clearEntry c.ctNow e)
    | .purge _ _, some _ =>
      (c.setRun (some { run with phase := .purgeRead i })).hand .history [.read (slotOff i + 0x0C)]
    | _, _ => c.finishItem run
  | _, _ => if run.closing then c.closeItem run else c.finishItem run

/-- The slots that a plan end marks VANISHED (R120). -/
def Chip.vanishing (c : Chip) (g : Seg) (addr : Byte) : List SlotIx :=
  (c.entriesOf g addr).filter fun i =>
    let r := c.slot i
    match r.entry with
    | some e => e.status.present && !r.seen
    | none => false

/-- The slots that a CLEAR-DONE marks CLEARED (R139). -/
def Chip.clearing (c : Chip) (g : Seg) (addr : Byte) : List SlotIx :=
  (c.entriesOf g addr).filter fun i => match (c.slot i).entry with
    | some e => decide (e.status ≠ .cleared)
    | none => false

/-- The slots whose archive word an eviction search reads (R141). -/
def Chip.evictionPool (c : Chip) : List SlotIx :=
  allSlots.filter fun i => match (c.slot i).entry with
    | some e => e.status.evictable
    | none => false

/-- The slots whose archive word a purge reads (R145). -/
def Chip.purgePool (c : Chip) (scope : Option (Seg × Byte)) : List SlotIx :=
  c.evictionPool.filter fun i => match (c.slot i).entry, scope with
    | some e, some (g, a) => decide (e.key.seg = g) && decide (e.key.addr = a)
    | some _, none => true
    | none, _ => false

/-! ## Merge (R130, R136, R140 to R143) -/

/-- The slot of a key: the key index (R125). -/
def Chip.indexOf (c : Chip) (key : Key) : Option SlotIx := allSlots.find? fun i => c.holdsKey i key

/-- The lowest free slot (R140). -/
def Chip.freeSlotIx (c : Chip) : Option SlotIx := allSlots.find? fun i => (c.slot i).entry.isNone

/-- The key of a record of a unit (R124). -/
def recordKey (g : Seg) (addr : Byte) (r : FaultRec) : Key := { seg := g, addr := addr, code := r.code, kind := r.kind }

/-- The harvest context of a merge for a unit, as it stands now (R115). -/
def Chip.harvestCtx (c : Chip) (g : Seg) (addr : Byte) : HarvestCtx :=
  { ct := c.ctNow, k := c.mon.k, hours := ((c.findUnit g addr).bind c.unit).bind UnitRec.hours }

/-- A record is refused (R143). Its item is finished at once; the header rewrite that shows the count follows (log 75). -/
def Chip.refuseRecord (c : Chip) (g : Seg) (addr : Byte) : Chip :=
  let c := c.modHist fun h => { h with refused := satInc Config.max16 h.refused }
  let c := match c.findUnit g addr with
    | some u => c.modUnit u fun r => { r with refused := satInc 255 r.refused }
    | none => c
  (c.setCause .historyFull).finishItem { Run.start .stored with result := .refused }

/-- The victim among slots with the archive words read: archived, with the smallest last-change sequence, and of those
the lowest (R141). -/
def Chip.victim (c : Chip) (read : List (SlotIx × Word)) : Option (SlotIx × Nat) :=
  read.foldl (fun best x =>
    match (c.slot x.1).entry with
    | some e =>
      if x.2.toNat = e.lastChange then
        match best with
        | some (_, seq) => if e.lastChange < seq then some (x.1, e.lastChange) else best
        | none => some (x.1, e.lastChange)
      else best
    | none => best) none

/-- The archive words have been read: the record is stored in the victim's slot, its snapshot blocks given back first,
or refused (R141 to R143). -/
def Chip.searched (c : Chip) (g : Seg) (addr : Byte) (r : FaultRec) (h : HarvestCtx) (read : List (SlotIx × Word)) :
    Chip :=
  match c.victim read with
  | some (i, _) => (c.releaseChain i).createAt i (createEntry (recordKey g addr r) h r)
  | none => c.refuseRecord g addr

/-- A record merge begins (R130, R140). -/
def Chip.startMerge (c : Chip) (g : Seg) (addr : Byte) (r : FaultRec) : Chip :=
  let h := c.harvestCtx g addr
  let key := recordKey g addr r
  match c.indexOf key with
  | some i => match (c.slot i).entry with
    | some e =>
      let e' := mergeEntry h r e
      if e' = e then c.finishItem { Run.start .stored with slot := i, result := .unchanged }
      else c.changeEntry i { Run.start .stored with result := .changed, lampRise := lampRises e.lamp e'.lamp } e'
    | none => c
  | none => match c.freeSlotIx with
    | some i => (c.modHist fun h => { h with inUse := h.inUse + 1 }).createAt i (createEntry key h r)
    | none => match c.evictionPool with
      | [] => c.refuseRecord g addr
      | slots =>
        (c.setRun (some (Run.start (.search slots h)))).hand .history
          (slots.map fun i => .read (slotOff i + 0x0C))

/-! ## Snapshot updates (R158 to R162) -/

/-- The entry of a slot with a chain attached (R159). -/
def attachEntry (bs : List (Fin 256)) (length : Nat) (ct : Option Nat) (k : Nat) (e : Entry) : Entry :=
  let b := fun j => match bs[j]? with
    | some x => BitVec.ofNat 8 x.val
    | none => 0
  { e with
    snap := some { head := b 0, second := b 1, third := b 2, length := length, ct := ct, cycle := k }
    snapNone := false, snapDropped := false, bareCt := false }

/-- A CAPTURE item begins: staging and the data writes, or a shortage, which is counted and shown first (R158 to R161). -/
def Chip.startCapture (c : Chip) (i : SlotIx) (key : Key) (bytes : List Byte) : Chip :=
  let k := ceilDiv bytes.length 16
  if !c.holdsKey i key then c.finishItem (Run.start .stored)
  else if k ≤ c.pool.free.length then
    let bs := c.pool.free.take k
    (c.setRun (some { Run.start (.data bs) with slot := i, closing := true })).hand .history (blockAccs bs bytes)
  else
    ({ c with pool := { c.pool with shortage := satInc Config.max16 c.pool.shortage } }.setRun
      (some { Run.start (.shortHeader c.headerWaits) with slot := i })).wantHeader

/-- The header has been rewritten for a shortage; then the entry (R161): snapshot-dropped is set where no snapshot is
attached. -/
def Chip.shortEntry (c : Chip) (run : Run) : Chip :=
  match c.hist.intake.head?, (c.slot run.slot).entry with
  | some (.capture p i key _), some e =>
    if e.snap.isNone && !e.snapDropped then
      (c.countChanged key.seg key.addr p).changeEntry i run { e with snapDropped := true }
    else c.finishItem run
  | _, _ => c.finishItem run

/-- The attach point (R159, R160): the new blocks leave the free list, an old chain is given back, and the entry
changes. -/
def Chip.attach (c : Chip) (p : Nat) (i : SlotIx) (key : Key) (bs : List (Fin 256)) (length : Nat) (run : Run) : Chip :=
  match (c.slot i).entry with
  | some e =>
    let c := { c with pool := c.pool.attach i bs }
    let c := match e.snap with
      | some old => { c with pool := c.pool.giveBack old.chain }
      | none => c
    (c.countChanged key.seg key.addr p).changeEntry i run (attachEntry bs length c.ctNow c.mon.k e)
  | none => c.finishItem run

/-- A NONE item (R158, R162). -/
def Chip.startNoSnap (c : Chip) (p : Nat) (i : SlotIx) (key : Key) : Chip :=
  match (c.slot i).entry with
  | some e =>
    if e.key = key ∧ e.snapNone = false then
      (c.countChanged key.seg key.addr p).changeEntry i (Run.start .stored) { e with snapNone := true }
    else c.finishItem (Run.start .stored)
  | none => c.finishItem (Run.start .stored)

/-! ## The intake (R126) -/

/-- The oldest item is taken. -/
def Chip.takeItem (c : Chip) : Chip :=
  match c.hist.intake with
  | [] => c
  | item :: _ => match item with
    | .merge _ g a r => c.startMerge g a r
    | .planEnd _ g a complete =>
      let todo := if complete then c.vanishing g a else []
      (c.clearMarks g a).nextSlot { Run.start .stored with todo := todo }
    | .cleared _ g a => c.nextSlot { Run.start .stored with todo := c.clearing g a }
    | .purge _ scope => c.nextSlot { Run.start .stored with todo := c.purgePool scope, closing := true }
    | .capture _ i key bytes => c.startCapture i key bytes
    | .noSnap p i key => c.startNoSnap p i key

/-- Write 4 of R128 is asked for: the header rewrite that carries it. -/
def Chip.publish (c : Chip) (run : Run) : Chip :=
  (c.setRun (some { run with phase := .published c.headerWaits })).wantHeader

/-- The header word of the published change sequence has been written. Where that was write 4, the published value is the
change sequence from now on, and the causes HISTORY and LAMP are set at the same time (R128, R135, R198); so is the
published value at the end of either path of STARTING (R148, R152). -/
def Chip.sequenceWritten (c : Chip) : Chip :=
  if c.publishing then
    let c := c.modHist fun h => { h with published := h.changeSeq }
    match c.hist.run with
    | some run => if run.lampRise then (c.setCause .history).setCause .lamp else c.setCause .history
    | none => c
  else c

/-- A request of the History Table has ended; `got` holds the words it read. -/
def Chip.historyDone (c : Chip) (got : List Word) : Chip :=
  match c.hist.run with
  | none => c
  | some run =>
    match run.phase, c.hist.intake.head? with
    | .search slots h, some (.merge _ g a r) => c.searched g a r h (slots.zip got)
    | .purgeRead i, some (.purge k _) =>
      match (c.slot i).entry with
      | some e =>
        if (wordAt got 0).toNat = e.lastChange then
          ((((c.freeSlot i).modCtx k fun x => { x with freed := satInc Config.max16 x.freed }).setRun
            (some { run with phase := .purgeFree i }))).hand .history (rewriteAccs i (c.slot i).version freeWords)
        else c.nextSlot run
      | none => c.nextSlot run
    | .purgeFree i, _ => (c.bumpVersion i).nextSlot run
    | .data bs, some (.capture p i key bytes) => c.attach p i key bs bytes.length run
    | .slotWrite i, _ => (c.bumpVersion i).publish run
    | .stored, _ => c.nextSlot run
    | _, _ => c

/-- A header rewrite has ended: an item that waits for it goes on to write 5, or is finished. -/
def Chip.historyHeader (c : Chip) : Chip :=
  match c.hist.run with
  | none => c
  | some run => match run.phase with
    | .published n =>
      if n ≤ 1 then
        (c.setRun (some { run with phase := .stored })).hand .history
          [.write (Config.regionOff + 0x0C) (.lit (word c.hist.changeSeq))]
      else c.setRun (some { run with phase := .published (n - 1) })
    | .shortHeader n =>
      if n ≤ 1 then c.shortEntry run else c.setRun (some { run with phase := .shortHeader (n - 1) })
    | .lastHeader n =>
      if n ≤ 1 then c.finishItem run else c.setRun (some { run with phase := .lastHeader (n - 1) })
    | _ => c

end Sys2Proof.Machine
end

