-- ==== Sys2Proof/Machine/Monitor.lean ====
section
/-!
DEFINITION. The Ignition and Supply Monitor (R165 to R183): cycle effects, the run-on grace and its end, parking and
waking, the dip monitor, the chassis clock's set points, the sweep timer; and the sweep orders it starts (R109).
-/

namespace Sys2Proof.Machine

/-! ## The dip monitor (R178, R179) -/

/-- Dip level in mV (R179). -/
def SupplyClass.dipLevel : SupplyClass → Nat
  | .v12 => 8000
  | .v24 => 16000

/-- Recovery level in mV (R179). -/
def SupplyClass.recoveryLevel (s : SupplyClass) : Nat := s.dipLevel + 1000

/-- The dip state machine looks at the supply (R179): exactly at a level the supply is neither below nor above it
(log 33). -/
def Monitor.compare (s : SupplyClass) (m : Monitor) : Monitor :=
  match m.dip with
  | .normal =>
    if m.supply < s.dipLevel then { m with dip := .falling, dipTimer := some Config.dipEntryMs } else m
  | .falling => if s.dipLevel < m.supply then { m with dip := .normal, dipTimer := none } else m
  | .dipped =>
    if s.recoveryLevel < m.supply then { m with dip := .settling, settleTimer := some Config.settleMs } else m
  | .settling => if m.supply < s.recoveryLevel then { m with dip := .dipped, settleTimer := none } else m

/-- The monitor becomes inactive: both timers stop, the dip state becomes NORMAL, no dip end (R179). -/
def Monitor.dipOff (m : Monitor) : Monitor := { m with dip := .normal, dipTimer := none, settleTimer := none }

/-- The monitor becomes active and reads the comparator at once (R179). -/
def Chip.dipOn (c : Chip) : Chip := c.modMon fun m => m.dipOff.compare c.sets.supply

/-- The monitor looks at the supply, if it is active (R178). -/
def Chip.dipLook (c : Chip) : Chip :=
  if c.col.dipActive then c.modMon fun m => m.compare c.sets.supply else c

/-! ## Cycle effects (R166, R167, R182) -/

/-- K rises (R167). -/
def Monitor.cycle (m : Monitor) : Monitor := { m with k := satInc Config.max24 m.k }

/-- The sweep timer takes an IGN-on (R182). -/
def Monitor.sweepIgnOn (s : SweepSettings) (m : Monitor) : Monitor :=
  { m with spent := false, sweepMs := if s.continues then m.sweepMs else 0 }

/-- A SILENT unit becomes UNKNOWN with loss count 0 (R8). -/
def UnitRec.freeSilent (r : UnitRec) : UnitRec :=
  if r.presence = .silent then { r with presence := .unknown, losses := 0 } else r

/-- The cycle effects of an IGN-on, in the order of R166. -/
def Chip.cycleEffects (c : Chip) : Chip :=
  let c := (c.modMon Monitor.cycle).wantHeader
  let c := { c with roster := c.roster.map fun (r : Option UnitRec) => r.map UnitRec.freeSilent }
  c.modMon fun m => m.sweepIgnOn c.sets.sweep

/-! ## Parking, waking and the grace end (R175 to R177) -/

/-- Every session that holds a slot is dropped, against no plan, in ascending roster index (log 60). -/
def Chip.dropAll (c : Chip) : Chip := allUnits.foldl (fun c u => c.drop u false) c

/-- Parking (R176). -/
def Chip.park (c : Chip) : Chip :=
  let c := (((c.cutPlans .cutGrace).cutCensuses).modMon fun m => { m with parkPending := false, grace := none }).dropAll
  let quieted := allSegs.filter fun g => decide ((c.seg g).state = .live) || decide ((c.seg g).state = .held)
  let c := quieted.foldl Chip.shedOpens ({ c with col := .parked }.modAllSegs SegRec.park)
  ((c.modMon Monitor.dipOff).wantHeader).setCause .park

/-- The wake of an IGN-on while PARKED, after the cycle effects (R177). -/
def Chip.wake (c : Chip) : Chip :=
  let c := { c with col := .running }
  ((c.modAllSegs fun r => r.moveFrom .quiet .live).dipOn).wantHeader

/-- The drops of the grace end: every session but one whose CLEAR awaits CLEAR-DONE, which gets its deferred drop
(R65, R175); in ascending roster index (log 60). -/
def Chip.graceDrops (c : Chip) : Chip :=
  allUnits.foldl (fun c u => match c.unit u with
    | some r => if r.clearAwaits then c.modSession u fun s => { s with graceDrop := true } else c.drop u false
    | none => c) c

/-- The grace end (R175). -/
def Chip.graceEnd (c : Chip) : Chip :=
  let c := (((c.modMon fun m => { m with grace := none }).cutPlans .cutGrace).cutCensuses).graceDrops
  if c.anyClearAwaits then c.modMon fun m => { m with parkPending := true } else c.park

/-! ## The sweep timer and its orders (R109, R110, R182, R183) -/

/-- The sweep period in ms (R182). -/
def SweepSettings.period (s : SweepSettings) : Nat := s.count * s.scale * 1000

/-- The steps of a sweep order (R109). -/
def sweepSteps : List Step :=
  [ { kind := .list, cond := .always, pairing := .alone },
    { kind := .draw 0, cond := .always, pairing := .alone },
    { kind := .snap, cond := .always, pairing := .alone } ]

/-- A unit that a sweep takes as a target (R109). -/
def Chip.sweepTarget (c : Chip) (u : UnitIx) : Bool :=
  match c.unit u with
  | some r => decide (c.mode r.seg = some .active) && decide (r.presence ≠ .silent) && !r.desc.sweepExclude
  | none => false

/-- The lowest-numbered FREE context that no take has claimed (R86, R109). -/
def Chip.freeCtx (c : Chip) : Option CtxIx :=
  let claimed : Option CtxIx := match c.scan.stage with
    | some (.fields _ k _) => some k
    | some (.taking _ k _) => some k
    | _ => none
  allCtxs.find? fun k => decide ((c.ctx k).state = .free) && decide (claimed ≠ some k)

/-- A sweep is RUNNING or WRITING in a context (R109). -/
def Chip.sweepTaken (c : Chip) : Bool :=
  allCtxs.any fun k => decide ((c.ctx k).state ≠ .free) && decide ((c.ctx k).source = .sweep)

/-- A RELOAD-PROFILE order is taken (R17), its TAKEN write under way included. -/
def Chip.reloadTaken (c : Chip) : Bool :=
  (match c.scan.stage with
    | some (.taking _ _ .reload) => true
    | _ => false)
  || allCtxs.any fun k => decide ((c.ctx k).state ≠ .free) && decide ((c.ctx k).content.kind = .reload)

/-- A sweep order starts in a context (R109). -/
def Chip.startSweep (c : Chip) (k : CtxIx) : Chip :=
  let mask := maskOfUnits (allUnits.filter c.sweepTarget)
  let c := c.modCtx k fun _ =>
    { Ctx.cleared with state := .running, source := .sweep, content := .harvest mask false false sweepSteps }
  c.startHarvest k mask

/-- The Order Engine takes a sweep expiry (R109): a sweep starts, or the expiry is an overrun; and whether it
started. -/
def Chip.sweepExpiry (c : Chip) : Chip × Bool :=
  if c.sweepTaken || c.reloadTaken then ({ c with sweepOverruns := satInc 255 c.sweepOverruns }, false)
  else match c.freeCtx with
    | some k => (c.startSweep k, true)
    | none => ({ c with sweepOverruns := satInc 255 c.sweepOverruns }, false)

/-! ## The chassis clock (R169, R170) -/

/-- The clock is set (R170). -/
def Monitor.setClock (ct k : Nat) (m : Monitor) : Monitor :=
  { m with ct := ct, k := k, phase := 0, clockUnset := false, resumed := false }

/-- The clock as a cold start leaves it (R169). -/
def Monitor.coldClock (m : Monitor) : Monitor :=
  { m with ct := 0, k := 0, phase := 0, clockUnset := true, resumed := false }

/-- The clock as a warm start resumes it from the header's published words (R169). -/
def Monitor.warmClock (ct k : Nat) (clockUnset : Bool) (m : Monitor) : Monitor :=
  { m with ct := ct, k := k, phase := 0, clockUnset := clockUnset, resumed := !clockUnset }

end Sys2Proof.Machine
end

