-- ==== Sys2Proof/Machine/Loader.lean ====
section
/-!
DEFINITION. The Profile Loader (R9 to R17): the validity tests, the settings and the descriptor list with their clamps
and drops (R10 to R13, 11.4), and the apply points in STARTING and at a reload (R14 to R16, R69).
-/

namespace Sys2Proof.Machine

/-! ## Reading the profile's words (11.4) -/

/-- The 16-bit word at an index of the profile. -/
def profHalf (p : List Word) (i : Nat) : Nat := halfOf (wordAt p (i / 2)) (i % 2)

/-- The byte at an offset of the profile. -/
def profByte (p : List Word) (i : Nat) : Nat := byteOf (wordAt p (i / 4)) (i % 4)

/-- The 16-bit field at an even offset of the profile. -/
def profField (p : List Word) (off : Nat) : Nat := profHalf p (off / 2)

/-- Length of the profile header in 16-bit words (11.4). -/
def profHeaderHalves : Nat := 48

/-- The word count as written. -/
def profCount (p : List Word) : Nat := profHalf p 2

/-- Tests 1 to 3 of R10, which the header alone decides. -/
def profHeadValid (p : List Word) : Bool :=
  decide (profHalf p 0 = 0xC35A) && decide (profHalf p 1 = 1)
    && decide (profHeaderHalves ≤ profCount p) && decide (profCount p ≤ 1024)

/-- Test 4 of R10: where the descriptors lie. -/
def profRegionValid (p : List Word) : Bool :=
  let off := profField p 0x0C
  decide (off % 2 = 0) && decide (2 * profHeaderHalves ≤ off)
    && decide (off + 16 * profByte p 0x0B ≤ 2 * profCount p)

/-- The sum of the first `n` 16-bit words, carries past 16 bits discarded. -/
def profSum (p : List Word) (n : Nat) : Nat :=
  ((p.flatMap fun w => [halfOf w 0, halfOf w 1]).take n).foldl (· + ·) 0 % 65536

/-- A profile is valid (R10). -/
def profValid (p : List Word) : Bool :=
  profHeadValid p && profRegionValid p && decide (profSum p (profCount p) = 0xA55A)

/-- How many 32-bit accesses the whole profile takes. -/
def profAccesses (p : List Word) : Nat := ceilDiv (profCount p) 2

/-! ## Settings (R11, R12) -/

/-- A value and the faults counted in making it. -/
structure Checked (α : Type) where
  val : α
  faults : Nat

/-- A numeric setting takes the nearest bound of its range (R12). -/
def clampTo (lo hi v : Nat) : Checked Nat :=
  if v < lo then ⟨lo, 1⟩ else if hi < v then ⟨hi, 1⟩ else ⟨v, 0⟩

/-- An enumerated setting takes its default where its code names no value (R12). -/
def codeOr {α : Type} (dflt : α) : Option α → Checked α
  | some v => ⟨v, 0⟩
  | none => ⟨dflt, 1⟩

/-- A two-valued code. -/
def twoWay (code : Nat) : Option Bool := if code = 0 then some false else if code = 1 then some true else none

/-- Segment mode codes (11.4). -/
def modeOf : Nat → Option Mode
  | 0 => some .off | 1 => some .active | 2 => some .listen | _ => none

/-- Bit rate codes (11.4). -/
def bitRateOf : Nat → Option BitRate
  | 0 => some .k250 | 1 => some .k500 | _ => none

/-- Supply class codes (11.4). -/
def supplyOf : Nat → Option SupplyClass
  | 0 => some .v12 | 1 => some .v24 | _ => none

/-- Sweep scale codes in seconds (11.4). -/
def scaleOf : Nat → Option Nat
  | 0 => some 1 | 1 => some 4 | 2 => some 16 | 3 => some 64 | _ => none

/-- A band order code; 0 and 7 become 1 (R12). -/
def bandOrderOf (code : Nat) : Checked Nat := if code = 0 ∨ code = 7 then ⟨1, 1⟩ else ⟨code, 0⟩

/-- The settings of a segment (11.4). -/
def segSettingsOf (p : List Word) (g : Seg) : Checked SegSettings :=
  let base := 0x20 + 16 * g.val
  let b := fun i => profByte p (base + i)
  let mode := codeOr .active (modeOf (b 0))
  let rate := codeOr .k250 (bitRateOf (b 1))
  let keep := clampTo 200 5000 (profField p (base + 2))
  let window := clampTo 10 1000 (profField p (base + 4))
  let wait := clampTo 500 5000 (profField p (base + 6))
  let credit := clampTo 1 8 (b 8)
  let order := bandOrderOf (b 9 % 8)
  let pl := codeOr false (twoWay (b 10 % 4))
  let cs := codeOr false (twoWay (b 10 / 4 % 4))
  let cl := codeOr false (twoWay (b 10 / 16 % 4))
  let roll := clampTo 50 1000 (profField p (base + 12))
  { val := { mode := mode.val, bitRate := rate.val, keepInterval := keep.val, openWindow := window.val,
             waitExtension := wait.val, pullCredit := credit.val, bandOrder := order.val, plFirst := pl.val,
             csFirst := cs.val, clFirst := cl.val, rollWindow := roll.val }
    faults := mode.faults + rate.faults + keep.faults + window.faults + wait.faults + credit.faults + order.faults
      + pl.faults + cs.faults + cl.faults + roll.faults }

/-- The settings of a valid profile (R12). -/
def settingsOf (p : List Word) : Checked Settings :=
  let collector := clampTo 0xF0 0xFE (profByte p 0x08)
  let supply := codeOr .v12 (supplyOf (profByte p 0x09))
  let grace := clampTo 0 60 (profByte p 0x0A)
  let count := clampTo 1 255 (profByte p 0x0F)
  let scale := codeOr 16 (scaleOf (profByte p 0x10))
  let mode := codeOr true (twoWay (profByte p 0x11))
  let trigger := codeOr false (twoWay (profByte p 0x12))
  let seg := segSettingsOf p
  { val := { collector := BitVec.ofNat 8 collector.val, grace := grace.val, supply := supply.val
             sweep := { enable := decide (profByte p 0x0E % 2 = 1), count := count.val, scale := scale.val,
                        repeats := mode.val, continues := trigger.val }
             segs := #v[(seg 0).val, (seg 1).val, (seg 2).val, (seg 3).val] }
    faults := collector.faults + supply.faults + grace.faults + count.faults + scale.faults + mode.faults
      + trigger.faults + (seg 0).faults + (seg 1).faults + (seg 2).faults + (seg 3).faults }

/-! ## Descriptors (R13) -/

/-- An admitted descriptor. -/
structure Desc where
  seg : Seg
  addr : Byte
  desc : Descriptor
  deriving DecidableEq, Repr

/-- The values of an admitted descriptor at a byte offset, each out of range replaced (R13). -/
def descValues (p : List Word) (off : Nat) : Checked Descriptor :=
  let b := fun i => profByte p (off + i)
  let opn := clampTo 10 500 (profField p (off + 2))
  let reply := clampTo 10 1000 (profField p (off + 4))
  let recovery := clampTo 0 2550 (profField p (off + 6))
  let retries := clampTo 0 3 (b 9)
  let group : Checked Nat := if b 10 = 4 ∨ b 10 = 8 then ⟨b 10, 0⟩ else ⟨8, 1⟩
  { val := { openTimeout := opn.val, replyTimeout := reply.val, retries := retries.val, restTime := b 8,
             clearRecovery := recovery.val, group := group.val, clearPermitted := decide (b 11 % 2 = 1),
             noSnapshot := decide (b 11 / 2 % 2 = 1), sweepExclude := decide (b 11 / 4 % 2 = 1) }
    faults := opn.faults + reply.faults + recovery.faults + retries.faults + group.faults }

/-- A descriptor is tested for admission against those admitted before it (R13, tests 1 to 4). -/
def addDesc (p : List Word) (off : Nat) (sofar : Checked (List Desc)) : Checked (List Desc) :=
  let addr := profByte p (off + 1)
  if h : profByte p off < 4 then
    let seg : Seg := ⟨profByte p off, h⟩
    let same := sofar.val.any fun d => decide (d.seg = seg) && decide (d.addr.toNat = addr)
    let held := (sofar.val.filter fun d => decide (d.seg = seg)).length
    if 1 ≤ addr ∧ addr ≤ 0xEE ∧ same = false ∧ held < Config.unitsPerSegment then
      let d := descValues p off
      ⟨sofar.val ++ [{ seg := seg, addr := BitVec.ofNat 8 addr, desc := d.val }], sofar.faults + d.faults⟩
    else ⟨sofar.val, sofar.faults + 1⟩
  else ⟨sofar.val, sofar.faults + 1⟩

/-- The new descriptor list of a valid profile (R13), its count clamped to 64 (R12). -/
def descsOf (p : List Word) : Checked (List Desc) :=
  let count := clampTo 0 64 (profByte p 0x0B)
  (List.range count.val).foldl (fun sofar j => addDesc p (profField p 0x0C + 16 * j) sofar) ⟨[], count.faults⟩

/-- What a load puts into force: settings, descriptor list, fault count and profile state (R9, R11). -/
structure Loaded where
  settings : Settings
  descs : List Desc
  faults : Nat
  state : ProfileState
  deriving DecidableEq, Repr

/-- The words of a profile, checked and worked out (R9 to R13). -/
def loadProfile (p : List Word) : Loaded :=
  if profValid p then
    let s := settingsOf p
    let d := descsOf p
    let n := satAdd 255 s.faults d.faults
    { settings := s.val, descs := d.val, faults := n, state := if n = 0 then .loaded else .adjusted }
  else { settings := .default, descs := [], faults := 0, state := .defaults }

/-! ## The roster after a load (R14, R15) -/

/-- A unit that a descriptor adds (R2). -/
def UnitRec.ofDesc (d : Desc) : UnitRec :=
  { origin := .profile, seg := d.seg, addr := d.addr, typeCode := 0, desc := d.desc, presence := .unknown, losses := 0,
    session := .fresh, drops := 0, malformed := 0, refused := 0, strays := 0, lastN := none, hours := none,
    clearUncertain := false, exch := none, ignore := 0, queue := [] }

/-- A unit enters the roster at the lowest free index (R1). -/
def Chip.enterUnit (c : Chip) (r : UnitRec) : Chip :=
  match c.freeIndex with
  | some u => c.setUnit u (some r)
  | none => c

/-- Settings, profile state and fault count at an apply point (R9), with the PROFILE cause. -/
def Chip.putSettings (c : Chip) (l : Loaded) : Chip :=
  let c := { c with settings := some l.settings, profileState := l.state, profileFaults := l.faults }
  match l.state with
  | .adjusted | .defaults => c.setCause .profile
  | .absent | .loaded => c

/-- The mode of a segment comes into force at a start: the error counts of one that is not ACTIVE are 0 (R70), also where a
failure in DOWN was counted meanwhile (log 18). -/
def Chip.restCounts (c : Chip) (g : Seg) : Chip :=
  if c.mode g = some .active then c else c.modSeg g fun r => { r with txErrors := 0, rxErrors := 0 }

/-- The apply point of the load made in STARTING (R14): the roster, empty until then (R1), is built from the
descriptors. -/
def Chip.applyStart (c : Chip) (l : Loaded) : Chip :=
  l.descs.foldl (fun c d => c.enterUnit (UnitRec.ofDesc d))
    (allSegs.foldl Chip.restCounts { c.putSettings l with roster := .replicate 64 none })

/-- A descriptor names a unit. -/
def Desc.names (d : Desc) (r : UnitRec) : Bool := decide (d.seg = r.seg) && decide (d.addr = r.addr)

/-- A unit leaves the roster: its session ends without a frame, its pending items are withdrawn (R16). -/
def Chip.removeUnit (c : Chip) (u : UnitIx) : Chip := (c.endSession u).setUnit u none

/-- An old unit at a reload (R15): matched, kept as an unnamed CENSUS unit, or gone; `kept` are the CENSUS units kept
so far, by segment. -/
def Chip.reloadUnit (ds : List Desc) (ck : Chip × List Seg) (u : UnitIx) : Chip × List Seg :=
  let (c, kept) := ck
  match c.unit u with
  | none => (c, kept)
  | some r => match ds.find? fun d => d.names r with
    | some d => (c.setUnit u (some { r with origin := .profile, desc := d.desc }), kept)
    | none => match r.origin with
      | .profile => (c.removeUnit u, kept)
      | .census =>
        let onSeg := (ds.filter fun d => decide (d.seg = r.seg)).length
          + (kept.filter fun g => decide (g = r.seg)).length
        if onSeg < Config.unitsPerSegment ∧ ds.length + kept.length < 64 then (c, kept ++ [r.seg])
        else ({ c.removeUnit u with rosterFull := satInc 255 c.rosterFull }, kept)

/-- The roster is rebuilt at a reload (R15). -/
def Chip.reloadRoster (c : Chip) (ds : List Desc) : Chip :=
  let (c, _) := allUnits.foldl (Chip.reloadUnit ds) (c, [])
  (ds.filter fun d => (c.findUnit d.seg d.addr).isNone).foldl (fun c d => c.enterUnit (UnitRec.ofDesc d)) c

/-- A segment takes up its new mode and bit rate, after its drops (R67, R69); what stands in its slot is withdrawn. A segment
that turns to LISTEN keeps nothing pending: its classes stay empty (R70; log 55). -/
def Chip.reloadSegment (old new : Settings) (c : Chip) (g : Seg) : Chip :=
  let was := old.segs[g]
  let now := new.segs[g]
  if was.mode = now.mode ∧ was.bitRate = now.bitRate then c
  else
    let c := c.dropSegment g false
    let c := (c.withdrawSlot g).modSeg g fun r => { r with txErrors := 0, rxErrors := 0 }
    if now.mode = .off then (c.modSeg g SegRec.enterDown).shedOpens g
    else
      let c := if was.mode = .off then
          let running := c.runningState
          c.modSeg g fun r => r.moveFrom .down running
        else c
      if now.mode = .listen then (c.modSeg g SegRec.emptyClasses).shedOpens g else c

/-- A segment's record as the collector address changes: nothing is pending, and the frame on the wire, which carries the old
address, reaches no session and is not given back (R69; log 72). -/
def SegRec.readdress (r : SegRec) : SegRec :=
  { r.emptyClasses with slot := r.slot.map fun t => { t with stale := true } }

/-- The collector address changes (R16, R69): no item that carries the old one remains pending, an OPEN left for a CLOSED or
COOLING unit (log 27) among them, whose record in REPEAT-HELD goes with it; and every session is dropped. -/
def Chip.readdress (c : Chip) : Chip := (allSegs.foldl Chip.shedOpens (c.modAllSegs SegRec.readdress)).dropAll

/-- The apply point of a reload (R15, R16, R69): roster and settings, the drops, the segments, the supply class and the
sweep timer. -/
def Chip.applyReload (c : Chip) (l : Loaded) : Chip :=
  let old := c.sets
  let c := (c.reloadRoster l.descs).putSettings l
  let c := if old.collector = l.settings.collector then c else c.readdress
  let c := allSegs.foldl (Chip.reloadSegment old l.settings) c
  let c := if old.supply = l.settings.supply then c else c.dipLook
  if old.sweep = l.settings.sweep then c else c.modMon fun m => { m with sweepMs := 0, spent := false }

/-! ## A load under way (R9) -/

/-- A load begins: the words of the profile header are read, in ascending order. `k` is the context of a reload. -/
def Chip.startLoad (c : Chip) (k : Option CtxIx) : Chip :=
  { c with load := some { words := [], ctx := k } }.hand .loader
    ((List.range (profHeaderHalves / 2)).map fun i => .read (Config.profileOff + 4 * i))

/-- The reload has ended: its card is written (R16). -/
def Chip.endReload (c : Chip) (k : CtxIx) (code : ErrorCode) : Chip :=
  { c.modCtx k fun x => { x with endCode := code } with load := none }.orderEnd k

/-- A reload that has not passed its apply point is abandoned (R16). -/
def Chip.abandonReload (c : Chip) (k : CtxIx) (code : ErrorCode) : Chip := (c.giveUp .loader).endReload k code

end Sys2Proof.Machine
end

