-- ==== Sys2Proof/Machine/Cards.lean ====
section
/-!
DEFINITION. Order cards: validation (R87, R200), the card scan (R195, R196), the take (R86, R89, R90), withdrawals
(R105, R16, R20, R90, R197) and the end of a card's result.
-/

namespace Sys2Proof.Machine

/-! ## Steps as written on a card (11.3.1) -/

/-- The condition of a step byte; none where its code names none. -/
def condOf (b : Nat) : Option Cond :=
  match b / 64 with
  | 0 => some .always
  | 1 => some (.ifSet (b % 16))
  | 2 => some (.ifClear (b % 16))
  | _ => none

/-- The pairing of a step byte. -/
def pairingOf : Nat → Option Pairing
  | 0 => some .alone | 1 => some .strict | 2 => some .eager | _ => none

/-- The quantity of a TEST. -/
def quantityOf : Nat → Option Quantity
  | 0 => some .listedCount | 1 => some .activeMerged | 2 => some .unitHours | 3 => some .highestU
  | 4 => some .unitEntries | _ => none

/-- The relation of a TEST. -/
def relationOf : Nat → Option Relation
  | 0 => some .eq | 1 => some .ne | 2 => some .lt | 3 => some .ge | _ => none

/-- What a step does, from its kind byte and its parameter word; a HOLD above 10,000 ms is 10,000 ms (R87). -/
def stepKindOf (kind : Nat) (params : Word) : Option StepKind :=
  match kind with
  | 1 => some .list
  | 2 => some (.draw (byteOf params 0))
  | 3 => some .snap
  | 4 => some .clear
  | 5 => some .close
  | 6 => some (.hold (min (halfOf params 0) 10000))
  | 7 => match quantityOf (byteOf params 1 % 16), relationOf (byteOf params 1 / 16) with
    | some q, some r => some (.test (byteOf params 0) q r (halfOf params 1))
    | _, _ => none
  | _ => none

/-- A step from its two words; none where one of its codes names nothing (BAD-KIND). -/
def stepOf (w params : Word) : Option Step :=
  match stepKindOf (byteOf w 0) params, condOf (byteOf w 1), pairingOf (byteOf w 2) with
  | some k, some c, some p => some { kind := k, cond := c, pairing := p }
  | _, _, _ => none

/-- FLAG-RANGE: a condition names a flag 0-7, a TEST a flag F4-F7. -/
def Step.flagsOk (s : Step) : Bool :=
  (match s.cond with
    | .always => true
    | .ifSet f | .ifClear f => decide (f ≤ 7))
  && match s.kind with
    | .test f _ _ _ => decide (4 ≤ f) && decide (f ≤ 7)
    | _ => true

/-- BAD-GROUP: the group of a DRAW is 0, 4 or 8. -/
def Step.groupOk (s : Step) : Bool :=
  match s.kind with
  | .draw g => decide (g = 0) || decide (g = 4) || decide (g = 8)
  | _ => true

/-- A DRAW or a SNAP, which needs a LIST before it (STEP-ORDER). -/
def Step.needsList (s : Step) : Bool :=
  match s.kind with
  | .draw _ | .snap => true
  | _ => false

/-- The step tests of R87 for one step, in their order, given the steps before it and whether it is the last. -/
def checkStep (before : List Step) (last : Bool) (s : Step) : Option ErrorCode :=
  let led := match before.getLast? with
    | some q => decide (q.pairing ≠ .alone)
    | none => false
  if !s.flagsOk then some .flagRange
  else if !s.groupOk then some .badGroup
  else if s.needsList && !(before.any fun q => decide (q.kind = .list)) then some .stepOrder
  else if led && !(decide (s.cond = .always) && decide (s.pairing = .alone)) then some .pairNest
  else if last && decide (s.pairing ≠ .alone) then some .pairEnd
  else none

/-- The steps of a card, examined from step 1 onward, or the first error with its step number (R87). -/
def checkSteps : List Step → List (Word × Word) → Except (ErrorCode × Nat) (List Step)
  | before, [] => .ok before
  | before, (w, params) :: rest =>
    match stepOf w params with
    | none => .error (.badKind, before.length + 1)
    | some s => match checkStep before rest.isEmpty s with
      | some code => .error (code, before.length + 1)
      | none => checkSteps (before ++ [s]) rest

/-- The words of a list, two by two. -/
def pairs : List Word → List (Word × Word)
  | a :: b :: rest => (a, b) :: pairs rest
  | _ => []

/-! ## Validation of a card (R87, R200) -/

/-- A CENSUS card: its segment is 0-3 with mode ACTIVE. -/
def Chip.checkCensus (c : Chip) (kindWord : Word) : Except (ErrorCode × Nat) Content :=
  if h : byteOf kindWord 3 < 4 then
    if c.mode ⟨byteOf kindWord 3, h⟩ = some .active then .ok (.census ⟨byteOf kindWord 3, h⟩)
    else .error (.segmentMode, 0)
  else .error (.segmentMode, 0)

/-- A PURGE card: ALL, or a segment 0-3 with a unit address 0x01-0xEE. -/
def checkPurge (w : Word) : Except (ErrorCode × Nat) Content :=
  let addr := byteOf w 2
  if byteOf w 0 = 1 then .ok (.purge none)
  else if h : byteOf w 1 < 4 then
    if byteOf w 0 = 0 ∧ 1 ≤ addr ∧ addr ≤ 0xEE then .ok (.purge (some (⟨byteOf w 1, h⟩, BitVec.ofNat 8 addr)))
    else .error (.badUnit, 0)
  else .error (.badUnit, 0)

/-- A HARVEST card: its target mask, step count and steps. -/
def Chip.checkHarvest (c : Chip) (kindWord : Word) (ws : List Word) : Except (ErrorCode × Nat) Content :=
  let mask := maskOf (wordAt ws 0) (wordAt ws 1)
  let count := byteOf kindWord 2
  if !(c.units.any fun u => mask.getLsbD u.val) then .error (.emptyTarget, 0)
  else if count = 0 ∨ 12 < count then .error (.stepCount, 0)
  else match checkSteps [] (pairs (ws.drop 2)) with
    | .error e => .error e
    | .ok steps =>
      .ok (.harvest mask (decide (byteOf kindWord 1 % 2 = 1)) (decide (byteOf kindWord 1 / 2 % 2 = 1)) steps)

/-- A card's fields, validated by kind; `ws` are the words read for the kind. -/
def Chip.checkCard (c : Chip) (kindWord : Word) (ws : List Word) : Except (ErrorCode × Nat) Content :=
  match orderKindOf (byteOf kindWord 0) with
  | none => .error (.badKind, 0)
  | some .harvest => c.checkHarvest kindWord ws
  | some .census => c.checkCensus kindWord
  | some .setClock => .ok (.setClock (wordAt ws 0).toNat (low24 (wordAt ws 1)))
  | some .reload => .ok .reload
  | some .purge => checkPurge (wordAt ws 0)

/-- The offsets of a card's fields that its kind reads (R86, 11.3): a HARVEST's steps only where its step count is in
range (R200). -/
def fieldOffsets (kindWord : Word) : List Nat :=
  let count := byteOf kindWord 2
  match orderKindOf (byteOf kindWord 0) with
  | some .harvest =>
    [0x08, 0x0C] ++ (if count ≤ 12 then (List.range (2 * count)).map (fun i => 0x20 + 4 * i) else [])
  | some .setClock => [0x10, 0x14]
  | some .purge => [0x18]
  | _ => []

/-! ## The scan (R195, R196) -/

/-- The collector scans cards (R195). -/
def Collector.scans : Collector → Bool
  | .running | .parked => true
  | _ => false

/-- The owner word of a card is read. -/
def Chip.readOwner (c : Chip) (card : Fin 16) : Chip :=
  { c with scan := { c.scan with stage := some (.owner card) } }.hand .scan [.read (cardBase card)]

/-- A scan starts, taking unless a RELOAD-PROFILE order is taken (R196). -/
def Chip.startScan (c : Chip) : Chip :=
  { c with scan := { c.scan with taking := !c.reloadTaken } }.readOwner 0

/-- A scan request (R195). -/
def Chip.scanRequest (c : Chip) : Chip :=
  if !c.col.scans then c
  else match c.scan.stage with
    | none => c.startScan
    | some _ => { c with scan := { c.scan with again := true } }

/-- A card has been handled: the next is read, or the scan ends, and one more is made where the scan-again mark is set.
Outside RUNNING and PARKED it ends here (log 21). -/
def Chip.scanNext (c : Chip) (card : Fin 16) : Chip :=
  if !c.col.scans then { c with scan := { c.scan with stage := none, again := false } }
  else if h : card.val + 1 < 16 then c.readOwner ⟨card.val + 1, h⟩
  else
    let c := { c with scan := { c.scan with stage := none } }
    if c.scan.again then { c with scan := { c.scan with again := false } }.startScan else c

/-- The context that holds a card (R196). -/
def Chip.holderOf (c : Chip) (card : Fin 16) : Option CtxIx :=
  allCtxs.find? fun k => decide ((c.ctx k).state ≠ .free) && decide ((c.ctx k).source = .card card)

/-- The scan leaves the taking condition (R196). -/
def Chip.stopTaking (c : Chip) : Chip := { c with scan := { c.scan with taking := false } }

/-- A card's result is written FAILED by the scan (R88, R197): empty masks, counts 0. -/
def Chip.failCard (c : Chip) (card : Fin 16) (code : ErrorCode) (step : Nat) : Chip :=
  { c with scan := { c.scan with stage := some (.failing card) } }.hand .scan
    (resultAccs card .cleared code step 4)

/-- A withdrawal seen on a held card (R105, R20, R16, R90). -/
def Chip.withdrawHeld (c : Chip) (k : CtxIx) : Chip :=
  let x := c.ctx k
  if x.state = .running then
    match x.content with
    | .harvest .. => if x.withdrawn then c else c.withdrawHarvest k
    | .census g => c.endCensus g .withdrawn
    | .reload => c.abandonReload k .withdrawn
    | .setClock .. | .purge _ => c
  else c

/-- The owner word of a card has been read (R196). -/
def Chip.scanOwner (c : Chip) (card : Fin 16) (w : Word) : Chip :=
  match w.toNat, c.holderOf card with
  | 1, none =>
    if c.scan.taking then
      { c with scan := { c.scan with stage := some (.kind card) } }.hand .scan [.read (cardBase card + 0x04)]
    else c.scanNext card
  | 5, some k => (c.withdrawHeld k).scanNext card
  | 5, none => c.failCard card .withdrawn 0
  | _, _ => c.scanNext card

/-- The TAKEN write of a valid card is handed over. -/
def Chip.takeCard (c : Chip) (card : Fin 16) (k : CtxIx) (content : Content) : Chip :=
  { c with scan := { c.scan with stage := some (.taking card k content) } }.hand .scan
    [.write (cardBase card) (.lit 2)]

/-- A validated card is taken, or written FAILED (R87, R88). A HARVEST or CENSUS that finds the collector PARKED
meanwhile stays POSTED (R86). -/
def Chip.takeOrFail (c : Chip) (card : Fin 16) (k : CtxIx) : Except (ErrorCode × Nat) Content → Chip
  | .error (code, step) => c.failCard card code step
  | .ok content =>
    if c.col = .parked ∧ (content.kind = .harvest ∨ content.kind = .census) then c.scanNext card
    else c.takeCard card k content

/-- A card stays POSTED for a reason of its own kind (R86, the first three cases). -/
def Chip.waitsByKind (c : Chip) (kindWord : Word) : Bool :=
  match orderKindOf (byteOf kindWord 0) with
  | some .harvest => decide (c.col = .parked)
  | some .census =>
    decide (c.col = .parked) ||
      (if h : byteOf kindWord 3 < 4 then (c.seg ⟨byteOf kindWord 3, h⟩).census.isSome else false)
  | some .reload => allCtxs.any fun k => decide ((c.ctx k).state ≠ .free)
  | _ => false

/-- The order kind of a POSTED card has been read (R86): it stays POSTED, or a context is claimed and its fields are
read. Whether a context is FREE is looked at before the card's kind: a card held back by both ends the taking (log 61). -/
def Chip.scanKind (c : Chip) (card : Fin 16) (w : Word) : Chip :=
  if c.reloadTaken then c.scanNext card
  else match c.freeCtx with
    | none => c.stopTaking.scanNext card
    | some k =>
      if c.waitsByKind w then
        (if orderKindOf (byteOf w 0) = some .reload then c.stopTaking else c).scanNext card
      else match fieldOffsets w with
        | [] => c.takeOrFail card k (c.checkCard w [])
        | offs =>
          { c with scan := { c.scan with stage := some (.fields card k w) } }.hand .scan
            (offs.map fun o => .read (cardBase card + o))

/-! ## The take (R85, R89, R90) -/

/-- A HARVEST whose TAKEN write landed after parking or the stop began: every plan is cut before it begins (log 21). -/
def Chip.cutHarvest (c : Chip) (k : CtxIx) (mask : BitVec 64) (v : Verdict) : Chip :=
  (c.modCtx k fun x =>
    let x := (allUnits.filter fun u => mask.getLsbD u.val).foldl
      (fun x u => x.record u (if (c.unit u).isSome then v else .skippedNoUnit) 0) x
    { x with endCode := .cut }).orderEnd k

/-- The work of a taken order starts (R85). Outside RUNNING a HARVEST or CENSUS is cut as it starts; in STOPPING so is a
reload; a SET-CLOCK or PURGE completes (R189, log 21). -/
def Chip.startOrder (c : Chip) (k : CtxIx) : Content → Chip
  | .harvest mask _ _ _ =>
    if c.col = .running then c.startHarvest k mask
    else c.cutHarvest k mask (if c.col = .parked then .cutGrace else .cutStop)
  | .census g =>
    if c.col = .running then c.startCensus k g
    else (c.modCtx k fun x => { x with endCode := .cut }).orderEnd k
  | .setClock ct n =>
    ((c.modMon (Monitor.setClock ct n)).modCtx k fun x => { x with clockWait := c.headerWaits }).wantHeader
  | .reload =>
    if c.col.scans then c.startLoad (some k) else c.endReload k .cut
  | .purge scope => c.handOver (.purge k scope) none

/-- A request of the scan has ended; `got` holds the words it read. The pass that takes a reload takes no further card
(R196). -/
def Chip.scanDone (c : Chip) (got : List Word) : Chip :=
  match c.scan.stage with
  | none => c
  | some (.owner card) => c.scanOwner card (wordAt got 0)
  | some (.kind card) => c.scanKind card (wordAt got 0)
  | some (.fields card k w) => c.takeOrFail card k (c.checkCard w got)
  | some (.taking card k content) =>
    let c := c.modCtx k fun _ =>
      { Ctx.cleared with state := .running, source := .card card, content := content }
    let c := { c with scan := { c.scan with stage := some (.owner card) } }.startOrder k content
    (if content.kind = .reload then c.stopTaking else c).scanNext card
  | some (.failing card) => (c.setCause .orderDone).scanNext card

/-- A card result has been written (R108): ORDER-DONE, and the context becomes FREE. -/
def Chip.resultDone (c : Chip) (k : CtxIx) : Chip := (c.setCause .orderDone).modCtx k fun _ => .cleared

/-- A header rewrite has ended: a SET-CLOCK that waits for it ends (R170). -/
def Chip.clockHeader (c : Chip) (k : CtxIx) : Chip :=
  let x := c.ctx k
  if x.clockWait = 0 then c
  else
    let c := c.modCtx k fun x => { x with clockWait := x.clockWait - 1 }
    if x.clockWait = 1 then c.orderEnd k else c

end Sys2Proof.Machine
end

