-- ==== Sys2Proof/Machine/Starting.lean ====
section
/-!
DEFINITION. The collector states (10.3): STARTING with the cold and the warm start (R148 to R153, R164, R188), the entry
to STOPPING (R189, R64), the entry to STOPPED with its entry writes (R190), and HALTED (R191).
-/

namespace Sys2Proof.Machine

/-! ## Roster mirror and header as requests (R193, R194) -/

/-- The writes of a record rewrite that starts from a mirror version (R194). -/
def mirrorAccs (u : UnitIx) (version : Word) : List Acc :=
  let base := Config.mirrorOff + 32 * u.val
  .write base (.lit (version + 1))
    :: ((List.range 7).map fun j => Acc.write (base + 4 * (j + 1)) (.mirror u j))
    ++ [.write base (.lit (version + 2))]

/-- The writes of a header rewrite: every word, in ascending order (R193). -/
def headerAccs : List Acc := (List.range 64).map fun j => .write (Config.headerOff + 4 * j) (.header j)

/-- The mirror state of a unit. -/
def Chip.mirror (c : Chip) (u : UnitIx) : Mirror := c.mirrors[u]

/-- The chip with the mirror state of a unit changed. -/
def Chip.modMirror (c : Chip) (u : UnitIx) (f : Mirror → Mirror) : Chip :=
  { c with mirrors := c.mirrors.set u (f (c.mirror u)) }

/-- The version a record rewrite handed over now starts from: one under way ends first. -/
def Mirror.base (m : Mirror) : Word := if m.busy then m.version + 2 else m.version

/-! ## Entry to STARTING (R188) -/

/-- STARTING moves on to a stage and its accesses. -/
def Chip.atStage (c : Chip) (st : Starting) (stage : StartStage) (accs : List Acc) : Chip :=
  { c with start := some { st with stage := stage } }.hand .starting accs

/-- STARTING is entered: contexts, roster with its plan queues, intake and marks are cleared, the sweep timer is at 0,
the stop-request mark is clear, the start result is NONE, and the collector state field is written, with its whole word (log
24). Entry writes of STOPPED that still wait are served first (log 78). -/
def Chip.enterStarting (c : Chip) : Chip :=
  let c := { c with
    col := .starting
    stopRequest := false
    regs := { c.regs with startResult := .noResult }
    ctxs := .replicate 4 .cleared
    roster := .replicate 64 none
    scan := { stage := none, taking := true, again := false, timer := none }
    load := none }
  let c := c.modHist fun h => { h with
    slots := h.slots.map fun (r : SlotRec) => { r with seen := false, activeMerged := false }
    intake := [], run := none, handWait := [] }
  let c := c.modMon fun m => { m with grace := none, parkPending := false, sweepMs := 0, spent := false }
  c.atStage { stage := .mark, mode := c.regs.startMode, fellBack := false, stored := 0, report := .zero } .mark
    [.write (Config.headerOff + 4) (.header 1)]

/-- RUN rises in STOPPED (R186): BASE-BAD, or STARTING. -/
def Chip.runEdge (c : Chip) : Chip :=
  if c.regs.xbase.toNat % 65536 = 0 then c.enterStarting
  else { c with regs := { c.regs with startResult := .baseBad } }

/-! ## Cold start (R148) -/

/-- A slot is written free with version 0, its 16 words in ascending order. -/
def coldSlotAccs (i : SlotIx) : List Acc := (List.range 16).map fun j => .write (slotOff i + 4 * j) (.lit 0)

/-- The cold start begins: the on-chip table and the pool are emptied. -/
def Chip.coldStart (c : Chip) (st : Starting) : Chip :=
  { c with
    hist := { Hist.reset with published := c.hist.published }
    pool := .reset }.atStage { st with report := .zero } (.coldSlot 0) (coldSlotAccs 0)

/-- The 64 words of the history region header. -/
def regionAccs (warm : Bool) (stored : Nat) (r : Report) : List Acc :=
  (List.range 64).map fun j => .write (Config.regionOff + 4 * j) (.lit (regionWord warm stored r j))

/-- The path of a start that was not refused is warm (R149). -/
def Starting.warm (st : Starting) : Bool := decide (st.mode = .warm) && !st.fellBack

/-- The region header is written, cold or warm (R148, R152). -/
def Chip.writeRegion (c : Chip) (st : Starting) : Chip :=
  c.atStage st .region (regionAccs st.warm c.hist.changeSeq st.report)

/-! ## Warm start (R149 to R152, R164) -/

/-- The region header read is one a warm start goes on from (R149). -/
def regionGood (ws : List Word) : Bool :=
  decide ((wordAt ws 0).toNat = Config.historySignature) && decide (halfOf (wordAt ws 1) 0 = 1)
    && decide (halfOf (wordAt ws 2) 0 = 512) && decide (halfOf (wordAt ws 1) 1 = 64)

/-- The reads of a slot. -/
def slotReads (i : SlotIx) : List Acc := (List.range 16).map fun j => .read (slotOff i + 4 * j)

/-- The region header has been read (R149): the slots are read, or the cold start is made instead. -/
def Chip.warmBegin (c : Chip) (st : Starting) (ws : List Word) : Chip :=
  if regionGood ws then
    { c with
      hist := { Hist.reset with published := c.hist.published, refused := c.hist.refused }
      pool := { Pool.reset with shortage := c.pool.shortage } }.atStage
        { st with stored := (wordAt ws 3).toNat } (.warmSlot 0) (slotReads 0)
  else c.coldStart { st with fellBack := true }

/-- A snapshot reference claims its blocks, or is dropped (R151, R164). -/
def Pool.claim (p : Pool) (i : SlotIx) (r : SnapRef) : Pool × Bool :=
  let bs := r.chain
  if decide (1 ≤ r.length) && decide (r.length ≤ 48) && decide bs.Nodup
      && bs.all fun (b : Fin 256) => decide (p.owner[b] = none) then
    ({ p with owner := bs.foldl (fun o (b : Fin 256) => o.set b (some i)) p.owner }, true)
  else (p, false)

/-- The pool after the check of every adopted reference, in ascending slot, with how many were dropped: the blocks no
reference claims are free, the lowest on top (R151, R164). -/
def Chip.checkRefs (c : Chip) : Pool × Nat :=
  let (p, dropped) := allSlots.foldl (fun (pd : Pool × Nat) i =>
    match (c.slot i).entry.bind Entry.snap with
    | none => pd
    | some r => match pd.1.claim i r with
      | (p, true) => (p, pd.2)
      | (p, false) => (p, pd.2 + 1)) (c.pool, 0)
  ({ p with free := (List.finRange 256).filter fun (b : Fin 256) => decide (p.owner[b] = none) }, dropped)

/-- A reference was dropped at the check: some block of it is not its slot's (R151). -/
def Chip.refDropped (c : Chip) (i : SlotIx) (r : SnapRef) : Bool :=
  decide (48 < r.length) || r.chain.any fun (b : Fin 256) => decide (c.pool.owner[b] ≠ some i)

/-- An adopted entry as its repairs leave it (R152). -/
def Chip.repaired (c : Chip) (i : SlotIx) (e : Entry) : Entry :=
  let e := match e.snap with
    | some r => if c.refDropped i r then { e with snap := none, snapDropped := true } else e
    | none => e
  let e := clampFirstSeen e
  { e with peak := Lamp.max e.peak e.lamp }

/-- The slots whose entries need repair, ascending. -/
def Chip.repairList (c : Chip) : List SlotIx :=
  allSlots.filter fun i => match (c.slot i).entry with
    | some e => decide (c.repaired i e ≠ e)
    | none => false

/-- The next repair is made as one entry change (R152, R128): writes 1 to 4, its header write the published sequence alone
(R188); after the last the region header is written. -/
def Chip.nextRepair (c : Chip) (st : Starting) : List SlotIx → Chip
  | [] => c.writeRegion st
  | i :: rest => match (c.slot i).entry with
    | none => c.writeRegion st
    | some e =>
      let e := { c.repaired i e with lastChange := c.hist.nextSeq }
      let accs := rewriteAccs i (c.slot i).version (changedWords c.hist.saturated e)
        ++ [.write (Config.headerOff + 0x0C) (.lit (word e.lastChange))]
      ((c.modSlot i fun r => { r with entry := some e }).modHist fun h => { h with changeSeq := h.nextSeq }).atStage
        { st with report := { st.report with repaired := st.report.repaired + 1 } } (.repair (i :: rest)) accs

/-- Write 4 of a repair has landed (R128): the published value is the change sequence, the HISTORY cause is set, and write 5
follows. -/
def Chip.repairPublished (c : Chip) (st : Starting) (todo : List SlotIx) : Chip :=
  let c := match todo with
    | i :: _ => c.bumpVersion i
    | [] => c
  ((c.modHist fun h => { h with published := h.changeSeq }).setCause .history).atStage st (.repairStored (todo.drop 1))
    [.write (Config.regionOff + 0x0C) (.lit (word c.hist.changeSeq))]

/-- The largest last-change sequence among the adopted entries. -/
def Chip.largestChange (c : Chip) : Nat :=
  allSlots.foldl (fun n i => match (c.slot i).entry with
    | some e => max n e.lastChange
    | none => n) 0

/-- Every slot has been read: the references are checked, the sequence resumes, the repairs begin (R151, R152). -/
def Chip.warmSettled (c : Chip) (st : Starting) : Chip :=
  let (p, dropped) := c.checkRefs
  let c := { c with pool := p }.modHist fun h => { h with changeSeq := max st.stored c.largestChange }
  c.nextRepair { st with report := { st.report with dropped := dropped } } c.repairList

/-- The next slot of a warm start is read, or the slots are settled. -/
def Chip.warmNext (c : Chip) (st : Starting) (i : SlotIx) : Chip :=
  if h : i.val + 1 < 512 then c.atStage st (.warmSlot ⟨i.val + 1, h⟩) (slotReads ⟨i.val + 1, h⟩)
  else c.warmSettled st

/-- A slot has been read (R150). -/
def Chip.warmSlot (c : Chip) (st : Starting) (i : SlotIx) (ws : List Word) : Chip :=
  let v := wordAt ws 0
  let freed := fun (c : Chip) (st : Starting) =>
    (c.modSlot i fun r => { r with version := v + 2 }).atStage st (.warmFree i) (rewriteAccs i v freeWords)
  let r := st.report
  match readSlot ws with
  | .free => (c.modSlot i fun r => { r with version := v }).warmNext st i
  | .torn =>
    (c.modSlot i fun r => { r with version := v + 1 }).atStage { st with report := { r with torn := r.torn + 1 } }
      (.warmFree i) (slotWrites i freeWords ++ [.write (slotOff i) (.lit (v + 1))])
  | .malformed => freed c { st with report := { r with malformed := r.malformed + 1 } }
  | .entry e =>
    if (c.indexOf e.key).isSome then freed c { st with report := { r with duplicate := r.duplicate + 1 } }
    else
      ((c.modSlot i fun r => { r with version := v, entry := some e }).modHist fun h =>
        { h with inUse := h.inUse + 1 }).warmNext { st with report := { r with adopted := r.adopted + 1 } } i

/-! ## The end of STARTING (R188, steps 3 to 7) -/

/-- Either path ends by publishing sequence, entries in use and refused count, and on the warm path the free snapshot
blocks (R147, R152, R164); the published value follows as its word lands. -/
def Chip.publishStart (c : Chip) (st : Starting) : Chip :=
  c.atStage st .publish
    ([.write (Config.headerOff + 0x0C) (.header 3), .write (Config.headerOff + 0x18) (.header 6)]
      ++ if st.warm then [.write (Config.headerOff + 0x1C) (.header 7)] else [])

/-- The next record of the roster mirror is written (R188, step 4). -/
def Chip.writeMirror (c : Chip) (st : Starting) (u : UnitIx) : Chip :=
  c.atStage st (.mirrors u.val) (mirrorAccs u (c.mirror u).version)

/-- Step 3: the clock (R169). On the warm path it is read from the header as last published. -/
def Chip.startClock (c : Chip) (st : Starting) : Chip :=
  if st.warm then
    c.atStage st .clock
      [.read (Config.headerOff + 0x08), .read (Config.headerOff + 0x10), .read (Config.headerOff + 0x14)]
  else (c.modMon Monitor.coldClock).writeMirror st 0

/-- The state chosen at the end of STARTING (R188, step 6). -/
def Chip.chosen (c : Chip) : Collector :=
  if c.stopRequest then .stopping else if c.mon.ign then .running else .parked

/-- Steps 5 to 7: the start result, the choice, and the whole header with it. -/
def Chip.startHeader (c : Chip) (st : Starting) : Chip :=
  let c := { c with
    regs := { c.regs with startResult := if st.fellBack then .warmRefused else .ok }
    start := some { st with stage := .header c.chosen c.headerWaits } }
  c.wantHeader

/-- A request of STARTING has ended; `got` holds the words it read. -/
def Chip.startingDone (c : Chip) (got : List Word) : Chip :=
  match c.start with
  | none => c
  | some st => match st.stage with
    | .mark => { c with start := some { st with stage := .profile } }.startLoad none
    | .coldSlot n =>
      if h : n + 1 < 512 then c.atStage st (.coldSlot (n + 1)) (coldSlotAccs ⟨n + 1, h⟩) else c.writeRegion st
    | .warmRegion => c.warmBegin st got
    | .warmSlot i => c.warmSlot st i got
    | .warmFree i => c.warmNext st i
    | .repair todo => c.repairPublished st todo
    | .repairStored todo => c.nextRepair st todo
    | .region => c.publishStart st
    | .publish => c.startClock st
    | .clock =>
      (c.modMon (Monitor.warmClock (wordAt got 1).toNat (low24 (wordAt got 2))
        (decide (byteOf (wordAt got 0) 1 % 2 = 1)))).writeMirror st 0
    | .mirrors n =>
      if h : n < 64 then
        let c := c.modMirror ⟨n, h⟩ fun m => { m with version := m.version + 2 }
        if h' : n + 1 < 64 then c.writeMirror st ⟨n + 1, h'⟩ else c.startHeader st
      else c
    | .profile | .header _ _ => c

/-- A request of the Profile Loader has ended (R9): the rest of the words is read where the header is in order (log 26),
and at the end the load is applied. A warm start then reads the first four words of the region header (log 74). -/
def Chip.loaderDone (c : Chip) (got : List Word) : Chip :=
  match c.load with
  | none => c
  | some l =>
    let words := l.words ++ got
    let more := if profHeadValid words then profAccesses words - words.length else 0
    if 0 < more then
      { c with load := some { l with words := words } }.hand .loader
        ((List.range more).map fun i => .read (Config.profileOff + 4 * (words.length + i)))
    else
      let r := loadProfile words
      match l.ctx with
      | some k => (c.applyReload r).endReload k (if r.state = .defaults then .profileInvalid else .noError)
      | none =>
        let c := { c.applyStart r with load := none }
        match c.start with
        | none => c
        | some st => match st.mode with
          | .cold => c.coldStart st
          | .warm => c.atStage st .warmRegion ((List.range 4).map fun j => .read (Config.regionOff + 4 * j))

/-! ## STOPPING (R189, R64) -/

/-- A session as the entry to STOPPING treats it (R64). -/
def Chip.stopSession (c : Chip) (u : UnitIx) : Chip :=
  let c := c.modSession u fun s => { s with posted := none, graceDrop := false }
  match c.unit u with
  | none => c
  | some r => match r.session.state with
    | .closed | .cooling => c.dropOpen u
    | .opening | .closing => c
    | .opened => (c.withdrawFor u Msg.isRequest).askClose u
    | .exchanging =>
      if r.clearAwaits then c.modSession u fun s => { s with heldClose := true }
      else
        ((c.modUnit u fun r => { r with exch := none, session := { r.session with state := .opened } }).withdrawFor u
          fun m => m.isPull || m.isRequest).askClose u

/-- A reload that has not passed its apply point ends with CUT (R189). -/
def Chip.cutReloads (c : Chip) : Chip :=
  allCtxs.foldl (fun c k =>
    let x := c.ctx k
    if x.state = .running ∧ x.content.kind = .reload then c.abandonReload k .cut else c) c

/-- The scan stops: what it was reading is given up; a TAKEN or FAILED write under way is finished (log 21). -/
def Chip.stopScan (c : Chip) : Chip :=
  let c := { c with scan := { c.scan with timer := none, again := false } }
  match c.scan.stage with
  | some (.taking _ _ _) | some (.failing _) | none => c
  | some _ => { c with scan := { c.scan with stage := none } }.giveUp .scan

/-- STOPPING is entered (R189). -/
def Chip.enterStopping (c : Chip) : Chip :=
  let wasActive := c.col.dipActive
  let c := { c with col := .stopping }.stopScan.modMon fun m => { m with grace := none, parkPending := false }
  let c := if wasActive then c else c.dipOn
  let c := ((c.cutPlans .cutStop).cutCensuses).cutReloads
  let c := allUnits.foldl Chip.stopSession c
  { c with stopTimer := some Config.stoppingMs }.wantHeader

/-- The first two conditions of R189 hold: no session holds a slot or the STOPPING timer has expired, and no context is
taken; and no card write of the scan is under way (log 21). -/
def Chip.stopReady (c : Chip) : Bool :=
  (c.stopTimer.isNone || allSegs.all fun g => decide (c.slotsHeld g = 0))
    && (allCtxs.all fun k => decide ((c.ctx k).state = .free)) && c.scan.stage.isNone

/-- STOPPING ends (R189): its three conditions hold at once. -/
def Chip.stopEnds (c : Chip) : Bool := decide (c.col = .stopping) && c.stopReady && c.hist.run.isNone

/-! ## STOPPED (R190) -/

/-- A segment enters DOWN at a stop or halt, and its census with its roll window is gone. -/
def SegRec.shut (r : SegRec) : SegRec := { r.enterDown with census := none }

/-- What an entry to STOPPED does on chip, from STOPPING or from HALTED (R190, R64). -/
def Chip.shutDown (c : Chip) : Chip :=
  let c := { c with
    col := .stopped
    stopTimer := none
    ctxs := .replicate 4 .cleared
    scan := { stage := none, taking := true, again := false, timer := none }
    load := none }
  let c := (c.modAllSegs SegRec.shut).modMon fun m => { m.dipOff with grace := none, parkPending := false }
  let c := allUnits.foldl (fun c u => (c.endSession u).modUnit u fun r => { r with queue := [] }) c
  c.modHist fun h => { h with intake := [], run := none, handWait := [] }

/-- A request joins the end of the requests that wait. -/
def Chip.handLast (c : Chip) (owner : Owner) (accs : List Acc) : Chip :=
  c.modPort fun p => { p with waiting := p.waiting ++ [{ owner := owner, accs := accs, got := [] }] }

/-- The entry writes of STOPPED from STOPPING (R190): the mirror records whose contents changed, in ascending order, then
the whole header. Rewrites that were still asked for are among them. -/
def Chip.entryWrites (before after : Chip) : Chip :=
  let due := allUnits.filter fun u =>
    decide (mirrorWords (before.unit u) ≠ mirrorWords (after.unit u)) || (before.mirror u).pending
  let c := due.foldl (fun c u =>
    (c.handLast (.mirror u) (mirrorAccs u (c.mirror u).base)).modMirror u fun m =>
      { m with busy := true, pending := false }) after
  { c with hdr := { busy := true, pending := false, wanted := false } }.handLast .header headerAccs

/-- STOPPED is entered from STOPPING. -/
def Chip.enterStopped (c : Chip) : Chip := Chip.entryWrites c c.shutDown

/-! ## HALTED (R191) and errors in STOPPED (R184) -/

/-- The port has nothing to do, and no rewrite is under way or asked for. A mirror version keeps its even value from before
a rewrite that ends so (log 70). -/
def Chip.portOff (c : Chip) : Chip :=
  { c with
    port := .idle
    hdr := { busy := false, pending := false, wanted := false }
    mirrors := c.mirrors.map fun (m : Mirror) => { m with busy := false, pending := false } }

/-- A segment at a halt: DOWN, its census no longer advancing. -/
def SegRec.halt (r : SegRec) : SegRec :=
  { r.enterDown with census := r.census.map fun n => { n with window := none } }

/-- HALTED is entered (R191): MEMFAULT, no further access, segments DOWN, sessions ended, plans dropped without a
result, the intake discarded; contexts and marks stay as they are. -/
def Chip.enterHalted (c : Chip) : Chip :=
  let c := { c.portOff with
    col := .halted
    stopTimer := none
    scan := { stage := none, taking := true, again := false, timer := none }
    load := none
    start := none }
  let c := (c.modAllSegs SegRec.halt).modMon fun m => { m.dipOff with grace := none, parkPending := false }
  let c := allUnits.foldl (fun c u => (c.endSession u).modUnit u fun r => { r with queue := [] }) c
  (c.modHist fun h => { h with intake := [], run := none, handWait := [] }).setCause .memFault

/-! ## Leaving STARTING (R188) -/

/-- The collector enters a state chosen at the end of STARTING: segments in use leave DOWN (R67), the dip monitor becomes
active (R178), a card scan is made (R195), or STOPPING begins. -/
def Chip.enterChosen (c : Chip) (chosen : Collector) : Chip :=
  let c := { c with col := chosen, start := none }
  let c := if chosen.dipActive then c.dipOn else c
  let running := c.runningState
  let c := allSegs.foldl (fun c g => match c.mode g with
    | some .active | some .listen => c.modSeg g fun r => r.moveFrom .down running
    | _ => c) c
  if chosen = .stopping then c.enterStopping
  else { c with scan := { c.scan with timer := some Config.scanMs } }.startScan

/-- A header rewrite has ended: where it was step 7 of STARTING, the collector enters the state chosen; the choice is
made as this moment finds the stop-request mark and IGN (log 23). -/
def Chip.startingHeader (c : Chip) : Chip :=
  match c.start with
  | none => c
  | some st => match st.stage with
    | .header chosen n =>
      if n ≤ 1 then c.enterChosen c.chosen
      else { c with start := some { st with stage := .header chosen (n - 1) } }
    | _ => c

end Sys2Proof.Machine
end

