-- ==== Sys2Proof/Machine/Port.lean ====
section
/-!
DEFINITION. The Exchange Port's accesses (R184): what an access carries, the start of the next access, the end of a
request; the rewrites that a command asks for (R193, R194, R83); and what follows a command before the next is taken.
-/

namespace Sys2Proof.Machine

/-! ## Accesses (R184) -/

/-- The word a write carries, worked out as its access starts (log 9). -/
def Chip.srcWord (c : Chip) : Src → Word
  | .lit w => w
  | .header i => headerWord c i
  | .mirror u i => wordAt (mirrorWords (c.unit u)) i
  | .published => word c.hist.published

/-- The host address of an offset: XBASE plus the offset, the aligned word there. -/
def Chip.hostAddr (c : Chip) (off : Nat) : Nat := (c.regs.xbase + BitVec.ofNat 32 off).toNat / 4 * 4

/-- An access as it goes onto the bus. -/
def Chip.busOf (c : Chip) : Acc → Bus
  | .read off => { addr := c.hostAddr off, data := none }
  | .write off src => { addr := c.hostAddr off, data := some (c.srcWord src) }

/-- The request to serve: the one being served, or else the oldest that waits. -/
def Port.load (p : Port) : Port :=
  match p.serving, p.waiting with
  | none, r :: rest => { p with serving := some r, waiting := rest }
  | _, _ => p

/-- The port starts its next access if none is in flight. -/
def Chip.startAccess (c : Chip) : Chip :=
  match c.port.bus with
  | some _ => c
  | none =>
    let p := c.port.load
    match p.serving.bind fun r => r.accs.head? with
    | some a => { c with port := { p with bus := some (c.busOf a) } }
    | none => { c with port := p }

/-- The block that hands a request over (R184): the header, the roster mirror, the order cards, the Profile Loader, the
History Table, STARTING. -/
def Owner.block : Owner → Nat
  | .header => 0
  | .mirror _ => 1
  | .scan | .result _ => 2
  | .loader => 3
  | .history => 4
  | .starting => 5
  | .orphan => 6

/-- The requests handed over within a command join those that wait: those of one block in the order in which they were
handed over, those of two blocks in an order left open (R184, log 6). -/
def Chip.enqueue (c : Chip) : Chip :=
  let same := fun (a b : Request) => decide (a.owner.block = b.owner.block)
  { c with
    port := { c.port with waiting := c.port.waiting ++ arrange same c.freeIdx c.port.fresh, fresh := [] }
    freeIdx := c.freeIdx + (c.port.fresh.length - 1) }

/-! ## The end of a request -/

/-- A header rewrite has ended (R193): a pending one is asked for, and who waited for it goes on. -/
def Chip.headerDone (c : Chip) : Chip :=
  let c := { c with hdr := { busy := false, pending := false, wanted := c.hdr.wanted || c.hdr.pending } }
  (allCtxs.foldl Chip.clockHeader c.historyHeader).startingHeader

/-- A record rewrite has ended (R194): the version stands, and a pending rewrite is handed over. -/
def Chip.mirrorDone (c : Chip) (u : UnitIx) : Chip :=
  let m := c.mirror u
  let c := c.modMirror u fun m => { version := m.version + 2, busy := m.pending, pending := false }
  if m.pending then c.hand (.mirror u) (mirrorAccs u (m.version + 2)) else c

/-- A request has ended: its owner goes on. -/
def Chip.requestDone (c : Chip) (r : Request) : Chip :=
  match r.owner with
  | .header => c.headerDone
  | .mirror u => c.mirrorDone u
  | .scan => c.scanDone r.got
  | .result k => c.resultDone k
  | .loader => c.loaderDone r.got
  | .history => c.historyDone r.got
  | .starting => c.startingDone r.got
  | .orphan => c

/-- The access in flight of a request writes the header word of the published change sequence. -/
def Request.writesSequence (r : Request) : Bool :=
  match r.accs.head? with
  | some (.write _ (.header i)) => decide (i = 3)
  | _ => false

/-- The access in flight has ended with completion; `got` is the word it read. The request goes on to its next access,
or ends. -/
def Chip.accessDone (c : Chip) (got : Option Word) : Chip :=
  match c.port.serving with
  | none => c.modPort fun p => { p with bus := none }
  | some r =>
    let c := if r.writesSequence then c.sequenceWritten else c
    let r := { r with accs := r.accs.drop 1, got := r.got ++ got.toList }
    match r.accs with
    | [] => (c.modPort fun p => { p with bus := none, serving := none }).requestDone r
    | _ :: _ => c.modPort fun p => { p with bus := none, serving := some r }

/-! ## Rewrites asked for (R83, R193, R194) -/

/-- Rewrites are asked for in this state: RUNNING, PARKED, STOPPING, and the last step of STARTING. -/
def Chip.asks (c : Chip) : Bool :=
  match c.col with
  | .running | .parked | .stopping => true
  | .stopped | .halted => false
  | .starting => match c.start with
    | some st => match st.stage with
      | .header _ _ => true
      | _ => false
    | none => false

/-- The header fields whose change asks for a rewrite: every field but CT and the error counts (R193), and the published
change sequence, which changes as a header write shows it (R128). -/
def headerImage (c : Chip) : List Word :=
  (List.range 28).map fun i =>
    if i = 3 ∨ i = 4 then 0
    else if i = 13 ∨ i = 17 ∨ i = 21 ∨ i = 25 then headerWord c i &&& 0xFFFF0000
    else headerWord c i

/-- A header rewrite is asked for (R193): it starts, or the header-pending mark is set. It restarts the counts of R171
and of R83. -/
def Chip.askHeader (c : Chip) : Chip :=
  let c := (c.modMon fun m => { m with rises := 0 }).modAllSegs fun r => { r with errTimer := none }
  if c.hdr.busy then { c with hdr := { busy := true, pending := true, wanted := false } }
  else { c with hdr := { busy := true, pending := c.hdr.pending, wanted := false } }.hand .header headerAccs

/-- A record rewrite is asked for (R194). -/
def Chip.askMirror (c : Chip) (u : UnitIx) : Chip :=
  if (c.mirror u).busy then c.modMirror u fun m => { m with pending := true }
  else (c.hand (.mirror u) (mirrorAccs u (c.mirror u).version)).modMirror u fun m => { m with busy := true }

/-- The error counts of a segment alone have changed: its record is rewritten within a second (R83, log 12). -/
def SegRec.countChanged (old r : SegRec) : SegRec :=
  if (old.txErrors ≠ r.txErrors ∨ old.rxErrors ≠ r.rxErrors) ∧ r.errTimer = none then
    { r with errTimer := some Config.errorRewriteMs }
  else r

/-- The rewrites that a command asks for, from the state before it (log 11). -/
def Chip.askRewrites (old c : Chip) : Chip :=
  if !c.asks then { c with hdr := { c.hdr with wanted := false } }
  else
    let c := if c.col = .starting then c
      else (allUnits.filter fun u => decide (mirrorWords (old.unit u) ≠ mirrorWords (c.unit u))).foldl Chip.askMirror c
    if c.hdr.wanted || decide (headerImage old ≠ headerImage c) then c.askHeader
    else allSegs.foldl (fun c g => c.modSeg g (SegRec.countChanged (old.seg g))) c

/-! ## What follows a command -/

/-- The history takes its next item: none is under way, one waits, the collector works, and STOPPING is not about to end
between two items (R126, R189). -/
def Chip.mayTake (c : Chip) : Bool :=
  c.hist.run.isNone && !c.hist.intake.isEmpty
    && match c.col with
      | .running | .parked => true
      | .stopping => !c.stopReady
      | .stopped | .starting | .halted => false

/-- A segment with received frames that wait and may now be handled (R126). -/
def Chip.frameReady (c : Chip) : Option Seg :=
  allSegs.find? fun g => !(c.seg g).rxWait.isEmpty && !c.rxBlocked g

/-- The first frame that waits on a segment is handled, whatever has become of the segment since it arrived, short of DOWN
(log 29). -/
def Chip.handleWaiting (c : Chip) (g : Seg) : Chip :=
  match (c.seg g).rxWait with
  | f :: rest => (c.modSeg g fun r => { r with rxWait := rest }).handleFrame g f
  | [] => c

/-- Parking is due: the mark is set and no CLEAR awaits CLEAR-DONE (R175). -/
def Chip.parkDue (c : Chip) : Bool := c.mon.parkPending && decide (c.col = .running) && !c.anyClearAwaits

/-- What is ready is done: parking, the next item of the intake, the frames that waited; `fuel` bounds the rounds. -/
def Chip.drain : Nat → Chip → Chip
  | 0, c => c
  | fuel + 1, c =>
    if c.parkDue then drain fuel (c.modMon fun m => { m with parkPending := false }).park
    else if c.mayTake then drain fuel c.takeItem
    else match c.frameReady with
      | some g => drain fuel (c.handleWaiting g)
      | none => c

/-- Rounds of one command at most. Irreducible, so that no proof unfolds the rounds. -/
@[irreducible] def drainFuel : Nat := 1000

/-- What follows a command before the next is taken: what is ready is done, the arbiters grant, the rewrites are asked
for, and the port starts its next access. `old` is the chip before the command. Irreducible, as the rounds are. -/
@[irreducible] def Chip.settle (old c : Chip) : Chip :=
  ((Chip.askRewrites old (c.drain drainFuel).grantAll).enqueue).startAccess

end Sys2Proof.Machine
end

