-- ==== Sys2Proof/Machine/Registers.lean ====
section
/-!
DEFINITION. The register writes (R185 to R187, R195, R198): what each does to the chip, and its meaning.
-/

namespace Sys2Proof.Machine

/-- A command's meaning from its effect on the chip: the effect, and what follows every command. The queue and the
exchange area are left alone. -/
def State.act (s : State) (f : Chip → Chip) : Host.Outcome State Fault Refusal :=
  .next { s with chip := Chip.settle s.chip (f s.chip) }

/-- POWER_ON_RESET (R187): every block in its reset state; the inputs stand as they are. -/
def execPowerOnReset (s : State) : Host.Outcome State Fault Refusal :=
  .next { s with chip := Chip.resetWith 0 0 s.chip.mon.raw s.chip.mon.supply s.chip.freeIdx }

/-- SOFT_RESET (R187): as a power-on reset, but XBASE and NMASK keep their values. -/
def execSoftReset (s : State) : Host.Outcome State Fault Refusal :=
  .next { s with chip :=
    Chip.resetWith s.chip.regs.xbase s.chip.regs.nmask s.chip.mon.raw s.chip.mon.supply s.chip.freeIdx }

/-- RUN is written 1 (R186): the collector acts on the change alone. -/
def Chip.runSet (c : Chip) : Chip :=
  if c.regs.run then c
  else
    let c := { c with regs := { c.regs with run := true } }
    match c.col with
    | .stopped => c.runEdge
    | .starting => { c with stopRequest := false }
    | .running | .parked | .stopping | .halted => c

/-- RUN_SET (R186). -/
def execRunSet (s : State) : Host.Outcome State Fault Refusal := s.act Chip.runSet

/-- RUN is written 0 (R186): in HALTED it enters STOPPED whatever RUN was. -/
def Chip.runClear (c : Chip) : Chip :=
  let was := c.regs.run
  let c := { c with regs := { c.regs with run := false } }
  match c.col with
  | .halted => c.shutDown
  | .starting => if was then { c with stopRequest := true } else c
  | .running | .parked => if was then c.enterStopping else c
  | .stopped | .stopping => c

/-- RUN_CLEAR (R186, R189, R190). -/
def execRunClear (s : State) : Host.Outcome State Fault Refusal := s.act Chip.runClear

/-- START_MODE_WRITE (R186): taken in every state. -/
def execStartModeWrite (mode : StartMode) (s : State) : Host.Outcome State Fault Refusal :=
  s.act fun c => { c with regs := { c.regs with startMode := mode } }

/-- A write to XBASE (R185): taken in STOPPED and HALTED, ignored in every other state. -/
def Chip.writeXbase (v : Word) (c : Chip) : Chip :=
  match c.col with
  | .stopped | .halted => { c with regs := { c.regs with xbase := v } }
  | .starting | .running | .parked | .stopping => c

/-- XBASE_WRITE (R185). -/
def execXbaseWrite (value : Word) (s : State) : Host.Outcome State Fault Refusal := s.act (Chip.writeXbase value)

/-- ATTEND (R195): a scan request, whatever is written. -/
def execAttend (_value : Word) (s : State) : Host.Outcome State Fault Refusal := s.act Chip.scanRequest

/-- NOTICE_CLEAR (R198): each cause whose bit is written 1 is cleared. -/
def execNoticeClear (value : Word) (s : State) : Host.Outcome State Fault Refusal :=
  s.act fun c => { c with regs := { c.regs with notice := c.regs.notice &&& ~~~value } }

/-- NMASK_WRITE (R198): the named bits are stored. -/
def execNmaskWrite (value : Word) (s : State) : Host.Outcome State Fault Refusal :=
  s.act fun c => { c with regs := { c.regs with nmask := value &&& noticeBits } }

/-- REGISTER_WRITE_IGNORED (R185): nothing changes. -/
def execRegisterWriteIgnored (_offset : Nat) (_value : Word) (s : State) : Host.Outcome State Fault Refusal :=
  s.act fun c => c

/-- ENTER_STOPPED (R189, R190): from STOPPING when its conditions hold, from HALTED after RUN 0. -/
def Chip.onEnterStopped (c : Chip) : Chip :=
  if c.stopEnds then c.enterStopped
  else if c.col = .halted ∧ c.regs.run = false then c.shutDown
  else c

/-- ENTER_STOPPED (R190). -/
def execEnterStopped (s : State) : Host.Outcome State Fault Refusal := s.act Chip.onEnterStopped

end Sys2Proof.Machine
end

