-- ==== Sys2Proof/Machine/Ignition.lean ====
section
/-!
DEFINITION. The events at the monitor's inputs and its timers (R165 to R183): what each does to the chip, and its
meaning. An expiry acts while its timer runs (log 2).
-/

namespace Sys2Proof.Machine

/-- The raw ignition level goes to `level` (R165). -/
def Monitor.rawChange (level : Bool) (m : Monitor) : Monitor :=
  if m.raw = level then m
  else { m with raw := level, debounce := if m.ign = level then none else some Config.debounceMs }

/-- IGN_RAW_CHANGE (R165). -/
def execIgnRawChange (level : Bool) (s : State) : Host.Outcome State Fault Refusal :=
  s.act fun c => c.modMon (Monitor.rawChange level)

/-- The debounce has expired: IGN takes the raw level (R165). -/
def Monitor.edge (m : Monitor) : Monitor := { m with ign := m.raw, debounce := none }

/-- The debounce timer may expire to a level: it runs, the raw level is that, and IGN is not (R165, log 2). -/
def Monitor.edgeDue (m : Monitor) (level : Bool) : Bool :=
  m.debounce.isSome && decide (m.raw = level) && decide (m.ign ≠ level)

/-- An IGN-on edge (R166, R174, R177). -/
def Chip.ignOn (c : Chip) : Chip :=
  if !c.mon.edgeDue true then c
  else
    let c := c.modMon Monitor.edge
    match c.col with
    | .stopped | .starting | .halted => c
    | .running => (c.modMon fun m => { m with grace := none, parkPending := false }).cycleEffects
    | .parked => c.cycleEffects.wake
    | .stopping => c.cycleEffects

/-- IGN_ON (R166). -/
def execIgnOn (s : State) : Host.Outcome State Fault Refusal := s.act Chip.ignOn

/-- The run-on grace starts, or ends at once where it is 0 (R173). -/
def Chip.startGrace (c : Chip) : Chip :=
  if c.sets.grace = 0 then c.graceEnd else c.modMon fun m => { m with grace := some (1000 * c.sets.grace) }

/-- An IGN-off edge (R166, R173). -/
def Chip.ignOff (c : Chip) : Chip :=
  if !c.mon.edgeDue false then c
  else
    let c := c.modMon Monitor.edge
    match c.col with
    | .running => c.startGrace
    | .stopped | .starting | .parked | .stopping | .halted => c

/-- IGN_OFF (R173). -/
def execIgnOff (s : State) : Host.Outcome State Fault Refusal := s.act Chip.ignOff

/-- SUPPLY_CROSSING (R179): the comparator's input stands at `mv`; the monitor looks at it while it is active. -/
def execSupplyCrossing (mv : Nat) (s : State) : Host.Outcome State Fault Refusal :=
  s.act fun c => (c.modMon fun m => { m with supply := mv }).dipLook

/-- Dip entry (R180). -/
def Chip.dipEntry (c : Chip) : Chip :=
  if c.mon.dip = .falling then
    let c := c.modMon fun m => { m with dip := .dipped, dipTimer := none, dipCount := satInc Config.max16 m.dipCount }
    (((c.modAllSegs SegRec.hold).wantHeader).setCause .dip)
  else c

/-- DIP_ENTRY (R180). -/
def execDipEntry (s : State) : Host.Outcome State Fault Refusal := s.act Chip.dipEntry

/-- Dip end, in the order of R181: drops, segments, header. -/
def Chip.dipEnd (c : Chip) : Chip :=
  if c.mon.dip = .settling then
    let c := (c.dropAll).modMon fun m => { m with dip := .normal, settleTimer := none }
    (c.modAllSegs fun r => r.moveFrom .held .live).wantHeader
  else c

/-- DIP_END (R181). -/
def execDipEnd (s : State) : Host.Outcome State Fault Refusal := s.act Chip.dipEnd

/-- GRACE_END (R175): the grace timer expires. -/
def execGraceEnd (s : State) : Host.Outcome State Fault Refusal :=
  s.act fun c => if c.mon.grace.isSome then c.graceEnd else c

/-- The CT phase reaches 6,000 ms (R168, R171). -/
def Chip.ctRise (c : Chip) : Chip :=
  if c.timeBase then
    if c.mon.ct < Config.max32 then
      let c := c.modMon fun m => { m with phase := 0, ct := m.ct + 1, rises := m.rises + 1 }
      if 10 ≤ c.mon.rises then c.wantHeader else c
    else c.modMon fun m => { m with phase := 0 }
  else c

/-- CT_RISE (R168). -/
def execCtRise (s : State) : Host.Outcome State Fault Refusal := s.act Chip.ctRise

/-- The sweep timer expires (R183): the Order Engine takes the expiry; SINGLE spends the cycle by a sweep started. -/
def Chip.sweepTimer (c : Chip) : Chip :=
  if c.timeBase && c.sets.sweep.enable && !c.mon.spent then
    let (c, started) := c.sweepExpiry
    c.modMon fun m => { m with sweepMs := 0, spent := started && !c.sets.sweep.repeats }
  else c

/-- SWEEP_TIMER_EXPIRY (R183). -/
def execSweepTimerExpiry (s : State) : Host.Outcome State Fault Refusal := s.act Chip.sweepTimer

/-- The scan timer expires (R195): it restarts, and a scan request arises. -/
def Chip.scanTimer (c : Chip) : Chip :=
  if c.scan.timer.isSome then
    { c with scan := { c.scan with timer := some Config.scanMs } }.scanRequest
  else c

/-- SCAN_TIMER_EXPIRY (R195). -/
def execScanTimerExpiry (s : State) : Host.Outcome State Fault Refusal := s.act Chip.scanTimer

/-- STOPPING_TIMER_EXPIRY (R189): the session condition is released. -/
def execStoppingTimerExpiry (s : State) : Host.Outcome State Fault Refusal :=
  s.act fun c => if c.col = .stopping then { c with stopTimer := none } else c

end Sys2Proof.Machine
end

