-- ==== Sys2Proof/Machine/Timers.lean ====
section
/-!
DEFINITION. The timers of units and segments: what each expiry does to the chip, and its meaning. An expiry acts while its
timer runs, and has no effect otherwise (log 2).
-/

namespace Sys2Proof.Machine

/-! ## Units -/

/-- The keep timer of a unit may expire: it runs, the session is OPEN or EXCHANGING, the segment is not HELD (R56). -/
def Chip.keepRuns (c : Chip) (u : UnitIx) : Bool :=
  match c.unit u with
  | some r => r.session.keepTimer.isSome
      && (decide (r.session.state = .opened) || decide (r.session.state = .exchanging))
      && decide ((c.seg r.seg).state ≠ .held)
  | none => false

/-- The keep timer expires (R57): it starts again at once, and the debt rises, or the session is dropped at a debt
of 3. -/
def Chip.keepExpiry (u : UnitIx) (c : Chip) : Chip :=
  if c.keepRuns u then
    match c.unit u with
    | none => c
    | some r =>
      let debt := r.session.keepDebt
      if 3 ≤ debt then c.drop u true
      else
        let c := c.modSession u fun s =>
          { s with keepDebt := debt + 1, keepTimer := some (c.segSets r.seg).keepInterval }
        if debt = 0 then c.postFor u .keep false else c
  else c

/-- KEEP_TIMER_EXPIRY (R57). -/
def execKeepTimerExpiry (unit : UnitIx) (s : State) : Host.Outcome State Fault Refusal := s.act (Chip.keepExpiry unit)

/-- The cooling timer expires (R54). -/
def Chip.coolExpiry (u : UnitIx) (c : Chip) : Chip :=
  c.modSession u fun s => if s.state = .cooling ∧ s.coolTimer.isSome then s.closed else s

/-- COOLING_TIMER_EXPIRY (R54). -/
def execCoolingTimerExpiry (unit : UnitIx) (s : State) : Host.Outcome State Fault Refusal :=
  s.act (Chip.coolExpiry unit)

/-- The exchange of a unit with its open or reply timer running. -/
def Chip.timed (c : Chip) (u : UnitIx) : Option Exchange :=
  ((c.unit u).bind UnitRec.exch).filter fun x => x.timer.isSome

/-- The open timer expires (R48). -/
def Chip.openExpiry (u : UnitIx) (c : Chip) : Chip :=
  match c.timed u with
  | some x => if x.kind = .opn then c.openTimesOut u else c
  | none => c

/-- OPEN_TIMER_EXPIRY (R48). -/
def execOpenTimerExpiry (unit : UnitIx) (s : State) : Host.Outcome State Fault Refusal := s.act (Chip.openExpiry unit)

/-- The reply timer expires (R29): a request's attempt ends by timeout, a CLOSE ends without BYE. -/
def Chip.replyExpiry (u : UnitIx) (c : Chip) : Chip :=
  match c.timed u with
  | some x => match x.kind with
    | .opn => c
    | .request _ => c.attemptFails u
    | .close => c.closeEnds u
  | none => c

/-- REPLY_TIMER_EXPIRY (R29). -/
def execReplyTimerExpiry (unit : UnitIx) (s : State) : Host.Outcome State Fault Refusal := s.act (Chip.replyExpiry unit)

/-- The rest time of a unit has run out (R31): the repeat is posted. -/
def Chip.restExpiry (u : UnitIx) (c : Chip) : Chip :=
  match (c.unit u).bind UnitRec.exch with
  | some x => if x.rest.isSome then c.postRepeat u else c
  | none => c

/-- REST_TIMER_EXPIRY (R31). -/
def execRestTimerExpiry (unit : UnitIx) (s : State) : Host.Outcome State Fault Refusal := s.act (Chip.restExpiry unit)

/-- A plan has a HOLD in flight whose timer runs. -/
def Plan.holdRuns (p : Plan) : Bool :=
  match p.work with
  | some (.hold _ (some _)) => true
  | _ => false

/-- The hold timer expires (R99): the HOLD ends DONE. -/
def Chip.holdExpiry (u : UnitIx) (c : Chip) : Chip :=
  match c.firstPlan u with
  | some p => if p.holdRuns && p.ended.isNone then c.stepEnds u .done else c
  | none => c

/-- HOLD_TIMER_EXPIRY (R99). -/
def execHoldTimerExpiry (unit : UnitIx) (s : State) : Host.Outcome State Fault Refusal := s.act (Chip.holdExpiry unit)

/-! ## Segments -/

/-- The roll window of a segment expires (R20): its census ends. -/
def Chip.rollExpiry (g : Seg) (c : Chip) : Chip := if c.rollWindowRuns g then c.endCensus g .noError else c

/-- ROLL_WINDOW_EXPIRY (R20). -/
def execRollWindowExpiry (seg : Seg) (s : State) : Host.Outcome State Fault Refusal := s.act (Chip.rollExpiry seg)

/-- The recovery timer expires (R74): the error counts become 0, and the segment enters its running state. -/
def Chip.recoveryExpiry (g : Seg) (c : Chip) : Chip :=
  if (c.seg g).recovery.isSome then
    let running := c.runningState
    let c := c.modSeg g (SegRec.recovered running)
    if running = .quiet then c.shedOpens g else c
  else c

/-- RECOVERY_TIMER_EXPIRY (R74). -/
def execRecoveryTimerExpiry (seg : Seg) (s : State) : Host.Outcome State Fault Refusal :=
  s.act (Chip.recoveryExpiry seg)

/-- OPEN_WINDOW_AGEING_EXPIRY (R81): the oldest entry leaves the list. -/
def execOpenWindowAgeingExpiry (seg : Seg) (s : State) : Host.Outcome State Fault Refusal :=
  s.act fun c => c.modSeg seg fun r => { r with window := r.window.drop 1 }

/-- The error counts alone have changed, and the second has passed (R83): the record is rewritten. -/
def Chip.errorsDue (g : Seg) (c : Chip) : Chip :=
  if (c.seg g).errTimer.isSome then (c.modSeg g fun r => { r with errTimer := none }).wantHeader else c

/-- ERROR_COUNT_REWRITE_DUE (R83). -/
def execErrorCountRewriteDue (seg : Seg) (s : State) : Host.Outcome State Fault Refusal := s.act (Chip.errorsDue seg)

end Sys2Proof.Machine
end

