-- ==== Sys2Proof/Machine/Transmissions.lean ====
section
/-!
DEFINITION. The ends of a transmission (R71): the six completions (R80), failure with bus-off (R73, R75), lost
arbitration; and the meanings. A completion that is not of the frame in the slot has no effect (log 3).
-/

namespace Sys2Proof.Machine

/-! ## Success (R71, R80) -/

/-- The frame in the slot went out: the transmit error count falls, the unanswered bus-off count becomes 0, the slot
empties. -/
def SegRec.sent (r : SegRec) : SegRec := { r with txErrors := r.txErrors - 1, unanswered := 0, slot := none }

/-- A transmit completion of a frame in the slot whose message satisfies `which`, handed on by `handOn` with the item, unless
its session was dropped meanwhile (R59). -/
def Chip.completed (c : Chip) (g : Seg) (which : Msg → Bool) (handOn : Chip → Item → Chip) : Chip :=
  match (c.seg g).slot with
  | none => c
  | some t =>
    if which t.item.msg then
      let c := c.modSeg g SegRec.sent
      if t.stale then c else handOn c t.item
    else c

/-- A completion is handed to the unit of its item. -/
def Chip.toUnit (g : Seg) (f : Chip → UnitIx → Chip) (c : Chip) (i : Item) : Chip :=
  match c.findUnit g i.addr with
  | some u => f c u
  | none => c

/-- The OPEN in the slot went out (R46): it enters the open window whatever became of its session (R80). -/
def Chip.openDone (g : Seg) (c : Chip) : Chip :=
  let entered := match (c.seg g).slot with
    | some t => t.item.msg.isOpen
    | none => false
  let c := if entered then c.modSeg g fun r => { r with window := r.window ++ [0] } else c
  c.completed g Msg.isOpen (Chip.toUnit g Chip.openWentOut)

/-- OPEN_COMPLETION (R46). -/
def execOpenCompletion (seg : Seg) (s : State) : Host.Outcome State Fault Refusal := s.act (Chip.openDone seg)

/-- The request in the slot went out (R51). -/
def Chip.requestOut (g : Seg) (c : Chip) : Chip :=
  c.completed g Msg.isRequest fun c i => match i.msg with
    | .request q => Chip.toUnit g (fun c u => c.requestWentOut u q i.again) c i
    | _ => c

/-- REQUEST_COMPLETION (R51). -/
def execRequestCompletion (seg : Seg) (s : State) : Host.Outcome State Fault Refusal := s.act (Chip.requestOut seg)

/-- The PULL in the slot went out (R35). -/
def Chip.pullOut (g : Seg) (c : Chip) : Chip :=
  c.completed g Msg.isPull fun c i => match i.msg with
    | .pull k => Chip.toUnit g (fun c u => c.pullWentOut u k) c i
    | _ => c

/-- PULL_COMPLETION (R35). -/
def execPullCompletion (seg : Seg) (s : State) : Host.Outcome State Fault Refusal := s.act (Chip.pullOut seg)

/-- CLOSE_COMPLETION (R53). -/
def execCloseCompletion (seg : Seg) (s : State) : Host.Outcome State Fault Refusal :=
  s.act fun c => c.completed seg Msg.isClose (Chip.toUnit seg Chip.closeWentOut)

/-- KEEP_COMPLETION (R58). -/
def execKeepCompletion (seg : Seg) (s : State) : Host.Outcome State Fault Refusal :=
  s.act fun c => c.completed seg Msg.isKeep (Chip.toUnit seg Chip.payDebt)

/-- A ROLL. -/
def Msg.isRoll : Msg → Bool | .roll => true | _ => false

/-- The roll window of a segment's census starts (R18), if the ROLL is that of the census that runs. -/
def Chip.startWindow (c : Chip) (g : Seg) (stamp : Nat) : Chip :=
  let length := (c.segSets g).rollWindow
  c.modSeg g fun r => { r with census := r.census.map fun n =>
    if n.rollStamp = stamp then { n with window := some length } else n }

/-- ROLL_COMPLETION (R18). -/
def execRollCompletion (seg : Seg) (s : State) : Host.Outcome State Fault Refusal :=
  s.act fun c => c.completed seg Msg.isRoll fun c i => c.startWindow seg i.stamp

/-! ## Failure and bus-off (R71, R73, R75) -/

/-- A failed item goes back to its class in its former place, unless its session was dropped meanwhile. So does the ROLL
of a census that has ended, beside a later census's (log 53). -/
def SegRec.giveBack (r : SegRec) : SegRec :=
  match r.slot with
  | none => r
  | some t =>
    let r := { r with slot := none }
    if t.stale then r else r.join t.item (insertByStamp t.item)

/-- An OPEN ends at the third bus-off as if its last attempt had timed out (R75): the session is left in its state. -/
def Chip.openLost (g : Seg) (c : Chip) (i : Item) : Chip :=
  match c.findUnit g i.addr with
  | none => c
  | some u => match c.unit u with
    | none => c
    | some r =>
      let busy := match r.exch with
        | some x => x.answered
        | none => false
      let waits := r.session.posted.isSome || (match r.queue with | p :: _ => p.holdWaits | [] => false)
      let c := (c.modUnit u fun r => { r with exch := none, session := { r.session with posted := none } }).withdrawFor u
        Msg.isOpen
      let c := if busy then c else c.lose u
      let c := if waits then c.firstPlanEnd u (if busy then .openRefused .busy else .openUnanswered) else c
      c.closeStepDone u

/-- The third bus-off without a completion between (R75): pending OPENs end, a pending ROLL starts its window. A ROLL of a
census that has ended is treated with it, and starts no window (log 53). -/
def Chip.unansweredLimit (c : Chip) (g : Seg) : Chip :=
  let pending := (c.seg g).op
  let c := (pending.filter fun i => i.msg.isOpen).foldl (Chip.openLost g) c
  let c := (pending.filter fun i => i.msg.isRoll).foldl (fun c i => c.startWindow g i.stamp) c
  c.modSeg g fun r => { r with op := r.op.filter fun i => !i.msg.isRoll, unanswered := 0 }

/-- A segment goes bus-off (R73). RECOVERING is entered before the drops, so that nothing they post is granted. What the
transmit error count shows until the recovery ends is left open (log 43). -/
def Chip.busOff (c : Chip) (g : Seg) : Chip :=
  let errors := (Config.busOffErrors c.freeIdx).toNat
  let c := { c with freeIdx := c.freeIdx + 1 }.modSeg g fun r => { r.giveBack with
    state := .recovering, recovery := some Config.recoveryMs, txErrors := errors }
  let c := (c.dropSegment g true).wantHeader
  let c := (c.modSeg g fun r => { r with busOff := satInc 255 r.busOff, unanswered := r.unanswered + 1 }).setCause .busOff
  if 3 ≤ (c.seg g).unanswered then c.unansweredLimit g else c

/-- A transmission of the frame in the slot failed (R71, R68). On an ACTIVE segment the failure is counted, and past 255 the
segment goes bus-off, but not in DOWN (R73; log 18). What becomes of the frame goes by the state that the segment entered
last since the grant (R68; log 54). On a segment that is not ACTIVE no count changes (R70, R71): the frame, left from before,
is withdrawn (log 18). -/
def Chip.failed (g : Seg) (c : Chip) : Chip :=
  match (c.seg g).slot with
  | none => c
  | some t =>
    if c.mode g ≠ some .active then c.withdrawSlot g
    else if (c.seg g).state = .down then
      (c.modSeg g fun r => { r with txErrors := min 255 (r.txErrors + 8) }).withdrawSlot g
    else if 255 < (c.seg g).txErrors + 8 then c.busOff g
    else
      let c := c.modSeg g fun r => { r with txErrors := r.txErrors + 8 }
      match t.fate with
      | .again => c
      | .back => c.modSeg g SegRec.giveBack
      | .gone => c.withdrawSlot g

/-- TRANSMIT_FAILURE (R71). -/
def execTransmitFailure (seg : Seg) (s : State) : Host.Outcome State Fault Refusal := s.act (Chip.failed seg)

/-- LOST_ARBITRATION (R71): the frame stays in the slot and no count changes. -/
def execLostArbitration (_seg : Seg) (s : State) : Host.Outcome State Fault Refusal := s.act fun c => c

end Sys2Proof.Machine
end

