-- ==== Sys2Proof/Machine/Receptions.lean ====
section
/-!
DEFINITION. The frames received (R22, R25, R72): each command's meaning, its fields decoded (R199).
-/

namespace Sys2Proof.Machine

/-- A frame received with an error (R72). -/
def Chip.receiveError (g : Seg) (c : Chip) : Chip :=
  if c.receives g && decide (c.mode g = some .active) then
    c.modSeg g fun r => { r with rxErrors := satInc 255 r.rxErrors }
  else c

/-- RECEIVE_ERROR (R72). -/
def execReceiveError (seg : Seg) (s : State) : Host.Outcome State Fault Refusal := s.act (Chip.receiveError seg)

/-- A foreign frame (R22, R72, R82, R126). One that passes tests 1 to 3 from an address that is no roster unit's is taken in
its order of arrival as any frame is, and is a stray of the segment; should a HERE before it have made the address a unit's
by then, it is a stray of that unit. Any other has been received whole, and nothing more. -/
def Chip.foreign (g : Seg) (form : FrameForm) (id : BitVec 29) (c : Chip) : Chip :=
  if filterPasses c.sets.collector form id && (c.findUnit g (idAddr id)).isNone then
    c.receive g { addr := idAddr id, msg := .unknown }
  else if c.receives g then c.receivedWhole g
  else c

/-- FOREIGN_FRAME (R22). -/
def execForeignFrame (seg : Seg) (form : FrameForm) (id : BitVec 29) (s : State) : Host.Outcome State Fault Refusal :=
  s.act (Chip.foreign seg form id)

/-- UNKNOWN_MESSAGE (R23). -/
def execUnknownMessage (seg : Seg) (addr : Byte) (_len : Nat) (_type : BitVec 4) (s : State) :
    Host.Outcome State Fault Refusal :=
  s.act fun c => c.receive seg { addr := addr, msg := .unknown }

/-- ACCEPT (R47). -/
def execAccept (seg : Seg) (addr : Byte) (s : State) : Host.Outcome State Fault Refusal :=
  s.act fun c => c.receive seg { addr := addr, msg := .accept }

/-- REFUSE (R31). -/
def execRefuse (seg : Seg) (addr : Byte) (reason : BitVec 4) (s : State) : Host.Outcome State Fault Refusal :=
  s.act fun c => c.receive seg { addr := addr, msg := .refuse (reasonOf reason) }

/-- WAIT (R32). -/
def execWait (seg : Seg) (addr : Byte) (s : State) : Host.Outcome State Fault Refusal :=
  s.act fun c => c.receive seg { addr := addr, msg := .wait }

/-- LISTED (R33). -/
def execListed (seg : Seg) (addr n : Byte) (hours : BitVec 16) (s : State) : Host.Outcome State Fault Refusal :=
  s.act fun c => c.receive seg { addr := addr, msg := .listed n.toNat (hoursOf hours.toNat) }

/-- HEAD (R34). -/
def execHead (seg : Seg) (addr : Byte) (count : BitVec 16) (s : State) : Host.Outcome State Fault Refusal :=
  s.act fun c => c.receive seg { addr := addr, msg := .head count.toNat }

/-- PART (R35). -/
def execPart (seg : Seg) (addr : Byte) (seq : BitVec 4) (data : Vector Byte 7) (s : State) :
    Host.Outcome State Fault Refusal :=
  s.act fun c => c.receive seg { addr := addr, msg := .part seq.toNat data.toList }

/-- CLEAR_DONE (R40). -/
def execClearDone (seg : Seg) (addr : Byte) (s : State) : Host.Outcome State Fault Refusal :=
  s.act fun c => c.receive seg { addr := addr, msg := .clearDone }

/-- BYE (R53). -/
def execBye (seg : Seg) (addr : Byte) (s : State) : Host.Outcome State Fault Refusal :=
  s.act fun c => c.receive seg { addr := addr, msg := .bye }

/-- HERE (R19). -/
def execHere (seg : Seg) (addr : Byte) (type hours : BitVec 16) (s : State) : Host.Outcome State Fault Refusal :=
  s.act fun c => c.receive seg { addr := addr, msg := .here type.toNat (hoursOf hours.toNat) }

end Sys2Proof.Machine
end

