-- ==== Sys2Proof/Machine/Accesses.lean ====
section
/-!
DEFINITION. The ends of an exchange-area access (R184, R191): completion, which moves the word between host RAM and the
part, and error, which halts the collector.
-/

namespace Sys2Proof.Machine

/-- Host RAM after an access ends with completion: the host's own writes have landed first (log 4), then the access's
write, if it is one. -/
def memAfter (mem : List Host.Cell) (hostBytes : List (Word × Byte)) (bus : Option Bus) : List Host.Cell :=
  let mem := Memory.writeBytes mem hostBytes
  match bus with
  | some { addr := a, data := some w } => Memory.writeWord mem a w
  | _ => mem

/-- The word that an access read. -/
def wordRead (mem : List Host.Cell) (bus : Bus) : Option Word :=
  match bus.data with
  | none => some (Memory.readWord mem bus.addr)
  | some _ => none

/-- EXCHANGE_ACCESS_COMPLETION (R184). With no access in flight the host's writes land alone (log 4). -/
def execExchangeAccessCompletion (hostBytes : List (Word × Byte)) (s : State) : Host.Outcome State Fault Refusal :=
  let mem := memAfter s.mem hostBytes s.chip.port.bus
  match s.chip.port.bus with
  | none => .next { s with mem := mem }
  | some b => .next { s with mem := mem, chip := Chip.settle s.chip (s.chip.accessDone (wordRead mem b)) }

/-- An access has ended with an error (R184, R191): in STOPPED the remaining entry writes are not made, in any other
state the collector halts. -/
def Chip.accessError (c : Chip) : Chip :=
  if c.col = .stopped then c.portOff.setCause .memFault else c.enterHalted

/-- Host RAM after a write that failed: whether it landed is left open (log 7). -/
def memAfterError (mem : List Host.Cell) (freeIdx : Nat) (bus : Bus) : List Host.Cell :=
  match bus.data with
  | some w => if Config.failedWriteLands freeIdx then Memory.writeWord mem bus.addr w else mem
  | none => mem

/-- EXCHANGE_ACCESS_ERROR (R191). -/
def execExchangeAccessError (s : State) : Host.Outcome State Fault Refusal :=
  match s.chip.port.bus with
  | none => .next s
  | some b =>
    let c := { s.chip with freeIdx := s.chip.freeIdx + 1 }
    .next { s with mem := memAfterError s.mem s.chip.freeIdx b, chip := Chip.settle s.chip c.accessError }

end Sys2Proof.Machine
end

