-- ==== Sys2Proof/Machine/Clock.lean ====
section
/-!
DEFINITION. Time (log 1): one millisecond passes on an empty queue. Every running timer loses a millisecond, and the
expiries that fall due join the queue, in an order left open (log 6); or ENTER_STOPPED does, where STOPPING ends.
-/

namespace Sys2Proof.Machine

/-- A timer after a millisecond. -/
def Timer.tick (t : Timer) : Timer := t.map fun n => n - 1

/-- The command of a timer that falls due in this millisecond. -/
def Timer.due (t : Timer) (i : Instr) : List Instr :=
  match t with
  | some n => if n ≤ 1 then [i] else []
  | none => []

/-! ## The monitor -/

/-- The monitor's timers after a millisecond. -/
def Monitor.tick (m : Monitor) : Monitor :=
  { m with debounce := Timer.tick m.debounce, dipTimer := Timer.tick m.dipTimer, settleTimer := Timer.tick m.settleTimer
           grace := Timer.tick m.grace }

/-- The monitor's expiries of this millisecond. -/
def Monitor.due (m : Monitor) : List Instr :=
  Timer.due m.debounce (if m.raw then .ignOn else .ignOff) ++ Timer.due m.dipTimer .dipEntry
    ++ Timer.due m.settleTimer .dipEnd ++ Timer.due m.grace .graceEnd

/-- The CT phase after a millisecond of the ignition-on time base; it stands at its end until the rise (R168). -/
def Monitor.tickPhase (m : Monitor) : Monitor := { m with phase := if m.phase + 1 < Config.ctUnitMs then m.phase + 1 else m.phase }

/-- The sweep timer count advances (R182). -/
def Chip.sweepRuns (c : Chip) : Bool := c.timeBase && c.sets.sweep.enable && !c.mon.spent

/-- The time base's part of a millisecond. -/
def Chip.tickBase (c : Chip) : Chip :=
  let sweeping := c.sweepRuns
  if c.timeBase then
    c.modMon fun m => { m.tickPhase with
      sweepMs := if sweeping then min (m.sweepMs + 1) c.sets.sweep.period else m.sweepMs }
  else c

/-- The expiries of the time base. -/
def Chip.dueBase (c : Chip) : List Instr :=
  (if c.timeBase && decide (Config.ctUnitMs ≤ c.mon.phase + 1) then [.ctRise] else [])
    ++ if c.sweepRuns && decide (c.sets.sweep.period ≤ c.mon.sweepMs + 1) then [.sweepTimerExpiry] else []

/-! ## Units and segments -/

/-- A plan's hold timer after a millisecond. -/
def Plan.tick (p : Plan) : Plan :=
  match p.work with
  | some (.hold full t) => { p with work := some (.hold full (Timer.tick t)) }
  | _ => p

/-- The hold timer of a plan. -/
def Plan.holdTimer (p : Plan) : Timer :=
  match p.work with
  | some (.hold _ t) => t
  | _ => none

/-- A unit's timers after a millisecond; `frozen` holds the keep timer (R56). -/
def UnitRec.tick (frozen : Bool) (r : UnitRec) : UnitRec :=
  { r with
    session := { r.session with
      keepTimer := if frozen then r.session.keepTimer else Timer.tick r.session.keepTimer
      coolTimer := Timer.tick r.session.coolTimer }
    exch := r.exch.map fun x => { x with timer := Timer.tick x.timer, rest := Timer.tick x.rest }
    queue := match r.queue with
      | p :: rest => p.tick :: rest
      | [] => [] }

/-- A unit's expiries of this millisecond. -/
def UnitRec.due (frozen : Bool) (u : UnitIx) (r : UnitRec) : List Instr :=
  (if frozen then [] else Timer.due r.session.keepTimer (.keepTimerExpiry u))
    ++ Timer.due r.session.coolTimer (.coolingTimerExpiry u)
    ++ (match r.exch with
      | some x =>
        Timer.due x.timer (if x.kind = .opn then .openTimerExpiry u else .replyTimerExpiry u)
          ++ Timer.due x.rest (.restTimerExpiry u)
      | none => [])
    ++ match r.queue with
      | p :: _ => Timer.due p.holdTimer (.holdTimerExpiry u)
      | [] => []

/-- The segment of a unit is HELD. -/
def Chip.unitFrozen (c : Chip) (r : UnitRec) : Bool := decide ((c.seg r.seg).state = .held)

/-- A segment's timers after a millisecond; the window entries age (R81). -/
def SegRec.tick (r : SegRec) : SegRec :=
  { r with
    recovery := Timer.tick r.recovery
    errTimer := Timer.tick r.errTimer
    census := r.census.map fun n => { n with window := Timer.tick n.window }
    window := r.window.map fun age => age + 1 }

/-- A segment's expiries of this millisecond; `length` is its open window. -/
def SegRec.due (length : Nat) (g : Seg) (r : SegRec) : List Instr :=
  Timer.due r.recovery (.recoveryTimerExpiry g) ++ Timer.due r.errTimer (.errorCountRewriteDue g)
    ++ (match r.census with
      | some n => Timer.due n.window (.rollWindowExpiry g)
      | none => [])
    ++ (r.window.filter fun age => decide (length ≤ age + 1)).map fun _ => .openWindowAgeingExpiry g

/-! ## The whole chip -/

/-- The chip after a millisecond. -/
def Chip.tick (c : Chip) : Chip :=
  let roster := c.roster.map fun (r : Option UnitRec) => r.map fun r => r.tick (c.unitFrozen r)
  let c' := { c with
    roster := roster
    segs := c.segs.map SegRec.tick
    stopTimer := Timer.tick c.stopTimer
    scan := { c.scan with timer := Timer.tick c.scan.timer } }
  (c'.modMon Monitor.tick).tickBase

/-- The expiries that fall due in this millisecond. -/
def Chip.due (c : Chip) : List Instr :=
  c.mon.due ++ Timer.due c.scan.timer .scanTimerExpiry ++ Timer.due c.stopTimer .stoppingTimerExpiry ++ c.dueBase
    ++ (allSegs.flatMap fun g => (c.seg g).due (c.segSets g).openWindow g)
    ++ allUnits.flatMap fun u => match c.unit u with
      | some r => r.due (c.unitFrozen r) u
      | none => []

/-- A millisecond on an empty queue (log 1). -/
def State.idle (s : State) : State :=
  if s.chip.stopEnds then { s with pending := [.enterStopped] }
  else
    let due := s.chip.due
    { s with
      pending := arrange (fun _ _ => false) s.chip.freeIdx due
      chip := { s.chip.tick with freeIdx := s.chip.freeIdx + (due.length - 1) } }

end Sys2Proof.Machine
end

