-- ==== Sys2Proof/Machine/Dispatch.lean ====
section
/-!
DEFINITION. The meaning of each command: one arm for each constructor of Instr.
-/

namespace Sys2Proof.Machine

/-- A command's effect on everything but the queue. -/
def exec (i : Instr) (s : State) : Host.Outcome State Fault Refusal :=
  match i with
  | .powerOnReset => Sys2Proof.Machine.execPowerOnReset s
  | .softReset => Sys2Proof.Machine.execSoftReset s
  | .runSet => Sys2Proof.Machine.execRunSet s
  | .runClear => Sys2Proof.Machine.execRunClear s
  | .startModeWrite mode => Sys2Proof.Machine.execStartModeWrite mode s
  | .xbaseWrite value => Sys2Proof.Machine.execXbaseWrite value s
  | .attend value => Sys2Proof.Machine.execAttend value s
  | .noticeClear value => Sys2Proof.Machine.execNoticeClear value s
  | .nmaskWrite value => Sys2Proof.Machine.execNmaskWrite value s
  | .registerWriteIgnored offset value => Sys2Proof.Machine.execRegisterWriteIgnored offset value s
  | .ignRawChange level => Sys2Proof.Machine.execIgnRawChange level s
  | .ignOn => Sys2Proof.Machine.execIgnOn s
  | .ignOff => Sys2Proof.Machine.execIgnOff s
  | .supplyCrossing mv => Sys2Proof.Machine.execSupplyCrossing mv s
  | .dipEntry => Sys2Proof.Machine.execDipEntry s
  | .dipEnd => Sys2Proof.Machine.execDipEnd s
  | .graceEnd => Sys2Proof.Machine.execGraceEnd s
  | .ctRise => Sys2Proof.Machine.execCtRise s
  | .sweepTimerExpiry => Sys2Proof.Machine.execSweepTimerExpiry s
  | .scanTimerExpiry => Sys2Proof.Machine.execScanTimerExpiry s
  | .stoppingTimerExpiry => Sys2Proof.Machine.execStoppingTimerExpiry s
  | .enterStopped => Sys2Proof.Machine.execEnterStopped s
  | .keepTimerExpiry unit => Sys2Proof.Machine.execKeepTimerExpiry unit s
  | .coolingTimerExpiry unit => Sys2Proof.Machine.execCoolingTimerExpiry unit s
  | .openTimerExpiry unit => Sys2Proof.Machine.execOpenTimerExpiry unit s
  | .replyTimerExpiry unit => Sys2Proof.Machine.execReplyTimerExpiry unit s
  | .restTimerExpiry unit => Sys2Proof.Machine.execRestTimerExpiry unit s
  | .holdTimerExpiry unit => Sys2Proof.Machine.execHoldTimerExpiry unit s
  | .rollWindowExpiry seg => Sys2Proof.Machine.execRollWindowExpiry seg s
  | .recoveryTimerExpiry seg => Sys2Proof.Machine.execRecoveryTimerExpiry seg s
  | .openWindowAgeingExpiry seg => Sys2Proof.Machine.execOpenWindowAgeingExpiry seg s
  | .errorCountRewriteDue seg => Sys2Proof.Machine.execErrorCountRewriteDue seg s
  | .openCompletion seg => Sys2Proof.Machine.execOpenCompletion seg s
  | .requestCompletion seg => Sys2Proof.Machine.execRequestCompletion seg s
  | .pullCompletion seg => Sys2Proof.Machine.execPullCompletion seg s
  | .closeCompletion seg => Sys2Proof.Machine.execCloseCompletion seg s
  | .keepCompletion seg => Sys2Proof.Machine.execKeepCompletion seg s
  | .rollCompletion seg => Sys2Proof.Machine.execRollCompletion seg s
  | .transmitFailure seg => Sys2Proof.Machine.execTransmitFailure seg s
  | .lostArbitration seg => Sys2Proof.Machine.execLostArbitration seg s
  | .receiveError seg => Sys2Proof.Machine.execReceiveError seg s
  | .foreignFrame seg form id => Sys2Proof.Machine.execForeignFrame seg form id s
  | .unknownMessage seg addr len type => Sys2Proof.Machine.execUnknownMessage seg addr len type s
  | .accept seg addr => Sys2Proof.Machine.execAccept seg addr s
  | .refuse seg addr reason => Sys2Proof.Machine.execRefuse seg addr reason s
  | .wait seg addr => Sys2Proof.Machine.execWait seg addr s
  | .listed seg addr n hours => Sys2Proof.Machine.execListed seg addr n hours s
  | .head seg addr count => Sys2Proof.Machine.execHead seg addr count s
  | .part seg addr seq data => Sys2Proof.Machine.execPart seg addr seq data s
  | .clearDone seg addr => Sys2Proof.Machine.execClearDone seg addr s
  | .bye seg addr => Sys2Proof.Machine.execBye seg addr s
  | .here seg addr type hours => Sys2Proof.Machine.execHere seg addr type hours s
  | .exchangeAccessCompletion hostBytes => Sys2Proof.Machine.execExchangeAccessCompletion hostBytes s
  | .exchangeAccessError => Sys2Proof.Machine.execExchangeAccessError s

end Sys2Proof.Machine
end

