-- ==== Sys2Proof/Safety.lean ====
section
/-!
DEFINITION. What a safe run is: no step stops (no rule of the spec stops this part). And the terms in which claims say what
a command does: the state after an effect on the chip, a chip on which nothing is ready to be done, the chip without what
only reports it, a frame that a segment hears, a unit with no work.
-/

namespace Sys2Proof

/-- The step from a state answers a next state. -/
def SafeStep (s : Machine.State) : Prop := ∃ t, Machine.step s = .next t

/-- The command is a message of the unit at the address `a` on segment `g`: any of R25 but a HERE. -/
def Instr.Answers (i : Instr) (g : Seg) (a : Byte) : Prop :=
  i = .accept g a ∨ (∃ v, i = .refuse g a v) ∨ i = .wait g a ∨ (∃ n h, i = .listed g a n h) ∨ (∃ n, i = .head g a n)
    ∨ (∃ q d, i = .part g a q d) ∨ i = .clearDone g a ∨ i = .bye g a

namespace Machine

/-- The state after a command from `s` whose effect on the chip gives `c`: the queue and host RAM are unchanged, and the
chip is `c` with what follows every command: what is ready is done (R126, R175), every arbiter grants if it may (R78), the
rewrites are asked for (R83, R193, R194), and the port starts its next access (R184). -/
def State.after (s : State) (c : Chip) : State := { s with chip := Chip.settle s.chip c }

/-- Nothing is ready to be done between two commands: no parking is due (R175), the history takes no item (R126), no
received frame waits to be handled (R126). -/
def Chip.quiet (c : Chip) : Bool := !c.parkDue && !c.mayTake && c.frameReady.isNone

/-- The chip without what only reports it to host RAM: the Exchange Port's accesses, the rewrites of header and mirror
asked for with the counts that pace them (R83, R171, R193, R194), and the counter of free values. -/
def Chip.inner (c : Chip) : Chip :=
  { c with
    port := .idle
    hdr := { busy := false, pending := false, wanted := false }
    mirrors := .replicate 64 .reset
    freeIdx := 0
    mon := { c.mon with rises := 0 }
    segs := c.segs.map fun (r : SegRec) => { r with errTimer := none } }

/-- A frame from the address `a` on segment `g` reaches the exchange of the unit `u`, with record `r` (R22, R70, R126):
the segment receives and is ACTIVE, no frame waits there, and the address is the unit's. -/
structure Chip.Hears (c : Chip) (g : Seg) (a : Byte) (u : UnitIx) (r : UnitRec) : Prop where
  receives : c.receives g = true
  active : c.mode g = some .active
  open_ : c.rxBlocked g = false
  first : (c.seg g).rxWait = []
  found : c.findUnit g a = some u
  known : c.unit u = some r

/-- The chip as such a frame leaves it when the unit's record becomes `r` but for its presence: the receive error count
falls (R72), the unit is PRESENT with loss count 0 (R6). -/
def Chip.heard (c : Chip) (g : Seg) (u : UnitIx) (r : UnitRec) : Chip :=
  (c.modSeg g fun x => { x with rxErrors := x.rxErrors - 1 }).setUnit u (some { r with presence := .present, losses := 0 })

/-- No unit has a plan, an exchange or a session that holds a slot; no segment has a census; every context is FREE. -/
structure Chip.Idle (c : Chip) : Prop where
  units : ∀ u r, c.unit u = some r → r.queue = [] ∧ r.exch = none ∧ r.session.state.holdsSlot = false
  segs : ∀ g, (c.seg g).census = none
  ctxs : ∀ k, (c.ctx k).state = .free

/-- A unit whose session a drop took, as it is left where no plan has work on it (R59, R63): the session COOLING for the rest
time and a clear recovery that is due, nothing posted, every mark clear; the exchange removed; the drops count up;
clear-uncertain for a CLEAR that awaited CLEAR-DONE. -/
def UnitRec.dropped (r : UnitRec) : UnitRec :=
  { r with
    session := { r.session.cool (r.coolLength true) with
      posted := none, heldClose := false, closeAtAccept := false, graceDrop := false }
    clearUncertain := r.clearUncertain || r.clearAwaits
    exch := none
    ignore := 0
    drops := if r.drops < 255 then r.drops + 1 else r.drops }

/-- The address is that of a unit on the segment whose session holds a slot (R55). -/
def Chip.slotHeldBy (c : Chip) (g : Seg) (a : Byte) : Bool :=
  (c.unitsOf g).any fun u => match c.unit u with
    | some r => decide (r.addr = a) && r.session.state.holdsSlot
    | none => false

/-- The chip with the access in flight and its request gone from the port: what a request's owner goes on from (R184). -/
def Chip.portFree (c : Chip) : Chip := { c with port := { c.port with bus := none, serving := none } }

/-- The access in flight is the last of a request of the owner `o`, and no write of the published change sequence (R128);
`got` holds every word the request has read once the host's writes `l` have landed and this access has ended. -/
structure State.EndsRequest (s : State) (l : List (Word × Byte)) (o : Owner) (got : List Word) : Prop where
  ends : ∃ b q x, s.chip.port.bus = some b ∧ s.chip.port.serving = some q ∧ q.owner = o ∧ q.accs = [x]
    ∧ (∀ off, x ≠ .write off (.header 3))
    ∧ got = q.got ++ (match b.data with
      | none => [Memory.readWord (Memory.writeBytes s.mem l) b.addr]
      | some _ => [])

/-- The state after an access in flight has ended with completion and its effect on the chip gives `c` (R184): the host's
writes `l` have landed, then the access's, and `c` is followed by what follows every command. -/
def State.accessed (s : State) (l : List (Word × Byte)) (c : Chip) : State :=
  { s with
    mem := match s.chip.port.bus with
      | some { addr := a, data := some w } => Memory.writeWord (Memory.writeBytes s.mem l) a w
      | _ => Memory.writeBytes s.mem l
    chip := Chip.settle s.chip c }

/-! ## What every step keeps -/

/-- The roster (R1, R4, R7, R57): no address stands twice on a segment, a segment has 24 units at most, an address is
01H to EEH, and every count of a unit stays in its range. -/
structure Chip.RosterSound (c : Chip) : Prop where
  apart : ∀ u v r w, c.unit u = some r → c.unit v = some w → r.seg = w.seg → r.addr = w.addr → u = v
  room : ∀ g, (c.unitsOf g).length ≤ 24
  address : ∀ u r, c.unit u = some r → 1 ≤ r.addr.toNat ∧ r.addr.toNat ≤ 0xEE
  counts : ∀ u r, c.unit u = some r → r.session.keepDebt ≤ 3 ∧ r.losses ≤ 3 ∧ r.drops ≤ 255 ∧ r.malformed ≤ 255
    ∧ r.refused ≤ 255 ∧ r.strays ≤ 255

/-- The sessions and the work of the segments (R55, R76): six session slots at most are held on a segment; every pending
item stands in its class, a unit with one at most in each. With what keeps it so: an exchange fits its session's state
(R26, R44), and an OPEN in the transmit slot finds a session slot when it goes out (R79). -/
structure Chip.SessionsSound (c : Chip) : Prop where
  slots : ∀ g, c.slotsHeld g ≤ 6
  classes : ∀ g k, ∀ i ∈ (c.seg g).items k, i.msg.cls = k
  single : ∀ g k, ((c.seg g).items k).Pairwise fun i j => i.msg ≠ .roll → j.msg ≠ .roll → i.addr ≠ j.addr
  exchanges : ∀ u r x, c.unit u = some r → r.exch = some x →
    (x.kind = .opn → x.phase = .awaitAccept → r.session.state = .opening)
    ∧ (∀ q, x.kind = .request q → r.session.state = .exchanging)
  opens : ∀ g t, (c.seg g).slot = some t → t.item.msg = .opn → t.stale = false →
    c.slotsHeld g < 6 ∨ ∃ u r, c.findUnit g t.item.addr = some u ∧ c.unit u = some r ∧ r.session.state.holdsSlot = true

/-- The Snapshot Pool (R154): the free list holds every block that is FREE, once, and no other. -/
def Pool.Sound (p : Pool) : Prop := p.free.Nodup ∧ ∀ b : Fin 256, b ∈ p.free ↔ p.owner[b] = none

/-- A start has rebuilt the on-chip table (R148, R152): it stands behind the reading of the slots. -/
def StartStage.rebuilt : StartStage → Bool
  | .coldSlot _ | .repair _ | .repairStored _ | .region | .publish | .clock | .mirrors _ | .header _ _ => true
  | .mark | .profile | .warmRegion | .warmSlot _ | .warmFree _ => false

/-- Outside RUNNING the grace timer stands and the park-pending mark is clear (R172), and STARTING alone has a start under
way (R188). -/
def Chip.Rests (c : Chip) : Prop :=
  (c.col ≠ .running → c.mon.grace = none ∧ c.mon.parkPending = false) ∧ (c.start ≠ none → c.col = .starting)

/-- The History Table (R127): no last-change sequence is above the change sequence, in every state that works on the table
and in STARTING once the table is rebuilt. What keeps it so: no grace end parks a collector outside RUNNING (R172), and a
start is under way in STARTING alone. -/
structure Chip.HistorySound (c : Chip) : Prop where
  rests : c.Rests
  changes : c.col = .running ∨ c.col = .parked ∨ c.col = .stopping ∨ (∃ st, c.start = some st ∧ st.stage.rebuilt = true) →
    ∀ i e, (c.slot i).entry = some e → e.lastChange ≤ c.hist.changeSeq

end Machine

end Sys2Proof
end

