-- ==== Sys2Proof/Certificates/Slice0/Obligations.lean ====
section
/-!
DEFINITION. The statements for the provers. `s.after c` is the state after a command whose effect on the chip is `c`: the
queue and host RAM as before, and `c` with what follows every command. That an expiry whose timer does not run, and a
completion or another event that cannot arise in the state, has no effect is the model's choice (logs 2, 3).
-/

open Sys2Proof Sys2Proof.Machine

/-! ## The machine as a whole -/

/-- The command at the front of the queue is the one a step runs, on the state with the queue's rest. -/
def Obligations.StepRunsTheFrontCommand : Prop :=
  ∀ (s : State) (i : Instr) (rest : List Instr), s.pending = i :: rest →
    Machine.step s = Machine.exec i { s with pending := rest }

/-- On an empty queue a millisecond passes (log 1): host RAM, the table, the contexts and the registers stay, and the
expiries that fall due join the queue in some order, or ENTER_STOPPED does where STOPPING ends: the conditions of R189,
to which the model adds the scan's TAKEN or FAILED write (log 21), at a moment between two intake items that lasts (log
22). R56: while a unit's segment is HELD its keep timer stands, and no keep expiry of it falls due. Every other running
timer loses a millisecond; the entries of an open window age by one (R81); the CT phase advances on the ignition-on time
base (R168), the sweep timer count there while the sweep is enabled and the cycle not spent (R182), each up to its end.
Those timers fall due, and no others, that have a millisecond left at most; CT_RISE as the phase completes 6,000 ms, the
sweep timer as its count completes its period (R168, R182); a window entry as it completes the open window (R81). -/
def Obligations.IdleMillisecond : Prop :=
  (∀ s : State, s.pending = [] → ∃ t, Machine.step s = .next t ∧ t.mem = s.mem
      ∧ (s.chip.stopEnds = true → t.pending = [.enterStopped] ∧ t.chip = s.chip)
      ∧ (s.chip.stopEnds = false → t.pending.Perm s.chip.due
          ∧ t.chip.regs = s.chip.regs ∧ t.chip.col = s.chip.col ∧ t.chip.hist = s.chip.hist ∧ t.chip.pool = s.chip.pool
          ∧ t.chip.ctxs = s.chip.ctxs ∧ t.chip.port = s.chip.port ∧ t.chip.settings = s.chip.settings
          ∧ t.chip.mon.ct = s.chip.mon.ct ∧ t.chip.mon.k = s.chip.mon.k ∧ t.chip.mon.dip = s.chip.mon.dip))
  ∧ (∀ (s : State) (u : UnitIx) (r : UnitRec), s.pending = [] → s.chip.stopEnds = false → s.chip.unit u = some r →
      (s.chip.seg r.seg).state = .held →
      ∃ t r', Machine.step s = .next t ∧ t.chip.unit u = some r' ∧ r'.session.keepTimer = r.session.keepTimer
        ∧ Instr.keepTimerExpiry u ∉ t.pending)
  ∧ (∀ (s : State) (tick : Timer → Timer) (due : Timer → Prop), s.pending = [] → s.chip.stopEnds = false →
      tick = (fun x => x.map fun n => n - 1) → due = (fun x => ∃ n, x = some n ∧ n ≤ 1) →
      ∃ t, Machine.step s = .next t
        ∧ t.chip.mon = { s.chip.mon with
            debounce := tick s.chip.mon.debounce, dipTimer := tick s.chip.mon.dipTimer
            settleTimer := tick s.chip.mon.settleTimer, grace := tick s.chip.mon.grace
            phase := if s.chip.col = .running ∧ s.chip.mon.ign = true ∧ s.chip.mon.phase < 5999 then s.chip.mon.phase + 1
              else s.chip.mon.phase
            sweepMs := if s.chip.col = .running ∧ s.chip.mon.ign = true ∧ s.chip.sets.sweep.enable = true
                ∧ s.chip.mon.spent = false then min (s.chip.mon.sweepMs + 1) s.chip.sets.sweep.period
              else s.chip.mon.sweepMs }
        ∧ { t.chip with
            mon := s.chip.mon, roster := s.chip.roster, segs := s.chip.segs, freeIdx := s.chip.freeIdx } =
          { s.chip with
            stopTimer := tick s.chip.stopTimer, scan := { s.chip.scan with timer := tick s.chip.scan.timer } }
        ∧ (∀ g, t.chip.seg g = { s.chip.seg g with
            recovery := tick (s.chip.seg g).recovery, errTimer := tick (s.chip.seg g).errTimer
            census := (s.chip.seg g).census.map fun n => { n with window := tick n.window }
            window := (s.chip.seg g).window.map fun age => age + 1 })
        ∧ (∀ u, s.chip.unit u = none → t.chip.unit u = none)
        ∧ (∀ u r, s.chip.unit u = some r → ∃ q, t.chip.unit u = some { r with
              session := { r.session with
                keepTimer := if (s.chip.seg r.seg).state = .held then r.session.keepTimer else tick r.session.keepTimer
                coolTimer := tick r.session.coolTimer }
              exch := r.exch.map fun x => { x with timer := tick x.timer, rest := tick x.rest }
              queue := q }
            ∧ (∀ p rest full h, r.queue = p :: rest → p.work = some (.hold full h) →
                q = { p with work := some (.hold full (tick h)) } :: rest)
            ∧ ((∀ p full h, r.queue.head? = some p → p.work ≠ some (.hold full h)) → q = r.queue))
        ∧ (Instr.ignOn ∈ t.pending ↔ due s.chip.mon.debounce ∧ s.chip.mon.raw = true)
        ∧ (Instr.ignOff ∈ t.pending ↔ due s.chip.mon.debounce ∧ s.chip.mon.raw = false)
        ∧ (Instr.dipEntry ∈ t.pending ↔ due s.chip.mon.dipTimer)
        ∧ (Instr.dipEnd ∈ t.pending ↔ due s.chip.mon.settleTimer)
        ∧ (Instr.graceEnd ∈ t.pending ↔ due s.chip.mon.grace)
        ∧ (Instr.scanTimerExpiry ∈ t.pending ↔ due s.chip.scan.timer)
        ∧ (Instr.stoppingTimerExpiry ∈ t.pending ↔ due s.chip.stopTimer)
        ∧ (Instr.ctRise ∈ t.pending ↔ s.chip.col = .running ∧ s.chip.mon.ign = true ∧ 5999 ≤ s.chip.mon.phase)
        ∧ (Instr.sweepTimerExpiry ∈ t.pending ↔ s.chip.col = .running ∧ s.chip.mon.ign = true
            ∧ s.chip.sets.sweep.enable = true ∧ s.chip.mon.spent = false
            ∧ s.chip.sets.sweep.period ≤ s.chip.mon.sweepMs + 1)
        ∧ (∀ g, (Instr.recoveryTimerExpiry g ∈ t.pending ↔ due (s.chip.seg g).recovery)
            ∧ (Instr.errorCountRewriteDue g ∈ t.pending ↔ due (s.chip.seg g).errTimer)
            ∧ (Instr.rollWindowExpiry g ∈ t.pending ↔ ∃ n, (s.chip.seg g).census = some n ∧ due n.window)
            ∧ t.pending.count (.openWindowAgeingExpiry g) =
              ((s.chip.seg g).window.filter fun age => decide ((s.chip.segSets g).openWindow ≤ age + 1)).length)
        ∧ (∀ u r, s.chip.unit u = some r →
            (Instr.keepTimerExpiry u ∈ t.pending ↔ due r.session.keepTimer ∧ (s.chip.seg r.seg).state ≠ .held)
            ∧ (Instr.coolingTimerExpiry u ∈ t.pending ↔ due r.session.coolTimer)
            ∧ (Instr.openTimerExpiry u ∈ t.pending ↔ ∃ x, r.exch = some x ∧ x.kind = .opn ∧ due x.timer)
            ∧ (Instr.replyTimerExpiry u ∈ t.pending ↔ ∃ x, r.exch = some x ∧ x.kind ≠ .opn ∧ due x.timer)
            ∧ (Instr.restTimerExpiry u ∈ t.pending ↔ ∃ x, r.exch = some x ∧ due x.rest)
            ∧ (Instr.holdTimerExpiry u ∈ t.pending ↔
                ∃ p full h, r.queue.head? = some p ∧ p.work = some (.hold full h) ∧ due h))
        ∧ (∀ i ∈ t.pending, i ∈ ([.ignOn, .ignOff, .dipEntry, .dipEnd, .graceEnd, .scanTimerExpiry, .stoppingTimerExpiry,
              .ctRise, .sweepTimerExpiry] : List Instr)
            ∨ (∃ g, i ∈ ([.recoveryTimerExpiry g, .errorCountRewriteDue g, .rollWindowExpiry g,
                .openWindowAgeingExpiry g] : List Instr))
            ∨ ∃ u r, s.chip.unit u = some r ∧ i ∈ ([.keepTimerExpiry u, .coolingTimerExpiry u, .openTimerExpiry u,
                .replyTimerExpiry u, .restTimerExpiry u, .holdTimerExpiry u] : List Instr)))

/-- No step stops: the spec gives every command an effect in every state. -/
def Obligations.EveryStepAnswers : Prop :=
  ∀ s : State, SafeStep s

/-- Every step keeps host RAM in its canonical form. -/
def Obligations.MemoryStaysCanonical : Prop :=
  ∀ s t : State, Memory.wf s.mem = true → Machine.step s = .next t → Memory.wf t.mem = true

/-- Host RAM changes in no step but one that ends the access in flight, and then, where the host wrote nothing
meanwhile, only in the four bytes of a write. -/
def Obligations.HostRamChangesAtAccessEnds : Prop :=
  ∀ (s t : State) (i : Instr) (rest : List Instr), Memory.wf s.mem = true → s.pending = i :: rest →
    Machine.step s = .next t →
    ((∀ l, i ≠ .exchangeAccessCompletion l) → i ≠ .exchangeAccessError → t.mem = s.mem)
    ∧ (i = .exchangeAccessCompletion [] ∨ i = .exchangeAccessError →
        ∀ a : Nat, (∀ b w, s.chip.port.bus = some b → b.data = some w → a < b.addr ∨ b.addr + 4 ≤ a) →
          Memory.read t.mem a = Memory.read s.mem a)

/-- R187: the state right after a power-on reset. R187: both resets give every block its reset state; a soft reset keeps
XBASE and NMASK; the inputs stand. The invariants that every step keeps hold at reset. -/
def Obligations.ResetState : Prop :=
  (Memory.wf State.reset.mem = true ∧ State.reset.pending = [] ∧ State.reset.chip.col = .stopped
      ∧ State.reset.chip.regs =
          { xbase := 0, run := false, startMode := .cold, startResult := .noResult, notice := 0, nmask := 0 }
      ∧ State.reset.chip.profileState = .absent
      ∧ (∀ u, State.reset.chip.unit u = none)
      ∧ (∀ g, State.reset.chip.seg g = .reset ∧ (State.reset.chip.seg g).state = .down)
      ∧ (∀ k, State.reset.chip.ctx k = .cleared)
      ∧ (∀ i, State.reset.chip.slot i = .free)
      ∧ State.reset.chip.pool.free = List.finRange 256
      ∧ State.reset.chip.mon.dip = .normal ∧ State.reset.chip.mon.ct = 0 ∧ State.reset.chip.mon.k = 0
      ∧ State.reset.chip.mon.clockUnset = true ∧ State.reset.chip.hist.changeSeq = 0 ∧ State.reset.chip.hist.intake = []
      ∧ State.reset.chip.RosterSound ∧ State.reset.chip.SessionsSound ∧ State.reset.chip.HistorySound
      ∧ State.reset.chip.pool.Sound)
  ∧ (∀ s : State,
      (∃ t, Machine.exec .powerOnReset s = .next t ∧ t.pending = s.pending ∧ t.mem = s.mem
        ∧ t.chip = { State.reset.chip with
            mon := .reset s.chip.mon.raw s.chip.mon.supply, freeIdx := s.chip.freeIdx })
      ∧ ∃ t, Machine.exec .softReset s = .next t ∧ t.pending = s.pending ∧ t.mem = s.mem
        ∧ t.chip = { State.reset.chip with
            regs := { State.reset.chip.regs with xbase := s.chip.regs.xbase, nmask := s.chip.regs.nmask }
            mon := .reset s.chip.mon.raw s.chip.mon.supply, freeIdx := s.chip.freeIdx })

/-- XBASE, NMASK, RUN and START MODE change in no step but one that takes their own write or a reset; XBASE by its write
in STOPPED and HALTED alone. -/
def Obligations.HostRegistersChangeByTheirWrites : Prop :=
  ∀ s t : State, Machine.step s = .next t →
    (t.chip.regs.xbase ≠ s.chip.regs.xbase →
      s.pending.head? = some .powerOnReset
        ∨ s.pending.head? = some (.xbaseWrite t.chip.regs.xbase) ∧ (s.chip.col = .stopped ∨ s.chip.col = .halted))
    ∧ (t.chip.regs.nmask ≠ s.chip.regs.nmask →
        s.pending.head? = some .powerOnReset
          ∨ ∃ v, s.pending.head? = some (.nmaskWrite v) ∧ t.chip.regs.nmask = v &&& 0x7FF)
    ∧ (t.chip.regs.run ≠ s.chip.regs.run →
        s.pending.head? = some .powerOnReset ∨ s.pending.head? = some .softReset
          ∨ s.pending.head? = some (if t.chip.regs.run then .runSet else .runClear))
    ∧ (t.chip.regs.startMode ≠ s.chip.regs.startMode →
        s.pending.head? = some .powerOnReset ∨ s.pending.head? = some .softReset
          ∨ s.pending.head? = some (.startModeWrite t.chip.regs.startMode))

/-- R172: the grace timer and the park-pending mark: stopped and clear after both resets; every step that enters
STARTING, STOPPING, STOPPED or HALTED stops the timer and clears the mark; and so they rest outside RUNNING for good:
where they do before a step, and no start is under way outside STARTING, they do after it. -/
def Obligations.GraceAndParkPending : Prop :=
  State.reset.chip.Rests
  ∧ ∀ s t : State, Machine.step s = .next t →
      (s.pending.head? = some .powerOnReset ∨ s.pending.head? = some .softReset →
        t.chip.mon.grace = none ∧ t.chip.mon.parkPending = false)
      ∧ (t.chip.col ≠ s.chip.col →
          t.chip.col = .starting ∨ t.chip.col = .stopping ∨ t.chip.col = .stopped ∨ t.chip.col = .halted →
          t.chip.mon.grace = none ∧ t.chip.mon.parkPending = false)
      ∧ (s.chip.Rests → t.chip.Rests)

/-- R1, R4, R7, R57: every step keeps the roster sound: no address twice on a segment, 24 units of a segment at most,
unit addresses 01H to EEH, keep debt and loss count 0 to 3, the counts of a unit in a byte. -/
def Obligations.RosterStaysSound : Prop :=
  ∀ s t : State, s.chip.RosterSound → Machine.step s = .next t → t.chip.RosterSound

/-- R55, R76: every step keeps the sessions sound: six session slots of a segment at most, every pending item in its
class, one item of a unit at most in each class. What keeps it so is part of it: an exchange fits its session's state
(R26, R44), and an OPEN in the transmit slot finds a session slot as it goes out (R79). That an item does not join a
class that holds one of its unit is the model's choice (log 63). -/
def Obligations.SessionsStaySound : Prop :=
  ∀ s t : State, s.chip.SessionsSound → Machine.step s = .next t → t.chip.SessionsSound

/-- R127, R154: every step keeps the History Table and the pool sound: no last-change sequence above the change sequence
wherever the table is at work, the grace timer and a start under way resting as R172 and R188 say, the free list holding
each FREE block once and no other. The free blocks and the attached blocks are 256 together. -/
def Obligations.HistoryStaysSound : Prop :=
  (∀ s t : State, s.chip.HistorySound → s.chip.pool.Sound → Machine.step s = .next t →
      t.chip.HistorySound ∧ t.chip.pool.Sound)
  ∧ ∀ p : Pool, p.Sound → p.free.length + ((List.finRange 256).filter fun b => p.owner[b].isSome).length = 256

/-- What follows a command on a chip on which nothing is ready: the arbiters' grants (R78), and what reports the chip.
What follows a command leaves registers, collector state, settings, timers of the collector and the monitor alone while
no parking is due; notices may rise. What is ready is done first, up to a thousand rounds of a command: parking, due as
no CLEAR awaits CLEAR-DONE (R175); the oldest item of the intake, where none is under way and STOPPING is not about to
end (R126, R189; what `Chip.takeItem` begins: MergesAndMarkings); the first of the frames that waited on a segment
(R126). That order of the three, and the lowest segment first, is the model's choice (log 47). Then the rewrites are
asked for (log 11): a mirror record of a unit that changed, the header at a change of a field but the CT, the published
change sequence and the error counts (R193, R194), where one is under way by its pending mark; counts alone start the
second of R83 (log 12). The requests handed over join those that wait, of one block in their order, of two in an open
one (log 6); and the port, free, starts its next access (R184). -/
def Obligations.WhatFollowsACommand : Prop :=
  (∀ old c : Chip, c.quiet = true → (Chip.settle old c).inner = c.grantAll.inner)
  ∧ (∀ old c : Chip, c.mon.parkPending = false ∨ c.col ≠ .running →
      { (Chip.settle old c).regs with notice := c.regs.notice } = c.regs
      ∧ (Chip.settle old c).col = c.col ∧ (Chip.settle old c).settings = c.settings
      ∧ (Chip.settle old c).stopTimer = c.stopTimer ∧ (Chip.settle old c).scan = c.scan
      ∧ { (Chip.settle old c).mon with rises := 0 } = { c.mon with rises := 0 })
  ∧ (∀ (old : Chip) (n : Nat) (f : Nat → Chip), n ≤ 1000 → (f n).quiet = true →
      (∀ i, i < n →
        ((f i).mon.parkPending = true ∧ (f i).col = .running ∧ (f i).anyClearAwaits = false
          ∧ f (i + 1) = Chip.park { f i with mon := { (f i).mon with parkPending := false } })
        ∨ ((f i).parkDue = false ∧ (f i).hist.run = none ∧ (f i).hist.intake ≠ []
          ∧ ((f i).col = .running ∨ (f i).col = .parked ∨ (f i).col = .stopping ∧ (f i).stopReady = false)
          ∧ f (i + 1) = (f i).takeItem)
        ∨ ((f i).parkDue = false ∧ (f i).mayTake = false
          ∧ ∃ g m rest, ((f i).seg g).rxWait = m :: rest ∧ (f i).rxBlocked g = false
            ∧ (∀ h, h < g → ((f i).seg h).rxWait = [] ∨ (f i).rxBlocked h = true)
            ∧ f (i + 1) = ((f i).modSeg g fun r => { r with rxWait := rest }).handleFrame g m)) →
      Chip.settle old (f 0) = ((Chip.askRewrites old (f n).grantAll).enqueue).startAccess)
  ∧ (∀ c : Chip, c.quiet = true ↔
      ¬ (c.mon.parkPending = true ∧ c.col = .running ∧ c.anyClearAwaits = false)
      ∧ ¬ (c.hist.run = none ∧ c.hist.intake ≠ []
        ∧ (c.col = .running ∨ c.col = .parked ∨ c.col = .stopping ∧ c.stopReady = false))
      ∧ ∀ g, (c.seg g).rxWait = [] ∨ c.rxBlocked g = true)
  ∧ (∀ (old c d : Chip) (mirrors asks header : Bool), d = Chip.askRewrites old c →
      mirrors = decide (c.col = .running ∨ c.col = .parked ∨ c.col = .stopping) →
      (asks = true ↔ mirrors = true ∨ c.col = .starting ∧ ∃ st a b, c.start = some st ∧ st.stage = .header a b) →
      (header = true ↔ asks = true ∧ (c.hdr.wanted = true ∨ ∃ i, i < 28 ∧ i ≠ 3 ∧ i ≠ 4
          ∧ (if i = 13 ∨ i = 17 ∨ i = 21 ∨ i = 25 then headerWord old i >>> 16 ≠ headerWord c i >>> 16
            else headerWord old i ≠ headerWord c i))) →
      d.hdr = { busy := c.hdr.busy || header, pending := c.hdr.pending || header && c.hdr.busy, wanted := false }
      ∧ (∀ u, d.mirror u =
          if mirrors = true ∧ mirrorWords (old.unit u) ≠ mirrorWords (c.unit u) then
            if (c.mirror u).busy = true then { c.mirror u with pending := true } else { c.mirror u with busy := true }
          else c.mirror u)
      ∧ d.port = { c.port with fresh := c.port.fresh
          ++ ((List.finRange 64).filter fun u => mirrors && !(c.mirror u).busy
              && decide (mirrorWords (old.unit u) ≠ mirrorWords (c.unit u))).map (fun u =>
            { owner := .mirror u, accs := mirrorAccs u (c.mirror u).version, got := [] })
          ++ if header && !c.hdr.busy then [{ owner := .header, accs := headerAccs, got := [] }] else [] }
      ∧ d.mon = { c.mon with rises := if header then 0 else c.mon.rises }
      ∧ (∀ g, d.seg g = { c.seg g with
          errTimer := if header then none
            else if asks = true ∧ ((old.seg g).txErrors ≠ (c.seg g).txErrors ∨ (old.seg g).rxErrors ≠ (c.seg g).rxErrors)
                ∧ (c.seg g).errTimer = none then some 1000
            else (c.seg g).errTimer })
      ∧ { d with hdr := c.hdr, mirrors := c.mirrors, port := c.port, mon := c.mon, segs := c.segs } = c)
  ∧ (∀ c : Chip, ∃ l, l.Perm c.port.fresh
      ∧ (∀ n, (l.filter fun q => decide (q.owner.block = n)) = c.port.fresh.filter fun q => decide (q.owner.block = n))
      ∧ c.enqueue = { c with
          port := { c.port with waiting := c.port.waiting ++ l, fresh := [] }
          freeIdx := c.freeIdx + (c.port.fresh.length - 1) })
  ∧ (∀ (c : Chip),
      (∀ b, c.port.bus = some b → c.startAccess = c)
      ∧ (c.port.serving = none → c.port.waiting = [] → c.startAccess = c)
      ∧ ∀ q rest a accs addr, c.port.bus = none →
          (c.port.serving = some q ∧ c.port.waiting = rest ∨ c.port.serving = none ∧ c.port.waiting = q :: rest) →
          q.accs = a :: accs →
          (∀ off, a = .read off → addr = (c.regs.xbase + BitVec.ofNat 32 off).toNat / 4 * 4 →
            c.startAccess = { c with port := { c.port with
              serving := some q, waiting := rest, bus := some { addr := addr, data := none } } })
          ∧ ∀ off src, a = .write off src → addr = (c.regs.xbase + BitVec.ofNat 32 off).toNat / 4 * 4 →
            c.startAccess = { c with port := { c.port with
              serving := some q, waiting := rest, bus := some { addr := addr, data := some (c.srcWord src) } } })

/-! ## Registers -/

/-- R186: RUN 1 acts on a change alone; in STOPPED with XBASE not aligned to 64 KiB the start result is BASE-BAD; in
STARTING it clears the stop-request mark. R186: RUN 0 with no change has no effect outside HALTED; in STARTING it sets
the stop-request mark; in STOPPED and STOPPING it changes the bit alone. R185, R186, R198: the writes of START MODE,
XBASE, NOTICE and NMASK. R185, R71: a write to a register without behaviour, and a lost arbitration, change nothing.
R195, R196: ATTEND and the scan timer are scan requests: in RUNNING and PARKED a scan starts at card 0, taking unless a
reload is taken, or the scan-again mark is set while one runs; in other states ATTEND has no effect. -/
def Obligations.RegisterWritesAndScanRequests : Prop :=
  (∀ s : State,
      (s.chip.regs.run = true → Machine.exec .runSet s = .next (s.after s.chip))
      ∧ (s.chip.regs.run = false → s.chip.col = .stopped → s.chip.regs.xbase.toNat % 65536 ≠ 0 →
          Machine.exec .runSet s =
            .next (s.after { s.chip with regs := { s.chip.regs with run := true, startResult := .baseBad } }))
      ∧ (s.chip.regs.run = false → s.chip.col = .starting →
          Machine.exec .runSet s =
            .next (s.after { s.chip with regs := { s.chip.regs with run := true }, stopRequest := false }))
      ∧ (s.chip.regs.run = false → s.chip.col ≠ .stopped → s.chip.col ≠ .starting →
          Machine.exec .runSet s = .next (s.after { s.chip with regs := { s.chip.regs with run := true } })))
  ∧ (∀ s : State,
      (s.chip.regs.run = false → s.chip.col ≠ .halted → Machine.exec .runClear s = .next (s.after s.chip))
      ∧ (s.chip.regs.run = true → s.chip.col = .starting →
          Machine.exec .runClear s =
            .next (s.after { s.chip with regs := { s.chip.regs with run := false }, stopRequest := true }))
      ∧ (s.chip.regs.run = true → s.chip.col = .stopped ∨ s.chip.col = .stopping →
          Machine.exec .runClear s = .next (s.after { s.chip with regs := { s.chip.regs with run := false } })))
  ∧ (∀ s : State,
      (∀ m, Machine.exec (.startModeWrite m) s =
        .next (s.after { s.chip with regs := { s.chip.regs with startMode := m } }))
      ∧ (∀ v, s.chip.col = .stopped ∨ s.chip.col = .halted →
          Machine.exec (.xbaseWrite v) s = .next (s.after { s.chip with regs := { s.chip.regs with xbase := v } }))
      ∧ (∀ v, s.chip.col ≠ .stopped → s.chip.col ≠ .halted →
          Machine.exec (.xbaseWrite v) s = .next (s.after s.chip))
      ∧ (∀ v, Machine.exec (.noticeClear v) s =
          .next (s.after { s.chip with regs := { s.chip.regs with notice := s.chip.regs.notice &&& ~~~v } }))
      ∧ (∀ v, Machine.exec (.nmaskWrite v) s =
          .next (s.after { s.chip with regs := { s.chip.regs with nmask := v &&& 0x7FF } })))
  ∧ (∀ s : State,
      (∀ o v, Machine.exec (.registerWriteIgnored o v) s = .next (s.after s.chip))
      ∧ ∀ g, Machine.exec (.lostArbitration g) s = .next (s.after s.chip))
  ∧ (∀ (s : State) (v : Word),
      (s.chip.col ≠ .running → s.chip.col ≠ .parked → Machine.exec (.attend v) s = .next (s.after s.chip))
      ∧ (s.chip.col = .running ∨ s.chip.col = .parked → s.chip.scan.stage = none →
          Machine.exec (.attend v) s = .next (s.after { s.chip with
            scan := { s.chip.scan with taking := !s.chip.reloadTaken, stage := some (.owner 0) }
            port := { s.chip.port with
              fresh := s.chip.port.fresh ++ [{ owner := .scan, accs := [.read 0x100], got := [] }] } }))
      ∧ (s.chip.col = .running ∨ s.chip.col = .parked → s.chip.scan.stage ≠ none →
          Machine.exec (.attend v) s = .next (s.after { s.chip with scan := { s.chip.scan with again := true } }))
      ∧ (s.chip.scan.timer = none → Machine.exec .scanTimerExpiry s = .next (s.after s.chip))
      ∧ (s.chip.col = .running ∨ s.chip.col = .parked → s.chip.scan.timer ≠ none → s.chip.scan.stage = none →
          Machine.exec .scanTimerExpiry s = .next (s.after { s.chip with
            scan := { s.chip.scan with timer := some 250, taking := !s.chip.reloadTaken, stage := some (.owner 0) }
            port := { s.chip.port with
              fresh := s.chip.port.fresh ++ [{ owner := .scan, accs := [.read 0x100], got := [] }] } }))
      ∧ (s.chip.col = .running ∨ s.chip.col = .parked → s.chip.scan.timer ≠ none → s.chip.scan.stage ≠ none →
          Machine.exec .scanTimerExpiry s = .next (s.after { s.chip with
            scan := { s.chip.scan with timer := some 250, again := true } })))

/-- R188: RUN rising in STOPPED with an aligned XBASE enters STARTING: contexts, roster, intake and marks are cleared,
and the collector state field of the header is written. R189: RUN falling in RUNNING or PARKED enters STOPPING: the
STOPPING timer starts, grace and park-pending mark end, card scans end. Then, in this order (log 69), the plans, the
censuses and the reloads are cut (what a cut does: GraceEndAndCuts; R106, R20, R189), shown for a scan without an
access, and every session is treated by its state (R64): posted requests are discarded; an OPEN session has its pending
request withdrawn and is asked to close, an EXCHANGING one too, its exchange given up, unless a CLEAR awaits CLEAR-DONE,
which holds the close; a pending OPEN of a CLOSED or COOLING one is withdrawn (its record: log 46). A reload that is cut
gives its accesses up and writes its card. -/
def Obligations.RunEntersStartingAndStopping : Prop :=
  (∀ s : State, s.chip.regs.run = false → s.chip.col = .stopped → s.chip.regs.xbase.toNat % 65536 = 0 →
      Machine.exec .runSet s = .next (s.after { s.chip with
        col := .starting
        regs := { s.chip.regs with run := true, startResult := .noResult }
        stopRequest := false
        ctxs := .replicate 4 .cleared
        roster := .replicate 64 none
        scan := { stage := none, taking := true, again := false, timer := none }
        load := none
        hist := { s.chip.hist with
          slots := s.chip.hist.slots.map fun (r : SlotRec) => { r with seen := false, activeMerged := false }
          intake := [], run := none, handWait := [] }
        mon := { s.chip.mon with grace := none, parkPending := false, sweepMs := 0, spent := false }
        start := some { stage := .mark, mode := s.chip.regs.startMode, fellBack := false, stored := 0, report := .zero }
        port := { s.chip.port with
          fresh := s.chip.port.fresh ++ [{ owner := .starting, accs := [.write 4 (.header 1)], got := [] }] } }))
  ∧ (∀ s : State, s.chip.regs.run = true → s.chip.col = .running ∨ s.chip.col = .parked →
      ∃ t, Machine.exec .runClear s = .next t ∧ t.pending = s.pending ∧ t.mem = s.mem
        ∧ t.chip.col = .stopping ∧ t.chip.regs.run = false ∧ t.chip.stopTimer = some 500
        ∧ t.chip.mon.grace = none ∧ t.chip.mon.parkPending = false
        ∧ t.chip.scan.timer = none ∧ t.chip.scan.again = false
        ∧ t.chip.settings = s.chip.settings ∧ t.chip.regs.xbase = s.chip.regs.xbase)
  ∧ (∀ (s : State) (mon : Monitor) (c : Chip), s.chip.regs.run = true → s.chip.scan.stage = none →
      (s.chip.col = .running ∧ mon = { s.chip.mon with grace := none, parkPending := false }
        ∨ s.chip.col = .parked ∧ mon = { s.chip.mon with
            grace := none, parkPending := false, settleTimer := none
            dip := if s.chip.mon.supply < s.chip.sets.supply.dipLevel then .falling else .normal
            dipTimer := if s.chip.mon.supply < s.chip.sets.supply.dipLevel then some 2 else none }) →
      c = allUnits.foldl Chip.stopSession ((({ s.chip with
        col := .stopping, mon := mon
        regs := { s.chip.regs with run := false }
        scan := { s.chip.scan with timer := none, again := false } }.cutPlans .cutStop).cutCensuses).cutReloads) →
      Machine.exec .runClear s =
        .next (s.after { c with stopTimer := some 500, hdr := { c.hdr with wanted := true } }))
  ∧ (∀ (c d : Chip) (u : UnitIx) (r q : UnitRec), c.unit u = some r →
      q = { r with session := { r.session with posted := none, graceDrop := false } } → d = c.setUnit u (some q) →
      (r.session.state = .opened → c.stopSession u = (d.withdraw r.seg r.addr Msg.isRequest).askClose u)
      ∧ (r.session.state = .opening ∨ r.session.state = .closing → c.stopSession u = d)
      ∧ (r.session.state = .exchanging → r.clearAwaits = true →
          c.stopSession u = c.setUnit u (some { q with session := { q.session with heldClose := true } }))
      ∧ (r.session.state = .exchanging → r.clearAwaits = false →
          c.stopSession u = ((c.setUnit u (some { q with
            exch := none, session := { q.session with state := .opened } })).withdraw r.seg r.addr fun m =>
              m.isPull || m.isRequest).askClose u)
      ∧ (r.session.state = .closed ∨ r.session.state = .cooling →
          ((c.seg r.seg).hasGranted r.addr Msg.isOpen = true → c.stopSession u = d.withdraw r.seg r.addr Msg.isOpen)
          ∧ ((c.seg r.seg).hasGranted r.addr Msg.isOpen = false →
            c.stopSession u = (c.setUnit u (some { q with exch := r.exch.filter fun x =>
              !(decide (x.kind = .opn) && decide (x.phase = .repeatHeld)) })).withdraw r.seg r.addr Msg.isOpen)))
  ∧ (∀ c : Chip,
      ((∀ k, (c.ctx k).state = .running → (c.ctx k).content ≠ .reload) → c.cutReloads = c)
      ∧ ∀ k card, (c.ctx k).state = .running → (c.ctx k).content = .reload → (c.ctx k).source = .card card →
        (∀ k', k' ≠ k → (c.ctx k').state = .running → (c.ctx k').content ≠ .reload) →
        c.port.waiting = [] → c.port.fresh = [] →
        c.cutReloads = { c with
          load := none
          ctxs := c.ctxs.set k { c.ctx k with state := .writing, endCode := .cut }
          port := { c.port with
            serving := c.port.serving.map fun q =>
              if q.owner = .loader then { owner := .orphan, accs := q.accs.take 1, got := [] } else q
            fresh := [{ owner := .result k, accs := resultAccs card (c.ctx k) .cut 0 3, got := [] }] } })

/-- R190, R191: RUN 0 in HALTED enters STOPPED whatever RUN was, and ENTER_STOPPED does so from STOPPING when its
conditions hold: segments DOWN with nothing pending, contexts FREE, sessions as on entering the roster, no plan left,
the intake empty, the dip monitor inactive, no timer of the collector running. R63, R64: a unit whose CLEAR awaited
CLEAR-DONE is clear-uncertain then. That ENTER_STOPPED itself takes a collector HALTED with RUN 0 to STOPPED is the
model's choice (log 22). ENTER_STOPPED has no effect while the conditions of R189 do not hold, unless HALTED meets RUN
0; that they wait for the scan's TAKEN or FAILED write too is the model's choice (log 21). R189: the STOPPING timer's
expiry releases the session condition. -/
def Obligations.StoppingAndStopped : Prop :=
  (∀ (s : State) (i : Instr),
      (i = .runClear ∧ s.chip.col = .halted
        ∨ i = .enterStopped ∧ s.chip.col = .halted ∧ s.chip.regs.run = false
        ∨ i = .enterStopped ∧ s.chip.stopEnds = true) →
      ∃ t, Machine.exec i s = .next t ∧ t.pending = s.pending ∧ t.mem = s.mem ∧ t.chip.col = .stopped
        ∧ t.chip.stopTimer = none ∧ (∀ k, t.chip.ctx k = .cleared)
        ∧ t.chip.mon.grace = none ∧ t.chip.mon.parkPending = false ∧ t.chip.mon.dip = .normal
        ∧ t.chip.mon.dipTimer = none ∧ t.chip.mon.settleTimer = none
        ∧ t.chip.scan.timer = none ∧ t.chip.scan.stage = none ∧ t.chip.scan.again = false ∧ t.chip.load = none
        ∧ (∀ g, (t.chip.seg g).state = .down ∧ (t.chip.seg g).census = none ∧ (t.chip.seg g).recovery = none
            ∧ (t.chip.seg g).txErrors = 0 ∧ (t.chip.seg g).rxErrors = 0 ∧ (t.chip.seg g).window = (s.chip.seg g).window
            ∧ ∀ k, (t.chip.seg g).items k = [])
        ∧ (∀ u, t.chip.unit u = (s.chip.unit u).map fun r => { r with
            session := .fresh, exch := none, queue := [], clearUncertain := r.clearUncertain || r.clearAwaits })
        ∧ t.chip.hist.intake = [] ∧ t.chip.hist.run = none ∧ (∀ j, t.chip.slot j = s.chip.slot j)
        ∧ t.chip.pool = s.chip.pool)
  ∧ (∀ s : State, s.chip.stopEnds = false → s.chip.col ≠ .halted ∨ s.chip.regs.run = true →
      Machine.exec .enterStopped s = .next (s.after s.chip))
  ∧ (∀ s : State,
      (s.chip.col = .stopping → Machine.exec .stoppingTimerExpiry s = .next (s.after { s.chip with stopTimer := none }))
      ∧ (s.chip.col ≠ .stopping → Machine.exec .stoppingTimerExpiry s = .next (s.after s.chip)))

/-! ## Ignition, supply, clock, sweep -/

/-- R165: a change of the raw level starts the debounce timer, or stops it where the level is IGN's again; IGN takes the
raw level as the timer expires, and an expiry without a running timer, or to another level than the raw one, has no
effect (the model's choice, log 2). R173: an IGN-off starts the run-on grace in RUNNING, in no other state; a grace of 0
ends at once, whatever is at work (what a grace end does: GraceEndAndCuts). R166, R167, R8, R182: the cycle effects of
an IGN-on in RUNNING and STOPPING: K rises, SILENT units become UNKNOWN, the sweep timer is reset by its trigger, SINGLE
is unspent; in RUNNING the grace and the park-pending mark end (R174). Outside the states that work, IGN alone changes.
R177: an IGN-on while PARKED makes the cycle effects and wakes the collector: RUNNING, QUIET segments LIVE, the dip
monitor active and looking at the supply at once. -/
def Obligations.IgnitionEdges : Prop :=
  (∀ (s : State) (level : Bool),
      (s.chip.mon.raw = level → Machine.exec (.ignRawChange level) s = .next (s.after s.chip))
      ∧ (s.chip.mon.raw ≠ level → s.chip.mon.ign ≠ level →
          Machine.exec (.ignRawChange level) s =
            .next (s.after { s.chip with mon := { s.chip.mon with raw := level, debounce := some 20 } }))
      ∧ (s.chip.mon.raw ≠ level → s.chip.mon.ign = level →
          Machine.exec (.ignRawChange level) s =
            .next (s.after { s.chip with mon := { s.chip.mon with raw := level, debounce := none } })))
  ∧ (∀ s : State,
      (s.chip.mon.debounce = none ∨ s.chip.mon.raw = true ∨ s.chip.mon.ign = false →
        Machine.exec .ignOff s = .next (s.after s.chip))
      ∧ (s.chip.mon.debounce = none ∨ s.chip.mon.raw = false ∨ s.chip.mon.ign = true →
        Machine.exec .ignOn s = .next (s.after s.chip)))
  ∧ (∀ s : State, s.chip.mon.debounce ≠ none → s.chip.mon.raw = false → s.chip.mon.ign = true →
      (s.chip.col ≠ .running →
          Machine.exec .ignOff s =
            .next (s.after { s.chip with mon := { s.chip.mon with ign := false, debounce := none } }))
      ∧ (s.chip.col = .running → s.chip.sets.grace ≠ 0 →
          Machine.exec .ignOff s = .next (s.after { s.chip with mon := { s.chip.mon with
            ign := false, debounce := none, grace := some (1000 * s.chip.sets.grace) } }))
      ∧ (s.chip.col = .running → s.chip.sets.grace = 0 → s.chip.Idle →
          Machine.exec .ignOff s = .next (s.after { s.chip with
            col := .parked
            regs := { s.chip.regs with notice := s.chip.regs.notice ||| 0x80 }
            mon := { s.chip.mon with
              ign := false, debounce := none, grace := none, parkPending := false
              dip := .normal, dipTimer := none, settleTimer := none }
            segs := s.chip.segs.map fun r =>
              if r.state = .live ∨ r.state = .held then
                { r.emptyClasses with state := .quiet, slot := r.slot.map fun t => { t with fate := .gone } }
              else r
            hdr := { s.chip.hdr with wanted := true } }))
      ∧ (s.chip.col = .running → s.chip.sets.grace = 0 →
          Machine.exec .ignOff s =
            .next (s.after (Chip.graceEnd { s.chip with mon := { s.chip.mon with ign := false, debounce := none } }))))
  ∧ (∀ s : State, s.chip.mon.debounce ≠ none → s.chip.mon.raw = true → s.chip.mon.ign = false →
      (s.chip.col = .stopped ∨ s.chip.col = .starting ∨ s.chip.col = .halted →
          Machine.exec .ignOn s =
            .next (s.after { s.chip with mon := { s.chip.mon with ign := true, debounce := none } }))
      ∧ (s.chip.col = .running ∨ s.chip.col = .stopping →
          Machine.exec .ignOn s = .next (s.after { s.chip with
            mon := { s.chip.mon with
              ign := true, debounce := none
              grace := if s.chip.col = .running then none else s.chip.mon.grace
              parkPending := if s.chip.col = .running then false else s.chip.mon.parkPending
              k := if s.chip.mon.k < 16777215 then s.chip.mon.k + 1 else s.chip.mon.k
              spent := false
              sweepMs := if s.chip.sets.sweep.continues then s.chip.mon.sweepMs else 0 }
            roster := s.chip.roster.map fun (o : Option UnitRec) => o.map fun r =>
              if r.presence = .silent then { r with presence := .unknown, losses := 0 } else r
            hdr := { s.chip.hdr with wanted := true } }))
      ∧ (s.chip.col = .parked →
          Machine.exec .ignOn s = .next (s.after { s.chip with
            col := .running
            mon := { s.chip.mon with
              ign := true, debounce := none
              k := if s.chip.mon.k < 16777215 then s.chip.mon.k + 1 else s.chip.mon.k
              spent := false
              sweepMs := if s.chip.sets.sweep.continues then s.chip.mon.sweepMs else 0
              dip := if s.chip.mon.supply < s.chip.sets.supply.dipLevel then .falling else .normal
              dipTimer := if s.chip.mon.supply < s.chip.sets.supply.dipLevel then some 2 else none
              settleTimer := none }
            roster := s.chip.roster.map fun (o : Option UnitRec) => o.map fun r =>
              if r.presence = .silent then { r with presence := .unknown, losses := 0 } else r
            segs := s.chip.segs.map fun r => if r.state = .quiet then { r with state := .live } else r
            hdr := { s.chip.hdr with wanted := true } })))

/-- R175, R176: the grace end: every plan and every census is cut, every session but one whose CLEAR awaits CLEAR-DONE
is dropped, and that one gets the deferred drop (R65); where there is one the park-pending mark is set, else the
collector parks: PARKED, LIVE and HELD segments QUIET with nothing pending, the dip monitor inactive, the PARK cause.
R106: what a cut does to a unit's plans: a plan that has ended stays (log 14), a running one and a QUEUED one have their
outcome recorded with the step it stands at, or 0, and a running one's end goes to the History Table (log 62); every
HARVEST that runs takes the end code CUT. R68: a frame in the slot of a segment that parks is withdrawn if its
transmission fails, also after a wake (log 54). R20, R108, R110: a census that is cut, and the end of an order: a card's
result is written, a sweep is counted, and one that was cut frees its context alone. -/
def Obligations.GraceEndAndCuts : Prop :=
  (∀ s : State,
      (s.chip.mon.grace = none → Machine.exec .graceEnd s = .next (s.after s.chip))
      ∧ (s.chip.mon.grace ≠ none → s.chip.col = .running → s.chip.Idle →
          Machine.exec .graceEnd s = .next (s.after { s.chip with
            col := .parked
            regs := { s.chip.regs with notice := s.chip.regs.notice ||| 0x80 }
            mon := { s.chip.mon with
              grace := none, parkPending := false, dip := .normal, dipTimer := none, settleTimer := none }
            segs := s.chip.segs.map fun r =>
              if r.state = .live ∨ r.state = .held then
                { r.emptyClasses with state := .quiet, slot := r.slot.map fun t => { t with fate := .gone } }
              else r
            hdr := { s.chip.hdr with wanted := true } })))
  ∧ (∀ s : State, s.chip.mon.grace ≠ none → s.chip.anyClearAwaits = true →
      (∀ u r, s.chip.unit u = some r →
        r.queue = [] ∧ (r.clearAwaits = false → r.session.state.holdsSlot = false)) →
      (∀ g, (s.chip.seg g).census = none) → (∀ k, (s.chip.ctx k).state = .free) →
      Machine.exec .graceEnd s = .next (s.after { s.chip with
        mon := { s.chip.mon with grace := none, parkPending := true }
        roster := s.chip.roster.map fun (o : Option UnitRec) => o.map fun r =>
          if r.clearAwaits then { r with session := { r.session with graceDrop := true } } else r }))
  ∧ (∀ (s : State) (d : Chip), s.chip.mon.grace ≠ none →
      d = Chip.graceDrops (Chip.cutCensuses (Chip.cutPlans
        { s.chip with mon := { s.chip.mon with grace := none } } .cutGrace)) →
      (d.anyClearAwaits = true →
        Machine.exec .graceEnd s = .next (s.after { d with mon := { d.mon with parkPending := true } }))
      ∧ (d.anyClearAwaits = false → Machine.exec .graceEnd s = .next (s.after d.park)))
  ∧ (∀ c : Chip, (∀ u r p, c.unit u = some r → r.queue.head? = some p → p.ended ≠ none) →
      (∀ u, c.graceDrops.unit u = (c.unit u).map fun r =>
        if r.clearAwaits then { r with session := { r.session with graceDrop := true } }
        else if r.session.state.holdsSlot then r.dropped else r)
      ∧ (∀ (g : Seg) (taken : Byte → Bool),
          taken = (fun a => (c.unitsOf g).any fun u => (c.unit u).any fun r =>
            decide (r.addr = a) && r.session.state.holdsSlot && !r.clearAwaits) →
          c.graceDrops.seg g = { (c.seg g).filterItems (fun i => !taken i.addr) with
            slot := (c.seg g).slot.map fun t => if taken t.item.addr then { t with stale := true } else t })
      ∧ { c.graceDrops with roster := c.roster, segs := c.segs } = c)
  ∧ (∀ c : Chip, (∀ u r, c.unit u = some r → r.exch = none ∧ r.session.state.holdsSlot = false
        ∧ ∀ p ∈ r.queue, p.ended ≠ none) →
      (∀ g, (c.seg g).census = none) → (∀ k, (c.ctx k).state = .running → (c.ctx k).content.kind ≠ .harvest) →
      c.park = { c with
        col := .parked
        regs := { c.regs with notice := c.regs.notice ||| 0x80 }
        mon := { c.mon with grace := none, parkPending := false, dip := .normal, dipTimer := none, settleTimer := none }
        segs := c.segs.map fun r =>
          if r.state = .live ∨ r.state = .held then
            { r.emptyClasses with state := .quiet, slot := r.slot.map fun t => { t with fate := .gone } }
          else r
        hdr := { c.hdr with wanted := true } })
  ∧ (∀ (c : Chip) (u : UnitIx) (r : UnitRec) (v : Verdict) (code : Nat), c.unit u = some r →
      v = .cutGrace ∧ code = 14 ∨ v = .cutStop ∧ code = 15 →
      ((∀ p ∈ r.queue, p.ended ≠ none) → Chip.cutUnit v c u = c)
      ∧ (∀ before p x, r.queue = before ++ [p] → (∀ q ∈ before, q.ended ≠ none) → p.ended = none →
          x = { c.ctx p.ctx with
            outcomes := (c.ctx p.ctx).outcomes.set u
              (BitVec.ofNat 8 (16 * code + if p.running = true then p.cursor % 16 else 0))
            skippedMask := (c.ctx p.ctx).skippedMask ||| BitVec.ofNat 64 (2 ^ u.val)
            outstanding := (c.ctx p.ctx).outstanding - 1 } →
          (p.running = true → Chip.cutUnit v c u = (Chip.clearMarks { c.setUnit u (some { r with
              queue := before, session := { r.session with posted := none } }) with
              ctxs := c.ctxs.set p.ctx x } r.seg r.addr).handOver (.planEnd p.serial r.seg r.addr false) none)
          ∧ (p.running = false → Chip.cutUnit v c u = { c.setUnit u (some { r with
              queue := before, session := { r.session with posted := none } }) with
              ctxs := c.ctxs.set p.ctx x })))
  ∧ (∀ (c : Chip) (v : Verdict), (∀ u r, c.unit u = some r → ∀ p ∈ r.queue, p.ended ≠ none) →
      (∀ k, (c.ctx k).state = .running → (c.ctx k).content.kind = .harvest → (c.ctx k).outstanding ≠ 0) →
      c.cutPlans v = { c with ctxs := c.ctxs.map fun x =>
        if x.state = .running ∧ x.content.kind = .harvest then { x with endCode := .cut } else x })
  ∧ (∀ c : Chip,
      ((∀ g, (c.seg g).census = none) → c.cutCensuses = c)
      ∧ ∀ g n card x, (c.seg g).census = some n → (∀ g', g' ≠ g → (c.seg g').census = none) →
        (c.ctx n.ctx).source = .card card →
        x = { c.ctx n.ctx with
          doneMask := maskOfUnits ((c.unitsOf g).filter fun u => (c.unit u).any fun r => n.answered.contains r.addr)
          created := n.created, endCode := .cut } →
        c.cutCensuses = { c.modSeg g fun r => { r with
            census := none, op := r.op.filter fun i => decide (i.stamp ≠ n.rollStamp) } with
          ctxs := c.ctxs.set n.ctx { x with state := .writing }
          port := { c.port with fresh := c.port.fresh ++ [{
            owner := .result n.ctx, accs := resultAccs card x .cut 0 3, got := [] }] } })
  ∧ (∀ (c : Chip) (k : CtxIx),
      ((c.ctx k).source = .sweep → (c.ctx k).endCode = .cut → c.orderEnd k = { c with ctxs := c.ctxs.set k .cleared })
      ∧ ((c.ctx k).source = .sweep → (c.ctx k).endCode ≠ .cut → c.col ≠ .stopped → c.orderEnd k = { c with
          ctxs := c.ctxs.set k .cleared
          sweepCount := if c.sweepCount < 65535 then c.sweepCount + 1 else c.sweepCount
          lastSweepSeq := c.hist.published
          regs := { c.regs with notice := c.regs.notice ||| 0x02 } })
      ∧ ∀ card, (c.ctx k).source = .card card → c.orderEnd k = { c with
          ctxs := c.ctxs.set k { c.ctx k with state := .writing }
          port := { c.port with fresh := c.port.fresh ++ [{
            owner := .result k, accs := resultAccs card (c.ctx k) (c.ctx k).endCode 0 3, got := [] }] } })

/-- R178, R179: the supply in RUNNING and STOPPING moves the dip state: below the dip level to FALLING, back above it to
NORMAL, above the recovery level to SETTLING, back below it to DIPPED; in other states the monitor is inactive. -/
def Obligations.SupplyMovesTheDipState : Prop :=
  SupplyClass.dipLevel .v12 = 8000 ∧ SupplyClass.dipLevel .v24 = 16000 ∧ ∀ (s : State) (mv : Nat),
    (s.chip.col ≠ .running → s.chip.col ≠ .stopping →
      Machine.exec (.supplyCrossing mv) s = .next (s.after { s.chip with mon := { s.chip.mon with supply := mv } }))
    ∧ (s.chip.col = .running ∨ s.chip.col = .stopping →
        ∃ dip dipTimer settleTimer,
          Machine.exec (.supplyCrossing mv) s = .next (s.after { s.chip with mon := { s.chip.mon with
            supply := mv, dip := dip, dipTimer := dipTimer, settleTimer := settleTimer } })
          ∧ (s.chip.mon.dip = .normal → mv < s.chip.sets.supply.dipLevel →
              dip = .falling ∧ dipTimer = some 2 ∧ settleTimer = s.chip.mon.settleTimer)
          ∧ (s.chip.mon.dip = .falling → s.chip.sets.supply.dipLevel < mv →
              dip = .normal ∧ dipTimer = none ∧ settleTimer = s.chip.mon.settleTimer)
          ∧ (s.chip.mon.dip = .dipped → s.chip.sets.supply.dipLevel + 1000 < mv →
              dip = .settling ∧ settleTimer = some 50 ∧ dipTimer = s.chip.mon.dipTimer)
          ∧ (s.chip.mon.dip = .settling → mv < s.chip.sets.supply.dipLevel + 1000 →
              dip = .dipped ∧ settleTimer = none ∧ dipTimer = s.chip.mon.dipTimer)
          ∧ (s.chip.mon.dip = .normal ∧ s.chip.sets.supply.dipLevel ≤ mv
              ∨ s.chip.mon.dip = .falling ∧ mv ≤ s.chip.sets.supply.dipLevel
              ∨ s.chip.mon.dip = .dipped ∧ mv ≤ s.chip.sets.supply.dipLevel + 1000
              ∨ s.chip.mon.dip = .settling ∧ s.chip.sets.supply.dipLevel + 1000 ≤ mv →
              dip = s.chip.mon.dip ∧ dipTimer = s.chip.mon.dipTimer ∧ settleTimer = s.chip.mon.settleTimer))

/-- R180: dip entry: DIPPED, the dip count rises, LIVE segments are HELD, the DIP cause. R68: the frame in a slot then
is given back if its transmission fails, also after the dip's end (log 54). R181: dip end: every session that holds a
slot is dropped, HELD segments are LIVE, the dip state is NORMAL. R59, R63: shown for units without plans, a unit whose
session held a slot is left as `UnitRec.dropped` says (COOLING, exchange removed, drops count up, clear-uncertain for a
CLEAR that awaited CLEAR-DONE), its pending items are withdrawn and its frame on the wire is no longer its own; nothing
else changes. -/
def Obligations.DipHoldsAndReleases : Prop :=
  (∀ s : State,
      (s.chip.mon.dip ≠ .falling → Machine.exec .dipEntry s = .next (s.after s.chip))
      ∧ (s.chip.mon.dip = .falling → s.chip.col = .running ∨ s.chip.col = .stopping →
          Machine.exec .dipEntry s = .next (s.after { s.chip with
            regs := { s.chip.regs with notice := s.chip.regs.notice ||| 0x40 }
            mon := { s.chip.mon with
              dip := .dipped, dipTimer := none
              dipCount := if s.chip.mon.dipCount < 65535 then s.chip.mon.dipCount + 1 else s.chip.mon.dipCount }
            segs := s.chip.segs.map fun r =>
              if r.state = .live then { r with state := .held, slot := r.slot.map fun t => { t with fate := .back } } else r
            hdr := { s.chip.hdr with wanted := true } })))
  ∧ (∀ s : State,
      (s.chip.mon.dip ≠ .settling → Machine.exec .dipEnd s = .next (s.after s.chip))
      ∧ (s.chip.mon.dip = .settling →
          Machine.exec .dipEnd s = .next (s.after { s.chip.dropAll with
            mon := { s.chip.mon with dip := .normal, settleTimer := none }
            segs := s.chip.dropAll.segs.map fun r => if r.state = .held then { r with state := .live } else r
            hdr := { s.chip.dropAll.hdr with wanted := true } }))
      ∧ ((∀ u r, s.chip.unit u = some r → r.session.state.holdsSlot = false) → s.chip.dropAll = s.chip)
      ∧ ((∀ u r, s.chip.unit u = some r → r.queue = []) →
          (∀ u, s.chip.dropAll.unit u = (s.chip.unit u).map fun r =>
            if r.session.state.holdsSlot then r.dropped else r)
          ∧ (∀ g, s.chip.dropAll.seg g = { (s.chip.seg g).filterItems (fun i => !s.chip.slotHeldBy g i.addr) with
              slot := (s.chip.seg g).slot.map fun t =>
                if s.chip.slotHeldBy g t.item.addr then { t with stale := true } else t })
          ∧ { s.chip.dropAll with roster := s.chip.roster, segs := s.chip.segs } = s.chip))

/-- R168, R171: CT rises on the ignition-on time base and stops at its end; the header is written at every tenth rise.
R183, R109, R110: a sweep expiry that finds a free context, one that no take of the scan has claimed (log 41), starts a
sweep: the context is RUNNING for SWEEP with the steps LIST, DRAW 0, SNAP over the units that are on an ACTIVE segment,
not SILENT and not excluded, each of which gets a plan, in ascending roster index, begun where its queue was empty; the
plans outstanding are their number. With no such unit the order ends at once: the sweep count rises, the last sweep
sequence is the published one, SWEEP-DONE. SINGLE is spent. R183, R109: a sweep expiry is an overrun while a sweep or a
reload is taken or no context is free and unclaimed. R182: the sweep timer's expiry has no effect while its count does
not advance (log 2). -/
def Obligations.SweepTimerAndClock : Prop :=
  (∀ (s : State) (k : CtxIx), s.chip.col = .running → s.chip.mon.ign = true → s.chip.sets.sweep.enable = true →
      s.chip.mon.spent = false → s.chip.sweepTaken = false → s.chip.reloadTaken = false → s.chip.freeCtx = some k →
      (s.chip.mon.parkPending = false → ∃ t, Machine.exec .sweepTimerExpiry s = .next t ∧ t.pending = s.pending
        ∧ t.mem = s.mem ∧ t.chip.mon.sweepMs = 0 ∧ t.chip.mon.spent = !s.chip.sets.sweep.repeats
        ∧ t.chip.sweepOverruns = s.chip.sweepOverruns)
      ∧ ((∀ u r, s.chip.unit u = some r →
            s.chip.mode r.seg ≠ some .active ∨ r.presence = .silent ∨ r.desc.sweepExclude = true) →
          Machine.exec .sweepTimerExpiry s = .next (s.after { s.chip with
            ctxs := s.chip.ctxs.set k .cleared
            sweepCount := if s.chip.sweepCount < 65535 then s.chip.sweepCount + 1 else s.chip.sweepCount
            lastSweepSeq := s.chip.hist.published
            regs := { s.chip.regs with notice := s.chip.regs.notice ||| 0x02 }
            mon := { s.chip.mon with sweepMs := 0, spent := !s.chip.sets.sweep.repeats } }))
      ∧ ((∀ u r p, s.chip.unit u = some r → r.queue.head? = some p → p.running = true) →
          s.chip.units.filter s.chip.sweepTarget ≠ [] →
          ∃ c, Machine.exec .sweepTimerExpiry s = .next (s.after c)
            ∧ c.ctx k = { Ctx.cleared with
                state := .running, source := .sweep
                content := .harvest (maskOfUnits (s.chip.units.filter s.chip.sweepTarget)) false false
                  [ { kind := .list, cond := .always, pairing := .alone },
                    { kind := .draw 0, cond := .always, pairing := .alone },
                    { kind := .snap, cond := .always, pairing := .alone } ]
                outstanding := (s.chip.units.filter s.chip.sweepTarget).length }
            ∧ (∀ u, s.chip.sweepTarget u = true ↔ ∃ r, s.chip.unit u = some r ∧ s.chip.mode r.seg = some .active
                ∧ r.presence ≠ .silent ∧ r.desc.sweepExclude = false)
            ∧ (∀ u, s.chip.sweepTarget u = false → c.unit u = s.chip.unit u)
            ∧ ∀ (j : Nat) (u : UnitIx) (r : UnitRec), (s.chip.units.filter s.chip.sweepTarget)[j]? = some u →
                s.chip.unit u = some r → ∃ r' p, c.unit u = some r' ∧ r'.queue = r.queue ++ [p]
                  ∧ p.serial = s.chip.nextSerial + j ∧ p.ctx = k ∧ p.cursor = 1 ∧ p.ended = none
                  ∧ (r.queue = [] → p.running = true ∧ p.work = some .list)
                  ∧ (r.queue ≠ [] → r' = { r with queue := r.queue ++ [p] } ∧ p.running = false)))
  ∧ (∀ s : State, s.chip.col = .running → s.chip.mon.ign = true → s.chip.sets.sweep.enable = true →
      s.chip.mon.spent = false → (s.chip.sweepTaken = true ∨ s.chip.reloadTaken = true ∨ s.chip.freeCtx = none) →
      Machine.exec .sweepTimerExpiry s = .next (s.after { s.chip with
        sweepOverruns := if s.chip.sweepOverruns < 255 then s.chip.sweepOverruns + 1 else s.chip.sweepOverruns
        mon := { s.chip.mon with sweepMs := 0 } }))
  ∧ (∀ s : State, s.chip.col ≠ .running ∨ s.chip.mon.ign = false ∨ s.chip.sets.sweep.enable = false
        ∨ s.chip.mon.spent = true →
      Machine.exec .sweepTimerExpiry s = .next (s.after s.chip))
  ∧ (∀ s : State,
      (s.chip.col ≠ .running ∨ s.chip.mon.ign = false → Machine.exec .ctRise s = .next (s.after s.chip))
      ∧ (s.chip.col = .running → s.chip.mon.ign = true → s.chip.mon.ct < 4294967295 →
          Machine.exec .ctRise s = .next (s.after { s.chip with
            mon := { s.chip.mon with phase := 0, ct := s.chip.mon.ct + 1, rises := s.chip.mon.rises + 1 }
            hdr := { s.chip.hdr with wanted := s.chip.hdr.wanted || decide (9 ≤ s.chip.mon.rises) } }))
      ∧ (s.chip.col = .running → s.chip.mon.ign = true → ¬ s.chip.mon.ct < 4294967295 →
          Machine.exec .ctRise s = .next (s.after { s.chip with mon := { s.chip.mon with phase := 0 } })))

/-! ## Shared operations of the units -/

/-- R76, R68: the operations that every rule on pending work, sessions and hand-overs is said with. Posting gives an
item to the end of its class, unless the unit has one there (log 63), and an arbiter that may grant it sends it at once;
withdrawing takes out exactly the items named. R45, R53: an OPEN is posted where none is pending (nor, the model's
choice, in the transmit slot: log 52), and what asking for a close does in every session state: remembered in OPENING
(log 28), nothing in CLOSING or behind a granted CLOSE (log 65), and a record in REPEAT-HELD kept while its OPEN is in
the slot (log 46). R126: a hand-over joins the intake, or waits where 64 items stand in it. R59, R60, R61, R103: a drop
of a session, against no plan, and against a running plan whose LIST is in flight: reopened at the first, ended DROPPED
at the second; a drop in CLOSING counts against no plan (log 58). -/
def Obligations.SharedOperations : Prop :=
  (∀ (c : Chip) (g : Seg) (a : Byte) (m : Msg) (again : Bool) (i : Item),
      i = { addr := a, msg := m, stamp := (c.seg g).nextStamp, collector := c.sets.collector, again := again } →
      ((c.seg g).occupied i = true ↔ m ≠ .roll ∧ ∃ j ∈ (c.seg g).items m.cls, j.addr = a ∧ j.msg ≠ .roll)
      ∧ ((c.seg g).slot ≠ none ∨ (c.seg g).state ≠ .live ∨ c.mode g ≠ some .active →
          ((c.post g a m again).seg g).items m.cls =
              (if (c.seg g).occupied i then (c.seg g).items m.cls else (c.seg g).items m.cls ++ [i])
          ∧ (∀ k, k ≠ m.cls → ((c.post g a m again).seg g).items k = (c.seg g).items k)
          ∧ ((c.post g a m again).seg g).nextStamp = (c.seg g).nextStamp + 1
          ∧ ((c.post g a m again).seg g).slot = (c.seg g).slot
          ∧ ((c.post g a m again).seg g).state = (c.seg g).state
          ∧ ((c.post g a m again).seg g).window = (c.seg g).window
          ∧ ((c.post g a m again).seg g).census = (c.seg g).census
          ∧ (∀ h, h ≠ g → (c.post g a m again).seg h = c.seg h)
          ∧ { c.post g a m again with segs := c.segs } = c)
      ∧ ((c.seg g).slot = none → (c.seg g).state = .live → c.mode g = some .active →
          (∀ k, (c.seg g).items k = []) → m ≠ .opn →
          ((c.post g a m again).seg g).slot = some { item := i, frame := frameOf i, stale := false, fate := .again }
          ∧ (∀ k, ((c.post g a m again).seg g).items k = [])))
  ∧ (∀ (c : Chip) (g : Seg) (a : Byte) (which : Msg → Bool),
      (∀ k, ((c.withdraw g a which).seg g).items k =
        ((c.seg g).items k).filter fun i => !(decide (i.addr = a) && which i.msg))
      ∧ ((c.withdraw g a which).seg g).slot = (c.seg g).slot
      ∧ (∀ h, h ≠ g → (c.withdraw g a which).seg h = c.seg h)
      ∧ { c.withdraw g a which with segs := c.segs } = c)
  ∧ (∀ (c : Chip) (u : UnitIx) (r : UnitRec), c.unit u = some r →
      ((c.seg r.seg).hasPending r.addr Msg.isOpen = true ∨ (c.seg r.seg).hasGranted r.addr Msg.isOpen = true →
        c.postOpen u = c)
      ∧ ((c.seg r.seg).hasPending r.addr Msg.isOpen = false → (c.seg r.seg).hasGranted r.addr Msg.isOpen = false →
        c.postOpen u = (c.setUnit u (some { r with session := { r.session with openAttempts := 0 } })).post r.seg r.addr
          .opn false)
      ∧ (r.session.state = .opened →
          (c.askClose u = if (c.seg r.seg).hasPending r.addr Msg.isClose || (c.seg r.seg).hasGranted r.addr Msg.isClose
            then c else c.post r.seg r.addr .close false))
      ∧ (r.session.state = .exchanging → r.clearAwaits = true →
          c.askClose u = c.setUnit u (some { r with session := { r.session with heldClose := true } }))
      ∧ (r.session.state = .exchanging ∧ r.clearAwaits = false ∨ r.session.state = .closing → c.askClose u = c)
      ∧ (r.session.state = .opening →
          c.askClose u = c.setUnit u (some { r with session := { r.session with closeAtAccept := true } }))
      ∧ (r.session.state = .closed ∨ r.session.state = .cooling →
          (c.seg r.seg).hasGranted r.addr Msg.isOpen = true →
          c.askClose u = (c.setUnit u (some { r with session := { r.session with posted := none } })).withdraw r.seg
            r.addr Msg.isOpen)
      ∧ (r.session.state = .closed ∨ r.session.state = .cooling →
          (c.seg r.seg).hasGranted r.addr Msg.isOpen = false →
          c.askClose u = (c.setUnit u (some { r with
            session := { r.session with posted := none }
            exch := r.exch.filter fun x => !(decide (x.kind = .opn) && decide (x.phase = .repeatHeld)) })).withdraw r.seg
              r.addr Msg.isOpen))
  ∧ (∀ (c : Chip) (i : WorkItem) (o : Option Seg),
      (c.hist.intake.length < 64 → c.hist.handWait = [] →
        c.handOver i o = { c with hist := { c.hist with intake := c.hist.intake ++ [i] } })
      ∧ (64 ≤ c.hist.intake.length ∨ c.hist.handWait ≠ [] →
        c.handOver i o = { c with hist := { c.hist with handWait := c.hist.handWait ++ [(i, o)] } })
      ∧ ∀ rest, c.hist.handWait = (i, o) :: rest → c.hist.intake.length < 64 →
        c.hist.moveIn = { c.hist with intake := c.hist.intake ++ [i], handWait := rest })
  ∧ (∀ (c : Chip) (u : UnitIx) (r : UnitRec) (counted : Bool), c.unit u = some r →
      (r.session.state.holdsSlot = false → c.drop u counted = c)
      ∧ (r.session.state.holdsSlot = true →
          (r.queue = [] → c.drop u counted = (c.setUnit u (some r.dropped)).modSeg r.seg fun g =>
            (g.filterItems fun i => decide (i.addr ≠ r.addr)).markStale r.addr)
          ∧ ∀ p qs, r.queue = p :: qs → p.running = true → p.ended = none → p.work = some .list → p.heldEnd = none →
              (c.ctx p.ctx).withdrawn = false →
              (counted = false ∨ r.session.state = .closing ∨ p.drops = 0 →
                c.drop u counted = (((c.setUnit u (some { r.dropped with
                  session := { r.dropped.session with
                    posted := some { kind := .list, plan := p.serial }, openAttempts := 0 }
                  queue := { p with
                    drops := if counted = true ∧ r.session.state ≠ .closing then 1 else p.drops } :: qs })).modSeg r.seg
                      fun g => (g.filterItems fun i => decide (i.addr ≠ r.addr)).markStale r.addr).post r.seg r.addr .opn
                        false))
              ∧ (counted = true → r.session.state ≠ .closing → 1 ≤ p.drops → p.drops ≤ 2 → c.itemsLeft p.serial = false →
                c.drop u counted = ((c.setUnit u (some { r.dropped with
                  queue := { p with
                    drops := 2, ended := some (.dropped, p.cursor), work := none, heldEnd := none } :: qs })).modSeg r.seg
                      fun g => (g.filterItems fun i => decide (i.addr ≠ r.addr)).markStale r.addr).handOver
                        (.planEnd p.serial r.seg r.addr (p.completeHarvest .dropped)) none)))

/-- R54: what entering COOLING does to a session, and how long it lasts. R54: the cooling timer's expiry closes the
session and clears the clear-done mark. R53: a CLOSE that no BYE answers ends by its reply timer as by BYE; shown for a
unit without plans. R53: a BYE ends the close: the exchange record goes and the session cools; shown for a unit without
plans. -/
def Obligations.ClosingAndCooling : Prop :=
  ((∀ (x : Session) (n : Nat), n ≠ 0 →
      x.cool n = { x with state := .cooling, keepTimer := none, keepDebt := 0, coolTimer := some n })
    ∧ (∀ x : Session,
      x.cool 0 = { x with state := .closed, keepTimer := none, keepDebt := 0, coolTimer := none, clearMark := false })
    ∧ ∀ r : UnitRec,
      r.coolLength false = r.desc.restTime
      ∧ (r.session.clearMark = false → r.coolLength true = r.desc.restTime)
      ∧ (r.session.clearMark = true → r.coolLength true = r.desc.restTime + r.desc.clearRecovery))
  ∧ (∀ (s : State) (u : UnitIx) (r : UnitRec), s.chip.unit u = some r →
      (r.session.state = .cooling → r.session.coolTimer ≠ none →
        Machine.exec (.coolingTimerExpiry u) s = .next (s.after (s.chip.setUnit u (some { r with session := { r.session with
          state := .closed, coolTimer := none, clearMark := false } }))))
      ∧ (r.session.state ≠ .cooling ∨ r.session.coolTimer = none →
          Machine.exec (.coolingTimerExpiry u) s = .next (s.after s.chip)))
  ∧ (∀ (s : State) (u : UnitIx) (r : UnitRec) (x : Exchange), s.chip.unit u = some r → r.exch = some x → r.queue = [] →
      x.kind = .close → x.timer ≠ none →
      Machine.exec (.replyTimerExpiry u) s = .next (s.after ((s.chip.setUnit u (some { r with
        exch := none, session := r.session.cool (r.coolLength true) })).withdraw r.seg r.addr Msg.isKeep)))
  ∧ (∀ (s : State) (g : Seg) (a : Byte) (u : UnitIx) (r : UnitRec) (x : Exchange), s.chip.Hears g a u r →
      r.exch = some x → x.kind = .close → x.phase = .awaitBye → r.queue = [] →
      Machine.exec (.bye g a) s = .next (s.after ((s.chip.heard g u { r with
        exch := none, session := r.session.cool (r.coolLength true) }).withdraw g r.addr Msg.isKeep)))

/-- R78: an arbiter grants only to an empty slot of a LIVE and ACTIVE segment; the oldest overdue KEEP goes first; what
it grants otherwise is eligible, and leaves its class for the slot. R77, R78: where some item is eligible the slot is
filled, with the first eligible item in the order of bands, of classes in the band, and of posting; the six band orders
and the intra-band choices give the order of the classes. R79: an OPEN is eligible in CLOSED with a free session slot,
or in OPENING, while the open window holds fewer than 4 times; every other item always is. -/
def Obligations.ArbiterGrantsTheEligible : Prop :=
  (∀ (c : Chip) (g : Seg),
      ((c.seg g).slot ≠ none ∨ (c.seg g).state ≠ .live ∨ c.mode g ≠ some .active → c.grant g = c)
      ∧ ((c.seg g).slot = none → (c.seg g).state = .live → c.mode g = some .active →
          (∀ i before rest, (c.seg g).ka = before ++ i :: rest → c.overdue g i = true →
              (∀ j ∈ before, c.overdue g j = false) →
              ((c.grant g).seg g).slot = some { item := i, frame := frameOf i, stale := false, fate := .again })
          ∧ (∀ t, (∀ j ∈ (c.seg g).ka, c.overdue g j = false) → ((c.grant g).seg g).slot = some t →
              c.eligible g t.item = true ∧ t.frame = frameOf t.item ∧ t.stale = false ∧ t.fate = .again
              ∧ ∃ k, t.item ∈ (c.seg g).items k
                  ∧ ∀ j ∈ ((c.grant g).seg g).items t.item.msg.cls, j.stamp ≠ t.item.stamp)
          ∧ ((∀ j ∈ (c.seg g).ka, c.overdue g j = false) → (∃ k, ∃ j ∈ (c.seg g).items k, c.eligible g j = true) →
              ∃ t k before after older newer, ((c.grant g).seg g).slot = some t
                ∧ (bandsOf (c.segSets g).bandOrder).flatMap (classesOf (c.segSets g)) = before ++ k :: after
                ∧ (c.seg g).items k = older ++ t.item :: newer
                ∧ (∀ k' ∈ before, ∀ j ∈ (c.seg g).items k', c.eligible g j = false)
                ∧ ∀ j ∈ older, c.eligible g j = false)))
  ∧ (∀ (c : Chip) (g : Seg) (i : Item) (u : UnitIx) (r : UnitRec), c.findUnit g i.addr = some u → c.unit u = some r →
      (i.msg = .opn →
        (c.eligible g i = true ↔ (c.seg g).window.length < 4
          ∧ (r.session.state = .closed ∧ c.slotsHeld g < 6 ∨ r.session.state = .opening)))
      ∧ (i.msg ≠ .opn → c.eligible g i = true))
  ∧ ([1, 2, 3, 4, 5, 6].map bandsOf = [[1, 2, 3], [1, 3, 2], [2, 1, 3], [2, 3, 1], [3, 1, 2], [3, 2, 1]]
      ∧ ∀ x : SegSettings, classesOf x 1 = (if x.plFirst then [.pl, .ka] else [.ka, .pl])
        ∧ classesOf x 2 = (if x.csFirst then [.cs, .op] else [.op, .cs])
        ∧ classesOf x 3 = if x.clFirst then [.cl, .rq] else [.rq, .cl])

/-! ## Timers of units -/

/-- R57: at a keep expiry the timer starts again at once and the debt rises; from 0 to 1 a KEEP is posted. R57, R59: at
a debt of 3 the expiry drops the session: it cools, its exchange record and its pending work go, its frame on the wire
is no longer its own; shown for a unit without plans. -/
def Obligations.KeepTimerExpires : Prop :=
  (∀ (s : State) (u : UnitIx) (r : UnitRec), s.chip.unit u = some r →
      (r.session.keepTimer = none ∨ (r.session.state ≠ .opened ∧ r.session.state ≠ .exchanging)
          ∨ (s.chip.seg r.seg).state = .held →
        Machine.exec (.keepTimerExpiry u) s = .next (s.after s.chip))
      ∧ (r.session.keepTimer ≠ none → r.session.state = .opened ∨ r.session.state = .exchanging →
          (s.chip.seg r.seg).state ≠ .held → r.session.keepDebt = 0 →
          Machine.exec (.keepTimerExpiry u) s = .next (s.after ((s.chip.setUnit u (some { r with session := { r.session with
            keepDebt := 1, keepTimer := some (s.chip.segSets r.seg).keepInterval } })).post r.seg r.addr .keep false)))
      ∧ (r.session.keepTimer ≠ none → r.session.state = .opened ∨ r.session.state = .exchanging →
          (s.chip.seg r.seg).state ≠ .held → 0 < r.session.keepDebt → r.session.keepDebt < 3 →
          Machine.exec (.keepTimerExpiry u) s = .next (s.after (s.chip.setUnit u (some { r with session := { r.session with
            keepDebt := r.session.keepDebt + 1, keepTimer := some (s.chip.segSets r.seg).keepInterval } })))))
  ∧ (∀ (s : State) (u : UnitIx) (r : UnitRec), s.chip.unit u = some r → r.queue = [] →
      r.session.keepTimer ≠ none → r.session.state = .opened ∨ r.session.state = .exchanging →
      (s.chip.seg r.seg).state ≠ .held → r.session.keepDebt = 3 →
      Machine.exec (.keepTimerExpiry u) s = .next (s.after ((s.chip.setUnit u (some { r with
        session := { r.session.cool (r.coolLength true) with
          posted := none, heldClose := false, closeAtAccept := false, graceDrop := false }
        clearUncertain := r.clearUncertain || r.clearAwaits
        exch := none
        ignore := 0
        drops := if r.drops < 255 then r.drops + 1 else r.drops })).modSeg r.seg fun g =>
          (g.filterItems fun i => decide (i.addr ≠ r.addr)).markStale r.addr)))

/-- R48: an open attempt that timed out is repeated while attempts are left. R48, R7: the last attempt's timeout ends
the open: BUSY where an attempt was answered, or else UNANSWERED, with the loss of presence; the session cools for the
rest time; shown for a unit without plans. -/
def Obligations.OpenTimerExpires : Prop :=
  (∀ (s : State) (u : UnitIx) (r : UnitRec) (x : Exchange), s.chip.unit u = some r → r.exch = some x →
      (x.timer = none ∨ x.kind ≠ .opn → Machine.exec (.openTimerExpiry u) s = .next (s.after s.chip))
      ∧ (x.timer ≠ none → x.kind = .opn → r.session.openAttempts < 1 + r.desc.retries →
          Machine.exec (.openTimerExpiry u) s = .next (s.after ((s.chip.setUnit u (some { r with
            exch := some { x with phase := .repeatHeld, timer := none } })).post r.seg r.addr .opn true))))
  ∧ (∀ (s : State) (u : UnitIx) (r : UnitRec) (x : Exchange), s.chip.unit u = some r → r.exch = some x → r.queue = [] →
      s.chip.col ≠ .stopped → x.timer ≠ none → x.kind = .opn → 1 + r.desc.retries ≤ r.session.openAttempts →
      (x.answered = true →
        Machine.exec (.openTimerExpiry u) s = .next (s.after ((s.chip.setUnit u (some { r with
          exch := none
          session := { r.session.cool r.desc.restTime with posted := none, closeAtAccept := false } })).withdraw r.seg
            r.addr Msg.isKeep)))
      ∧ (x.answered = false →
          Machine.exec (.openTimerExpiry u) s = .next (s.after (({ s.chip.setUnit u (some { r with
            exch := none
            losses := if r.losses < 3 then r.losses + 1 else r.losses
            presence := if (if r.losses < 3 then r.losses + 1 else r.losses) = 3 then .silent else .lost
            session := { r.session.cool r.desc.restTime with posted := none, closeAtAccept := false } }) with
              regs := { s.chip.regs with notice := s.chip.regs.notice ||| 0x10 } }).withdraw r.seg r.addr Msg.isKeep))))

/-- R29, R38: a request's attempt that timed out is repeated while attempts are left: the record is REPEAT-HELD, the
repeat is posted, and a pending PULL is withdrawn (R29 does not name it: the model's choice, log 16); a DRAW goes on at
the first slot that has not arrived. R29, R52, R63: the last attempt's timeout ends the request: BROKEN leaves the
session OPEN; UNANSWERED loses presence and cools the session; a CLEAR leaves the unit clear-uncertain; shown for a unit
without plans. R62, R65: a close held back behind a CLEAR is asked for as its request ends with the session OPEN, and a
deferred drop of the grace end is made, the close first where both are due (log 64); an UNANSWERED end leaves neither.
R31: the rest timer's expiry posts the repeat that was held. -/
def Obligations.RequestAttemptEnds : Prop :=
  (∀ (s : State) (u : UnitIx) (r : UnitRec) (x : Exchange) (q : Req), s.chip.unit u = some r → r.exch = some x →
      x.kind = .request q →
      (x.timer = none → Machine.exec (.replyTimerExpiry u) s = .next (s.after s.chip))
      ∧ (x.timer ≠ none → x.attempt < 1 + r.desc.retries →
          ∃ q', q'.plan = q.plan
            ∧ ((∀ start group base, q.kind ≠ .draw start group base) → q' = q)
            ∧ (∀ start group base, q.kind = .draw start group base →
                q'.kind = .draw (((wrapOrder start group).find? fun j => !x.arrived.contains j).getD start) group base)
            ∧ Machine.exec (.replyTimerExpiry u) s = .next (s.after (((s.chip.setUnit u (some { r with
                exch := some { x with
                  kind := .request q', phase := .repeatHeld, timer := none, rest := none, bytes := [], arrived := []
                  taken := 0, needed := 0, credit := 0 } })).withdraw r.seg r.addr Msg.isPull).post r.seg r.addr
                    (.request q') true))))
  ∧ (∀ (s : State) (u : UnitIx) (r : UnitRec) (x : Exchange) (q : Req), s.chip.unit u = some r → r.exch = some x →
      x.kind = .request q → r.queue = [] → s.chip.col ≠ .stopped → x.timer ≠ none → 1 + r.desc.retries ≤ x.attempt →
      (x.answered = true → ∀ d, d = (s.chip.setUnit u (some { r with
          exch := none
          clearUncertain := r.clearUncertain || decide (q.kind = ReqKind.clear)
          session := { r.session with state := .opened, heldClose := false, graceDrop := false } })).withdraw r.seg r.addr
            (fun m => m.isPull || m.isRequest) →
        (r.session.heldClose = false → r.session.graceDrop = false →
          Machine.exec (.replyTimerExpiry u) s = .next (s.after d))
        ∧ (r.session.heldClose = true → r.session.graceDrop = false →
          Machine.exec (.replyTimerExpiry u) s = .next (s.after (d.askClose u)))
        ∧ (r.session.heldClose = false → r.session.graceDrop = true →
          Machine.exec (.replyTimerExpiry u) s = .next (s.after (d.drop u false)))
        ∧ (r.session.heldClose = true → r.session.graceDrop = true →
          Machine.exec (.replyTimerExpiry u) s = .next (s.after ((d.askClose u).drop u false))))
      ∧ (x.answered = false →
          Machine.exec (.replyTimerExpiry u) s = .next (s.after (({ s.chip.setUnit u (some { r with
            exch := none
            clearUncertain := r.clearUncertain || decide (q.kind = ReqKind.clear)
            losses := if r.losses < 3 then r.losses + 1 else r.losses
            presence := if (if r.losses < 3 then r.losses + 1 else r.losses) = 3 then .silent else .lost
            session := { r.session.cool (r.coolLength true) with heldClose := false, graceDrop := false } }) with
              regs := { s.chip.regs with notice := s.chip.regs.notice ||| 0x10 } }).withdraw r.seg r.addr fun m =>
                m.isPull || m.isRequest || m.isKeep))))
  ∧ (∀ (s : State) (u : UnitIx) (r : UnitRec) (x : Exchange) (q : Req), s.chip.unit u = some r → r.exch = some x →
      x.kind = .request q →
      (x.rest ≠ none → Machine.exec (.restTimerExpiry u) s = .next (s.after ((s.chip.setUnit u (some { r with
        exch := some { x with rest := none } })).post r.seg r.addr (.request q) true)))
      ∧ (x.rest = none → Machine.exec (.restTimerExpiry u) s = .next (s.after s.chip)))

/-- R99, R103: the hold timer's expiry ends the HOLD DONE; as the last step it ends the plan COMPLETE, whose end goes to
the History Table. R115: where records of the plan still wait for their merge the end waits for the last of them: it is
handed over as a finished item finds none left (`deliverHeld`). -/
def Obligations.HoldEnds : Prop :=
  ∀ (s : State) (u : UnitIx) (r : UnitRec) (p : Plan) (qs : List Plan), s.chip.unit u = some r → r.queue = p :: qs →
    ((∀ full n, p.work ≠ some (.hold full (some n))) →
      Machine.exec (.holdTimerExpiry u) s = .next (s.after s.chip))
    ∧ (∀ full n, p.work = some (.hold full (some n)) → p.ended = none →
        (s.chip.ctx p.ctx).steps.length ≤ p.cursor → s.chip.itemsLeft p.serial = false →
        Machine.exec (.holdTimerExpiry u) s = .next (s.after ((s.chip.setUnit u (some { r with
          queue := { p with ended := some (.complete, p.cursor), work := none, heldEnd := none } :: qs
          session := { r.session with posted := none } })).handOver
            (.planEnd p.serial r.seg r.addr (p.completeHarvest .complete)) none)))
    ∧ (∀ full n, p.work = some (.hold full (some n)) → p.ended = none →
        (s.chip.ctx p.ctx).steps.length ≤ p.cursor → s.chip.itemsLeft p.serial = true →
        Machine.exec (.holdTimerExpiry u) s = .next (s.after (s.chip.setUnit u (some { r with
          queue := { p with ended := some (.complete, p.cursor), work := none, heldEnd := none } :: qs
          session := { r.session with posted := none } }))))
    ∧ (∀ v step, p.ended = some (v, step) → s.chip.findUnit r.seg r.addr = some u →
        (s.chip.itemsLeft p.serial = true → s.chip.deliverHeld r.seg r.addr p.serial = s.chip)
        ∧ (s.chip.itemsLeft p.serial = false → s.chip.deliverHeld r.seg r.addr p.serial =
            s.chip.handOver (.planEnd p.serial r.seg r.addr (p.completeHarvest v)) none))

/-- R92 to R103, R105: a plan from step to step. A plan begins on an ACTIVE segment with its first step, and is SKIPPED
elsewhere, or where a sweep finds its unit SILENT. A step is skipped where its condition does not hold, or a lead
annulled it; or else it starts: LIST, DRAW, SNAP and CLEAR need the session for their request, unless nothing is to be
done (a listed count of 0, no candidate, no snapshot) or they fail or are skipped at once (no listed count, a CLEAR not
permitted); a CLOSE asks for it; a HOLD needs the session, and its time starts where that is open; a TEST writes its
flag from quantity and relation. What a step's end does: LOST, and FAILED outside a pair, end the plan; any other sets
the pair state of the follower, and the cursor goes on, or the plan ends COMPLETE after its last step; a withdrawn
order's plan ends CUT, unless its last step ended DONE. The end of a plan discards the posted request and goes to the
History Table, or waits there for the plan's records (R115). The candidates of a SNAP stand in ascending slot. That a
CLOSE step waits in OPENING and behind a CLEAR is the model's choice (log 59). -/
def Obligations.PlansGoStepByStep : Prop :=
  (∀ (c : Chip) (u : UnitIx) (r : UnitRec) (p : Plan) (qs : List Plan), c.unit u = some r → r.queue = p :: qs →
    (p.running = true → c.beginPlan u = c)
    ∧ (∀ d, p.running = false → d = c.setUnit u (some { r with queue := { p with running := true } :: qs }) →
        ((c.mode r.seg = some .active → (c.ctx p.ctx).source = .sweep → r.presence = .silent →
            c.beginPlan u = d.endPlan u .skippedSilent 0)
          ∧ (c.mode r.seg = some .active → (c.ctx p.ctx).source ≠ .sweep ∨ r.presence ≠ .silent →
            c.beginPlan u = d.runPlan 13 u)
          ∧ (c.mode r.seg = some .listen → c.beginPlan u = d.endPlan u .skippedListen 0)
          ∧ (c.mode r.seg = some .off → c.beginPlan u = d.endPlan u .skippedOff 0)))
    ∧ (∀ v n d, d = c.setUnit u (some { r with
          queue := { p with ended := some (v, n), work := none, heldEnd := none } :: qs
          session := { r.session with posted := none } }) →
        (c.itemsLeft p.serial = true → c.endPlan u v n = d)
        ∧ (c.itemsLeft p.serial = false →
          c.endPlan u v n = d.handOver (.planEnd p.serial r.seg r.addr (p.completeHarvest v)) none)))
  ∧ (∀ (c : Chip) (u : UnitIx) (r : UnitRec) (p : Plan) (qs : List Plan) (st : Step) (fuel : Nat),
      c.unit u = some r → r.queue = p :: qs → p.running = true → p.ended = none → p.work = none →
      (c.ctx p.ctx).steps[p.cursor - 1]? = some st → ∀ holds : Prop,
      (holds ↔ p.pair ≠ .followerAnnulled ∧ (∀ f, st.cond = .ifSet f → p.flags.getLsbD f = true)
        ∧ ∀ f, st.cond = .ifClear f → p.flags.getLsbD f = false) →
      (¬ holds → ∀ d more, c.settleStep u .skipped = (d, more) →
        c.runPlan (fuel + 1) u = if more then d.runPlan fuel u else d)
      ∧ (holds → ∀ d, c.startWork u r p st = (d, none) → c.runPlan (fuel + 1) u = d)
      ∧ (holds → ∀ d e d' more, c.startWork u r p st = (d, some e) → d.settleStep u e = (d', more) →
        c.runPlan (fuel + 1) u = if more then d'.runPlan fuel u else d'))
  ∧ (∀ (c : Chip) (u : UnitIx) (r : UnitRec) (p : Plan) (qs : List Plan) (st : Step) (fly : Work → Chip),
      c.unit u = some r → r.queue = p :: qs →
      (∀ w, fly w = c.setUnit u (some { r with queue := { p with work := some w } :: qs })) →
      (st.kind = .list → c.startWork u r p st =
        ((fly .list).needSession u (some { kind := .list, plan := p.serial }), none))
      ∧ (∀ m, st.kind = .draw m →
        (p.listed = none → c.startWork u r p st = (c, some .skipped))
        ∧ (p.listed = some 0 → c.startWork u r p st = (c, some .done))
        ∧ ∀ n g, p.listed = some n → 1 ≤ n → g = (if m = 0 then r.desc.group else m) →
          c.startWork u r p st = ((fly (.draw n g 0 0)).needSession u
            (some { kind := .draw 0 g n, plan := p.serial }), none))
      ∧ (st.kind = .snap →
        (c.candidates r.seg r.addr (c.ctx p.ctx).refresh = [] ∨ r.desc.noSnapshot = true →
          c.startWork u r p st = (c, some .done))
        ∧ ∀ k ks, c.candidates r.seg r.addr (c.ctx p.ctx).refresh = k :: ks → r.desc.noSnapshot = false →
          c.startWork u r p st = ((fly (.snap (k :: ks))).needSession u
            (some { kind := .snap k.slot k.code k.kind, plan := p.serial }), none))
      ∧ (st.kind = .clear →
        (r.desc.clearPermitted = true → c.startWork u r p st =
          ((fly .clear).needSession u (some { kind := .clear, plan := p.serial }), none))
        ∧ (r.desc.clearPermitted = false → c.startWork u r p st = (c, some (.failed .clearLocked))))
      ∧ (st.kind = .close →
        (r.session.state = .closed ∨ r.session.state = .cooling → c.startWork u r p st = (c.askClose u, some .done))
        ∧ (r.session.state ≠ .closed → r.session.state ≠ .cooling →
          c.startWork u r p st = ((fly .close).askClose u, none)))
      ∧ (∀ ms, st.kind = .hold ms →
        (ms = 0 → c.startWork u r p st = (c, some .done))
        ∧ (ms ≠ 0 → r.session.state = .opened → (c.seg r.seg).hasGranted r.addr Msg.isClose = false →
          c.startWork u r p st = ((fly (.hold ms (some ms))).needSession u none, none))
        ∧ (ms ≠ 0 → r.session.state ≠ .opened ∨ (c.seg r.seg).hasGranted r.addr Msg.isClose = true →
          c.startWork u r p st = ((fly (.hold ms none)).needSession u none, none)))
      ∧ (∀ f q rel n, st.kind = .test f q rel n → ∀ (value : Option Nat) (true_ : Prop),
        (q = .listedCount → value = p.listed)
        → (q = .activeMerged → value = some ((c.entriesOf r.seg r.addr).filter fun i => (c.slot i).activeMerged).length)
        → (q = .unitHours → value = r.hours) → (q = .highestU → value = some p.highU)
        → (q = .unitEntries → value = some (c.entriesOf r.seg r.addr).length)
        → (true_ ↔ ∃ v, value = some v ∧ (rel = .eq ∧ v = n ∨ rel = .ne ∧ v ≠ n ∨ rel = .lt ∧ v < n ∨ rel = .ge ∧ n ≤ v))
        → (true_ → c.startWork u r p st = (c.setUnit u (some { r with
              queue := { p with flags := p.flags ||| BitVec.ofNat 8 (2 ^ f) } :: qs }), some .done))
          ∧ (¬ true_ → c.startWork u r p st = (c.setUnit u (some { r with
              queue := { p with flags := p.flags &&& ~~~ BitVec.ofNat 8 (2 ^ f) } :: qs }), some .done))))
  ∧ (∀ (c : Chip) (u : UnitIx) (r : UnitRec) (p : Plan) (qs : List Plan) (st : Step) (e : StepEnd) (next : PairState),
      c.unit u = some r → r.queue = p :: qs → (c.ctx p.ctx).steps[p.cursor - 1]? = some st →
      (e = .lost → c.settleStep u e = (c.endPlan u .lost p.cursor, false))
      ∧ (∀ why, e = .failed why → st.pairing = .alone →
          c.settleStep u e = (c.endPlan u (.refused why) p.cursor, false))
      ∧ ((e = .done ∨ e = .skipped) ∧ st.pairing = .alone ∧ next = .unpaired
          ∨ (e = .skipped ∨ ∃ why, e = .failed why) ∧ st.pairing = .strict ∧ next = .followerAnnulled
          ∨ e = .done ∧ st.pairing = .strict ∧ next = .followerRuns
          ∨ e ≠ .lost ∧ st.pairing = .eager ∧ next = .followerRuns →
        (p.cursor < (c.ctx p.ctx).steps.length →
          ((c.ctx p.ctx).withdrawn = false → c.settleStep u e = (c.setUnit u (some { r with queue := { p with
            cursor := p.cursor + 1, pair := next, work := none, heldEnd := none } :: qs }), true))
          ∧ ((c.ctx p.ctx).withdrawn = true → c.settleStep u e = (c.endPlan u .cutWithdrawn p.cursor, false)))
        ∧ ((c.ctx p.ctx).steps.length ≤ p.cursor →
          ((c.ctx p.ctx).withdrawn = false ∨ e = .done → c.settleStep u e = (c.endPlan u .complete p.cursor, false))
          ∧ ((c.ctx p.ctx).withdrawn = true → e ≠ .done →
            c.settleStep u e = (c.endPlan u .cutWithdrawn p.cursor, false)))))
  ∧ (∀ (c : Chip) (g : Seg) (a : Byte),
      (∀ i, i ∈ c.entriesOf g a ↔ ∃ e, (c.slot i).entry = some e ∧ e.key.seg = g ∧ e.key.addr = a)
      ∧ (c.entriesOf g a).Nodup
      ∧ ∀ refresh,
        (∀ k, k ∈ c.candidates g a refresh ↔ ∃ e, (c.slot k.slot).entry = some e ∧ e.key.seg = g ∧ e.key.addr = a
          ∧ e.key.code = k.code ∧ e.key.kind = k.kind ∧ (c.slot k.slot).activeMerged = true ∧ e.status = .active
          ∧ (refresh = true ∨ e.snap = none ∧ e.snapNone = false))
        ∧ (c.candidates g a refresh).Pairwise fun k l => k.slot < l.slot)

/-- R94 to R99, R30, R50, R115, R119: the end of a request, and of an open that carried one, reaches the step in flight
of the plan it belongs to. What each command does to the exchange is said in the statements on it; here a running plan
is there, and its end is handed on. An end but UNANSWERED waits for the plan's records and snapshots; a DRAW group's end
other than COMPLETE spoils the harvest account at once. A DRAW goes on with its next group, after its last it is DONE; a
SNAP goes on with the next candidate that still holds its slot, also where the unit knows nothing of one (UNKNOWN); any
other end is that of the step: DONE, FAILED with the reason, or LOST. R45, R51, R53: a step that needs the session: the
request goes into its class where the session is OPEN and stays so, or else is posted, with an OPEN where one is needed.
R98: a CLOSE step ends as the session holds no slot any more. R62, R65: the held close and the deferred drop come before
the end (log 64); behind a CLEAR of an earlier plan the step in flight looks at its session again (R45). R115: the end
that waited is delivered as the plan's last item is finished. The model's choices here: a pending PULL is withdrawn with
its request (log 16), every need clears a remembered close, a HOLD's too (log 28), a CLOSE step ends as an open ends
(log 59). -/
def Obligations.RequestEndsReachThePlan : Prop :=
  (∀ (c : Chip) (u : UnitIx) (r : UnitRec) (p : Plan) (qs : List Plan) (serial : Nat) (e : ReqEnd),
      c.unit u = some r → r.queue = p :: qs →
      (p.serial ≠ serial ∨ p.ended ≠ none → c.requestEnded u serial e = c)
      ∧ (p.serial = serial → p.ended = none → ∀ (spoils : Bool) (d : Chip),
        (spoils = true ↔ e ≠ .complete ∧ ∃ base g m start, p.work = some (.draw base g m start)) →
        d = c.setUnit u (some { r with queue := { p with spoiled := p.spoiled || spoils } :: qs }) →
        (e = .unanswered ∨ e = .openUnanswered ∨ c.itemsLeft serial = false → c.requestEnded u serial e = d.deliver u e)
        ∧ (e ≠ .unanswered → e ≠ .openUnanswered → c.itemsLeft serial = true →
          c.requestEnded u serial e = c.setUnit u (some { r with
            queue := { p with spoiled := p.spoiled || spoils, heldEnd := some e } :: qs }))))
  ∧ (∀ (c : Chip) (u : UnitIx) (r : UnitRec) (p : Plan) (qs : List Plan) (e : ReqEnd) (end_ : StepEnd) (d : Chip)
      (on_ : Work → Chip), c.unit u = some r → r.queue = p :: qs → p.running = true → p.ended = none →
      d = c.setUnit u (some { r with queue := { p with heldEnd := none } :: qs }) →
      (∀ w, on_ w = c.setUnit u (some { r with queue := { p with heldEnd := none, work := some w } :: qs })) →
      (e = .complete ∧ end_ = .done ∨ (e = .unanswered ∨ e = .openUnanswered) ∧ end_ = .lost
        ∨ e = .broken ∧ end_ = .failed .broken
        ∨ (e = .refused .busy ∨ e = .openRefused .busy) ∧ end_ = .failed .busy
        ∨ (e = .refused .denied ∨ e = .openRefused .denied) ∧ end_ = .failed .denied
        ∨ (e = .refused .unknown ∨ e = .openRefused .unknown) ∧ end_ = .failed .unknown) →
      (p.work = some .list ∨ p.work = some .clear ∨ (∃ full t, p.work = some (.hold full t)) →
        c.deliver u e = d.stepEnds u end_)
      ∧ (p.work = none ∨ p.work = some .close → c.deliver u e = d)
      ∧ (∀ base g m start, p.work = some (.draw base g m start) →
        (e = .complete → g * (m + 1) < base → 1 ≤ g → c.deliver u e = (on_ (.draw base g (m + 1) (g * (m + 1)))).needSession u
          (some { kind := .draw (g * (m + 1)) g base, plan := p.serial }))
        ∧ (e ≠ .complete ∨ base ≤ g * (m + 1) ∧ 1 ≤ g → c.deliver u e = d.stepEnds u end_))
      ∧ (∀ k ks, p.work = some (.snap (k :: ks)) →
        (e ≠ .complete → e ≠ .refused .unknown → c.deliver u e = d.stepEnds u end_)
        ∧ (e = .complete ∨ e = .refused .unknown →
          ((∀ l ∈ ks, ∀ f, (c.slot l.slot).entry = some f →
              f.key ≠ { seg := r.seg, addr := r.addr, code := l.code, kind := l.kind }) →
            c.deliver u e = d.stepEnds u .done)
          ∧ ∀ gone l rest f, ks = gone ++ l :: rest →
            (∀ x ∈ gone, ∀ f, (c.slot x.slot).entry = some f →
              f.key ≠ { seg := r.seg, addr := r.addr, code := x.code, kind := x.kind }) →
            (c.slot l.slot).entry = some f → f.key = { seg := r.seg, addr := r.addr, code := l.code, kind := l.kind } →
            c.deliver u e = (on_ (.snap (l :: rest))).needSession u
              (some { kind := .snap l.slot l.code l.kind, plan := p.serial }))))
  ∧ (∀ (c : Chip) (u : UnitIx) (r : UnitRec) (req : Option Req) (d post : Chip), c.unit u = some r →
      d = c.setUnit u (some { r with session := { r.session with closeAtAccept := false } }) →
      post = c.setUnit u (some { r with session := { r.session with closeAtAccept := false, posted := req } }) →
      (r.session.state = .opened → (c.seg r.seg).hasGranted r.addr Msg.isClose = false →
        (req = none → c.needSession u req = d.withdraw r.seg r.addr Msg.isClose)
        ∧ ∀ q, req = some q →
          c.needSession u req = (d.withdraw r.seg r.addr Msg.isClose).post r.seg r.addr (.request q) false)
      ∧ (r.session.state = .opened ∧ (c.seg r.seg).hasGranted r.addr Msg.isClose = true
          ∨ r.session.state = .closed ∨ r.session.state = .closing ∨ r.session.state = .cooling →
        c.needSession u req = post.postOpen u)
      ∧ (r.session.state = .opening ∨ r.session.state = .exchanging → c.needSession u req = post))
  ∧ (∀ (c : Chip) (u : UnitIx) (r : UnitRec) (p : Plan) (qs : List Plan), c.unit u = some r → r.queue = p :: qs →
      (p.work = some .close → p.ended = none → c.closeStepDone u = c.stepEnds u .done)
      ∧ (p.work ≠ some .close ∨ p.ended ≠ none → c.closeStepDone u = c)
      ∧ ∀ e d more, c.settleStep u e = (d, more) → c.stepEnds u e = if more then d.runPlan 13 u else d)
  ∧ (∀ (c : Chip) (u : UnitIx) (r : UnitRec) (x : Exchange) (q : Req) (e : ReqEnd) (d f : Chip), c.unit u = some r →
      r.exch = some x → x.kind = .request q →
      (e ≠ .unanswered ∧ d = (c.setUnit u (some { r with
            exch := none
            clearUncertain := r.clearUncertain || (decide (q.kind = ReqKind.clear) && decide (e = .broken))
            session := { r.session with state := .opened, heldClose := false, graceDrop := false } })).withdraw r.seg r.addr
              (fun m => m.isPull || m.isRequest)
          ∧ (r.session.heldClose = false ∧ r.session.graceDrop = false ∧ f = d
            ∨ r.session.heldClose = true ∧ r.session.graceDrop = false ∧ f = d.askClose u
            ∨ r.session.heldClose = false ∧ r.session.graceDrop = true ∧ f = d.drop u false
            ∨ r.session.heldClose = true ∧ r.session.graceDrop = true ∧ f = (d.askClose u).drop u false)
        ∨ e = .unanswered ∧ c.col ≠ .stopped ∧ f = ({ c.setUnit u (some { r with
            exch := none
            clearUncertain := r.clearUncertain || decide (q.kind = ReqKind.clear)
            losses := if r.losses < 3 then r.losses + 1 else r.losses
            presence := if (if r.losses < 3 then r.losses + 1 else r.losses) = 3 then .silent else .lost
            session := { r.session.cool (r.coolLength true) with heldClose := false, graceDrop := false } }) with
              regs := { c.regs with notice := c.regs.notice ||| 0x10 } }).withdraw r.seg r.addr (fun m =>
                m.isPull || m.isRequest || m.isKeep)) →
      (r.queue = [] → c.requestEnds u e = f)
      ∧ ∀ p qs, r.queue = p :: qs →
        (p.serial = q.plan → c.requestEnds u e = f.requestEnded u q.plan e)
        ∧ (p.serial ≠ q.plan → (f.sessState u).holdsSlot = true → c.requestEnds u e = f.resume u)
        ∧ (p.serial ≠ q.plan → (f.sessState u).holdsSlot = false → c.requestEnds u e = (f.closeStepDone u).resume u))
  ∧ (∀ (c : Chip) (u : UnitIx) (r : UnitRec) (p : Plan) (qs : List Plan), c.unit u = some r → r.queue = p :: qs →
      (∀ q, r.session.posted = some q →
        c.resume u = (c.setUnit u (some { r with session := { r.session with posted := none } })).needSession u (some q))
      ∧ (∀ full, r.session.posted = none → p.work = some (.hold full none) →
        (r.session.state = .opened → (c.seg r.seg).hasGranted r.addr Msg.isClose = false →
          c.resume u = (c.setUnit u (some { r with
            session := { r.session with closeAtAccept := false }
            queue := { p with work := some (.hold full (some full)) } :: qs })).withdraw r.seg r.addr Msg.isClose)
        ∧ (r.session.state ≠ .opened ∨ (c.seg r.seg).hasGranted r.addr Msg.isClose = true →
          c.resume u = c.needSession u none))
      ∧ (r.session.posted = none → (∀ full, p.work ≠ some (.hold full none)) → c.resume u = c))
  ∧ (∀ (c : Chip) (u : UnitIx) (r : UnitRec) (e : ReqEnd) (d : Chip), c.unit u = some r →
      (e ≠ .openUnanswered ∧ d = (c.setUnit u (some { r with
          exch := none
          session := { r.session.cool r.desc.restTime with posted := none, closeAtAccept := false } })).withdraw r.seg r.addr
            Msg.isKeep
        ∨ e = .openUnanswered ∧ c.col ≠ .stopped ∧ d = ({ c.setUnit u (some { r with
          exch := none
          losses := if r.losses < 3 then r.losses + 1 else r.losses
          presence := if (if r.losses < 3 then r.losses + 1 else r.losses) = 3 then .silent else .lost
          session := { r.session.cool r.desc.restTime with posted := none, closeAtAccept := false } }) with
            regs := { c.regs with notice := c.regs.notice ||| 0x10 } }).withdraw r.seg r.addr Msg.isKeep) →
      (r.queue = [] → c.openEnds u e = d)
      ∧ ∀ p qs, r.queue = p :: qs →
        (r.session.posted ≠ none ∨ (∃ full, p.work = some (.hold full none)) →
          c.openEnds u e = (d.requestEnded u p.serial e).closeStepDone u)
        ∧ (r.session.posted = none → (∀ full, p.work ≠ some (.hold full none)) → c.openEnds u e = d.closeStepDone u))
  ∧ (∀ (c : Chip) (u : UnitIx) (r : UnitRec) (p : Plan) (qs : List Plan), c.unit u = some r → r.queue = p :: qs →
      c.findUnit r.seg r.addr = some u →
      (∀ serial, serial ≠ p.serial → c.deliverHeld r.seg r.addr serial = c)
      ∧ (c.itemsLeft p.serial = true → c.deliverHeld r.seg r.addr p.serial = c)
      ∧ (c.itemsLeft p.serial = false → p.ended = none →
        (p.heldEnd = none → c.deliverHeld r.seg r.addr p.serial = c)
        ∧ ∀ e, p.heldEnd = some e → c.deliverHeld r.seg r.addr p.serial = c.deliver u e))
  ∧ (∀ (s : State) (u : UnitIx) (r : UnitRec) (x : Exchange), s.chip.unit u = some r → r.exch = some x → x.timer ≠ none →
      (x.kind = .opn → 1 + r.desc.retries ≤ r.session.openAttempts →
        Machine.exec (.openTimerExpiry u) s =
          .next (s.after (s.chip.openEnds u (if x.answered then .openRefused .busy else .openUnanswered))))
      ∧ (∀ q, x.kind = .request q → 1 + r.desc.retries ≤ x.attempt →
        Machine.exec (.replyTimerExpiry u) s =
          .next (s.after (s.chip.requestEnds u (if x.answered then .broken else .unanswered))))
      ∧ (x.kind = .close → Machine.exec (.replyTimerExpiry u) s = .next (s.after ((((s.chip.setUnit u (some { r with
        exch := none, session := r.session.cool (r.coolLength true) })).withdraw r.seg r.addr Msg.isKeep).closeStepDone u)))))
  ∧ (∀ (s : State) (g : Seg) (a : Byte) (u : UnitIx) (r : UnitRec) (x : Exchange) (heard : Chip), s.chip.Hears g a u r →
      r.exch = some x → heard = s.chip.heard g u { r with exch := some { x with answered := true } } →
      (∀ v why, (v = 1 ∧ why = Reason.busy ∨ v = 3 ∧ why = .unknown ∨ v ≠ 1 ∧ v ≠ 3 ∧ why = .denied) →
        (x.kind = .opn → x.phase = .awaitAccept → why ≠ .busy ∨ 1 + r.desc.retries ≤ r.session.openAttempts →
          Machine.exec (.refuse g a v) s = .next (s.after (heard.openEnds u (.openRefused why))))
        ∧ ∀ q, x.kind = .request q → x.phase = .awaitAnswer ∨ x.phase = .awaitPull ∨ x.phase = .receiving →
          why ≠ .busy ∨ 1 + r.desc.retries ≤ x.attempt →
          ((why ≠ .unknown ∨ ∀ slot code kind, q.kind ≠ .snap slot code kind) →
            Machine.exec (.refuse g a v) s = .next (s.after (heard.requestEnds u (.refused why))))
          ∧ ∀ slot code kind, why = .unknown → q.kind = .snap slot code kind →
            Machine.exec (.refuse g a v) s = .next (s.after ((heard.handOver (.noSnap q.plan slot
              { seg := g, addr := r.addr, code := code, kind := kind }) none).requestEnds u (.refused why))))
      ∧ (∀ q, x.kind = .request q → x.phase = .awaitAnswer ∨ x.phase = .awaitPull ∨ x.phase = .receiving → 8 ≤ x.waits →
        1 + r.desc.retries ≤ x.attempt → Machine.exec (.wait g a) s = .next (s.after (heard.requestEnds u .broken)))
      ∧ (∀ p qs n h, x.kind = .request { kind := .list, plan := p.serial } → x.phase = .awaitAnswer → r.queue = p :: qs →
        Machine.exec (.listed g a n h) s = .next (s.after (Chip.requestEnds (heard.setUnit u (some { r with
          exch := some { x with answered := true }, presence := .present, losses := 0, lastN := some n.toNat
          hours := if h.toNat = 65535 then none else some h.toNat
          queue := { p with
            listed := some n.toNat, covered := [], spoiled := false
            flags := if 0 < n.toNat then p.flags ||| 1 else p.flags &&& 0xFE } :: qs })) u .complete)))
      ∧ (∀ plan, x.kind = .request { kind := .clear, plan := plan } → x.phase = .awaitAnswer →
        Machine.exec (.clearDone g a) s = .next (s.after (Chip.requestEnds ((heard.setUnit u (some { r with
          exch := some { x with answered := true }, presence := .present, losses := 0, clearUncertain := false
          session := { r.session with clearMark := true } })).handOver (.cleared plan g r.addr) (some g)) u .complete)))
      ∧ (x.kind = .close → x.phase = .awaitBye →
        Machine.exec (.bye g a) s = .next (s.after (((s.chip.heard g u { r with
          exch := none, session := r.session.cool (r.coolLength true) }).withdraw g r.addr Msg.isKeep).closeStepDone u))))

/-! ## Timers of segments -/

/-- R74, R67: the recovery timer's expiry makes the error counts 0 and enters the running state: QUIET when PARKED
(shown for a chip without an exchange, log 46), HELD in a dip, LIVE otherwise; that an expiry without a running timer
has no effect is the model's choice (log 2). R81, R83: the oldest entry leaves the open window at its ageing expiry; the
error counts' second asks for a header rewrite. -/
def Obligations.SegmentTimersExpire : Prop :=
  (∀ (s : State) (g : Seg),
      ((s.chip.seg g).recovery = none → Machine.exec (.recoveryTimerExpiry g) s = .next (s.after s.chip))
      ∧ ((s.chip.seg g).recovery ≠ none → s.chip.col ≠ .parked →
          s.chip.mon.dip = .normal ∨ s.chip.mon.dip = .falling →
          Machine.exec (.recoveryTimerExpiry g) s = .next (s.after (s.chip.modSeg g fun r => { r with
            recovery := none, txErrors := 0, rxErrors := 0, state := .live })))
      ∧ ((s.chip.seg g).recovery ≠ none → s.chip.col ≠ .parked →
          s.chip.mon.dip = .dipped ∨ s.chip.mon.dip = .settling →
          Machine.exec (.recoveryTimerExpiry g) s = .next (s.after (s.chip.modSeg g fun r => { r with
            recovery := none, txErrors := 0, rxErrors := 0, state := .held })))
      ∧ ((s.chip.seg g).recovery ≠ none → s.chip.col = .parked →
          (∀ u r, s.chip.unit u = some r → r.exch = none) →
          Machine.exec (.recoveryTimerExpiry g) s = .next (s.after (s.chip.modSeg g fun r => { r.emptyClasses with
            recovery := none, txErrors := 0, rxErrors := 0, state := .quiet }))))
  ∧ (∀ (s : State) (g : Seg),
      (∀ a rest, (s.chip.seg g).window = a :: rest →
        Machine.exec (.openWindowAgeingExpiry g) s =
          .next (s.after (s.chip.modSeg g fun r => { r with window := rest })))
      ∧ ((s.chip.seg g).window = [] → Machine.exec (.openWindowAgeingExpiry g) s = .next (s.after s.chip))
      ∧ ((s.chip.seg g).errTimer = none → Machine.exec (.errorCountRewriteDue g) s = .next (s.after s.chip))
      ∧ ((s.chip.seg g).errTimer ≠ none →
          Machine.exec (.errorCountRewriteDue g) s = .next (s.after { s.chip.modSeg g fun r => { r with errTimer := none } with
            hdr := { s.chip.hdr with wanted := true } })))

/-! ## Transmissions -/

/-- A completion that is not of the frame in the slot has no effect (the model's choice, log 3). R46, R71, R80, R81: an
OPEN went out: the slot empties, the error count falls, the time joins the open window; the attempt counts, the session
is OPENING, and the exchange awaits ACCEPT with the open timer running. The repeat goes out so too, to a session that is
OPENING still (R48) or CLOSED with its record in REPEAT-HELD after REFUSE BUSY (R49): the record's attempt counts on. A
frame whose session was dropped meanwhile reaches no session (R59). -/
def Obligations.OpenGoesOut : Prop :=
  (∀ (s : State) (g : Seg),
      ((∀ t, (s.chip.seg g).slot = some t → t.item.msg ≠ .opn) →
        Machine.exec (.openCompletion g) s = .next (s.after s.chip))
      ∧ ((∀ t q, (s.chip.seg g).slot = some t → t.item.msg ≠ .request q) →
        Machine.exec (.requestCompletion g) s = .next (s.after s.chip))
      ∧ ((∀ t k, (s.chip.seg g).slot = some t → t.item.msg ≠ .pull k) →
        Machine.exec (.pullCompletion g) s = .next (s.after s.chip))
      ∧ ((∀ t, (s.chip.seg g).slot = some t → t.item.msg ≠ .close) →
        Machine.exec (.closeCompletion g) s = .next (s.after s.chip))
      ∧ ((∀ t, (s.chip.seg g).slot = some t → t.item.msg ≠ .keep) →
        Machine.exec (.keepCompletion g) s = .next (s.after s.chip))
      ∧ ((∀ t, (s.chip.seg g).slot = some t → t.item.msg ≠ .roll) →
        Machine.exec (.rollCompletion g) s = .next (s.after s.chip)))
  ∧ (∀ (s : State) (g : Seg) (t : TxSlot), (s.chip.seg g).slot = some t → t.item.msg = .opn →
      (t.stale = true → Machine.exec (.openCompletion g) s = .next (s.after (s.chip.modSeg g fun r => { r with
        txErrors := r.txErrors - 1, unanswered := 0, slot := none, window := r.window ++ [0] })))
      ∧ ∀ u r, t.stale = false → s.chip.findUnit g t.item.addr = some u → s.chip.unit u = some r →
          (r.session.state = .closed → r.exch = none →
            Machine.exec (.openCompletion g) s = .next (s.after ((s.chip.modSeg g fun r => { r with
              txErrors := r.txErrors - 1, unanswered := 0, slot := none, window := r.window ++ [0] }).setUnit u (some { r with
                session := { r.session with
                  state := .opening, openAttempts := r.session.openAttempts + 1, coolTimer := none }
                exch := some (Exchange.new .opn (r.session.openAttempts + 1) .awaitAccept r.desc.openTimeout) }))))
          ∧ ∀ x, r.session.state = .opening ∨ r.session.state = .closed → r.exch = some x →
            Machine.exec (.openCompletion g) s = .next (s.after ((s.chip.modSeg g fun r => { r with
              txErrors := r.txErrors - 1, unanswered := 0, slot := none, window := r.window ++ [0] }).setUnit u (some { r with
                session := { r.session with
                  state := .opening, openAttempts := r.session.openAttempts + 1, coolTimer := none }
                exch := some { x with
                  attempt := r.session.openAttempts + 1, phase := .awaitAccept, waits := 0
                  timer := some r.desc.openTimeout, rest := none } }))))

/-- R51, R26, R58: a request went out: a first attempt makes an OPEN session EXCHANGING with a fresh record; a repeat
takes its record from REPEAT-HELD to AWAITING-ANSWER with a fresh transfer; the reply timer runs and the debt is paid.
-/
def Obligations.RequestGoesOut : Prop :=
  ∀ (s : State) (g : Seg) (t : TxSlot) (q : Req) (u : UnitIx) (r : UnitRec),
    (s.chip.seg g).slot = some t → t.item.msg = .request q → t.stale = false →
    s.chip.findUnit g t.item.addr = some u → s.chip.unit u = some r →
    (q.kind = .clear → (s.chip.seg g).hasPending r.addr Msg.isClose = false) →
    (t.item.again = false → r.session.state = .opened → r.exch = none →
      Machine.exec (.requestCompletion g) s = .next (s.after (((s.chip.modSeg g fun r => { r with
        txErrors := r.txErrors - 1, unanswered := 0, slot := none }).setUnit u (some { r with
          session := { r.session with state := .exchanging, keepDebt := 0 }
          ignore := 0
          exch := some (Exchange.new (.request q) 1 .awaitAnswer r.desc.replyTimeout) })).withdraw g r.addr Msg.isKeep)))
    ∧ ∀ x, t.item.again = true → r.session.state = .exchanging → r.exch = some x → x.phase = .repeatHeld →
      Machine.exec (.requestCompletion g) s = .next (s.after (((s.chip.modSeg g fun r => { r with
        txErrors := r.txErrors - 1, unanswered := 0, slot := none }).setUnit u (some { r with
          session := { r.session with keepDebt := 0 }
          ignore := 0
          exch := some { Exchange.new x.kind (x.attempt + 1) .awaitAnswer r.desc.replyTimeout with
            answered := x.answered } })).withdraw g r.addr Msg.isKeep))

/-- R53: a CLOSE went out: the session is CLOSING, its keep timer and debt end, its pending KEEP is withdrawn, and with
it a pending PULL or request (not named by R53, but a CLOSING unit may be sent nothing, R44: log 73), and the exchange
awaits BYE with the reply timer running. R35, R58: a PULL went out: the credit is set and the parts are awaited with the
reply timer running. R58: a KEEP went out: the debt of a session that is OPEN or EXCHANGING is paid. -/
def Obligations.ClosePullAndKeepGoOut : Prop :=
  (∀ (s : State) (g : Seg) (t : TxSlot) (u : UnitIx) (r : UnitRec),
      (s.chip.seg g).slot = some t → t.item.msg = .close → t.stale = false →
      s.chip.findUnit g t.item.addr = some u → s.chip.unit u = some r → r.session.state = .opened → r.exch = none →
      Machine.exec (.closeCompletion g) s = .next (s.after (((s.chip.modSeg g fun r => { r with
        txErrors := r.txErrors - 1, unanswered := 0, slot := none }).setUnit u (some { r with
          session := { r.session with state := .closing, keepTimer := none, keepDebt := 0, heldClose := false }
          ignore := 0
          exch := some (Exchange.new .close 1 .awaitBye r.desc.replyTimeout) })).withdraw g r.addr fun m =>
            m.isKeep || m.isPull || m.isRequest)))
  ∧ (∀ (s : State) (g : Seg) (t : TxSlot) (k : Nat) (u : UnitIx) (r : UnitRec) (x : Exchange),
      (s.chip.seg g).slot = some t → t.item.msg = .pull k → t.stale = false →
      s.chip.findUnit g t.item.addr = some u → s.chip.unit u = some r → r.session.state = .exchanging →
      r.exch = some x → x.phase = .awaitPull →
      Machine.exec (.pullCompletion g) s = .next (s.after (((s.chip.modSeg g fun r => { r with
        txErrors := r.txErrors - 1, unanswered := 0, slot := none }).setUnit u (some { r with
          session := { r.session with keepDebt := 0 }
          exch := some { x with phase := .receiving, credit := k, timer := some r.desc.replyTimeout } })).withdraw g r.addr
            Msg.isKeep)))
  ∧ (∀ (s : State) (g : Seg) (t : TxSlot) (u : UnitIx) (r : UnitRec),
      (s.chip.seg g).slot = some t → t.item.msg = .keep → t.stale = false →
      s.chip.findUnit g t.item.addr = some u → s.chip.unit u = some r →
      (r.session.state = .opened ∨ r.session.state = .exchanging →
        Machine.exec (.keepCompletion g) s = .next (s.after (((s.chip.modSeg g fun r => { r with
          txErrors := r.txErrors - 1, unanswered := 0, slot := none }).setUnit u (some { r with
            session := { r.session with keepDebt := 0 } })).withdraw g r.addr Msg.isKeep)))
      ∧ (r.session.state ≠ .opened → r.session.state ≠ .exchanging →
          Machine.exec (.keepCompletion g) s = .next (s.after (s.chip.modSeg g fun r => { r with
            txErrors := r.txErrors - 1, unanswered := 0, slot := none }))))

/-- R18: a ROLL went out: the roll window of its census starts. R20: the roll window's expiry ends the census: a ROLL
still pending is withdrawn, and the card's result carries the answered units and the units created. -/
def Obligations.RollStartsAndCensusEnds : Prop :=
  (∀ (s : State) (g : Seg) (t : TxSlot) (n : Census),
      (s.chip.seg g).slot = some t → t.item.msg = .roll → t.stale = false →
      (s.chip.seg g).census = some n → n.rollStamp = t.item.stamp →
      Machine.exec (.rollCompletion g) s = .next (s.after (s.chip.modSeg g fun r => { r with
        txErrors := r.txErrors - 1, unanswered := 0, slot := none
        census := some { n with window := some (s.chip.segSets g).rollWindow } })))
  ∧ (∀ (s : State) (g : Seg),
      ((∀ n, (s.chip.seg g).census = some n → n.window = none) →
        Machine.exec (.rollWindowExpiry g) s = .next (s.after s.chip))
      ∧ ∀ (n : Census) (card : Fin 16) (x : Ctx), (s.chip.seg g).census = some n → n.window ≠ none →
          (s.chip.ctx n.ctx).source = .card card →
          x = { s.chip.ctx n.ctx with
            doneMask := maskOfUnits ((s.chip.unitsOf g).filter fun u =>
              (s.chip.unit u).any fun r => n.answered.contains r.addr)
            created := n.created, endCode := .noError } →
          Machine.exec (.rollWindowExpiry g) s = .next (s.after { s.chip.modSeg g fun r => { r with
              census := none, op := r.op.filter fun i => decide (i.stamp ≠ n.rollStamp) } with
            ctxs := s.chip.ctxs.set n.ctx { x with state := .writing }
            port := { s.chip.port with fresh := s.chip.port.fresh ++
              [{ owner := .result n.ctx, accs := resultAccs card x .noError 0 3, got := [] }] } }))

/-- R71, R68: a failed transmission raises the transmit error count of an ACTIVE segment by 8. The frame is sent again
where the segment has entered no state since the grant; it goes back to its class where the segment entered HELD, and is
withdrawn where it entered QUIET or DOWN, an OPEN with its record in REPEAT-HELD (the model's choice, log 46). That the
state entered last decides, a return to LIVE aside, is the model's choice (log 54); so is that in DOWN the count stops
at its end without a bus-off, and that a frame left on a segment that is no longer ACTIVE is withdrawn and counts
nothing (log 18). What giving a frame back does: the slot empties, and the item stands in its class behind those posted
before it and before those posted after it (R68, R73). That a frame marked as of a dropped session is not given back is
the model's choice (log 17), and so is that a frame is not whose unit has an item in its class already (R76, log 63). -/
def Obligations.TransmissionFailsAndIsGivenBack : Prop :=
  (∀ (s : State) (g : Seg),
      ((s.chip.seg g).slot = none → Machine.exec (.transmitFailure g) s = .next (s.after s.chip))
      ∧ ∀ t, (s.chip.seg g).slot = some t →
          (s.chip.mode g = some .active → (s.chip.seg g).state ≠ .down → (s.chip.seg g).txErrors + 8 ≤ 255 →
            (t.fate = .again → Machine.exec (.transmitFailure g) s =
              .next (s.after (s.chip.modSeg g fun r => { r with txErrors := r.txErrors + 8 })))
            ∧ (t.fate = .back → Machine.exec (.transmitFailure g) s =
              .next (s.after (s.chip.modSeg g fun r => { r.giveBack with txErrors := r.txErrors + 8 }))))
          ∧ ∀ n, (s.chip.mode g = some .active ∧ (s.chip.seg g).state ≠ .down ∧ (s.chip.seg g).txErrors + 8 ≤ 255
                ∧ t.fate = .gone ∧ n = (s.chip.seg g).txErrors + 8
              ∨ s.chip.mode g = some .active ∧ (s.chip.seg g).state = .down ∧ n = min 255 ((s.chip.seg g).txErrors + 8)
              ∨ s.chip.mode g ≠ some .active ∧ n = (s.chip.seg g).txErrors) →
            (t.item.msg ≠ .opn ∨ t.stale = true → Machine.exec (.transmitFailure g) s =
              .next (s.after (s.chip.modSeg g fun r => { r with slot := none, txErrors := n })))
            ∧ ∀ u r, t.item.msg = .opn → t.stale = false → s.chip.findUnit g t.item.addr = some u →
              s.chip.unit u = some r → Machine.exec (.transmitFailure g) s =
                .next (s.after ((s.chip.modSeg g fun r => { r with slot := none, txErrors := n }).setUnit u (some { r with
                  exch := r.exch.filter fun x => !(decide (x.kind = .opn) && decide (x.phase = .repeatHeld)) }))))
  ∧ (∀ (r : SegRec) (t : TxSlot), r.slot = some t →
      r.giveBack.slot = none
      ∧ (t.stale = true ∨ r.occupied t.item = true → ∀ k, r.giveBack.items k = r.items k)
      ∧ (t.stale = false → r.occupied t.item = false → (∀ k, k ≠ t.item.msg.cls → r.giveBack.items k = r.items k)
          ∧ ((r.items t.item.msg.cls).Pairwise (fun i j => i.stamp ≤ j.stamp) →
              (r.giveBack.items t.item.msg.cls).Pairwise (fun i j => i.stamp ≤ j.stamp)
              ∧ (r.giveBack.items t.item.msg.cls).Perm (t.item :: r.items t.item.msg.cls))))

/-- R73: past 255 the segment goes bus-off: RECOVERING with the recovery timer of 200 ms, the frame back in its class,
the bus-off count and the unanswered bus-off count up, the BUS-OFF cause; first shown for a segment on which no session
holds a slot, before the third bus-off in a row. The error count shown meanwhile is a free value (log 43). Else every
session that holds a slot there is dropped, and the drop counts against its plan (R60, `Chip.drop`: SharedOperations),
in ascending roster index (log 60), once RECOVERING is entered (log 48); shown in full for units without plans. R75: at
the third bus-off without a completion between, the OPEN that was in the slot ends UNANSWERED with the loss of presence,
and the count becomes 0; shown for a segment on which no session holds a slot and a unit without plans. In general every
OPEN then pending ends in its turn, UNANSWERED, or REFUSED BUSY where an attempt of it was answered, and its end reaches
the running plan that waits for it (R50); a ROLL then pending starts its census's window, and no count but the
unanswered one changes. -/
def Obligations.BusOffAndTheThirdInARow : Prop :=
  (∀ (s : State) (g : Seg) (t : TxSlot), (s.chip.seg g).slot = some t → 255 < (s.chip.seg g).txErrors + 8 →
      s.chip.mode g = some .active → (s.chip.seg g).state ≠ .down → s.chip.col ≠ .stopped →
      (∀ u r, s.chip.unit u = some r → r.seg = g → r.session.state.holdsSlot = false) →
      (s.chip.seg g).unanswered < 2 →
      Machine.exec (.transmitFailure g) s = .next (s.after { s.chip.modSeg g fun r => { r.giveBack with
          state := .recovering, recovery := some 200, txErrors := (Config.busOffErrors s.chip.freeIdx).toNat
          busOff := if r.busOff < 255 then r.busOff + 1 else r.busOff
          unanswered := r.unanswered + 1 } with
        freeIdx := s.chip.freeIdx + 1
        hdr := { s.chip.hdr with wanted := true }
        regs := { s.chip.regs with notice := s.chip.regs.notice ||| 0x100 } }))
  ∧ (∀ (s : State) (g : Seg) (t : TxSlot) (u : UnitIx) (r : UnitRec),
      (s.chip.seg g).slot = some t → t.item.msg = .opn → t.stale = false → 255 < (s.chip.seg g).txErrors + 8 →
      s.chip.mode g = some .active → (s.chip.seg g).state ≠ .down → s.chip.col ≠ .stopped →
      (∀ v w, s.chip.unit v = some w → w.seg = g → w.session.state.holdsSlot = false) →
      2 ≤ (s.chip.seg g).unanswered → (s.chip.seg g).op = [] →
      s.chip.findUnit g t.item.addr = some u → s.chip.unit u = some r → r.exch = none → r.queue = [] →
      Machine.exec (.transmitFailure g) s = .next (s.after { (s.chip.modSeg g fun x => { x.filterItems (fun i =>
            !(decide (i.addr = r.addr) && i.msg.isOpen)) with
          slot := none, state := .recovering, recovery := some 200
          txErrors := (Config.busOffErrors s.chip.freeIdx).toNat
          busOff := if x.busOff < 255 then x.busOff + 1 else x.busOff
          unanswered := 0 }).setUnit u (some { r with
            session := { r.session with posted := none }
            losses := if r.losses < 3 then r.losses + 1 else r.losses
            presence := if (if r.losses < 3 then r.losses + 1 else r.losses) = 3 then .silent else .lost }) with
        freeIdx := s.chip.freeIdx + 1
        hdr := { s.chip.hdr with wanted := true }
        regs := { s.chip.regs with notice := s.chip.regs.notice ||| 0x100 ||| 0x10 } }))
  ∧ (∀ (s : State) (g : Seg) (t : TxSlot) (d e f : Chip), (s.chip.seg g).slot = some t →
      255 < (s.chip.seg g).txErrors + 8 → s.chip.mode g = some .active → (s.chip.seg g).state ≠ .down →
      s.chip.col ≠ .stopped →
      d = { s.chip.modSeg g fun r => { r.giveBack with
          state := .recovering, recovery := some 200, txErrors := (Config.busOffErrors s.chip.freeIdx).toNat } with
        freeIdx := s.chip.freeIdx + 1 } →
      e = (s.chip.unitsOf g).foldl (fun c u => c.drop u true) d →
      f = { e.modSeg g fun r => { r with
          busOff := if r.busOff < 255 then r.busOff + 1 else r.busOff, unanswered := r.unanswered + 1 } with
        hdr := { e.hdr with wanted := true }, regs := { e.regs with notice := e.regs.notice ||| 0x100 } } →
      ((s.chip.seg g).unanswered < 2 → Machine.exec (.transmitFailure g) s = .next (s.after f))
      ∧ (2 ≤ (s.chip.seg g).unanswered → Machine.exec (.transmitFailure g) s = .next (s.after (f.unansweredLimit g)))
      ∧ ((∀ u r, s.chip.unit u = some r → r.seg = g → r.queue = []) →
          (∀ u, e.unit u = (s.chip.unit u).map fun r =>
            if r.seg = g ∧ r.session.state.holdsSlot = true then r.dropped else r)
          ∧ e.seg g = (d.seg g).filterItems (fun i => !s.chip.slotHeldBy g i.addr)
          ∧ (∀ h, h ≠ g → e.seg h = s.chip.seg h)
          ∧ { e with roster := d.roster, segs := d.segs } = d))
  ∧ (∀ (c : Chip) (g : Seg),
      ((∀ i ∈ (c.seg g).op, i.msg = .opn) →
        c.unansweredLimit g = ((c.seg g).op.foldl (Chip.openLost g) c).modSeg g fun r => { r with
          op := r.op.filter fun i => decide (i.msg ≠ .roll), unanswered := 0 })
      ∧ ∀ i n, (c.seg g).op = [i] → i.msg = .roll → (c.seg g).census = some n → n.rollStamp = i.stamp →
        c.unansweredLimit g = c.modSeg g fun r => { r with
          op := [], unanswered := 0, census := some { n with window := some (c.segSets g).rollWindow } })
  ∧ (∀ (c d : Chip) (g : Seg) (i : Item) (u : UnitIx) (r : UnitRec) (end_ : ReqEnd), c.findUnit g i.addr = some u →
      c.unit u = some r → c.col ≠ .stopped →
      ((∃ x, r.exch = some x ∧ x.answered = true) ∧ end_ = .openRefused .busy
          ∧ d = (c.setUnit u (some { r with exch := none, session := { r.session with posted := none } })).withdraw g r.addr
            Msg.isOpen
        ∨ (∀ x, r.exch = some x → x.answered = false) ∧ end_ = .openUnanswered
          ∧ d = { (c.setUnit u (some { r with
              exch := none, session := { r.session with posted := none }
              losses := if r.losses < 3 then r.losses + 1 else r.losses
              presence := if (if r.losses < 3 then r.losses + 1 else r.losses) = 3 then .silent else .lost })).withdraw g
                r.addr Msg.isOpen with
            regs := { c.regs with notice := c.regs.notice ||| 0x10 } }) →
      (r.queue = [] → Chip.openLost g c i = d)
      ∧ ∀ p qs, r.queue = p :: qs →
        (r.session.posted ≠ none ∨ (∃ full, p.work = some (.hold full none)) →
          Chip.openLost g c i = (d.requestEnded u p.serial end_).closeStepDone u)
        ∧ (r.session.posted = none → (∀ full, p.work ≠ some (.hold full none)) →
          Chip.openLost g c i = d.closeStepDone u))

/-! ## Receptions -/

/-- R72, R22, R82: frames that reach no unit. A frame with an error raises the receive error count of an ACTIVE segment;
a foreign frame lowers it, and is a stray of the segment only where it passes tests 1 to 3 (an extended data frame with
marker and tail, direction 1, the collector address) from no roster unit; on a segment that does not receive they have
no effect, and on a LISTEN segment such a frame is a stray and changes no error count (R70). R126: a frame that arrives
behind a hand-over that waits joins the frames that wait, its error count falling all the same; it is handled in its
turn (log 29). R22, R67: on a segment that is DOWN or RECOVERING no frame has an effect; and on a LISTEN segment a frame
of a roster unit makes it PRESENT and does nothing else (R70). R43, R27, R39: a frame that fits no exchange is a stray
of its unit, but a PART that the ignore count lets pass: a frame without an exchange record, one that its phase does not
take, an answer of the wrong kind, a second HEAD, a PART before any HEAD, a frame in REPEAT-HELD, a HERE while no
census runs on the segment. With the ROLL of its census still pending a HERE has no effect but on presence (log 40). -/
def Obligations.FramesThatAnswerNothing : Prop :=
  (∀ (s : State) (g : Seg) (form : FrameForm) (id : BitVec 29),
      (s.chip.receives g = false → Machine.exec (.receiveError g) s = .next (s.after s.chip)
        ∧ Machine.exec (.foreignFrame g form id) s = .next (s.after s.chip))
      ∧ (s.chip.receives g = true → s.chip.mode g = some .active →
          Machine.exec (.receiveError g) s = .next (s.after (s.chip.modSeg g fun r => { r with
            rxErrors := if r.rxErrors < 255 then r.rxErrors + 1 else r.rxErrors }))
          ∧ (filterPasses s.chip.sets.collector form id = false ∨ s.chip.findUnit g (idAddr id) ≠ none →
              Machine.exec (.foreignFrame g form id) s =
                .next (s.after (s.chip.modSeg g fun r => { r with rxErrors := r.rxErrors - 1 })))
          ∧ (filterPasses s.chip.sets.collector form id = true → s.chip.findUnit g (idAddr id) = none →
              (s.chip.rxBlocked g = false → (s.chip.seg g).rxWait = [] →
                Machine.exec (.foreignFrame g form id) s = .next (s.after (s.chip.modSeg g fun r => { r with
                  rxErrors := r.rxErrors - 1, strays := if r.strays < 65535 then r.strays + 1 else r.strays })))
              ∧ (s.chip.rxBlocked g = true ∨ (s.chip.seg g).rxWait ≠ [] →
                Machine.exec (.foreignFrame g form id) s = .next (s.after (s.chip.modSeg g fun r => { r with
                  rxErrors := r.rxErrors - 1
                  rxWait := r.rxWait ++ [{ addr := idAddr id, msg := .unknown }] })))))
      ∧ (s.chip.receives g = true → s.chip.mode g = some .listen →
          Machine.exec (.receiveError g) s = .next (s.after s.chip)
          ∧ (filterPasses s.chip.sets.collector form id = false ∨ s.chip.findUnit g (idAddr id) ≠ none →
              Machine.exec (.foreignFrame g form id) s = .next (s.after s.chip))
          ∧ (filterPasses s.chip.sets.collector form id = true → s.chip.findUnit g (idAddr id) = none →
              s.chip.rxBlocked g = false → (s.chip.seg g).rxWait = [] →
              Machine.exec (.foreignFrame g form id) s = .next (s.after (s.chip.modSeg g fun r => { r with
                strays := if r.strays < 65535 then r.strays + 1 else r.strays })))))
  ∧ (∀ (s : State) (g : Seg) (a : Byte) (i : Instr) (m : RxMsg), s.chip.receives g = true → s.chip.mode g = some .active →
      s.chip.rxBlocked g = true ∨ (s.chip.seg g).rxWait ≠ [] →
      ((∃ n ty, i = .unknownMessage g a n ty) ∧ m = .unknown ∨ i = .accept g a ∧ m = .accept ∨ i = .wait g a ∧ m = .wait
        ∨ i = .clearDone g a ∧ m = .clearDone ∨ i = .bye g a ∧ m = .bye
        ∨ (∃ n, i = .head g a n ∧ m = .head n.toNat) ∨ ∃ q d, i = .part g a q d ∧ m = .part q.toNat d.toList) →
      Machine.exec i s = .next (s.after (s.chip.modSeg g fun r => { r with
        rxErrors := r.rxErrors - 1, rxWait := r.rxWait ++ [{ addr := a, msg := m }] })))
  ∧ (∀ (c : Chip) (g : Seg) (a : Byte) (rest : List RxFrame), (c.seg g).rxWait = { addr := a, msg := .unknown } :: rest →
      (c.findUnit g a = none → c.handleWaiting g = c.modSeg g fun r => { r with
        rxWait := rest, strays := if r.strays < 65535 then r.strays + 1 else r.strays })
      ∧ ∀ u r, c.findUnit g a = some u → c.unit u = some r → c.mode g ≠ some .listen →
        c.handleWaiting g = (c.modSeg g fun r => { r with rxWait := rest }).setUnit u (some { r with
          presence := .present, losses := 0, strays := if r.strays < 255 then r.strays + 1 else r.strays }))
  ∧ (∀ (s : State) (g : Seg) (a : Byte) (i : Instr),
      ((∃ n ty, i = .unknownMessage g a n ty) ∨ i = .accept g a ∨ (∃ v, i = .refuse g a v) ∨ i = .wait g a
        ∨ (∃ n h, i = .listed g a n h) ∨ (∃ n, i = .head g a n) ∨ (∃ q d, i = .part g a q d) ∨ i = .clearDone g a
        ∨ i = .bye g a ∨ ∃ ty h, i = .here g a ty h) →
      (s.chip.receives g = false → Machine.exec i s = .next (s.after s.chip))
      ∧ ∀ u r, s.chip.receives g = true → s.chip.mode g = some .listen → s.chip.rxBlocked g = false →
          (s.chip.seg g).rxWait = [] → s.chip.findUnit g a = some u → s.chip.unit u = some r →
          Machine.exec i s = .next (s.after (s.chip.setUnit u (some { r with presence := .present, losses := 0 }))))
  ∧ (∀ (collector : Byte) (form : FrameForm) (id : BitVec 29), filterPasses collector form id = true ↔
      form.extended = true ∧ form.remote = false ∧ id.extractLsb' 20 9 = 0x13A ∧ id.extractLsb' 0 3 = 0
        ∧ id.extractLsb' 19 1 = 1 ∧ id.extractLsb' 3 8 = collector)
  ∧ (∀ (s : State) (g : Seg) (a : Byte) (u : UnitIx) (r : UnitRec) (i : Instr), s.chip.Hears g a u r →
    ((∃ n ty, i = .unknownMessage g a n ty) →
      Machine.exec i s = .next (s.after (s.chip.heard g u { r with
        strays := if r.strays < 255 then r.strays + 1 else r.strays })))
    ∧ (r.exch = none → i = .accept g a ∨ (∃ v, i = .refuse g a v) ∨ i = .wait g a ∨ (∃ n h, i = .listed g a n h)
          ∨ (∃ n, i = .head g a n) ∨ i = .clearDone g a ∨ i = .bye g a ∨ (r.ignore = 0 ∧ ∃ q d, i = .part g a q d) →
        Machine.exec i s = .next (s.after (s.chip.heard g u { r with
          strays := if r.strays < 255 then r.strays + 1 else r.strays })))
    ∧ (r.exch = none → 0 < r.ignore → (∃ q d, i = .part g a q d) →
        Machine.exec i s = .next (s.after (s.chip.heard g u { r with ignore := r.ignore - 1 })))
    ∧ ((s.chip.seg g).census = none → (∃ ty h, i = .here g a ty h) →
        Machine.exec i s = .next (s.after (s.chip.heard g u { r with
          strays := if r.strays < 255 then r.strays + 1 else r.strays })))
    ∧ (∀ n, (s.chip.seg g).census = some n → n.window = none → (∃ ty h, i = .here g a ty h) →
        Machine.exec i s = .next (s.after (s.chip.heard g u r)))
    ∧ ∀ x, r.exch = some x → i.Answers g a →
        (x.kind = .opn ∧ (x.phase ≠ .awaitAccept ∨ i ≠ .accept g a ∧ ∀ v, i ≠ .refuse g a v)
          ∨ x.kind = .close ∧ (x.phase ≠ .awaitBye ∨ i ≠ .bye g a)
          ∨ ∃ q, x.kind = .request q ∧ (x.phase = .repeatHeld ∨ i = .accept g a ∨ i = .bye g a
              ∨ (∃ n h, i = .listed g a n h) ∧ (x.phase ≠ .awaitAnswer ∨ q.kind ≠ .list)
              ∨ (∃ n, i = .head g a n) ∧ (x.phase ≠ .awaitAnswer ∨ q.kind = .list ∨ q.kind = .clear)
              ∨ i = .clearDone g a ∧ (x.phase ≠ .awaitAnswer ∨ q.kind ≠ .clear)
              ∨ (∃ n d, i = .part g a n d) ∧ x.phase ≠ .awaitPull ∧ x.phase ≠ .receiving)) →
        Machine.exec i s = .next (s.after (s.chip.heard g u { r with
          strays := if r.strays < 255 then r.strays + 1 else r.strays })))

/-- R47: an ACCEPT makes an OPENING session OPEN, with debt 0 and the keep timer running; a posted request goes into its
class. R53, R64: a CLOSE follows at once where a close was asked while OPENING and no request is posted since
(remembered till then: log 28), and in STOPPING, where nothing else is sent; shown where no CLOSE of the unit is pending
or in the slot. -/
def Obligations.AcceptOpens : Prop :=
  ∀ (s : State) (g : Seg) (a : Byte) (u : UnitIx) (r : UnitRec) (x : Exchange), s.chip.Hears g a u r →
    r.exch = some x → x.kind = .opn → x.phase = .awaitAccept → ∀ opened : Chip,
    opened = s.chip.heard g u { r with
      exch := none
      session := { r.session with
        state := .opened, keepDebt := 0, keepTimer := some (s.chip.segSets g).keepInterval, clearMark := false
        heldClose := false, openAttempts := 0, posted := none, closeAtAccept := false } } →
    (∀ q, s.chip.col ≠ .stopping → r.session.posted = some q →
      Machine.exec (.accept g a) s = .next (s.after (opened.post g r.addr (.request q) false)))
    ∧ (s.chip.col ≠ .stopping → r.session.posted = none → r.session.closeAtAccept = false → r.queue = [] →
        Machine.exec (.accept g a) s = .next (s.after opened))
    ∧ (s.chip.col = .stopping ∨ r.session.posted = none ∧ r.session.closeAtAccept = true →
        (s.chip.seg g).hasPending r.addr Msg.isClose = false → (s.chip.seg g).hasGranted r.addr Msg.isClose = false →
        Machine.exec (.accept g a) s = .next (s.after (opened.post g r.addr .close false)))
    ∧ (∀ p qs full, s.chip.col ≠ .stopping → r.session.posted = none → r.session.closeAtAccept = false →
        r.queue = p :: qs → p.work = some (.hold full none) →
        Machine.exec (.accept g a) s = .next (s.after (opened.modPlan u fun p => { p with
          work := some (.hold full (some full)) })))

/-- R49, R31: a REFUSE. For an OPEN, BUSY with attempts left cools the session and posts a repeat; any other ends the
open. For a request, in every phase of an attempt, BUSY with attempts left waits the rest time, or is repeated at once
where that is 0 (the model's choice, log 39), a DRAW at the first slot that has not arrived (R38); any other ends it
with the session OPEN; a pending PULL goes (the repeat's: log 16). R157: UNKNOWN to a SNAP makes a snapshot-none item
first. Ends are shown for a unit without plans, a held close or a grace drop (else: RequestEndsReachThePlan). R32: a
WAIT restarts the reply timer with the segment's wait extension, up to eight times in an attempt; the ninth ends the
attempt as a timeout does, which is repeated, or ends the request BROKEN. -/
def Obligations.RefusedOrToldToWait : Prop :=
  (∀ (s : State) (g : Seg) (a : Byte) (v : BitVec 4) (u : UnitIx) (r : UnitRec) (x : Exchange), s.chip.Hears g a u r →
      r.exch = some x → r.queue = [] →
      (x.kind = .opn → x.phase = .awaitAccept → v = 1 → r.session.openAttempts < 1 + r.desc.retries →
        Machine.exec (.refuse g a v) s = .next (s.after (((s.chip.heard g u { r with
          exch := some { x with answered := true, phase := .repeatHeld, timer := none }
          session := r.session.cool r.desc.restTime }).withdraw g r.addr Msg.isKeep).post g r.addr .opn true)))
      ∧ (x.kind = .opn → x.phase = .awaitAccept → v ≠ 1 ∨ 1 + r.desc.retries ≤ r.session.openAttempts →
          Machine.exec (.refuse g a v) s = .next (s.after ((s.chip.heard g u { r with
            exch := none
            session := { r.session.cool r.desc.restTime with posted := none, closeAtAccept := false } }).withdraw g r.addr
              Msg.isKeep)))
      ∧ (∀ q q', x.kind = .request q → x.phase = .awaitAnswer ∨ x.phase = .awaitPull ∨ x.phase = .receiving →
          v = 1 → x.attempt < 1 + r.desc.retries →
          ((∀ start group base, q.kind ≠ .draw start group base) ∧ q' = q
            ∨ ∃ start group base, q.kind = .draw start group base ∧ q' = { q with
                kind := .draw (((wrapOrder start group).find? fun j => !x.arrived.contains j).getD start) group base }) →
          (r.desc.restTime ≠ 0 →
            Machine.exec (.refuse g a v) s = .next (s.after ((s.chip.heard g u { r with
              exch := some { x with
                kind := .request q', answered := true, phase := .repeatHeld, timer := none, rest := some r.desc.restTime
                bytes := [], arrived := [], taken := 0, needed := 0, credit := 0 } }).withdraw g r.addr Msg.isPull)))
          ∧ (r.desc.restTime = 0 →
            Machine.exec (.refuse g a v) s = .next (s.after (((s.chip.heard g u { r with
              exch := some { x with
                kind := .request q', answered := true, phase := .repeatHeld, timer := none, rest := none, bytes := []
                arrived := [], taken := 0, needed := 0, credit := 0 } }).withdraw g r.addr Msg.isPull).post g r.addr
                  (.request q') true))))
      ∧ (∀ q, x.kind = .request q → x.phase = .awaitAnswer ∨ x.phase = .awaitPull ∨ x.phase = .receiving →
          r.session.heldClose = false → r.session.graceDrop = false → v = 1 → 1 + r.desc.retries ≤ x.attempt →
          Machine.exec (.refuse g a v) s = .next (s.after ((s.chip.heard g u { r with
            exch := none, session := { r.session with state := .opened } }).withdraw g r.addr fun m =>
              m.isPull || m.isRequest)))
      ∧ (∀ q, x.kind = .request q → x.phase = .awaitAnswer ∨ x.phase = .awaitPull ∨ x.phase = .receiving →
          r.session.heldClose = false → r.session.graceDrop = false → v ≠ 1 →
          (v ≠ 3 ∨ (∀ slot code kind, q.kind ≠ .snap slot code kind) →
            Machine.exec (.refuse g a v) s = .next (s.after ((s.chip.heard g u { r with
              exch := none, session := { r.session with state := .opened } }).withdraw g r.addr fun m =>
                m.isPull || m.isRequest)))
          ∧ (∀ slot code kind, v = 3 → q.kind = .snap slot code kind →
            Machine.exec (.refuse g a v) s = .next (s.after (((s.chip.heard g u { r with
              exch := none, session := { r.session with state := .opened } }).handOver
                (.noSnap q.plan slot { seg := g, addr := r.addr, code := code, kind := kind }) none).withdraw g r.addr fun m =>
                  m.isPull || m.isRequest)))))
  ∧ (∀ (s : State) (g : Seg) (a : Byte) (u : UnitIx) (r : UnitRec) (x : Exchange) (q : Req), s.chip.Hears g a u r →
      r.exch = some x → x.kind = .request q →
      x.phase = .awaitAnswer ∨ x.phase = .awaitPull ∨ x.phase = .receiving →
      (x.waits < 8 →
        Machine.exec (.wait g a) s = .next (s.after (s.chip.heard g u { r with
          exch := some { x with
            answered := true, waits := x.waits + 1, timer := some (s.chip.segSets g).waitExtension } })))
      ∧ (∀ q', 8 ≤ x.waits → x.attempt < 1 + r.desc.retries →
        ((∀ start group base, q.kind ≠ .draw start group base) ∧ q' = q
          ∨ ∃ start group base, q.kind = .draw start group base ∧ q' = { q with
              kind := .draw (((wrapOrder start group).find? fun j => !x.arrived.contains j).getD start) group base }) →
        Machine.exec (.wait g a) s = .next (s.after (((s.chip.heard g u { r with
          exch := some { x with
            kind := .request q', answered := true, phase := .repeatHeld, timer := none, rest := none, bytes := []
            arrived := [], taken := 0, needed := 0, credit := 0 } }).withdraw g r.addr Msg.isPull).post g r.addr
              (.request q') true)))
      ∧ (8 ≤ x.waits → 1 + r.desc.retries ≤ x.attempt → r.queue = [] → r.session.heldClose = false →
        r.session.graceDrop = false →
        Machine.exec (.wait g a) s = .next (s.after ((s.chip.heard g u { r with
          exch := none
          clearUncertain := r.clearUncertain || decide (q.kind = ReqKind.clear)
          session := { r.session with state := .opened } }).withdraw g r.addr fun m => m.isPull || m.isRequest))))

/-- R33, R111, R94, R103: a LISTED answers a LIST: count and hours are the unit's last, the plan's listed count, F0 and
harvest account start anew, and the request ends COMPLETE; as the plan's last step it ends the plan, whose end goes to
the History Table. -/
def Obligations.ListedAnswersAList : Prop :=
  ∀ (s : State) (g : Seg) (a n : Byte) (h : BitVec 16) (u : UnitIx) (r : UnitRec) (x : Exchange) (p : Plan)
    (qs : List Plan), s.chip.Hears g a u r → r.exch = some x → x.kind = .request { kind := .list, plan := p.serial } →
    x.phase = .awaitAnswer → r.queue = p :: qs → p.running = true → p.ended = none → p.work = some .list →
    s.chip.itemsLeft p.serial = false → (s.chip.ctx p.ctx).steps.length ≤ p.cursor →
    r.session.heldClose = false → r.session.graceDrop = false →
    Machine.exec (.listed g a n h) s = .next (s.after (((s.chip.heard g u { r with
      exch := none
      lastN := some n.toNat
      hours := if h.toNat = 65535 then none else some h.toNat
      session := { r.session with state := .opened, posted := none }
      queue := { p with
        listed := some n.toNat, flags := writeFlag p.flags 0 (decide (0 < n.toNat)), covered := [], spoiled := false
        ended := some (.complete, p.cursor), work := none, heldEnd := none } :: qs }).withdraw g r.addr fun m =>
          m.isPull || m.isRequest).handOver (.planEnd p.serial g r.addr (decide (n.toNat = 0))) none))

/-- R34, R35, R37: a HEAD that announces the bytes of a DRAW's whole group, or the bytes of a snapshot, posts a PULL
with the segment's pull credit. R39: a HEAD of 0 bytes to a SNAP ends it COMPLETE and hands a snapshot-none item over.
R35: a PART in sequence joins the transfer; while parts are still needed and the credit lasts, the next is awaited with
the reply timer running again; the last PART of a snapshot ends the request COMPLETE and hands the kept bytes over. R36,
R37: a PART that completes a record of a DRAW whose slot echo is the one the wrap order asks for hands the record on;
where it spends the credit the next PULL is posted, and the last PART of all ends the DRAW COMPLETE. R35, R36, R37: a
PART out of sequence, a PART while a PULL is awaited, a DRAW's HEAD of another count and a record with another slot echo
break the attempt: it is repeated while attempts are left, a pending PULL withdrawn (log 16), else the request ends
BROKEN. Ends are shown for a unit without plans, a held close or a grace drop (else:
RequestEndsReachThePlan). -/
def Obligations.SegmentedAnswer : Prop :=
  (∀ (s : State) (g : Seg) (a : Byte) (count : BitVec 16) (u : UnitIx) (r : UnitRec) (x : Exchange) (plan : Nat),
      s.chip.Hears g a u r → r.exch = some x → x.phase = .awaitAnswer →
      (∀ start group base, x.kind = .request { kind := .draw start group base, plan := plan } →
        count.toNat = 12 * group →
        Machine.exec (.head g a count) s = .next (s.after ((s.chip.heard g u { r with
          exch := some { x with
            answered := true, announced := 12 * group, needed := (12 * group + 6) / 7, taken := 0, credit := 0, nextSeq := 1
            bytes := [], arrived := [], timer := some r.desc.replyTimeout, phase := .awaitPull } }).post g r.addr
              (.pull (s.chip.segSets g).pullCredit) false)))
      ∧ ∀ slot code kind, x.kind = .request { kind := .snap slot code kind, plan := plan } →
        (count.toNat ≠ 0 →
          Machine.exec (.head g a count) s = .next (s.after ((s.chip.heard g u { r with
            exch := some { x with
              answered := true, announced := count.toNat, needed := (min count.toNat 48 + 6) / 7, taken := 0, credit := 0
              nextSeq := 1, bytes := [], arrived := [], timer := some r.desc.replyTimeout, phase := .awaitPull } }).post g
                r.addr (.pull (s.chip.segSets g).pullCredit) false)))
        ∧ (count.toNat = 0 → r.queue = [] → r.session.heldClose = false → r.session.graceDrop = false →
          Machine.exec (.head g a count) s = .next (s.after (((s.chip.heard g u { r with
            exch := none, session := { r.session with state := .opened } }).handOver
              (.noSnap plan slot { seg := g, addr := r.addr, code := code, kind := kind }) none).withdraw g r.addr fun m =>
                m.isPull || m.isRequest))))
  ∧ (∀ (s : State) (g : Seg) (a : Byte) (q : BitVec 4) (d : Vector Byte 7) (u : UnitIx) (r : UnitRec) (x : Exchange)
      (plan : Nat) (slot : SlotIx) (code : BitVec 24) (kind : Byte), s.chip.Hears g a u r → r.exch = some x →
      x.kind = .request { kind := .snap slot code kind, plan := plan } → x.phase = .receiving → x.nextSeq = q.toNat →
      (x.taken + 1 ≠ x.needed → 2 ≤ x.credit →
        Machine.exec (.part g a q d) s = .next (s.after (s.chip.heard g u { r with
          exch := some { x with
            answered := true, bytes := x.bytes ++ d.toList, taken := x.taken + 1, credit := x.credit - 1
            nextSeq := (x.nextSeq + 1) % 16, timer := some r.desc.replyTimeout } })))
      ∧ (x.taken + 1 ≠ x.needed → x.credit = 1 →
          Machine.exec (.part g a q d) s = .next (s.after ((s.chip.heard g u { r with
            exch := some { x with
              answered := true, bytes := x.bytes ++ d.toList, taken := x.taken + 1, credit := 0, phase := .awaitPull
              nextSeq := (x.nextSeq + 1) % 16, timer := some r.desc.replyTimeout } }).post g r.addr
                (.pull (s.chip.segSets g).pullCredit) false)))
      ∧ (x.taken + 1 = x.needed → r.queue = [] → r.session.heldClose = false → r.session.graceDrop = false →
          Machine.exec (.part g a q d) s = .next (s.after (((s.chip.heard g u { r with
            exch := none
            ignore := if 48 < x.announced then x.credit - 1 else r.ignore
            session := { r.session with state := .opened } }).handOver (.capture plan slot
              { seg := g, addr := r.addr, code := code, kind := kind }
              ((x.bytes ++ d.toList).take (min x.announced 48))) none).withdraw g r.addr fun m =>
                m.isPull || m.isRequest))))
  ∧ (∀ (s : State) (g : Seg) (a : Byte) (q : BitVec 4) (d : Vector Byte 7) (u : UnitIx) (r : UnitRec) (x : Exchange)
      (plan start group base : Nat), s.chip.Hears g a u r → r.exch = some x →
      x.kind = .request { kind := .draw start group base, plan := plan } → x.phase = .receiving → x.nextSeq = q.toNat →
      ∀ j, j = x.bytes.length / 12 →
      (x.taken + 1 ≠ x.needed → 2 ≤ x.credit → x.bytes.length + 7 < 12 * (j + 1) →
        Machine.exec (.part g a q d) s = .next (s.after (s.chip.heard g u { r with
          exch := some { x with
            answered := true, bytes := x.bytes ++ d.toList, taken := x.taken + 1, credit := x.credit - 1
            nextSeq := (x.nextSeq + 1) % 16, timer := some r.desc.replyTimeout } })))
      ∧ (x.taken + 1 ≠ x.needed → x.credit = 1 → x.bytes.length + 7 < 12 * (j + 1) →
        Machine.exec (.part g a q d) s = .next (s.after ((s.chip.heard g u { r with
          exch := some { x with
            answered := true, bytes := x.bytes ++ d.toList, taken := x.taken + 1, credit := 0, phase := .awaitPull
            nextSeq := (x.nextSeq + 1) % 16, timer := some r.desc.replyTimeout } }).post g r.addr
              (.pull (s.chip.segSets g).pullCredit) false)))
      ∧ (12 * (j + 1) ≤ x.bytes.length + 7 → j < group → ∀ rec12,
          rec12 = ((x.bytes ++ d.toList).drop (12 * j)).take 12 → slotEcho rec12 = wrapSlot start group j →
          (x.taken + 1 ≠ x.needed → x.credit = 1 →
            Machine.exec (.part g a q d) s = .next (s.after (((s.chip.heard g u { r with
              exch := some { x with
                answered := true, bytes := x.bytes ++ d.toList, taken := x.taken + 1, credit := 0, phase := .awaitPull
                nextSeq := (x.nextSeq + 1) % 16, timer := some r.desc.replyTimeout
                arrived := x.arrived ++ [wrapSlot start group j] } }).takeRecord u plan base (wrapSlot start group j)
                  rec12).post g r.addr (.pull (s.chip.segSets g).pullCredit) false)))
          ∧ (x.taken + 1 = x.needed → r.queue = [] → r.session.heldClose = false → r.session.graceDrop = false →
            Machine.exec (.part g a q d) s = .next (s.after (((s.chip.heard g u { r with
              exch := none, session := { r.session with state := .opened } }).takeRecord u plan base
                (wrapSlot start group j) rec12).withdraw g r.addr fun m => m.isPull || m.isRequest)))
          ∧ (x.taken + 1 ≠ x.needed → 2 ≤ x.credit →
          Machine.exec (.part g a q d) s = .next (s.after ((s.chip.heard g u { r with
            exch := some { x with
              answered := true, bytes := x.bytes ++ d.toList, taken := x.taken + 1, credit := x.credit - 1
              nextSeq := (x.nextSeq + 1) % 16, timer := some r.desc.replyTimeout
              arrived := x.arrived ++ [wrapSlot start group j] } }).takeRecord u plan base (wrapSlot start group j)
                rec12)))))
  ∧ (∀ (s : State) (g : Seg) (a : Byte) (i : Instr) (u : UnitIx) (r : UnitRec) (x : Exchange) (q : Req),
      s.chip.Hears g a u r → r.exch = some x → x.kind = .request q →
      ((∃ n d, i = .part g a n d ∧ (x.phase = .awaitPull ∨ x.phase = .receiving ∧ x.nextSeq ≠ n.toNat))
        ∨ (∃ count start group base, i = .head g a count ∧ x.phase = .awaitAnswer ∧ q.kind = .draw start group base
            ∧ count.toNat ≠ 12 * group)) →
      (x.attempt < 1 + r.desc.retries →
        ∃ q', q'.plan = q.plan
          ∧ ((∀ start group base, q.kind ≠ .draw start group base) → q' = q)
          ∧ (∀ start group base, q.kind = .draw start group base →
              q'.kind = .draw (((wrapOrder start group).find? fun j => !x.arrived.contains j).getD start) group base)
          ∧ Machine.exec i s = .next (s.after (((s.chip.heard g u { r with
              exch := some { x with
                kind := .request q', answered := true, phase := .repeatHeld, timer := none, rest := none, bytes := []
                arrived := [], taken := 0, needed := 0, credit := 0 } }).withdraw g r.addr Msg.isPull).post g r.addr
                  (.request q') true)))
      ∧ (1 + r.desc.retries ≤ x.attempt → r.queue = [] → r.session.heldClose = false → r.session.graceDrop = false →
          Machine.exec i s = .next (s.after ((s.chip.heard g u { r with
            exch := none
            clearUncertain := r.clearUncertain || decide (q.kind = ReqKind.clear)
            session := { r.session with state := .opened } }).withdraw g r.addr fun m => m.isPull || m.isRequest))))
  ∧ (∀ (s : State) (g : Seg) (a : Byte) (n : BitVec 4) (d : Vector Byte 7) (u : UnitIx) (r : UnitRec) (x : Exchange)
      (plan start group base : Nat), s.chip.Hears g a u r → r.exch = some x →
      x.kind = .request { kind := .draw start group base, plan := plan } → x.phase = .receiving → x.nextSeq = n.toNat →
      ∀ j, j = x.bytes.length / 12 → 12 * (j + 1) ≤ x.bytes.length + 7 → j < group →
      slotEcho (((x.bytes ++ d.toList).drop (12 * j)).take 12) ≠ wrapSlot start group j →
      x.attempt < 1 + r.desc.retries → ∀ q',
      q' = { kind := ReqKind.draw (((wrapOrder start group).find? fun j => !x.arrived.contains j).getD start) group base,
             plan := plan } →
      Machine.exec (.part g a n d) s = .next (s.after (((s.chip.heard g u { r with
        exch := some { x with
          kind := .request q', answered := true, phase := .repeatHeld, timer := none, rest := none, bytes := []
          arrived := [], taken := 0, needed := 0, credit := 0, nextSeq := (x.nextSeq + 1) % 16 } }).withdraw g r.addr
            Msg.isPull).post g r.addr (.request q') true)))

/-- R36: the wrap order of a DRAW goes through the aligned group of its start slot, each slot once, from the start slot.
R114, R37: a unit record that arrived whole with the slot its place in the wrap order asks for goes to the History Table
in the same command, its slot counted as covered, once; a malformed one is counted and goes nowhere, and one of a slot
at or beyond the draw base is an EMPTY slot's and counts nowhere (R37, R112). A record of a plan that runs no more is
handed over and counts in no plan. -/
def Obligations.DrawRecords : Prop :=
  (∀ start group : Nat, group = 4 ∨ group = 8 →
      (wrapOrder start group).Perm ((List.range group).map fun j => start / group * group + j)
      ∧ (wrapOrder start group).head? = some start)
  ∧ (∀ (c : Chip) (u : UnitIx) (r : UnitRec) (serial base slot : Nat) (bytes : List Byte), c.unit u = some r →
      (base ≤ slot → c.takeRecord u serial base slot bytes = c)
      ∧ (slot < base → recordMalformed bytes = true → c.takeRecord u serial base slot bytes =
        c.setUnit u (some { r with malformed := if r.malformed < 255 then r.malformed + 1 else r.malformed }))
      ∧ (slot < base → recordMalformed bytes = false →
        (∀ p qs, r.queue = p :: qs → p.serial = serial → c.takeRecord u serial base slot bytes =
          (c.setUnit u (some { r with queue := { p with
            covered := if slot ∈ p.covered then p.covered else p.covered ++ [slot]
            flags := handOverFlags p.flags (recordOf bytes)
            highU := max p.highU (recordOf bytes).u } :: qs })).handOver (.merge serial r.seg r.addr (recordOf bytes))
              (some r.seg))
        ∧ ((∀ p, r.queue.head? = some p → p.serial ≠ serial) → c.takeRecord u serial base slot bytes =
          c.handOver (.merge serial r.seg r.addr (recordOf bytes)) (some r.seg))))
  ∧ (∀ bytes : List Byte, bytes.length = 12 → (recordMalformed bytes = true ↔
      bytes.take 3 = [0, 0, 0] ∨ bytes.take 3 = [0xFF, 0xFF, 0xFF] ∨ 15 < (bytes.getD 3 0).toNat
        ∨ (bytes.getD 4 0).extractLsb' 4 4 = (0 : BitVec 4) ∨ 4 ≤ ((bytes.getD 4 0).extractLsb' 4 4).toNat))

/-- R40, R63: a CLEAR-DONE answers a CLEAR: the clear-done mark is set, the unit is not clear-uncertain, the CLEARED
marking goes to the History Table, and the request ends COMPLETE; shown for a unit without plans. R62: a close held
back behind the CLEAR is asked for then; R65, R175: a session that a grace end left for its CLEAR is dropped then; where
both are due the close comes first (log 64). That the request ends while the marking still waits is the model's choice
(log 67). -/
def Obligations.ClearDoneAnswersAClear : Prop :=
  ∀ (s : State) (g : Seg) (a : Byte) (u : UnitIx) (r : UnitRec) (x : Exchange) (plan : Nat) (d : Chip),
    s.chip.Hears g a u r → r.exch = some x → x.kind = .request { kind := .clear, plan := plan } → x.phase = .awaitAnswer →
    r.queue = [] →
    d = ((s.chip.heard g u { r with
      exch := none
      clearUncertain := false
      session := { r.session with
        state := .opened, clearMark := true, heldClose := false, graceDrop := false } }).handOver (.cleared plan g r.addr)
          (some g)).withdraw g r.addr (fun m => m.isPull || m.isRequest) →
    (r.session.heldClose = false → r.session.graceDrop = false →
      Machine.exec (.clearDone g a) s = .next (s.after d))
    ∧ (r.session.heldClose = true → r.session.graceDrop = false →
      Machine.exec (.clearDone g a) s = .next (s.after (d.askClose u))
      ∧ ((s.chip.seg g).hasPending r.addr Msg.isClose = false → (s.chip.seg g).hasGranted r.addr Msg.isClose = false →
        d.askClose u = d.post g r.addr .close false))
    ∧ (r.session.heldClose = false → r.session.graceDrop = true →
      Machine.exec (.clearDone g a) s = .next (s.after (d.drop u false))
      ∧ ∃ q, d.unit u = some q ∧ d.drop u false = (d.setUnit u (some q.dropped)).modSeg g fun y =>
        (y.filterItems fun i => decide (i.addr ≠ r.addr)).markStale r.addr)
    ∧ (r.session.heldClose = true → r.session.graceDrop = true →
      Machine.exec (.clearDone g a) s = .next (s.after ((d.askClose u).drop u false)))

/-- R19, R2: a HERE in the roll window: of a roster unit not yet answered it takes type and hours; of a new address it
adds a CENSUS unit at the lowest free index, PRESENT, with the default descriptor. Where the segment has 24 units or the
roster is full the address counts as answered and the roster-full count rises, no unit added. A HERE of an address
answered already changes nothing more; one of an address outside 01H to EEH is a stray of the segment. R22, R23: with no
census on the segment a HERE of no roster unit is a stray of the segment; with one whose ROLL is still pending it is
none, and has no effect (the model's choice, log 40). -/
def Obligations.HereInTheRollWindow : Prop :=
  (∀ (s : State) (g : Seg) (a : Byte) (ty h : BitVec 16) (n : Census), (s.chip.seg g).census = some n →
    n.window ≠ none →
    (∀ u r, s.chip.Hears g a u r →
      (n.answered.contains a = false →
        Machine.exec (.here g a ty h) s = .next (s.after (((s.chip.heard g u { r with
          typeCode := ty.toNat, hours := if h.toNat = 65535 then none else some h.toNat }).modSeg g fun y => { y with
            census := some { n with answered := n.answered ++ [a] } }))))
      ∧ (n.answered.contains a = true → Machine.exec (.here g a ty h) s = .next (s.after (s.chip.heard g u r))))
    ∧ (s.chip.receives g = true → s.chip.mode g = some .active → s.chip.rxBlocked g = false →
        (s.chip.seg g).rxWait = [] → s.chip.findUnit g a = none →
        (a = 0 ∨ 0xEE < a.toNat →
          Machine.exec (.here g a ty h) s = .next (s.after (s.chip.modSeg g fun y => { y with
            rxErrors := y.rxErrors - 1, strays := if y.strays < 65535 then y.strays + 1 else y.strays })))
        ∧ (1 ≤ a.toNat → a.toNat ≤ 0xEE →
          (n.answered.contains a = true →
            Machine.exec (.here g a ty h) s = .next (s.after (s.chip.modSeg g fun y => { y with
              rxErrors := y.rxErrors - 1 })))
          ∧ (n.answered.contains a = false → 24 ≤ (s.chip.unitsOf g).length ∨ s.chip.freeIndex = none →
            Machine.exec (.here g a ty h) s = .next (s.after { s.chip.modSeg g fun y => { y with
                rxErrors := y.rxErrors - 1, census := some { n with answered := n.answered ++ [a] } } with
              rosterFull := if s.chip.rosterFull < 255 then s.chip.rosterFull + 1 else s.chip.rosterFull }))
          ∧ (n.answered.contains a = false → (s.chip.unitsOf g).length < 24 → ∀ u, s.chip.freeIndex = some u →
            Machine.exec (.here g a ty h) s = .next (s.after ((s.chip.modSeg g fun y => { y with
              rxErrors := y.rxErrors - 1
              census := some { n with answered := n.answered ++ [a], created := n.created + 1 } }).setUnit u (some
                { origin := .census, seg := g, addr := a, typeCode := ty.toNat, desc := .default, presence := .present
                  losses := 0, session := .fresh, drops := 0, malformed := 0, refused := 0, strays := 0, lastN := none
                  hours := if h.toNat = 65535 then none else some h.toNat, clearUncertain := false, exch := none, ignore := 0
                  queue := [] })))))))
  ∧ ∀ (s : State) (g : Seg) (a : Byte) (ty h : BitVec 16), s.chip.receives g = true → s.chip.mode g = some .active →
      s.chip.rxBlocked g = false → (s.chip.seg g).rxWait = [] → s.chip.findUnit g a = none →
      ((s.chip.seg g).census = none ∨ a = 0 ∨ 0xEE < a.toNat →
        Machine.exec (.here g a ty h) s = .next (s.after (s.chip.modSeg g fun y => { y with
          rxErrors := y.rxErrors - 1, strays := if y.strays < 65535 then y.strays + 1 else y.strays })))
      ∧ ∀ n, (s.chip.seg g).census = some n → n.window = none → 1 ≤ a.toNat → a.toNat ≤ 0xEE →
        Machine.exec (.here g a ty h) s = .next (s.after (s.chip.modSeg g fun y => { y with
          rxErrors := y.rxErrors - 1 }))

/-! ## The exchange area -/

/-- R184: the end of an access: a write lands in host RAM, a read brings the word there; with more of the request to
come the port goes on with it, and with the last access of a request its owner goes on with the words read. With none in
flight nothing but the host's own writes happens. R128, R152, R198: where the access wrote the published change
sequence, as write 4 of an entry change or at the end of either path of STARTING, the published value is the change
sequence from then on, and write 4 sets HISTORY with it, and LAMP where the change raised a lamp. -/
def Obligations.AccessCompletes : Prop :=
  ∀ (s : State) (l : List (Word × Byte)),
    (s.chip.port.bus = none →
      Machine.exec (.exchangeAccessCompletion l) s = .next { s with mem := Memory.writeBytes s.mem l })
    ∧ (∀ b q x y rest, s.chip.port.bus = some b → s.chip.port.serving = some q → q.accs = x :: y :: rest →
        (∀ off, x ≠ .write off (.header 3)) →
        (∀ w, b.data = some w →
          ∃ t, Machine.exec (.exchangeAccessCompletion l) s = .next t ∧ t.pending = s.pending
            ∧ t.mem = Memory.writeWord (Memory.writeBytes s.mem l) b.addr w
            ∧ t.chip = Chip.settle s.chip { s.chip with port := { s.chip.port with
                bus := none, serving := some { q with accs := y :: rest } } })
        ∧ (b.data = none →
          ∃ t, Machine.exec (.exchangeAccessCompletion l) s = .next t ∧ t.pending = s.pending
            ∧ t.mem = Memory.writeBytes s.mem l
            ∧ t.chip = Chip.settle s.chip { s.chip with port := { s.chip.port with
                bus := none
                serving := some { q with
                  accs := y :: rest, got := q.got ++ [Memory.readWord (Memory.writeBytes s.mem l) b.addr] } } }))
    ∧ (∀ b q off y rest w, s.chip.port.bus = some b → s.chip.port.serving = some q →
        q.accs = .write off (.header 3) :: y :: rest → b.data = some w → s.chip.col ≠ .stopped →
        ((∀ run, s.chip.hist.run = some run → ∀ n, run.phase = .published n → 2 ≤ n) →
            (∀ st, s.chip.start = some st → st.stage ≠ .publish) →
            Machine.exec (.exchangeAccessCompletion l) s = .next (s.accessed l { s.chip with
              port := { s.chip.port with bus := none, serving := some { q with accs := y :: rest } } }))
        ∧ (∀ run n, s.chip.hist.run = some run → run.phase = .published n → n ≤ 1 →
            Machine.exec (.exchangeAccessCompletion l) s = .next (s.accessed l { s.chip with
              hist := { s.chip.hist with published := s.chip.hist.changeSeq }
              regs := { s.chip.regs with notice :=
                if run.lampRise then s.chip.regs.notice ||| 0x04 ||| 0x08 else s.chip.regs.notice ||| 0x04 }
              port := { s.chip.port with bus := none, serving := some { q with accs := y :: rest } } }))
        ∧ ∀ st, s.chip.hist.run = none → s.chip.start = some st → st.stage = .publish →
            Machine.exec (.exchangeAccessCompletion l) s = .next (s.accessed l { s.chip with
              hist := { s.chip.hist with published := s.chip.hist.changeSeq }
              port := { s.chip.port with bus := none, serving := some { q with accs := y :: rest } } }))
    ∧ ∀ o got, s.EndsRequest l o got →
        Machine.exec (.exchangeAccessCompletion l) s =
          .next (s.accessed l (s.chip.portFree.requestDone { owner := o, accs := [], got := got }))

/-- R184, R191: an access that ends with an error. In STOPPED the port goes quiet and MEMFAULT is set; in any other
state the collector halts: MEMFAULT, no access, segments DOWN, sessions ended, no plan left, the intake empty, no timer
of the collector running, the dip monitor inactive; RUN, contexts, slots and pool stay. R63, R64: a unit whose CLEAR
awaited CLEAR-DONE is clear-uncertain then. -/
def Obligations.AccessErrorHalts : Prop :=
  ∀ s : State,
    (s.chip.port.bus = none → Machine.exec .exchangeAccessError s = .next s)
    ∧ ∀ b, s.chip.port.bus = some b → ∃ t, Machine.exec .exchangeAccessError s = .next t ∧ t.pending = s.pending
        ∧ (s.chip.col = .stopped → t.chip.col = .stopped ∧ ((∀ g, (s.chip.seg g).rxWait = []) →
            t.chip.port = .idle ∧ t.chip.regs = { s.chip.regs with notice := s.chip.regs.notice ||| 0x400 }))
        ∧ (s.chip.col ≠ .stopped → t.chip.col = .halted ∧ t.chip.port = .idle
            ∧ t.chip.regs = { s.chip.regs with notice := s.chip.regs.notice ||| 0x400 }
            ∧ t.chip.hist.intake = [] ∧ t.chip.hist.run = none
            ∧ (∀ g, (t.chip.seg g).state = .down ∧ ∀ k, (t.chip.seg g).items k = [])
            ∧ (∀ u, t.chip.unit u = (s.chip.unit u).map fun r => { r with
                session := .fresh, exch := none, queue := [], clearUncertain := r.clearUncertain || r.clearAwaits })
            ∧ t.chip.stopTimer = none ∧ t.chip.start = none ∧ t.chip.load = none
            ∧ t.chip.mon.grace = none ∧ t.chip.mon.parkPending = false ∧ t.chip.mon.dip = .normal
            ∧ t.chip.mon.dipTimer = none ∧ t.chip.mon.settleTimer = none
            ∧ t.chip.scan.timer = none ∧ t.chip.scan.stage = none ∧ t.chip.scan.again = false
            ∧ (∀ j, t.chip.slot j = s.chip.slot j) ∧ t.chip.pool = s.chip.pool
            ∧ (∀ k, t.chip.ctx k = s.chip.ctx k))

/-- R194, R193: a record rewrite asked for writes the version raised by 1, the seven other words, and the version raised
by 1 again; asked for while it runs it waits, and follows from the version then reached. A header rewrite works the same
way, with its 64 words in ascending order. What the words hold (11.2, 11.5): a write carries the word as it is when its
access starts (log 9); every field of the header, of a segment's status record (R83), and of a mirror record, each at
its place with its code; every other bit is 0. -/
def Obligations.RecordRewrites : Prop :=
  ∀ (c : Chip) (u : UnitIx),
    ((c.mirror u).busy = false →
      ((c.askMirror u).mirror u).busy = true
      ∧ ∃ middle, middle.length = 7
          ∧ (∀ (j : Nat) (a : Acc), middle[j]? = some a → a = .write (0x1900 + 32 * u.val + 4 * (j + 1)) (.mirror u j))
          ∧ (c.askMirror u).port.fresh = c.port.fresh ++ [{
              owner := .mirror u, got := []
              accs := .write (0x1900 + 32 * u.val) (.lit ((c.mirror u).version + 1)) :: middle
                ++ [.write (0x1900 + 32 * u.val) (.lit ((c.mirror u).version + 2))] }])
    ∧ ((c.mirror u).busy = true →
        c.askMirror u = c.modMirror u fun m => { m with pending := true })
    ∧ ((c.mirror u).pending = false →
        c.mirrorDone u = c.modMirror u fun m => { version := m.version + 2, busy := false, pending := false })
    ∧ ((c.mirror u).pending = true →
        ((c.mirrorDone u).mirror u) = { version := (c.mirror u).version + 2, busy := true, pending := false }
        ∧ ∃ q, (c.mirrorDone u).port.fresh = c.port.fresh ++ [q] ∧ q.owner = .mirror u
            ∧ q.accs.head? = some (.write (0x1900 + 32 * u.val) (.lit ((c.mirror u).version + 3))))
    ∧ (c.hdr.busy = true → c.askHeader.port = c.port ∧ c.askHeader.hdr.pending = true)
    ∧ (c.hdr.busy = false → c.askHeader.hdr.busy = true ∧ c.askHeader.hdr.pending = c.hdr.pending
        ∧ ∃ q, c.askHeader.port.fresh = c.port.fresh ++ [q] ∧ q.owner = .header ∧ q.accs.length = 64)
    ∧ (∀ j : Nat, headerAccs[j]? = if j < 64 then some (.write (4 * j) (.header j)) else none)
    ∧ (∀ i, c.srcWord (.header i) = headerWord c i) ∧ (∀ i, c.srcWord (.mirror u i) = (mirrorWords (c.unit u)).getD i 0)
    ∧ (headerWord c 0 = 0x0B644173 ∧ (headerWord c 1).extractLsb' 0 8 = (1 : BitVec 8)
      ∧ (∀ x ∈ [(Collector.stopped, 0), (.starting, 1), (.running, 2), (.parked, 3), (.stopping, 4), (.halted, 5)],
          (c.start = none → c.col = x.1 → (headerWord c 1).extractLsb' 8 8 = BitVec.ofNat 8 x.2)
          ∧ ∀ st n, c.start = some st → st.stage = .header x.1 n → (headerWord c 1).extractLsb' 8 8 = BitVec.ofNat 8 x.2)
      ∧ (∀ x ∈ [(ProfileState.absent, 0), (.loaded, 1), (.adjusted, 2), (.defaults, 3)],
          c.profileState = x.1 → (headerWord c 1).extractLsb' 16 8 = BitVec.ofNat 8 x.2)
      ∧ (∀ x ∈ [(StartResult.noResult, 0), (.ok, 1), (.baseBad, 2), (.warmRefused, 3)],
          c.regs.startResult = x.1 → (headerWord c 1).extractLsb' 24 8 = BitVec.ofNat 8 x.2)
      ∧ (headerWord c 2).extractLsb' 0 8 = BitVec.ofNat 8 c.profileFaults
      ∧ ((headerWord c 2).getLsbD 8 = c.mon.clockUnset ∧ (headerWord c 2).getLsbD 9 = c.mon.resumed
        ∧ (headerWord c 2).extractLsb' 10 6 = (0 : BitVec 6))
      ∧ (headerWord c 2).extractLsb' 16 8 = BitVec.ofNat 8 c.rosterFull
      ∧ (headerWord c 2).extractLsb' 24 8 = BitVec.ofNat 8 c.sweepOverruns
      ∧ (c.hist.run = none → c.start = none → headerWord c 3 = BitVec.ofNat 32 c.hist.published)
      ∧ (∀ run, c.hist.run = some run → run.phase = .published 1 → headerWord c 3 = BitVec.ofNat 32 c.hist.changeSeq)
      ∧ headerWord c 4 = BitVec.ofNat 32 c.mon.ct ∧ headerWord c 5 = BitVec.ofNat 32 c.mon.k
      ∧ headerWord c 6 = BitVec.ofNat 16 c.hist.refused ++ BitVec.ofNat 16 c.hist.inUse
      ∧ headerWord c 7 = BitVec.ofNat 16 c.pool.shortage ++ BitVec.ofNat 16 c.pool.free.length
      ∧ headerWord c 8 = BitVec.ofNat 16 c.sweepCount ++ BitVec.ofNat 16 c.mon.dipCount
      ∧ headerWord c 9 = BitVec.ofNat 32 c.lastSweepSeq
      ∧ ∀ i, i = 10 ∨ i = 11 ∨ 28 ≤ i → headerWord c i = 0)
    ∧ (∀ g : Seg,
      (∀ x ∈ [(Mode.off, 0), (.active, 1), (.listen, 2)],
        c.mode g = some x.1 → (headerWord c (12 + 4 * g.val)).extractLsb' 0 8 = BitVec.ofNat 8 x.2)
      ∧ (∀ x ∈ [(SegState.down, 0), (.live, 1), (.held, 2), (.quiet, 3), (.recovering, 4)],
        (c.seg g).state = x.1 → (headerWord c (12 + 4 * g.val)).extractLsb' 8 8 = BitVec.ofNat 8 x.2)
      ∧ (headerWord c (12 + 4 * g.val)).getLsbD 16 = decide (128 ≤ (c.seg g).txErrors ∨ 128 ≤ (c.seg g).rxErrors)
      ∧ (headerWord c (12 + 4 * g.val)).extractLsb' 17 7 = (0 : BitVec 7)
      ∧ (headerWord c (12 + 4 * g.val)).extractLsb' 24 8 = BitVec.ofNat 8 (c.slotsHeld g)
      ∧ headerWord c (13 + 4 * g.val) = BitVec.ofNat 8 0 ++ BitVec.ofNat 8 (c.seg g).busOff
          ++ BitVec.ofNat 8 (c.seg g).rxErrors ++ BitVec.ofNat 8 (c.seg g).txErrors
      ∧ headerWord c (14 + 4 * g.val) = BitVec.ofNat 32 ((c.seg g).strays % 65536)
      ∧ headerWord c (15 + 4 * g.val) = 0)
    ∧ (mirrorWords none).length = 7 ∧ (∀ w ∈ mirrorWords none, w = 0)
    ∧ (∀ r : UnitRec, (mirrorWords (some r)).length = 7
      ∧ (∀ w, (mirrorWords (some r))[0]? = some w →
          w.extractLsb' 0 8 = (if r.origin = .profile then 1 else 2 : BitVec 8)
          ∧ w.extractLsb' 8 8 = BitVec.ofNat 8 r.seg.val ∧ w.extractLsb' 16 8 = r.addr
          ∧ ∀ x ∈ [(Presence.unknown, 0), (.present, 1), (.lost, 2), (.silent, 3)],
            r.presence = x.1 → w.extractLsb' 24 8 = BitVec.ofNat 8 x.2)
      ∧ (∀ w, (mirrorWords (some r))[1]? = some w →
          w.extractLsb' 0 16 = BitVec.ofNat 16 r.typeCode
          ∧ (∀ x ∈ [(SessState.closed, 0), (.opening, 1), (.opened, 2), (.exchanging, 3), (.closing, 4), (.cooling, 5)],
            r.session.state = x.1 → w.extractLsb' 16 8 = BitVec.ofNat 8 x.2)
          ∧ w.extractLsb' 24 8 = BitVec.ofNat 8 r.losses)
      ∧ (mirrorWords (some r))[2]? = some (BitVec.ofNat 8 r.strays ++ BitVec.ofNat 8 r.refused
          ++ BitVec.ofNat 8 r.malformed ++ BitVec.ofNat 8 r.drops)
      ∧ (mirrorWords (some r))[3]? = some (BitVec.ofNat 16 (r.hours.getD 0xFFFF) ++ BitVec.ofNat 16 (r.lastN.getD 0xFFFF))
      ∧ (mirrorWords (some r))[4]? = some (BitVec.ofNat 16 r.desc.replyTimeout ++ BitVec.ofNat 16 r.desc.openTimeout)
      ∧ (mirrorWords (some r))[5]? = some (BitVec.ofNat 8 r.desc.retries ++ BitVec.ofNat 8 r.desc.restTime
          ++ BitVec.ofNat 16 r.desc.clearRecovery)
      ∧ ∀ w, (mirrorWords (some r))[6]? = some w →
          w.extractLsb' 0 8 = BitVec.ofNat 8 r.desc.group ∧ w.getLsbD 8 = r.desc.clearPermitted
          ∧ w.getLsbD 9 = r.desc.noSnapshot ∧ w.getLsbD 10 = r.desc.sweepExclude ∧ w.getLsbD 11 = r.clearUncertain
          ∧ w.extractLsb' 12 20 = (0 : BitVec 20))

/-- R87: the steps that the check of a card accepts, in their order: every condition names a flag 0 to 7, every TEST a
flag F4 to F7, every DRAW a group of 0, 4 or 8; a DRAW or SNAP has a LIST before it; behind a lead stands a step that is
unconditional and no lead; the last step is no lead. And the error of a card whose steps do not pass: the first step in
ascending order that fails a test decides, with its number, and of its tests the first in the order of the table: a code
that names nothing BAD-KIND, then FLAG-RANGE, BAD-GROUP, STEP-ORDER, PAIR-NEST, PAIR-END. -/
def Obligations.CardStepsAreSound : Prop :=
  (∀ (ws : List (Word × Word)) (steps : List Step), checkSteps [] ws = .ok steps →
    steps.length = ws.length
    ∧ ∀ (i : Nat) (s : Step), steps[i]? = some s →
        (∃ w, ws[i]? = some w ∧ stepOf w.1 w.2 = some s)
        ∧ (∀ f, s.cond = .ifSet f ∨ s.cond = .ifClear f → f ≤ 7)
        ∧ (∀ f q r n, s.kind = .test f q r n → 4 ≤ f ∧ f ≤ 7)
        ∧ (∀ g, s.kind = .draw g → g = 0 ∨ g = 4 ∨ g = 8)
        ∧ ((∃ g, s.kind = .draw g) ∨ s.kind = .snap → ∃ (j : Nat) (l : Step), j < i ∧ steps[j]? = some l ∧ l.kind = .list)
        ∧ (s.pairing ≠ .alone → ∃ n : Step, steps[i + 1]? = some n ∧ n.cond = .always ∧ n.pairing = .alone))
  ∧ (∀ (ws : List (Word × Word)) (code : ErrorCode) (n : Nat), checkSteps [] ws = .error (code, n) ↔
      ∃ before w rest good, ws = before ++ w :: rest ∧ n = before.length + 1
        ∧ before.map (fun x => stepOf x.1 x.2) = good.map some
        ∧ (∀ (i : Nat) (x : Step), good[i]? = some x → checkStep (good.take i) false x = none)
        ∧ (stepOf w.1 w.2 = none ∧ code = .badKind
          ∨ ∃ x, stepOf w.1 w.2 = some x ∧ checkStep good rest.isEmpty x = some code))
  ∧ (∀ (before : List Step) (last : Bool) (x : Step) (flags group order nest : Prop),
      (flags ↔ (∀ f, x.cond = .ifSet f ∨ x.cond = .ifClear f → f ≤ 7) ∧ ∀ f q r n, x.kind = .test f q r n → 4 ≤ f ∧ f ≤ 7) →
      (group ↔ ∀ m, x.kind = .draw m → m = 0 ∨ m = 4 ∨ m = 8) →
      (order ↔ ((∃ m, x.kind = .draw m) ∨ x.kind = .snap → ∃ y ∈ before, y.kind = .list)) →
      (nest ↔ ∀ y, before.getLast? = some y → y.pairing ≠ .alone → x.cond = .always ∧ x.pairing = .alone) →
      (¬ flags → checkStep before last x = some .flagRange)
      ∧ (flags → ¬ group → checkStep before last x = some .badGroup)
      ∧ (flags → group → ¬ order → checkStep before last x = some .stepOrder)
      ∧ (flags → group → order → ¬ nest → checkStep before last x = some .pairNest)
      ∧ (flags → group → order → nest → last = true → x.pairing ≠ .alone → checkStep before last x = some .pairEnd)
      ∧ (flags → group → order → nest → (last = true → x.pairing = .alone) → checkStep before last x = none))
  ∧ (∀ w p : Word, stepOf w p = none ↔
      (byteOf w 0 = 0 ∨ 7 < byteOf w 0) ∨ byteOf w 0 = 7 ∧ (4 < byteOf p 1 % 16 ∨ 3 < byteOf p 1 / 16)
        ∨ byteOf w 1 / 64 = 3 ∨ 2 < byteOf w 2)

/-- R195, R196: the card scan goes from card to card, and is made once more where the scan-again mark is set. R196: what
the owner word of a card does: a POSTED card that is not held has its kind read while the scan is taking; WITHDRAWN
withdraws a held card and has one that is not held written FAILED. R86: what the kind of a POSTED card does: it stays
POSTED, or its fields are read. R87, R88: a valid card has TAKEN written, another its FAILED result, after which
ORDER-DONE is set; the tests of each kind. R105: what a withdrawal does to an order and to its plan on one unit; that a
QUEUED plan so ended asks for no close is the model's choice (log 15). That a scan ends outside RUNNING and PARKED is
the model's choice (log 21), and so is that a FREE context is looked for before the kind (log 61), and is one that no
take has claimed (log 41). -/
def Obligations.CardsAreScanned : Prop :=
  (∀ (c : Chip) (card : Fin 16),
      (c.col ≠ .running → c.col ≠ .parked →
        c.scanNext card = { c with scan := { c.scan with stage := none, again := false } })
      ∧ (c.col = .running ∨ c.col = .parked →
          (∀ next : Fin 16, next.val = card.val + 1 → c.scanNext card = { c with
            scan := { c.scan with stage := some (.owner next) }
            port := { c.port with fresh := c.port.fresh ++ [{
              owner := .scan, accs := [.read (0x100 + 256 * next.val)], got := [] }] } })
          ∧ (card = 15 → c.scan.again = false → c.scanNext card = { c with scan := { c.scan with stage := none } })
          ∧ (card = 15 → c.scan.again = true → c.scanNext card = { c with
              scan := { c.scan with
                stage := some (.owner 0), again := false
                taking := decide (∀ k, (c.ctx k).state = .free ∨ (c.ctx k).content ≠ .reload) }
              port := { c.port with fresh := c.port.fresh ++ [{
                owner := .scan, accs := [.read 0x100], got := [] }] } })))
  ∧ (∀ (s : State) (l : List (Word × Byte)) (got : List Word) (card : Fin 16) (c : Chip) (w : Word),
      s.EndsRequest l .scan got → c = s.chip.portFree → w = wordAt got 0 →
      (s.chip.scan.stage = some (.owner card) →
        (w = 1 → (∀ k, (c.ctx k).state = .free ∨ (c.ctx k).source ≠ .card card) → c.scan.taking = true →
          Machine.exec (.exchangeAccessCompletion l) s = .next (s.accessed l { c with
            scan := { c.scan with stage := some (.kind card) }
            port := { c.port with fresh := c.port.fresh ++ [{
              owner := .scan, accs := [.read (0x100 + 256 * card.val + 4)], got := [] }] } }))
        ∧ (w = 5 → (∀ k, (c.ctx k).state = .free ∨ (c.ctx k).source ≠ .card card) →
          Machine.exec (.exchangeAccessCompletion l) s = .next (s.accessed l { c with
            scan := { c.scan with stage := some (.failing card) }
            port := { c.port with fresh := c.port.fresh ++ [{
              owner := .scan, accs := resultAccs card .cleared .withdrawn 0 4, got := [] }] } }))
        ∧ (∀ k, w = 5 → c.holderOf card = some k →
          Machine.exec (.exchangeAccessCompletion l) s = .next (s.accessed l ((c.withdrawHeld k).scanNext card)))
        ∧ (w ≠ 5 → w ≠ 1 ∨ c.scan.taking = false ∨ (∃ k, c.holderOf card = some k) →
          Machine.exec (.exchangeAccessCompletion l) s = .next (s.accessed l (c.scanNext card))))
      ∧ (s.chip.scan.stage = some (.kind card) →
          (c.reloadTaken = true →
            Machine.exec (.exchangeAccessCompletion l) s = .next (s.accessed l (c.scanNext card)))
          ∧ (c.reloadTaken = false → c.freeCtx = none →
            Machine.exec (.exchangeAccessCompletion l) s =
              .next (s.accessed l ({ c with scan := { c.scan with taking := false } }.scanNext card)))
          ∧ ∀ k, c.reloadTaken = false → c.freeCtx = some k →
            (byteOf w 0 = 1 ∧ c.col = .parked ∨ byteOf w 0 = 2 ∧ c.col = .parked
                ∨ byteOf w 0 = 2 ∧ (∃ g : Seg, g.val = byteOf w 3 ∧ (c.seg g).census ≠ none) →
              Machine.exec (.exchangeAccessCompletion l) s = .next (s.accessed l (c.scanNext card)))
            ∧ (byteOf w 0 = 4 → (∃ k', (c.ctx k').state ≠ .free) →
              Machine.exec (.exchangeAccessCompletion l) s =
                .next (s.accessed l ({ c with scan := { c.scan with taking := false } }.scanNext card)))
            ∧ (∀ offs, byteOf w 0 = 1 ∧ c.col ≠ .parked ∧ (byteOf w 2 ≤ 12 ∧ offs = [0x08, 0x0C]
                    ++ (List.range (2 * byteOf w 2)).map (fun i => 0x20 + 4 * i)
                  ∨ 12 < byteOf w 2 ∧ offs = [0x08, 0x0C])
                ∨ byteOf w 0 = 3 ∧ offs = [0x10, 0x14] ∨ byteOf w 0 = 5 ∧ offs = [0x18] →
              Machine.exec (.exchangeAccessCompletion l) s = .next (s.accessed l { c with
                scan := { c.scan with stage := some (.fields card k w) }
                port := { c.port with fresh := c.port.fresh ++ [{
                  owner := .scan, got := [], accs := offs.map fun o => .read (0x100 + 256 * card.val + o) }] } }))
            ∧ (∀ content, byteOf w 0 = 4 ∧ (∀ k', (c.ctx k').state = .free) ∧ content = .reload
                ∨ byteOf w 0 = 2 ∧ c.col ≠ .parked ∧ (∃ g : Seg, g.val = byteOf w 3 ∧ (c.seg g).census = none
                    ∧ c.mode g = some .active ∧ content = .census g) →
              Machine.exec (.exchangeAccessCompletion l) s = .next (s.accessed l { c with
                scan := { c.scan with stage := some (.taking card k content) }
                port := { c.port with fresh := c.port.fresh ++ [{
                  owner := .scan, accs := [.write (0x100 + 256 * card.val) (.lit 2)], got := [] }] } }))
            ∧ (∀ code, (byteOf w 0 = 0 ∨ 5 < byteOf w 0) ∧ code = .badKind
                ∨ byteOf w 0 = 2 ∧ c.col ≠ .parked ∧ (4 ≤ byteOf w 3 ∨ ∃ g : Seg, g.val = byteOf w 3
                    ∧ (c.seg g).census = none ∧ c.mode g ≠ some .active) ∧ code = .segmentMode →
              Machine.exec (.exchangeAccessCompletion l) s = .next (s.accessed l { c with
                scan := { c.scan with stage := some (.failing card) }
                port := { c.port with fresh := c.port.fresh ++ [{
                  owner := .scan, accs := resultAccs card .cleared code 0 4, got := [] }] } })))
      ∧ (∀ k kindWord, s.chip.scan.stage = some (.fields card k kindWord) →
          (∀ content, c.checkCard kindWord got = .ok content →
              c.col ≠ .parked ∨ content.kind ≠ .harvest ∧ content.kind ≠ .census →
            Machine.exec (.exchangeAccessCompletion l) s = .next (s.accessed l { c with
              scan := { c.scan with stage := some (.taking card k content) }
              port := { c.port with fresh := c.port.fresh ++ [{
                owner := .scan, accs := [.write (0x100 + 256 * card.val) (.lit 2)], got := [] }] } }))
          ∧ (∀ code step, c.checkCard kindWord got = .error (code, step) →
            Machine.exec (.exchangeAccessCompletion l) s = .next (s.accessed l { c with
              scan := { c.scan with stage := some (.failing card) }
              port := { c.port with fresh := c.port.fresh ++ [{
                owner := .scan, accs := resultAccs card .cleared code step 4, got := [] }] } })))
      ∧ (s.chip.scan.stage = some (.failing card) → s.chip.col ≠ .stopped →
          Machine.exec (.exchangeAccessCompletion l) s = .next (s.accessed l
            ({ c with regs := { c.regs with notice := c.regs.notice ||| 0x01 } }.scanNext card))))
  ∧ (∀ (c : Chip) (w : Word) (ws : List Word),
      (byteOf w 0 = 1 →
        ((∀ u r, c.unit u = some r → (maskOf (wordAt ws 0) (wordAt ws 1)).getLsbD u.val = false) →
          c.checkCard w ws = .error (.emptyTarget, 0))
        ∧ ((∃ u r, c.unit u = some r ∧ (maskOf (wordAt ws 0) (wordAt ws 1)).getLsbD u.val = true) →
            (byteOf w 2 = 0 ∨ 12 < byteOf w 2 → c.checkCard w ws = .error (.stepCount, 0))
            ∧ (1 ≤ byteOf w 2 → byteOf w 2 ≤ 12 →
              (∀ e, checkSteps [] (pairs (ws.drop 2)) = .error e → c.checkCard w ws = .error e)
              ∧ ∀ steps, checkSteps [] (pairs (ws.drop 2)) = .ok steps →
                c.checkCard w ws = .ok (.harvest (maskOf (wordAt ws 0) (wordAt ws 1))
                  (decide (byteOf w 1 % 2 = 1)) (decide (byteOf w 1 / 2 % 2 = 1)) steps))))
      ∧ (byteOf w 0 = 3 → c.checkCard w ws = .ok (.setClock (wordAt ws 0).toNat ((wordAt ws 1).toNat % 16777216)))
      ∧ (byteOf w 0 = 5 →
          (byteOf (wordAt ws 0) 0 = 1 → c.checkCard w ws = .ok (.purge none))
          ∧ (∀ (g : Seg) (a : Byte), byteOf (wordAt ws 0) 0 = 0 → byteOf (wordAt ws 0) 1 = g.val →
              byteOf (wordAt ws 0) 2 = a.toNat → 1 ≤ a.toNat → a.toNat ≤ 0xEE →
              c.checkCard w ws = .ok (.purge (some (g, a))))
          ∧ (1 < byteOf (wordAt ws 0) 0 ∨ byteOf (wordAt ws 0) 0 = 0 ∧ (4 ≤ byteOf (wordAt ws 0) 1
                ∨ byteOf (wordAt ws 0) 2 = 0 ∨ 0xEE < byteOf (wordAt ws 0) 2) →
              c.checkCard w ws = .error (.badUnit, 0))))
  ∧ (∀ (c : Chip) (k : CtxIx),
      ((c.ctx k).state ≠ .running → c.withdrawHeld k = c)
      ∧ ((c.ctx k).state = .running →
          (∀ mask keep refresh steps, (c.ctx k).content = .harvest mask keep refresh steps →
            ((c.ctx k).withdrawn = true → c.withdrawHeld k = c)
            ∧ ((c.ctx k).withdrawn = false → c.withdrawHeld k =
              (allUnits.foldl (fun (x : Chip) u => x.withdrawPlan k u) { c with ctxs := c.ctxs.set k { c.ctx k with
                withdrawn := true, endCode := .withdrawn } }).endIfDone k))
          ∧ (∀ g n card, (c.ctx k).content = .census g → (c.seg g).census = some n → n.ctx = k →
            (c.ctx k).source = .card card → ∀ x, x = { c.ctx k with
                doneMask := maskOfUnits ((c.unitsOf g).filter fun u =>
                  (c.unit u).any fun r => n.answered.contains r.addr)
                created := n.created, endCode := .withdrawn } →
              c.withdrawHeld k = { c.modSeg g fun r => { r with
                  census := none, op := r.op.filter fun i => decide (i.stamp ≠ n.rollStamp) } with
                ctxs := c.ctxs.set k { x with state := .writing }
                port := { c.port with fresh := c.port.fresh ++ [{
                  owner := .result k, accs := resultAccs card x .withdrawn 0 3, got := [] }] } })
          ∧ (∀ card, (c.ctx k).content = .reload → (c.ctx k).source = .card card →
              c.port.waiting = [] → c.port.fresh = [] →
              c.withdrawHeld k = { c with
                load := none
                ctxs := c.ctxs.set k { c.ctx k with state := .writing, endCode := .withdrawn }
                port := { c.port with
                  serving := c.port.serving.map fun q =>
                    if q.owner = .loader then { owner := .orphan, accs := q.accs.take 1, got := [] } else q
                  fresh := [{ owner := .result k, accs := resultAccs card (c.ctx k) .withdrawn 0 3, got := [] }] } })
          ∧ ((∃ ct n, (c.ctx k).content = .setClock ct n) ∨ (∃ sc, (c.ctx k).content = .purge sc) →
              c.withdrawHeld k = c)))
  ∧ (∀ (c : Chip) (k : CtxIx) (u : UnitIx) (r : UnitRec), c.unit u = some r →
      ((∀ p ∈ r.queue, p.ctx ≠ k) → c.withdrawPlan k u = c)
      ∧ (∀ before p after, r.queue = before ++ p :: after → p.ctx = k → p.running = false →
          (∀ q ∈ before ++ after, q.ctx ≠ k) → c.withdrawPlan k u = { c.setUnit u (some { r with
            queue := before ++ after }) with
            ctxs := c.ctxs.set k { c.ctx k with
              outcomes := (c.ctx k).outcomes.set u 0xD0
              skippedMask := (c.ctx k).skippedMask ||| BitVec.ofNat 64 (2 ^ u.val)
              outstanding := (c.ctx k).outstanding - 1 } })
      ∧ ∀ p rest, r.queue = p :: rest → p.ctx = k → p.running = true → (∀ q ∈ rest, q.ctx ≠ k) →
          (p.ended ≠ none → c.withdrawPlan k u = c)
          ∧ (p.ended = none → (∃ w, p.work = some w ∧ ∀ full t, w ≠ .hold full t) → c.withdrawPlan k u = c)
          ∧ (p.ended = none → p.work = none → c.itemsLeft p.serial = false →
              c.withdrawPlan k u = (c.setUnit u (some { r with
                queue := { p with ended := some (.cutWithdrawn, p.cursor), heldEnd := none } :: rest
                session := { r.session with posted := none } })).handOver (.planEnd p.serial r.seg r.addr false) none)
          ∧ (∀ full t v, p.ended = none → p.work = some (.hold full t) → c.itemsLeft p.serial = false →
              (c.ctx k).withdrawn = true →
              v = (if (c.ctx k).steps.length ≤ p.cursor then .complete else .cutWithdrawn) →
              (∀ st, (c.ctx k).steps[p.cursor - 1]? = some st → st.pairing = .alone) →
              c.withdrawPlan k u = (c.setUnit u (some { r with
                queue := { p with ended := some (v, p.cursor), work := none, heldEnd := none } :: rest
                session := { r.session with posted := none } })).handOver
                  (.planEnd p.serial r.seg r.addr (p.completeHarvest v)) none))

/-- R85, R86: as TAKEN has landed on a card its order is RUNNING in the claimed context and its work starts. R170:
SET-CLOCK sets clock and count, clears the marks, and waits for the header rewrite that shows them. R145: PURGE goes to
the History Table. R9, R196: RELOAD-PROFILE reads the profile, its header first (log 26), and its pass takes no further
card (log 49). R18: CENSUS posts one ROLL. R89: HARVEST records the empty indices it names and gives each occupied one a
plan, in ascending order, begun where the queue was empty. Outside RUNNING a CENSUS, a HARVEST or in STOPPING a reload
is cut (log 21). R104, R108: the end of a plan's last part asks for the close of a session that no keep-open keeps, or
of a plan that was cut or withdrawn, but not after LOST or DROPPED; records the outcome as done, failed or skipped; ends
the order with the last plan's; and begins the unit's next plan (`Chip.beginPlan`: PlansGoStepByStep). That it comes as
the plan-end item is finished is the model's choice (log 13). The order of a result's writes; its last write sets
ORDER-DONE and frees the context. -/
def Obligations.OrdersStartAndEnd : Prop :=
  (∀ (s : State) (l : List (Word × Byte)) (got : List Word) (card : Fin 16) (k : CtxIx) (content : Content) (c : Chip)
      (x : Ctx), s.EndsRequest l .scan got → s.chip.scan.stage = some (.taking card k content) →
      x = { Ctx.cleared with state := .running, source := .card card, content := content } →
      c = { s.chip.portFree with
        ctxs := s.chip.ctxs.set k x, scan := { s.chip.scan with stage := some (.owner card) } } →
      (∀ ct n, content = .setClock ct n →
        Machine.exec (.exchangeAccessCompletion l) s = .next (s.accessed l (Chip.scanNext { c with
          mon := { c.mon with ct := ct, k := n, phase := 0, clockUnset := false, resumed := false }
          ctxs := c.ctxs.set k { x with clockWait := if s.chip.hdr.busy then 2 else 1 }
          hdr := { c.hdr with wanted := true } } card)))
      ∧ (∀ scope, content = .purge scope →
        Machine.exec (.exchangeAccessCompletion l) s =
          .next (s.accessed l ((c.handOver (.purge k scope) none).scanNext card)))
      ∧ (content = .reload → s.chip.col = .running ∨ s.chip.col = .parked →
        Machine.exec (.exchangeAccessCompletion l) s = .next (s.accessed l (Chip.scanNext { c with
          load := some { words := [], ctx := some k }
          scan := { c.scan with taking := false }
          port := { c.port with fresh := c.port.fresh ++ [{
            owner := .loader, accs := (List.range 24).map fun i => .read (0x1100 + 4 * i)
            got := [] }] } } card)))
      ∧ (∀ g, content = .census g → s.chip.col = .running →
        Machine.exec (.exchangeAccessCompletion l) s = .next (s.accessed l (((c.modSeg g fun (r : SegRec) => { r with
          census := some { ctx := k, answered := [], created := 0, rollStamp := r.nextStamp, window := none } }).post g
            0xFF .roll false).scanNext card)))
      ∧ (∀ mask keep refresh steps, content = .harvest mask keep refresh steps → s.chip.col = .running →
        Machine.exec (.exchangeAccessCompletion l) s = .next (s.accessed l ((c.startHarvest k mask).scanNext card)))
      ∧ ((∃ g, content = .census g) ∧ s.chip.col ≠ .running
          ∨ content = .reload ∧ s.chip.col ≠ .running ∧ s.chip.col ≠ .parked →
        ∃ d : Chip, Machine.exec (.exchangeAccessCompletion l) s = .next (s.accessed l (d.scanNext card))
          ∧ d.ctx k = { x with state := .writing, endCode := .cut }
          ∧ d.port.fresh = c.port.fresh ++ [{
              owner := .result k, accs := resultAccs card x .cut 0 3, got := [] }])
      ∧ (∀ mask keep refresh steps, content = .harvest mask keep refresh steps → s.chip.col ≠ .running →
        ∃ (d : Chip) (y : Ctx), Machine.exec (.exchangeAccessCompletion l) s = .next (s.accessed l (d.scanNext card))
          ∧ d.ctx k = { y with state := .writing } ∧ y.endCode = .cut ∧ y.doneMask = 0 ∧ y.failedMask = 0
          ∧ (∀ u : UnitIx, y.skippedMask.getLsbD u.val = mask.getLsbD u.val)
          ∧ (∀ u : UnitIx, y.outcomes[u] = if mask.getLsbD u.val = true then
              (if s.chip.unit u = none then 0xC0 else if s.chip.col = .parked then 0xE0 else 0xF0) else 0)
          ∧ d.port.fresh = c.port.fresh ++ [{
              owner := .result k, accs := resultAccs card y .cut 0 3, got := [] }]))
  ∧ (∀ (c : Chip) (k : CtxIx) (mask : BitVec 64) (targets : List UnitIx),
      targets = allUnits.filter (fun u => mask.getLsbD u.val && (c.unit u).isSome) → targets ≠ [] →
      (c.ctx k).state = .running → (c.ctx k).content.kind = .harvest → (c.ctx k).skippedMask = 0 →
      (∀ u r p, c.unit u = some r → r.queue.head? = some p → p.running = true) →
      ((c.startHarvest k mask).ctx k).outstanding = targets.length
      ∧ ((c.startHarvest k mask).ctx k).state = .running
      ∧ ((c.startHarvest k mask).ctx k).content = (c.ctx k).content
      ∧ (∀ u : UnitIx, ((c.startHarvest k mask).ctx k).skippedMask.getLsbD u.val =
          (mask.getLsbD u.val && (c.unit u).isNone))
      ∧ (∀ u : UnitIx, ((c.startHarvest k mask).ctx k).outcomes[u] =
          if mask.getLsbD u.val = true ∧ c.unit u = none then 0xC0 else (c.ctx k).outcomes[u])
      ∧ (∀ u, u ∉ targets → (c.startHarvest k mask).unit u = c.unit u)
      ∧ ∀ (j : Nat) (u : UnitIx) (r : UnitRec), targets[j]? = some u → c.unit u = some r →
          ∃ r' p, (c.startHarvest k mask).unit u = some r' ∧ r'.queue = r.queue ++ [p] ∧ p.serial = c.nextSerial + j
            ∧ p.ctx = k
            ∧ (r.queue = [] → p.running = true)
            ∧ (r.queue ≠ [] → r' = { r with queue := r.queue ++ [p] } ∧ p.running = false ∧ p.cursor = 1 ∧ p.flags = 0
                ∧ p.drops = 0 ∧ p.listed = none ∧ p.pair = .unpaired ∧ p.work = none ∧ p.highU = 0 ∧ p.covered = []
                ∧ p.spoiled = false ∧ p.ended = none))
  ∧ (∀ (c : Chip) (u : UnitIx) (r : UnitRec) (p : Plan) (v : Verdict) (step : Nat) (card : Fin 16) (x : Ctx),
      c.unit u = some r → r.queue = [p] → p.ended = some (v, step) → (c.ctx p.ctx).state = .running →
      (c.ctx p.ctx).content.kind = .harvest → (c.ctx p.ctx).source = .card card →
      v = .lost ∨ v = .dropped
        ∨ ((v = .complete ∨ ∃ why, v = .refused why) ∧ (c.ctx p.ctx).keepOpen = true ∧ (c.ctx p.ctx).withdrawn = false) →
      x = { c.ctx p.ctx with
        outcomes := (c.ctx p.ctx).outcomes.set u (outcomeByte v step)
        doneMask := if v = .complete then (c.ctx p.ctx).doneMask ||| BitVec.ofNat 64 (2 ^ u.val) else (c.ctx p.ctx).doneMask
        failedMask := if v = .complete then (c.ctx p.ctx).failedMask
          else (c.ctx p.ctx).failedMask ||| BitVec.ofNat 64 (2 ^ u.val)
        outstanding := (c.ctx p.ctx).outstanding - 1 } →
      (2 ≤ (c.ctx p.ctx).outstanding → c.planFinish u = { c.setUnit u (some { r with queue := [] }) with
        ctxs := c.ctxs.set p.ctx x })
      ∧ ((c.ctx p.ctx).outstanding = 1 → c.planFinish u = { c.setUnit u (some { r with queue := [] }) with
        ctxs := c.ctxs.set p.ctx { x with state := .writing }
        port := { c.port with fresh := c.port.fresh ++ [{
          owner := .result p.ctx, accs := resultAccs card x x.endCode 0 3, got := [] }] } }))
  ∧ (∀ (c d e : Chip) (u : UnitIx) (r w : UnitRec) (p : Plan) (qs : List Plan) (v : Verdict) (step : Nat) (x : Ctx)
      (bit done failed skipped : BitVec 64), c.unit u = some r → r.queue = p :: qs → p.ended = some (v, step) →
      (d = c ∧ (v = .lost ∨ v = .dropped ∨ (c.ctx p.ctx).keepOpen = true ∧ (c.ctx p.ctx).withdrawn = false
            ∧ v ≠ .cutWithdrawn ∧ v ≠ .cutGrace ∧ v ≠ .cutStop)
        ∨ d = c.askClose u ∧ v ≠ .lost ∧ v ≠ .dropped ∧ ((c.ctx p.ctx).keepOpen = false ∨ (c.ctx p.ctx).withdrawn = true
            ∨ v = .cutWithdrawn ∨ v = .cutGrace ∨ v = .cutStop)) →
      bit = BitVec.ofNat 64 (2 ^ u.val) →
      (v = .complete ∧ done = (c.ctx p.ctx).doneMask ||| bit ∧ failed = (c.ctx p.ctx).failedMask
          ∧ skipped = (c.ctx p.ctx).skippedMask
        ∨ (v = .lost ∨ v = .dropped ∨ ∃ why, v = .refused why) ∧ done = (c.ctx p.ctx).doneMask
          ∧ failed = (c.ctx p.ctx).failedMask ||| bit ∧ skipped = (c.ctx p.ctx).skippedMask
        ∨ (v = .skippedOff ∨ v = .skippedListen ∨ v = .skippedSilent ∨ v = .skippedNoUnit ∨ v = .cutWithdrawn
            ∨ v = .cutGrace ∨ v = .cutStop) ∧ done = (c.ctx p.ctx).doneMask ∧ failed = (c.ctx p.ctx).failedMask
          ∧ skipped = (c.ctx p.ctx).skippedMask ||| bit) →
      d.unit u = some w →
      x = { c.ctx p.ctx with
        outcomes := (c.ctx p.ctx).outcomes.set u (outcomeByte v step)
        doneMask := done, failedMask := failed, skippedMask := skipped
        outstanding := (c.ctx p.ctx).outstanding - 1 } →
      e = { d.setUnit u (some { w with queue := qs }) with ctxs := c.ctxs.set p.ctx x } →
      ((c.ctx p.ctx).state ≠ .running ∨ (c.ctx p.ctx).content.kind ≠ .harvest ∨ 2 ≤ (c.ctx p.ctx).outstanding →
        c.planFinish u = e.beginPlan u)
      ∧ ((c.ctx p.ctx).state = .running → (c.ctx p.ctx).content.kind = .harvest → (c.ctx p.ctx).outstanding ≤ 1 →
        c.planFinish u = (e.orderEnd p.ctx).beginPlan u))
  ∧ (∀ (c : Chip) (u : UnitIx) (r : UnitRec), c.unit u = some r → r.queue = [] → c.beginPlan u = c)
  ∧ (∀ (card : Fin 16) (x : Ctx) (code : ErrorCode) (step owner : Nat),
      (resultAccs card x code step owner).length = 27
      ∧ (∀ (i : Nat) (a : Acc), (resultAccs card x code step owner)[i]? = some a →
          (i < 6 → ∃ w, a = .write (0x100 + 256 * card.val + 0x90 + 4 * i) (.lit w)
            ∧ w = (if i < 2 then x.doneMask else if i < 4 then x.failedMask else x.skippedMask).extractLsb' (32 * (i % 2)) 32)
          ∧ (6 ≤ i → i < 22 → ∃ w, a = .write (0x100 + 256 * card.val + 0xC0 + 4 * (i - 6)) (.lit w)
            ∧ ∀ j : Nat, j < 4 → ∀ h : 4 * (i - 6) + j < 64, w.extractLsb' (8 * j) 8 = x.outcomes[4 * (i - 6) + j])
          ∧ (i = 22 → a = .write (0x100 + 256 * card.val + 0x84) (.lit (pack2 x.created x.changed)))
          ∧ (i = 23 → a = .write (0x100 + 256 * card.val + 0x88) (.lit (pack2 x.freed 0)))
          ∧ (i = 24 → a = .write (0x100 + 256 * card.val + 0x80) (.lit (pack4 code.code step 0 0)))
          ∧ (i = 25 → a = .write (0x100 + 256 * card.val + 0x8C) .published)
          ∧ (i = 26 → a = .write (0x100 + 256 * card.val) (.lit (BitVec.ofNat 32 owner)))))
  ∧ (∀ (s : State) (l : List (Word × Byte)) (got : List Word) (k : CtxIx),
      (s.EndsRequest l (.result k) got → s.chip.col ≠ .stopped →
        Machine.exec (.exchangeAccessCompletion l) s = .next (s.accessed l { s.chip.portFree with
          regs := { s.chip.regs with notice := s.chip.regs.notice ||| 0x01 }
          ctxs := s.chip.ctxs.set k .cleared }))
      ∧ (∀ card, s.EndsRequest l .header got → s.chip.hist.run = none → s.chip.start = none →
          (∀ k', k' ≠ k → (s.chip.ctx k').clockWait = 0) → (s.chip.ctx k).source = .card card →
          ((s.chip.ctx k).clockWait = 2 →
            Machine.exec (.exchangeAccessCompletion l) s = .next (s.accessed l { s.chip.portFree with
              hdr := { busy := false, pending := false, wanted := s.chip.hdr.wanted || s.chip.hdr.pending }
              ctxs := s.chip.ctxs.set k { s.chip.ctx k with clockWait := 1 } }))
          ∧ ((s.chip.ctx k).clockWait = 1 →
            Machine.exec (.exchangeAccessCompletion l) s = .next (s.accessed l { s.chip.portFree with
              hdr := { busy := false, pending := false, wanted := s.chip.hdr.wanted || s.chip.hdr.pending }
              ctxs := s.chip.ctxs.set k { s.chip.ctx k with clockWait := 0, state := .writing }
              port := { s.chip.portFree.port with fresh := s.chip.port.fresh ++ [{
                owner := .result k, accs := resultAccs card (s.chip.ctx k) (s.chip.ctx k).endCode 0 3, got := [] }] } }))))

/-- R9 to R13: what a profile load works out. An invalid profile gives the default settings and an empty descriptor
list; a valid one gives every setting clamped to its range or its default, the admitted descriptors (64 at most, 24 at
most of a segment, no pair of segment and address twice, every value in its range), the fault count and the profile
state. The fault count is 1 for each setting that is not as written, each descriptor not admitted, each value of an
admitted one that is not as written, and a descriptor count above 64, 255 at most. A descriptor is admitted where its
segment is 0 to 3, its address 01H to EEH, the pair not admitted before, and fewer than 24 of its segment are. R14: the
apply point in STARTING builds the roster from the descriptors, in their order, and sets the PROFILE cause; a segment
that is not ACTIVE then has error counts 0 (R70), also where a failure in DOWN was counted (the model's choice, log 18).
R9, R16: the end of a reload's reading applies it and writes its card. That the 24 words of the header are read first,
and the rest only where signature, version and length are in order, is the model's choice (log 26). -/
def Obligations.ProfileIsLoaded : Prop :=
  (∀ p : List Word,
      (profValid p = true ↔ profHalf p 0 = 0xC35A ∧ profHalf p 1 = 1 ∧ 48 ≤ profHalf p 2 ∧ profHalf p 2 ≤ 1024
        ∧ profField p 0x0C % 2 = 0 ∧ 96 ≤ profField p 0x0C
        ∧ profField p 0x0C + 16 * profByte p 0x0B ≤ 2 * profHalf p 2 ∧ profSum p (profHalf p 2) = 0xA55A)
      ∧ (profValid p = false →
          loadProfile p = { settings := .default, descs := [], faults := 0, state := .defaults })
      ∧ (profValid p = true →
          (loadProfile p).faults ≤ 255
          ∧ (loadProfile p).state = (if (loadProfile p).faults = 0 then .loaded else .adjusted)
          ∧ (loadProfile p).settings.collector.toNat = max 0xF0 (min 0xFE (profByte p 0x08))
          ∧ (loadProfile p).settings.grace = min 60 (profByte p 0x0A)
          ∧ (loadProfile p).settings.supply = (if profByte p 0x09 = 1 then .v24 else .v12)
          ∧ (loadProfile p).settings.sweep = {
              enable := decide (profByte p 0x0E % 2 = 1)
              count := max 1 (min 255 (profByte p 0x0F))
              scale := if profByte p 0x10 = 0 then 1 else if profByte p 0x10 = 1 then 4
                else if profByte p 0x10 = 3 then 64 else 16
              repeats := decide (profByte p 0x11 ≠ 0), continues := decide (profByte p 0x12 = 1) }
          ∧ (∀ (g : Seg) (at_ : Nat), at_ = 0x20 + 16 * g.val → (loadProfile p).settings.segs[g] = {
              mode := if profByte p at_ = 0 then .off else if profByte p at_ = 2 then .listen else .active
              bitRate := if profByte p (at_ + 1) = 1 then .k500 else .k250
              keepInterval := max 200 (min 5000 (profField p (at_ + 2)))
              openWindow := max 10 (min 1000 (profField p (at_ + 4)))
              waitExtension := max 500 (min 5000 (profField p (at_ + 6)))
              pullCredit := max 1 (min 8 (profByte p (at_ + 8)))
              bandOrder := if profByte p (at_ + 9) % 8 = 0 ∨ profByte p (at_ + 9) % 8 = 7 then 1
                else profByte p (at_ + 9) % 8
              plFirst := decide (profByte p (at_ + 10) % 4 = 1)
              csFirst := decide (profByte p (at_ + 10) / 4 % 4 = 1)
              clFirst := decide (profByte p (at_ + 10) / 16 % 4 = 1)
              rollWindow := max 50 (min 1000 (profField p (at_ + 12))) })
          ∧ (loadProfile p).descs.length ≤ 64
          ∧ (loadProfile p).descs.Pairwise (fun d e => d.seg ≠ e.seg ∨ d.addr ≠ e.addr)
          ∧ (∀ g : Seg, ((loadProfile p).descs.filter fun d => decide (d.seg = g)).length ≤ 24)
          ∧ (∀ d ∈ (loadProfile p).descs, 1 ≤ d.addr.toNat ∧ d.addr.toNat ≤ 0xEE
              ∧ 10 ≤ d.desc.openTimeout ∧ d.desc.openTimeout ≤ 500
              ∧ 10 ≤ d.desc.replyTimeout ∧ d.desc.replyTimeout ≤ 1000 ∧ d.desc.retries ≤ 3 ∧ d.desc.restTime ≤ 255
              ∧ d.desc.clearRecovery ≤ 2550 ∧ (d.desc.group = 4 ∨ d.desc.group = 8))))
  ∧ (∀ (c : Chip) (l : Loaded), l.descs.length ≤ 64 →
      (∀ u : UnitIx, (c.applyStart l).unit u = (l.descs[u.val]?).map fun d =>
        { origin := .profile, seg := d.seg, addr := d.addr, typeCode := 0, desc := d.desc, presence := .unknown
          losses := 0, session := .fresh, drops := 0, malformed := 0, refused := 0, strays := 0, lastN := none
          hours := none, clearUncertain := false, exch := none, ignore := 0, queue := [] })
      ∧ (∀ g : Seg, (c.applyStart l).seg g =
          if l.settings.segs[g].mode = .active then c.seg g else { c.seg g with txErrors := 0, rxErrors := 0 })
      ∧ { c.applyStart l with roster := c.roster, segs := c.segs } = { c with
          settings := some l.settings, profileState := l.state, profileFaults := l.faults
          regs := { c.regs with notice :=
            if (l.state = .adjusted ∨ l.state = .defaults) ∧ c.col ≠ .stopped then c.regs.notice ||| 0x200
            else c.regs.notice } })
  ∧ (∀ (s : State) (l : List (Word × Byte)) (got : List Word) (ld : Load) (k : CtxIx) (card : Fin 16) (c : Chip)
      (ws : List Word), s.EndsRequest l .loader got → s.chip.load = some ld → ld.ctx = some k → ws = ld.words ++ got →
      (profHeadValid ws = true → ws.length < ceilDiv (profHalf ws 2) 2 →
        Machine.exec (.exchangeAccessCompletion l) s = .next (s.accessed l { s.chip.portFree with
          load := some { ld with words := ws }
          port := { s.chip.portFree.port with fresh := s.chip.port.fresh ++ [{
            owner := .loader, got := []
            accs := (List.range (ceilDiv (profHalf ws 2) 2 - ws.length)).map fun i =>
              .read (0x1100 + 4 * (ws.length + i)) }] } }))
      ∧ (profHeadValid ws = false ∨ ceilDiv (profHalf ws 2) 2 ≤ ws.length →
          c = s.chip.portFree.applyReload (loadProfile ws) → (c.ctx k).source = .card card →
          Machine.exec (.exchangeAccessCompletion l) s = .next (s.accessed l { c with
            load := none
            ctxs := c.ctxs.set k { c.ctx k with
              state := .writing, endCode := if profValid ws then .noError else .profileInvalid }
            port := { c.port with fresh := c.port.fresh ++ [{
              owner := .result k, got := []
              accs := resultAccs card (c.ctx k) (if profValid ws then .noError else .profileInvalid) 0 3 }] } })))
  ∧ (∀ p : List Word, profValid p = true →
      (loadProfile p).descs = (descsOf p).val
      ∧ (loadProfile p).faults = min 255 ((settingsOf p).faults + (descsOf p).faults)
      ∧ (settingsOf p).faults = ([decide (profByte p 0x08 < 0xF0 ∨ 0xFE < profByte p 0x08), decide (1 < profByte p 0x09)
            , decide (60 < profByte p 0x0A), decide (profByte p 0x0F = 0), decide (3 < profByte p 0x10)
            , decide (1 < profByte p 0x11), decide (1 < profByte p 0x12)] : List Bool).count true
          + (segSettingsOf p 0).faults + (segSettingsOf p 1).faults + (segSettingsOf p 2).faults + (segSettingsOf p 3).faults
      ∧ ∀ (g : Seg) (at_ : Nat), at_ = 0x20 + 16 * g.val → (segSettingsOf p g).faults = ([
          decide (2 < profByte p at_), decide (1 < profByte p (at_ + 1))
          , decide (profField p (at_ + 2) < 200 ∨ 5000 < profField p (at_ + 2))
          , decide (profField p (at_ + 4) < 10 ∨ 1000 < profField p (at_ + 4))
          , decide (profField p (at_ + 6) < 500 ∨ 5000 < profField p (at_ + 6))
          , decide (profByte p (at_ + 8) = 0 ∨ 8 < profByte p (at_ + 8))
          , decide (profByte p (at_ + 9) % 8 = 0 ∨ profByte p (at_ + 9) % 8 = 7)
          , decide (1 < profByte p (at_ + 10) % 4), decide (1 < profByte p (at_ + 10) / 4 % 4)
          , decide (1 < profByte p (at_ + 10) / 16 % 4)
          , decide (profField p (at_ + 12) < 50 ∨ 1000 < profField p (at_ + 12))] : List Bool).count true)
  ∧ (∀ p : List Word, descsOf p = (List.range (min 64 (profByte p 0x0B))).foldl
      (fun a j => addDesc p (profField p 0x0C + 16 * j) a) { val := [], faults := if 64 < profByte p 0x0B then 1 else 0 })
  ∧ (∀ (p : List Word) (off : Nat) (a : Checked (List Desc)),
      (4 ≤ profByte p off ∨ profByte p (off + 1) = 0 ∨ 0xEE < profByte p (off + 1)
          ∨ (∃ d ∈ a.val, d.seg.val = profByte p off ∧ d.addr.toNat = profByte p (off + 1))
          ∨ 24 ≤ (a.val.filter fun d => decide (d.seg.val = profByte p off)).length →
        addDesc p off a = { val := a.val, faults := a.faults + 1 })
      ∧ ∀ g : Seg, g.val = profByte p off → 1 ≤ profByte p (off + 1) → profByte p (off + 1) ≤ 0xEE →
        (∀ d ∈ a.val, d.seg ≠ g ∨ d.addr.toNat ≠ profByte p (off + 1)) →
        (a.val.filter fun d => decide (d.seg = g)).length < 24 →
        addDesc p off a = {
          val := a.val ++ [{ seg := g, addr := BitVec.ofNat 8 (profByte p (off + 1)), desc := {
            openTimeout := max 10 (min 500 (profField p (off + 2)))
            replyTimeout := max 10 (min 1000 (profField p (off + 4)))
            retries := min 3 (profByte p (off + 9)), restTime := profByte p (off + 8)
            clearRecovery := min 2550 (profField p (off + 6))
            group := if profByte p (off + 10) = 4 then 4 else 8
            clearPermitted := decide (profByte p (off + 11) % 2 = 1)
            noSnapshot := decide (profByte p (off + 11) / 2 % 2 = 1)
            sweepExclude := decide (profByte p (off + 11) / 4 % 2 = 1) } }]
          faults := a.faults + ([decide (profField p (off + 2) < 10 ∨ 500 < profField p (off + 2))
            , decide (profField p (off + 4) < 10 ∨ 1000 < profField p (off + 4)), decide (2550 < profField p (off + 6))
            , decide (3 < profByte p (off + 9))
            , decide (profByte p (off + 10) ≠ 4 ∧ profByte p (off + 10) ≠ 8)] : List Bool).count true })

/-- R15: a reload keeps every unit a descriptor names, with its new descriptor and every other field; an unnamed CENSUS
unit stays, unchanged, while its segment has fewer than 24 and the roster fewer than 64 of descriptors and kept units,
or else leaves, which the roster-full count counts; an unnamed PROFILE unit leaves; every descriptor has its unit after
it. R16: a reload whose settings are the old ones changes the roster alone; a new supply class has the dip monitor look
at the supply, new sweep settings reset the sweep timer, a new collector address drops every session and leaves nothing
pending (the frame on the wire: log 72); shown for units without plans. R69: a segment whose mode or bit rate changes,
shown for units without plans (R17): its sessions that hold a slot are dropped first (R16, `UnitRec.dropped`); then
counts 0, state by the new mode, what stands in the slot withdrawn, an OPEN with its record in REPEAT-HELD (log 46; a
completion that still comes finds nothing: log 66); a segment turned OFF or to LISTEN keeps nothing pending. That a
segment turned to LISTEN keeps nothing pending is the model's choice (log 55). -/
def Obligations.ReloadTakesEffect : Prop :=
  (∀ (c : Chip) (ds : List Desc), c.RosterSound → ds.length ≤ 64 →
      ds.Pairwise (fun d e => d.seg ≠ e.seg ∨ d.addr ≠ e.addr) →
      (∀ g : Seg, (ds.filter fun d => decide (d.seg = g)).length ≤ 24) →
      (∀ u r d, c.unit u = some r → d ∈ ds → d.seg = r.seg → d.addr = r.addr →
        (c.reloadRoster ds).unit u = some { r with origin := .profile, desc := d.desc })
      ∧ (∀ u r', (c.reloadRoster ds).unit u = some r' →
          (∃ r d, c.unit u = some r ∧ d ∈ ds ∧ d.seg = r.seg ∧ d.addr = r.addr
            ∧ r' = { r with origin := .profile, desc := d.desc })
          ∨ (c.unit u = some r' ∧ r'.origin = .census ∧ ∀ d ∈ ds, d.seg ≠ r'.seg ∨ d.addr ≠ r'.addr)
          ∨ ∃ d ∈ ds, r' = { origin := .profile, seg := d.seg, addr := d.addr, typeCode := 0, desc := d.desc
                             presence := .unknown, losses := 0, session := .fresh, drops := 0, malformed := 0
                             refused := 0, strays := 0, lastN := none, hours := none, clearUncertain := false
                             exch := none, ignore := 0, queue := [] })
      ∧ (∀ d ∈ ds, ∃ u r, (c.reloadRoster ds).unit u = some r ∧ r.seg = d.seg ∧ r.addr = d.addr ∧ r.desc = d.desc))
  ∧ (∀ (c : Chip) (u : UnitIx) (r : UnitRec), c.unit u = some r →
      (c.removeUnit u).unit u = none ∧ (∀ v, v ≠ u → (c.removeUnit u).unit v = c.unit v)
      ∧ (c.removeUnit u).seg r.seg = ((c.seg r.seg).filterItems fun i => decide (i.addr ≠ r.addr)).markStale r.addr
      ∧ (∀ g, g ≠ r.seg → (c.removeUnit u).seg g = c.seg g))
  ∧ (∀ (c : Chip) (l : Loaded), c.settings = some l.settings → c.applyReload l = { c.reloadRoster l.descs with
      settings := some l.settings, profileState := l.state, profileFaults := l.faults
      regs := { (c.reloadRoster l.descs).regs with notice :=
        if (l.state = .adjusted ∨ l.state = .defaults) ∧ (c.reloadRoster l.descs).col ≠ .stopped
        then (c.reloadRoster l.descs).regs.notice ||| 0x200 else (c.reloadRoster l.descs).regs.notice } })
  ∧ (∀ (c : Chip) (old new : Settings) (g : Seg),
      (old.segs[g].mode = new.segs[g].mode → old.segs[g].bitRate = new.segs[g].bitRate →
        Chip.reloadSegment old new c g = c)
      ∧ (old.segs[g].mode ≠ new.segs[g].mode ∨ old.segs[g].bitRate ≠ new.segs[g].bitRate → c.unitsOf g = [] →
          (new.segs[g].mode = .off → Chip.reloadSegment old new c g = c.modSeg g fun r => { r.emptyClasses with
            state := .down, slot := none, recovery := none, txErrors := 0, rxErrors := 0, unanswered := 0, rxWait := [] })
          ∧ (new.segs[g].mode = .active → (old.segs[g].mode = .off → (c.seg g).state = .down) →
              Chip.reloadSegment old new c g = c.modSeg g fun r => { r with
                slot := none, txErrors := 0, rxErrors := 0
                state := if old.segs[g].mode = .off then c.runningState else r.state })
          ∧ (new.segs[g].mode = .listen → (old.segs[g].mode = .off → (c.seg g).state = .down) →
              Chip.reloadSegment old new c g = c.modSeg g fun r => { r.emptyClasses with
                slot := none, txErrors := 0, rxErrors := 0
                state := if old.segs[g].mode = .off then c.runningState else r.state })))
  ∧ (∀ (c d : Chip) (old new : Settings) (g : Seg), d = Chip.reloadSegment old new c g →
      old.segs[g].mode ≠ new.segs[g].mode ∨ old.segs[g].bitRate ≠ new.segs[g].bitRate →
      (∀ u r, c.unit u = some r → r.seg = g → r.queue = []) →
      (∀ h, h ≠ g → d.seg h = c.seg h) ∧ { d with roster := c.roster, segs := c.segs } = c
      ∧ (new.segs[g].mode = .off ∨ new.segs[g].mode = .listen →
        (∀ u, d.unit u = (c.unit u).map fun r =>
          if r.seg ≠ g then r
          else if r.session.state.holdsSlot then r.dropped
          else { r with exch := r.exch.filter fun x => !(decide (x.kind = .opn) && decide (x.phase = .repeatHeld)) })
        ∧ (new.segs[g].mode = .off → d.seg g = { (c.seg g).emptyClasses with
            state := .down, slot := none, recovery := none, txErrors := 0, rxErrors := 0, unanswered := 0, rxWait := [] })
        ∧ (new.segs[g].mode = .listen → (old.segs[g].mode = .off → (c.seg g).state = .down) →
            d.seg g = { (c.seg g).emptyClasses with
              slot := none, txErrors := 0, rxErrors := 0
              state := if old.segs[g].mode = .off then c.runningState else (c.seg g).state }))
      ∧ (new.segs[g].mode = .active →
        ((∀ t, (c.seg g).slot = some t → t.item.msg ≠ .opn ∨ t.stale = true ∨ c.slotHeldBy g t.item.addr = true) →
          ∀ u, d.unit u = (c.unit u).map fun r =>
            if r.seg = g ∧ r.session.state.holdsSlot = true then r.dropped else r)
        ∧ ((old.segs[g].mode = .off → (c.seg g).state = .down) →
          d.seg g = { (c.seg g).filterItems (fun i => !c.slotHeldBy g i.addr) with
            slot := none, txErrors := 0, rxErrors := 0
            state := if old.segs[g].mode = .off then c.runningState else (c.seg g).state })))
  ∧ (∀ (ds : List Desc) (c : Chip) (kept : List Seg) (u : UnitIx),
      (c.unit u = none → Chip.reloadUnit ds (c, kept) u = (c, kept))
      ∧ ∀ r, c.unit u = some r →
        (∀ d before after, ds = before ++ d :: after → d.seg = r.seg → d.addr = r.addr →
          (∀ b ∈ before, b.seg ≠ r.seg ∨ b.addr ≠ r.addr) →
          Chip.reloadUnit ds (c, kept) u = (c.setUnit u (some { r with origin := .profile, desc := d.desc }), kept))
        ∧ ((∀ d ∈ ds, d.seg ≠ r.seg ∨ d.addr ≠ r.addr) →
          (r.origin = .profile → Chip.reloadUnit ds (c, kept) u = (c.removeUnit u, kept))
          ∧ ∀ n, n = (ds.filter fun d => decide (d.seg = r.seg)).length + (kept.filter fun g => decide (g = r.seg)).length →
            r.origin = .census →
            (n < 24 → ds.length + kept.length < 64 → Chip.reloadUnit ds (c, kept) u = (c, kept ++ [r.seg]))
            ∧ (24 ≤ n ∨ 64 ≤ ds.length + kept.length → Chip.reloadUnit ds (c, kept) u = ({ c.removeUnit u with
              rosterFull := if c.rosterFull < 255 then c.rosterFull + 1 else c.rosterFull }, kept))))
  ∧ (∀ (c : Chip) (ds : List Desc), c.reloadRoster ds =
      (ds.filter fun d => ((allUnits.foldl (Chip.reloadUnit ds) (c, [])).1.findUnit d.seg d.addr).isNone).foldl
        (fun c d => c.enterUnit (UnitRec.ofDesc d)) (allUnits.foldl (Chip.reloadUnit ds) (c, [])).1)
  ∧ (∀ (c d : Chip) (l : Loaded) (old : Settings), c.settings = some old → old.segs = l.settings.segs →
      d = { c.reloadRoster l.descs with
        settings := some l.settings, profileState := l.state, profileFaults := l.faults
        regs := { (c.reloadRoster l.descs).regs with notice :=
          if (l.state = .adjusted ∨ l.state = .defaults) ∧ (c.reloadRoster l.descs).col ≠ .stopped
          then (c.reloadRoster l.descs).regs.notice ||| 0x200 else (c.reloadRoster l.descs).regs.notice } } →
      (old.collector = l.settings.collector → old.supply = l.settings.supply → old.sweep ≠ l.settings.sweep →
        c.applyReload l = { d with mon := { d.mon with sweepMs := 0, spent := false } })
      ∧ (old.collector = l.settings.collector → old.supply ≠ l.settings.supply → old.sweep = l.settings.sweep →
        ∀ s : State, s.chip = d →
          Machine.exec (.supplyCrossing d.mon.supply) s = .next (s.after (c.applyReload l)))
      ∧ (old.collector ≠ l.settings.collector → old.supply = l.settings.supply → old.sweep = l.settings.sweep →
        c.applyReload l = d.readdress))
  ∧ (∀ c : Chip, (∀ u r, c.unit u = some r → r.queue = []) →
      (∀ u, c.readdress.unit u = (c.unit u).map fun r =>
        if r.session.state.holdsSlot then r.dropped else { r with exch := r.exch.filter fun x =>
          !(decide (x.kind = .opn) && decide (x.phase = .repeatHeld)) })
      ∧ (∀ g, c.readdress.seg g = { (c.seg g).emptyClasses with
          slot := (c.seg g).slot.map fun t => { t with stale := true } })
      ∧ { c.readdress with roster := c.roster, segs := c.segs } = c)
  ∧ (∀ (c : Chip) (old new : Settings) (g : Seg) (t : TxSlot) (u : UnitIx) (r : UnitRec),
      old.segs[g].mode = .active → new.segs[g].mode = .active → old.segs[g].bitRate ≠ new.segs[g].bitRate →
      (∀ v w, c.unit v = some w → w.seg = g → w.session.state.holdsSlot = false) →
      (c.seg g).slot = some t → t.item.msg = .opn → t.stale = false → c.findUnit g t.item.addr = some u →
      c.unit u = some r → Chip.reloadSegment old new c g = (c.modSeg g fun x => { x with
        slot := none, txErrors := 0, rxErrors := 0 }).setUnit u (some { r with exch := r.exch.filter fun x =>
          !(decide (x.kind = .opn) && decide (x.phase = .repeatHeld)) }))

/-- R188: STARTING goes from one step to the next as each request ends: the profile's header, the load, the start of the
table, the clock, the 64 mirror records, the start result and the header with the state chosen. R148: a cold start
empties table and pool on chip and writes every slot free. R149: a warm start reads the region header, and falls back to
a cold start where it is not one. R150: what a slot read does: free, torn, malformed, a duplicate, or adopted. R151,
R164: an adopted reference claims its blocks, or is dropped. R152, R128: after the last slot the sequence resumes; each
repair is one entry change with its published sequence and HISTORY, and its stored sequence. R169: the clock after a
cold start, and as a warm start resumes it. R67, R178, R195: the entry to RUNNING or PARKED. The model's choices: the
profile's header is read first (log 26); a slot found free keeps a version that was odd (log 45); the on-chip version
goes by 2 at once (log 25); which header words either path publishes (log 24); the state is chosen again as step 7 ends
(log 23). -/
def Obligations.StartPaths : Prop :=
  (∀ (s : State) (l : List (Word × Byte)) (got : List Word) (st : Starting) (c : Chip), s.EndsRequest l .starting got →
      s.chip.start = some st → c = s.chip.portFree →
      (st.stage = .mark → Machine.exec (.exchangeAccessCompletion l) s = .next (s.accessed l { c with
        start := some { st with stage := .profile }, load := some { words := [], ctx := none }
        port := { c.port with fresh := c.port.fresh ++ [{
          owner := .loader, accs := (List.range 24).map fun i => .read (0x1100 + 4 * i), got := [] }] } }))
      ∧ (∀ n : Nat, st.stage = .coldSlot n → n + 1 < 512 →
        Machine.exec (.exchangeAccessCompletion l) s = .next (s.accessed l { c with
          start := some { st with stage := .coldSlot (n + 1) }
          port := { c.port with fresh := c.port.fresh ++ [{
            owner := .starting, got := []
            accs := (List.range 16).map fun j => .write (0x2200 + 64 * (n + 1) + 4 * j) (.lit 0) }] } }))
      ∧ (st.stage = .coldSlot 511 → Machine.exec (.exchangeAccessCompletion l) s = .next (s.accessed l { c with
          start := some { st with stage := .region }
          port := { c.port with fresh := c.port.fresh ++ [{
            owner := .starting, got := []
            accs := (List.range 64).map fun j => .write (0x2100 + 4 * j)
              (.lit (regionWord (decide (st.mode = .warm) && !st.fellBack) c.hist.changeSeq st.report j)) }] } }))
      ∧ (st.stage = .warmRegion →
          ((wordAt got 0).toNat = 0x48495354 ∧ halfOf (wordAt got 1) 0 = 1 ∧ halfOf (wordAt got 2) 0 = 512
              ∧ halfOf (wordAt got 1) 1 = 64 →
            Machine.exec (.exchangeAccessCompletion l) s = .next (s.accessed l { c with
              hist := { Hist.reset with published := c.hist.published, refused := c.hist.refused }
              pool := { Pool.reset with shortage := c.pool.shortage }
              start := some { st with stage := .warmSlot 0, stored := (wordAt got 3).toNat }
              port := { c.port with fresh := c.port.fresh ++ [{
                owner := .starting, accs := (List.range 16).map fun j => .read (0x2200 + 4 * j), got := [] }] } }))
          ∧ ((wordAt got 0).toNat ≠ 0x48495354 ∨ halfOf (wordAt got 1) 0 ≠ 1 ∨ halfOf (wordAt got 2) 0 ≠ 512
              ∨ halfOf (wordAt got 1) 1 ≠ 64 →
            Machine.exec (.exchangeAccessCompletion l) s = .next (s.accessed l { c with
              hist := { Hist.reset with published := c.hist.published }
              pool := .reset
              start := some { st with stage := .coldSlot 0, fellBack := true, report := .zero }
              port := { c.port with fresh := c.port.fresh ++ [{
                owner := .starting, got := []
                accs := (List.range 16).map fun j => .write (0x2200 + 4 * j) (.lit 0) }] } })))
      ∧ (∀ i next : SlotIx, st.stage = .warmSlot i → next.val = i.val + 1 →
          (readSlot got = .free → Machine.exec (.exchangeAccessCompletion l) s = .next (s.accessed l { c with
            hist := { c.hist with slots := c.hist.slots.set i { c.slot i with version := wordAt got 0 } }
            start := some { st with stage := .warmSlot next }
            port := { c.port with fresh := c.port.fresh ++ [{
              owner := .starting, got := []
              accs := (List.range 16).map fun j => .read (0x2200 + 64 * next.val + 4 * j) }] } }))
          ∧ (∀ e, readSlot got = .entry e → (∀ j f, (c.slot j).entry = some f → f.key ≠ e.key) →
            Machine.exec (.exchangeAccessCompletion l) s = .next (s.accessed l { c with
              hist := { c.hist with
                slots := c.hist.slots.set i { c.slot i with version := wordAt got 0, entry := some e }
                inUse := c.hist.inUse + 1 }
              start := some { st with
                stage := .warmSlot next, report := { st.report with adopted := st.report.adopted + 1 } }
              port := { c.port with fresh := c.port.fresh ++ [{
                owner := .starting, got := []
                accs := (List.range 16).map fun j => .read (0x2200 + 64 * next.val + 4 * j) }] } })))
      ∧ (∀ i : SlotIx, st.stage = .warmSlot i →
          (readSlot got = .torn → Machine.exec (.exchangeAccessCompletion l) s = .next (s.accessed l { c with
            hist := { c.hist with slots := c.hist.slots.set i { c.slot i with version := wordAt got 0 + 1 } }
            start := some { st with stage := .warmFree i, report := { st.report with torn := st.report.torn + 1 } }
            port := { c.port with fresh := c.port.fresh ++ [{
              owner := .starting, got := []
              accs := ((List.range 15).map fun j => .write (0x2200 + 64 * i.val + 4 * (j + 1)) (.lit 0))
                ++ [.write (0x2200 + 64 * i.val) (.lit (wordAt got 0 + 1))] }] } }))
          ∧ (∀ rep, readSlot got = .malformed ∧ rep = { st.report with malformed := st.report.malformed + 1 }
              ∨ (∃ e j f, readSlot got = .entry e ∧ (c.slot j).entry = some f ∧ f.key = e.key
                ∧ rep = { st.report with duplicate := st.report.duplicate + 1 }) →
            Machine.exec (.exchangeAccessCompletion l) s = .next (s.accessed l { c with
              hist := { c.hist with slots := c.hist.slots.set i { c.slot i with version := wordAt got 0 + 2 } }
              start := some { st with stage := .warmFree i, report := rep }
              port := { c.port with fresh := c.port.fresh ++ [{
                owner := .starting, got := []
                accs := .write (0x2200 + 64 * i.val) (.lit (wordAt got 0 + 1))
                  :: ((List.range 15).map fun j => Acc.write (0x2200 + 64 * i.val + 4 * (j + 1)) (.lit 0))
                  ++ [.write (0x2200 + 64 * i.val) (.lit (wordAt got 0 + 2))] }] } })))
      ∧ (∀ i next : SlotIx, st.stage = .warmFree i → next.val = i.val + 1 →
          Machine.exec (.exchangeAccessCompletion l) s = .next (s.accessed l { c with
            start := some { st with stage := .warmSlot next }
            port := { c.port with fresh := c.port.fresh ++ [{
              owner := .starting, got := []
              accs := (List.range 16).map fun j => .read (0x2200 + 64 * next.val + 4 * j) }] } }))
      ∧ (st.stage = .warmFree 511 →
          Machine.exec (.exchangeAccessCompletion l) s = .next (s.accessed l (c.warmSettled st)))
      ∧ (∀ i rest, st.stage = .repair (i :: rest) → s.chip.col ≠ .stopped →
          Machine.exec (.exchangeAccessCompletion l) s = .next (s.accessed l { c with
            hist := { c.hist with
              slots := c.hist.slots.set i { c.slot i with version := (c.slot i).version + 2 }
              published := c.hist.changeSeq }
            regs := { c.regs with notice := c.regs.notice ||| 0x04 }
            start := some { st with stage := .repairStored rest }
            port := { c.port with fresh := c.port.fresh ++ [{
              owner := .starting, accs := [.write 0x210C (.lit (BitVec.ofNat 32 c.hist.changeSeq))]
              got := [] }] } }))
      ∧ (∀ todo, st.stage = .repairStored todo →
          Machine.exec (.exchangeAccessCompletion l) s = .next (s.accessed l (c.nextRepair st todo)))
      ∧ (∀ more, st.stage = .region →
          more = (if st.mode = .warm ∧ st.fellBack = false then [Acc.write 0x1C (.header 7)] else []) →
          Machine.exec (.exchangeAccessCompletion l) s = .next (s.accessed l { c with
            start := some { st with stage := .publish }
            port := { c.port with fresh := c.port.fresh ++ [{
              owner := .starting, got := []
              accs := .write 0x0C (.header 3) :: .write 0x18 (.header 6) :: more }] } }))
      ∧ (st.stage = .publish → st.mode = .warm → st.fellBack = false →
          Machine.exec (.exchangeAccessCompletion l) s = .next (s.accessed l { c with
            start := some { st with stage := .clock }
            port := { c.port with fresh := c.port.fresh ++ [{
              owner := .starting, accs := [.read 0x08, .read 0x10, .read 0x14], got := [] }] } }))
      ∧ (∀ mon, st.stage = .publish ∧ (st.mode = .cold ∨ st.fellBack = true)
              ∧ mon = { c.mon with ct := 0, k := 0, phase := 0, clockUnset := true, resumed := false }
            ∨ st.stage = .clock ∧ mon = { c.mon with
                ct := (wordAt got 1).toNat, k := (wordAt got 2).toNat % 16777216, phase := 0
                clockUnset := decide (byteOf (wordAt got 0) 1 % 2 = 1)
                resumed := decide (byteOf (wordAt got 0) 1 % 2 = 0) } →
          Machine.exec (.exchangeAccessCompletion l) s = .next (s.accessed l { c with
            mon := mon
            start := some { st with stage := .mirrors 0 }
            port := { c.port with fresh := c.port.fresh ++ [{
              owner := .starting, accs := mirrorAccs 0 (c.mirror 0).version, got := [] }] } }))
      ∧ (∀ u v : UnitIx, st.stage = .mirrors u.val → v.val = u.val + 1 →
          Machine.exec (.exchangeAccessCompletion l) s = .next (s.accessed l { c with
            mirrors := c.mirrors.set u { c.mirror u with version := (c.mirror u).version + 2 }
            start := some { st with stage := .mirrors v.val }
            port := { c.port with fresh := c.port.fresh ++ [{
              owner := .starting, accs := mirrorAccs v (c.mirror v).version, got := [] }] } }))
      ∧ (∀ chosen, st.stage = .mirrors 63 →
          chosen = (if c.stopRequest then .stopping else if c.mon.ign then .running else .parked) →
          Machine.exec (.exchangeAccessCompletion l) s = .next (s.accessed l { c with
            mirrors := c.mirrors.set 63 { c.mirror 63 with version := (c.mirror 63).version + 2 }
            regs := { c.regs with startResult := if st.fellBack then .warmRefused else .ok }
            start := some { st with stage := .header chosen (if c.hdr.busy then 2 else 1) }
            hdr := { c.hdr with wanted := true } })))
  ∧ (∀ (s : State) (l : List (Word × Byte)) (got : List Word) (ld : Load) (st : Starting) (c : Chip) (ws : List Word),
      s.EndsRequest l .loader got → s.chip.load = some ld → ld.ctx = none → ws = ld.words ++ got →
      profHeadValid ws = false ∨ ceilDiv (profHalf ws 2) 2 ≤ ws.length → s.chip.start = some st →
      c = { s.chip.portFree.applyStart (loadProfile ws) with load := none } →
      (st.mode = .cold → Machine.exec (.exchangeAccessCompletion l) s = .next (s.accessed l { c with
        hist := { Hist.reset with published := c.hist.published }
        pool := .reset
        start := some { st with stage := .coldSlot 0, report := .zero }
        port := { c.port with fresh := c.port.fresh ++ [{
          owner := .starting, accs := (List.range 16).map fun j => .write (0x2200 + 4 * j) (.lit 0), got := [] }] } }))
      ∧ (st.mode = .warm → Machine.exec (.exchangeAccessCompletion l) s = .next (s.accessed l { c with
        start := some { st with stage := .warmRegion }
        port := { c.port with fresh := c.port.fresh ++ [{
          owner := .starting, accs := (List.range 4).map fun j => .read (0x2100 + 4 * j), got := [] }] } })))
  ∧ (∀ (c : Chip) (st : Starting),
      (∀ d : Chip, d = { c with
          pool := c.checkRefs.1, hist := { c.hist with changeSeq := max st.stored c.largestChange } } →
        c.warmSettled st = d.nextRepair { st with report := { st.report with dropped := c.checkRefs.2 } } d.repairList
        ∧ (∀ i, i ∈ d.repairList ↔ ∃ e, (d.slot i).entry = some e ∧ d.repaired i e ≠ e)
        ∧ (∀ i e, (d.slot i).entry = some e → e.lastChange ≤ d.hist.changeSeq)
        ∧ d.pool.free = (List.finRange 256).filter fun b => decide (d.pool.owner[b] = none))
      ∧ (∀ i e, (c.repaired i e).peak = (if e.peak.code ≤ e.lamp.code then e.lamp else e.peak)
          ∧ (∀ m n, e.firstSeen = some m → e.lastSeen = some n → (c.repaired i e).firstSeen = some (min m n))
          ∧ (∀ r, e.snap = some r → 48 < r.length ∨ (∃ b ∈ r.chain, c.pool.owner[b] ≠ some i) →
            (c.repaired i e).snap = none ∧ (c.repaired i e).snapDropped = true)
          ∧ ((∀ r, e.snap = some r → r.length ≤ 48 ∧ ∀ b ∈ r.chain, c.pool.owner[b] = some i) →
            (c.repaired i e).snap = e.snap ∧ (c.repaired i e).snapDropped = e.snapDropped))
      ∧ (c.nextRepair st [] = { c with
          start := some { st with stage := .region }
          port := { c.port with fresh := c.port.fresh ++ [{
            owner := .starting, got := []
            accs := (List.range 64).map fun j => .write (0x2100 + 4 * j)
              (.lit (regionWord (decide (st.mode = .warm) && !st.fellBack) c.hist.changeSeq st.report j)) }] } })
      ∧ (∀ i rest e f n, (c.slot i).entry = some e →
          n = (if c.hist.changeSeq < 4294967295 then c.hist.changeSeq + 1 else c.hist.changeSeq) →
          f = { c.repaired i e with lastChange := n } →
          ∃ words, c.nextRepair st (i :: rest) = { c with
            hist := { c.hist with slots := c.hist.slots.set i { c.slot i with entry := some f }, changeSeq := n }
            start := some { st with
              stage := .repair (i :: rest), report := { st.report with repaired := st.report.repaired + 1 } }
            port := { c.port with fresh := c.port.fresh ++ [{
              owner := .starting, got := []
              accs := .write (0x2200 + 64 * i.val) (.lit ((c.slot i).version + 1)) :: words
                ++ [.write (0x2200 + 64 * i.val) (.lit ((c.slot i).version + 2))
                    , .write 0x0C (.lit (BitVec.ofNat 32 n))] }] } })
      ∧ (∀ i r, (1 ≤ r.length ∧ r.length ≤ 48 ∧ r.chain.Nodup ∧ (∀ b ∈ r.chain, c.pool.owner[b] = none) →
          (c.pool.claim i r).2 = true
          ∧ ∀ b : Fin 256, (c.pool.claim i r).1.owner[b] = if b ∈ r.chain then some i else c.pool.owner[b])
        ∧ (r.length = 0 ∨ 48 < r.length ∨ ¬ r.chain.Nodup ∨ (∃ b ∈ r.chain, c.pool.owner[b] ≠ none) →
          c.pool.claim i r = (c.pool, false))))
  ∧ (∀ (s : State) (l : List (Word × Byte)) (got : List Word) (st : Starting) (chosen : Collector) (c : Chip),
      s.EndsRequest l .header got → s.chip.start = some st → st.stage = .header chosen 1 → s.chip.hist.run = none →
      (∀ k, (s.chip.ctx k).clockWait = 0) → s.chip.scan.again = false → s.chip.stopRequest = false →
      (∀ k, (s.chip.ctx k).state = .free) →
      (∀ card k content, s.chip.scan.stage ≠ some (.taking card k content)) →
      c = { s.chip.portFree with
        hdr := { busy := false, pending := false, wanted := s.chip.hdr.wanted || s.chip.hdr.pending }
        start := none
        scan := { s.chip.scan with stage := some (.owner 0), taking := true, timer := some 250 }
        port := { s.chip.portFree.port with fresh := s.chip.port.fresh ++ [{
          owner := .scan, accs := [.read 0x100], got := [] }] } } →
      (s.chip.mon.ign = true → ∃ mon, Machine.exec (.exchangeAccessCompletion l) s = .next (s.accessed l { c with
          col := .running, mon := mon
          segs := Vector.ofFn fun (g : Fin 4) => { s.chip.seg g with
            state := if (s.chip.seg g).state = .down ∧ (s.chip.mode g = some .active ∨ s.chip.mode g = some .listen)
              then .live else (s.chip.seg g).state } })
        ∧ mon = { s.chip.mon with
            dip := if s.chip.mon.supply < s.chip.sets.supply.dipLevel then .falling else .normal
            dipTimer := if s.chip.mon.supply < s.chip.sets.supply.dipLevel then some 2 else none
            settleTimer := none })
      ∧ (s.chip.mon.ign = false → Machine.exec (.exchangeAccessCompletion l) s = .next (s.accessed l { c with
          col := .parked
          segs := Vector.ofFn fun (g : Fin 4) => { s.chip.seg g with
            state := if (s.chip.seg g).state = .down ∧ (s.chip.mode g = some .active ∨ s.chip.mode g = some .listen)
              then .quiet else (s.chip.seg g).state } })))

/-! ## History Table and pool -/

/-- R131: the occurrence count of a merge. For a key present the first row that fits decides: nothing but the floor mark
at 127 on 127; the difference to the baseline; the whole count and one more restart after a restart of the unit's
counter. The total saturates, with its mark, and the baseline is the new count. A new entry starts from the record's
count. -/
def Obligations.MergeCounts : Prop :=
  ∀ (h : HarvestCtx) (f : FaultRec) (e : Entry), f.u ≤ 127 → e.total ≤ 65535 →
    (mergeEntry h f e).baseline = f.u ∧ (mergeEntry h f e).total ≤ 65535 ∧ e.total ≤ (mergeEntry h f e).total
    ∧ (f.u = 127 ∧ e.baseline = 127 →
        (mergeEntry h f e).total = e.total ∧ (mergeEntry h f e).floor = true
        ∧ (mergeEntry h f e).saturated = e.saturated ∧ (mergeEntry h f e).restarts = e.restarts)
    ∧ (e.baseline ≤ f.u → ¬ (f.u = 127 ∧ e.baseline = 127) →
        (mergeEntry h f e).total = min 65535 (e.total + (f.u - e.baseline))
        ∧ (mergeEntry h f e).saturated = (e.saturated || decide (65535 < e.total + (f.u - e.baseline)))
        ∧ (mergeEntry h f e).floor = e.floor ∧ (mergeEntry h f e).restarts = e.restarts)
    ∧ (f.u < e.baseline →
        (mergeEntry h f e).total = min 65535 (e.total + f.u)
        ∧ (mergeEntry h f e).saturated = (e.saturated || decide (65535 < e.total + f.u))
        ∧ (mergeEntry h f e).floor = e.floor
        ∧ (mergeEntry h f e).restarts = if e.restarts < 15 then e.restarts + 1 else e.restarts)
    ∧ (∀ k n, (clearEntry n e).baseline = 0 ∧ (clearEntry n e).total = e.total ∧
        (createEntry k h f).total = f.u ∧ (createEntry k h f).baseline = f.u
        ∧ (createEntry k h f).floor = decide (f.u = 127) ∧ (createEntry k h f).saturated = false
        ∧ (createEntry k h f).restarts = 0)

/-- R132, R133, R135: the stamps, marks, status and lamps of a merge. With the clock unset first-seen, last-seen, skew
and early stay. With it set: the age of the first occurrence needs the hours and h_first, which is h_last where it is
later than that; an age beyond the clock estimates 0 and sets early; an hour reading beyond the unit's sets skew, with
age 0. First-seen falls to the estimate. The last occurrence is estimated so from h_last, with no early mark; where it
or the hours are unknown it is the clock where the record's age in cycles is 0, and unknown otherwise. Last-seen rises
to the estimate, and first-seen is never later than it. A new entry takes its stamps and marks as an entry without any;
status, lamp and peak lamp follow the record. -/
def Obligations.MergeStamps : Prop :=
  ∀ (h : HarvestCtx) (f : FaultRec) (e : Entry),
    (h.ct = none → (mergeEntry h f e).firstSeen = e.firstSeen ∧ (mergeEntry h f e).lastSeen = e.lastSeen
      ∧ (mergeEntry h f e).skew = e.skew ∧ (mergeEntry h f e).early = e.early)
    ∧ (∀ (now : Nat) (fse lse : Option Nat) (fskew lskew early : Bool), h.ct = some now →
        (h.hours = none ∨ f.hFirst = none → fse = none ∧ fskew = false ∧ early = false) →
        (∀ hours a first, h.hours = some hours → f.hFirst = some first → a = f.hLast.elim first (min first) →
          (a ≤ hours → fskew = false ∧ early = decide (now < 60 * (hours - a)) ∧ fse = some (now - 60 * (hours - a)))
          ∧ (hours < a → fskew = true ∧ early = false ∧ fse = some now)) →
        (h.hours = none ∨ f.hLast = none → lskew = false ∧ lse = if f.c = some 0 then some now else none) →
        (∀ hours last, h.hours = some hours → f.hLast = some last →
          (last ≤ hours → lskew = false ∧ lse = some (now - 60 * (hours - last)))
          ∧ (hours < last → lskew = true ∧ lse = some now)) →
        (mergeEntry h f e).skew = (e.skew || fskew || lskew) ∧ (mergeEntry h f e).early = (e.early || early)
        ∧ (lse = none → (mergeEntry h f e).lastSeen = e.lastSeen)
        ∧ (∀ x, lse = some x → (mergeEntry h f e).lastSeen = some (e.lastSeen.elim x (max x)))
        ∧ ∀ fs : Option Nat, (fse = none → fs = e.firstSeen) → (∀ x, fse = some x → fs = some (e.firstSeen.elim x (min x))) →
          (∀ x y, fs = some x → (mergeEntry h f e).lastSeen = some y → (mergeEntry h f e).firstSeen = some (min x y))
          ∧ (fs = none ∨ (mergeEntry h f e).lastSeen = none → (mergeEntry h f e).firstSeen = fs))
    ∧ (∀ key, e.firstSeen = none → e.lastSeen = none → e.skew = false → e.early = false →
        (createEntry key h f).firstSeen = (mergeEntry h f e).firstSeen
        ∧ (createEntry key h f).lastSeen = (mergeEntry h f e).lastSeen
        ∧ (createEntry key h f).skew = (mergeEntry h f e).skew ∧ (createEntry key h f).early = (mergeEntry h f e).early
        ∧ (createEntry key h f).clockUnset = decide (h.ct = none) ∧ (createEntry key h f).peak = f.lamp)
    ∧ (mergeEntry h f e).clockUnset = e.clockUnset ∧ (mergeEntry h f e).clearedAt = e.clearedAt
    ∧ (mergeEntry h f e).status = f.state ∧ (mergeEntry h f e).lamp = f.lamp
    ∧ (mergeEntry h f e).peak = (if e.peak.code ≤ f.lamp.code then f.lamp else e.peak)

/-- R134: the last-seen cycle of a merge, whatever the state of the clock: K_now less the record's age in cycles, or 0;
kept where the stored one is later, and where the record carries 255. It never decreases. -/
def Obligations.LastSeenCycle : Prop :=
  ∀ (h : HarvestCtx) (f : FaultRec) (e : Entry) (key : Key) (bytes : List Byte),
    (∀ c, f.c = some c →
      (mergeEntry h f e).lastCycle = (e.lastCycle.elim (some (if c ≤ h.k then h.k - c else 0)) fun old =>
        some (max old (if c ≤ h.k then h.k - c else 0)))
      ∧ (createEntry key h f).lastCycle = some (if c ≤ h.k then h.k - c else 0))
    ∧ (f.c = none → (mergeEntry h f e).lastCycle = e.lastCycle ∧ (createEntry key h f).lastCycle = none)
    ∧ (∀ n, e.lastCycle = some n → ∃ m, (mergeEntry h f e).lastCycle = some m ∧ n ≤ m)
    ∧ (recordOf bytes).c = if bytes.getD 6 0 = 255 then none else some (bytes.getD 6 0).toNat

/-- R115, R130, R136, R137, R140, R141: a merge: a key that is there is changed, or its item ends UNCHANGED; a new one
takes the lowest free slot, or, where none is free, the archive words of the STORED, VANISHED and CLEARED slots are read
in ascending order, and with none of those the record is refused. R116, R101, R107: what the result of a merge does to
the running plan of its record: marks, F3, and the counts of its order; a refusal does nothing, nor does a result whose
plan runs no more. R120, R138: a plan end that is a complete harvest marks VANISHED what the plan has not seen of the
unit's entries that are there; R139: a CLEAR-DONE marks CLEARED what is not yet; slot by slot in ascending order, each
an entry change that the plan's order counts. R121: a plan end clears the marks of its unit's slots. R126: what a
finished item hands on. The model's choices here: the close, outcome and removal of an ended plan come as its plan-end
item is finished (log 13); the hours of a unit that has left the roster are unknown to a merge (log 44); a finished
CLEARED marking hands nothing on, its step having ended before it (log 67). -/
def Obligations.MergesAndMarkings : Prop :=
  (∀ (c : Chip) (g : Seg) (a : Byte) (f : FaultRec) (key : Key) (h : HarvestCtx),
      key = { seg := g, addr := a, code := f.code, kind := f.kind } →
      h = { ct := if c.mon.clockUnset then none else some c.mon.ct, k := c.mon.k
            hours := ((c.findUnit g a).bind c.unit).bind UnitRec.hours } →
      (∀ i e, (c.slot i).entry = some e → e.key = key →
        (∀ j e', (c.slot j).entry = some e' → e'.key = key → i ≤ j) →
        (mergeEntry h f e = e →
          c.startMerge g a f = c.finishItem { Run.start .stored with slot := i, result := .unchanged })
        ∧ (mergeEntry h f e ≠ e → c.startMerge g a f = c.changeEntry i { Run.start .stored with
            result := .changed
            lampRise := decide (e.lamp.code < f.lamp.code ∧ (f.lamp = .red ∨ f.lamp = .flash)) } (mergeEntry h f e)))
      ∧ ((∀ j e', (c.slot j).entry = some e' → e'.key ≠ key) →
        (∀ i, (c.slot i).entry = none → (∀ j, j < i → (c.slot j).entry ≠ none) →
          c.startMerge g a f = Chip.createAt { c with hist := { c.hist with inUse := c.hist.inUse + 1 } } i
            (createEntry key h f))
        ∧ ((∀ i, (c.slot i).entry ≠ none) →
          (c.evictionPool = [] → c.startMerge g a f = c.refuseRecord g a)
          ∧ (c.evictionPool ≠ [] → c.startMerge g a f = { c with
            hist := { c.hist with run := some (Run.start (.search c.evictionPool h)) }
            port := { c.port with fresh := c.port.fresh ++ [{
              owner := .history, got := []
              accs := c.evictionPool.map fun i => .read (0x2200 + 64 * i.val + 12) }] } }))))
  ∧ (∀ c : Chip,
      (∀ i, i ∈ c.evictionPool ↔ ∃ e, (c.slot i).entry = some e
        ∧ (e.status = .stored ∨ e.status = .vanished ∨ e.status = .cleared))
      ∧ c.evictionPool.Pairwise (· < ·)
      ∧ (∀ scope i, i ∈ c.purgePool scope ↔ ∃ e, (c.slot i).entry = some e
        ∧ (e.status = .stored ∨ e.status = .vanished ∨ e.status = .cleared)
        ∧ ∀ g a, scope = some (g, a) → e.key.seg = g ∧ e.key.addr = a)
      ∧ (∀ scope, (c.purgePool scope).Pairwise (· < ·))
      ∧ ∀ g a,
        (∀ i, i ∈ c.vanishing g a ↔ ∃ e, (c.slot i).entry = some e ∧ e.key.seg = g ∧ e.key.addr = a
          ∧ (e.status = .active ∨ e.status = .stored ∨ e.status = .pending) ∧ (c.slot i).seen = false)
        ∧ (c.vanishing g a).Pairwise (· < ·)
        ∧ (∀ i, i ∈ c.clearing g a ↔ ∃ e, (c.slot i).entry = some e ∧ e.key.seg = g ∧ e.key.addr = a
          ∧ e.status ≠ .cleared)
        ∧ (c.clearing g a).Pairwise (· < ·)
        ∧ (∀ i, (c.clearMarks g a).slot i = if ∃ e, (c.slot i).entry = some e ∧ e.key.seg = g ∧ e.key.addr = a then
            { c.slot i with seen := false, activeMerged := false } else c.slot i)
        ∧ { c.clearMarks g a with hist := { (c.clearMarks g a).hist with slots := c.hist.slots } } = c)
  ∧ (∀ (c : Chip) (rest : List WorkItem) (run : Run) (p : Nat) (g : Seg) (a : Byte),
      (∀ f, c.hist.intake = .merge p g a f :: rest → c.takeItem = c.startMerge g a f)
      ∧ (c.hist.intake = .planEnd p g a true :: rest →
        c.takeItem = (c.clearMarks g a).nextSlot { Run.start .stored with todo := c.vanishing g a })
      ∧ (c.hist.intake = .planEnd p g a false :: rest → c.takeItem = (c.clearMarks g a).nextSlot (Run.start .stored))
      ∧ (c.hist.intake = .cleared p g a :: rest →
        c.takeItem = c.nextSlot { Run.start .stored with todo := c.clearing g a })
      ∧ (∀ k scope, c.hist.intake = .purge k scope :: rest →
        c.takeItem = c.nextSlot { Run.start .stored with todo := c.purgePool scope, closing := true })
      ∧ (∀ i key bytes, c.hist.intake = .capture p i key bytes :: rest → c.takeItem = c.startCapture i key bytes)
      ∧ (∀ i key, c.hist.intake = .noSnap p i key :: rest → c.takeItem = c.startNoSnap p i key)
      ∧ (∀ i e todo b, run.todo = i :: todo → (c.slot i).entry = some e →
        (c.hist.intake = .planEnd p g a b :: rest → c.nextSlot run =
          (c.countChanged g a p).changeEntry i { run with todo := todo } { e with status := .vanished })
        ∧ (c.hist.intake = .cleared p g a :: rest → c.nextSlot run =
          (c.countChanged g a p).changeEntry i { run with todo := todo } { e with
            status := .cleared, baseline := 0
            clearedAt := if c.mon.clockUnset then e.clearedAt else some c.mon.ct }))
      ∧ (run.todo = [] → run.closing = false → c.nextSlot run = c.finishItem run)
      ∧ (c.hist.handWait = [] → ∀ d : Chip, d = { c with hist := { c.hist with intake := rest, run := none } } →
        (∀ f, c.hist.intake = .merge p g a f :: rest →
          c.finishItem run = (d.takeResult g a p f run.slot run.result).deliverHeld g a p)
        ∧ (c.hist.intake = .cleared p g a :: rest → c.finishItem run = d)
        ∧ (∀ i key bytes, c.hist.intake = .capture p i key bytes :: rest →
          c.finishItem run = d.deliverHeld key.seg key.addr p)
        ∧ ∀ u r q qs b, c.hist.intake = .planEnd p g a b :: rest → c.findUnit g a = some u → c.unit u = some r →
          r.queue = q :: qs → (q.serial = p → c.finishItem run = d.planFinish u) ∧ (q.serial ≠ p → c.finishItem run = d)))
  ∧ (∀ (c : Chip) (g : Seg) (a : Byte) (serial : Nat) (f : FaultRec) (i : SlotIx) (res : MergeResult),
      (c.planOf g a serial = none → c.takeResult g a serial f i res = c ∧ c.countChanged g a serial = c)
      ∧ ∀ u r p qs, c.findUnit g a = some u → c.unit u = some r → r.queue = p :: qs → p.serial = serial →
        ∀ marked : Hist, marked = { c.hist with slots := c.hist.slots.set i { c.slot i with
          seen := true, activeMerged := (c.slot i).activeMerged || decide (f.state = .active) } } →
        (res = .refused → c.takeResult g a serial f i res = c)
        ∧ (res = .unchanged → c.takeResult g a serial f i res = { c with hist := marked })
        ∧ (res = .changed → c.takeResult g a serial f i res = { c with
            hist := marked
            ctxs := c.ctxs.set p.ctx { c.ctx p.ctx with
              changed := if (c.ctx p.ctx).changed < 65535 then (c.ctx p.ctx).changed + 1 else (c.ctx p.ctx).changed } })
        ∧ (res = .created → c.takeResult g a serial f i res = { c.setUnit u (some { r with
              queue := { p with flags := p.flags ||| 8 } :: qs }) with
            hist := marked
            ctxs := c.ctxs.set p.ctx { c.ctx p.ctx with
              created := if (c.ctx p.ctx).created < 65535 then (c.ctx p.ctx).created + 1 else (c.ctx p.ctx).created } })
        ∧ c.countChanged g a serial = { c with
            ctxs := c.ctxs.set p.ctx { c.ctx p.ctx with
              changed := if (c.ctx p.ctx).changed < 65535 then (c.ctx p.ctx).changed + 1 else (c.ctx p.ctx).changed } })
  ∧ (∀ (p : Plan) (v : Verdict), p.completeHarvest v = true ↔
      (v = .complete ∨ v = .lost ∨ v = .dropped ∨ ∃ why, v = .refused why)
      ∧ p.spoiled = false ∧ ∃ n, p.listed = some n ∧ ∀ i, i < n → i ∈ p.covered)

/-- R126, R127, R128: an entry change takes the next change sequence and hands over writes 1 to 3, the version odd
before its words and even after them; that it writes every shared word, altered or not, is the model's choice (log 42),
and so is that the on-chip version is raised by 2 as the writes end (log 25); write 4 is the header rewrite asked for
then, write 5 follows it, and then the item ends. R141 to R143: an eviction search ends in a creation or a refusal.
R145: a purge frees the slot whose archive word equals its last-change sequence, and counts it; R163: the chain of its
snapshot goes back to the free list, head first, and the header that shows the free blocks follows. R155, R159, R160: a
capture that finds its blocks writes them, and then attaches them and gives an old chain back. R161: a shortage is
counted and its header rewritten, and then the entry is marked where no snapshot is attached. R158, R162: a snapshot
whose key has left its slot changes nothing, a snapshot-none marks its entry. Counts of an order are shown for items of
no running plan. -/
def Obligations.SnapshotsAndPurges : Prop :=
  (∀ (c : Chip) (i : SlotIx) (run : Run) (new e : Entry) (n : Nat),
      n = (if c.hist.changeSeq < 4294967295 then c.hist.changeSeq + 1 else c.hist.changeSeq) →
      e = { new with lastChange := n } →
      ∃ words : List Acc, (∀ a ∈ words, ∃ j w, 1 ≤ j ∧ j ≤ 15 ∧ a = .write (0x2200 + 64 * i.val + 4 * j) (.lit w))
        ∧ (c.hist.changeSeq < 4294967295 → words = (entryWords e).map fun x =>
            .write (0x2200 + 64 * i.val + 4 * x.1) (.lit x.2))
        ∧ (c.hist.changeSeq = 4294967295 → .write (0x2200 + 64 * i.val + 12) (.lit 0) ∈ words)
        ∧ c.changeEntry i run new = { c with
            hist := { c.hist with
              slots := c.hist.slots.set i { c.slot i with entry := some e }
              changeSeq := n
              run := some { run with phase := .slotWrite i, slot := i } }
            port := { c.port with fresh := c.port.fresh ++ [{
              owner := .history, got := []
              accs := .write (0x2200 + 64 * i.val) (.lit ((c.slot i).version + 1)) :: words
                ++ [.write (0x2200 + 64 * i.val) (.lit ((c.slot i).version + 2))] }] } })
  ∧ (∀ (c : Chip) (i : SlotIx) (new e : Entry) (n : Nat),
      n = (if c.hist.changeSeq < 4294967295 then c.hist.changeSeq + 1 else c.hist.changeSeq) →
      e = { new with lastChange := n, createdSeq := n } →
      c.createAt i new = { c with
        hist := { c.hist with
          slots := c.hist.slots.set i { c.slot i with entry := some e, seen := false, activeMerged := false }
          changeSeq := n
          run := some {
            phase := .slotWrite i, todo := [], slot := i, result := .created
            lampRise := decide (e.lamp = .red ∨ e.lamp = .flash), closing := false } }
        port := { c.port with fresh := c.port.fresh ++ [{
          owner := .history, got := []
          accs := .write (0x2200 + 64 * i.val) (.lit ((c.slot i).version + 1))
            :: (((entryWords e).take 2).map fun x => Acc.write (0x2200 + 64 * i.val + 4 * x.1) (.lit x.2))
            ++ .write (0x2200 + 64 * i.val + 12) (.lit 0)
            :: (((entryWords e).drop 2).map fun x => Acc.write (0x2200 + 64 * i.val + 4 * x.1) (.lit x.2))
            ++ [.write (0x2200 + 64 * i.val) (.lit ((c.slot i).version + 2))] }] } })
  ∧ (∀ (c : Chip) (i : SlotIx) (g : Seg) (a : Byte) (u : UnitIx) (r : UnitRec),
      ((c.slot i).entry.bind Entry.snap = none → c.releaseChain i = c)
      ∧ (∀ old, (c.slot i).entry.bind Entry.snap = some old →
        c.releaseChain i = { c with pool := c.pool.giveBack old.chain })
      ∧ (c.findUnit g a = some u → c.unit u = some r → c.col ≠ .stopped → c.refuseRecord g a = Chip.finishItem { c with
          hist := { c.hist with refused := if c.hist.refused < 65535 then c.hist.refused + 1 else c.hist.refused }
          roster := c.roster.set u (some { r with refused := if r.refused < 255 then r.refused + 1 else r.refused })
          regs := { c.regs with notice := c.regs.notice ||| 0x20 } } { Run.start .stored with result := .refused }))
  ∧ (∀ r : SnapRef, r.chain = ([r.head, r.second, r.third].take ((r.length + 15) / 16)).map BitVec.toFin)
  ∧ (∀ (p : Pool) (b : Fin 256) (bs : List (Fin 256)), p.giveBack [] = p
      ∧ (p.owner[b] = none → p.giveBack (b :: bs) = p.giveBack bs)
      ∧ (p.owner[b] ≠ none → p.giveBack (b :: bs) =
        { p with owner := p.owner.set b none, free := b :: p.free }.giveBack bs))
  ∧ (∀ (s : State) (l : List (Word × Byte)) (got : List Word) (run : Run) (c : Chip), s.EndsRequest l .history got →
      s.chip.hist.run = some run → c = s.chip.portFree →
      (∀ i, run.phase = .slotWrite i →
        Machine.exec (.exchangeAccessCompletion l) s = .next (s.accessed l { c with
          hist := { c.hist with
            slots := c.hist.slots.set i { c.slot i with version := (c.slot i).version + 2 }
            run := some { run with phase := .published (if c.hdr.busy then 2 else 1) } }
          hdr := { c.hdr with wanted := true } }))
      ∧ (∀ bs p i key bytes e, run.phase = .data bs → c.hist.intake.head? = some (.capture p i key bytes) →
          (c.slot i).entry = some e → c.planOf key.seg key.addr p = none → e.snap = none →
          Machine.exec (.exchangeAccessCompletion l) s = .next (s.accessed l (Chip.changeEntry
            { c with pool := c.pool.attach i bs } i run { e with
              snapNone := false, snapDropped := false, bareCt := false
              snap := some {
                head := ((bs[0]?.map fun b => BitVec.ofNat 8 b.val).getD 0)
                second := ((bs[1]?.map fun b => BitVec.ofNat 8 b.val).getD 0)
                third := ((bs[2]?.map fun b => BitVec.ofNat 8 b.val).getD 0)
                length := bytes.length, ct := if c.mon.clockUnset then none else some c.mon.ct, cycle := c.mon.k } })))
      ∧ (∀ bs p i key bytes e old, run.phase = .data bs → c.hist.intake.head? = some (.capture p i key bytes) →
          (c.slot i).entry = some e → c.planOf key.seg key.addr p = none → e.snap = some old →
          Machine.exec (.exchangeAccessCompletion l) s = .next (s.accessed l (Chip.changeEntry
            { c with pool := (c.pool.attach i bs).giveBack old.chain } i run { e with
              snapNone := false, snapDropped := false, bareCt := false
              snap := some {
                head := ((bs[0]?.map fun b => BitVec.ofNat 8 b.val).getD 0)
                second := ((bs[1]?.map fun b => BitVec.ofNat 8 b.val).getD 0)
                third := ((bs[2]?.map fun b => BitVec.ofNat 8 b.val).getD 0)
                length := bytes.length, ct := if c.mon.clockUnset then none else some c.mon.ct, cycle := c.mon.k } })))
      ∧ (∀ slots h p g a r, run.phase = .search slots h → c.hist.intake.head? = some (.merge p g a r) →
          (∀ i n, c.victim (slots.zip got) = some (i, n) →
            Machine.exec (.exchangeAccessCompletion l) s = .next (s.accessed l ((c.releaseChain i).createAt i
              (createEntry { seg := g, addr := a, code := r.code, kind := r.kind } h r))))
          ∧ (c.victim (slots.zip got) = none →
            Machine.exec (.exchangeAccessCompletion l) s = .next (s.accessed l (c.refuseRecord g a))))
      ∧ (∀ i k scope e, run.phase = .purgeRead i → c.hist.intake.head? = some (.purge k scope) →
          (c.slot i).entry = some e → (wordAt got 0).toNat = e.lastChange → ∀ pool : Pool,
          (e.snap = none ∧ pool = c.pool ∨ ∃ old, e.snap = some old ∧ pool = c.pool.giveBack old.chain) →
          Machine.exec (.exchangeAccessCompletion l) s = .next (s.accessed l { c with
            pool := pool
            hist := { c.hist with
              slots := c.hist.slots.set i { c.slot i with entry := none, seen := false, activeMerged := false }
              inUse := c.hist.inUse - 1, run := some { run with phase := .purgeFree i } }
            ctxs := c.ctxs.set k { c.ctx k with
              freed := if (c.ctx k).freed < 65535 then (c.ctx k).freed + 1 else (c.ctx k).freed }
            port := { c.port with fresh := c.port.fresh ++ [{
              owner := .history, got := []
              accs := .write (0x2200 + 64 * i.val) (.lit ((c.slot i).version + 1))
                :: ((List.range 15).map fun j => Acc.write (0x2200 + 64 * i.val + 4 * (j + 1)) (.lit 0))
                ++ [.write (0x2200 + 64 * i.val) (.lit ((c.slot i).version + 2))] }] } }))
      ∧ (∀ i k scope e, run.phase = .purgeRead i → c.hist.intake.head? = some (.purge k scope) →
          (c.slot i).entry = some e → (wordAt got 0).toNat ≠ e.lastChange →
          Machine.exec (.exchangeAccessCompletion l) s = .next (s.accessed l (c.nextSlot run)))
      ∧ (∀ i, run.phase = .purgeFree i → run.todo = [] → run.closing = true →
          Machine.exec (.exchangeAccessCompletion l) s = .next (s.accessed l { c with
            hist := { c.hist with
              slots := c.hist.slots.set i { c.slot i with version := (c.slot i).version + 2 }
              run := some { run with phase := .lastHeader (if c.hdr.busy then 2 else 1) } }
            hdr := { c.hdr with wanted := true } }))
      ∧ (run.phase = .stored → run.todo = [] →
          (run.closing = true → Machine.exec (.exchangeAccessCompletion l) s = .next (s.accessed l { c with
            hist := { c.hist with run := some { run with phase := .lastHeader (if c.hdr.busy then 2 else 1) } }
            hdr := { c.hdr with wanted := true } }))
          ∧ (run.closing = false →
            Machine.exec (.exchangeAccessCompletion l) s = .next (s.accessed l (c.finishItem run)))))
  ∧ (∀ (s : State) (l : List (Word × Byte)) (got : List Word) (run : Run) (c : Chip), s.EndsRequest l .header got →
      s.chip.hist.run = some run → s.chip.start = none → (∀ k, (s.chip.ctx k).clockWait = 0) →
      c = { s.chip.portFree with
        hdr := { busy := false, pending := false, wanted := s.chip.hdr.wanted || s.chip.hdr.pending } } →
      (run.phase = .published 2 → Machine.exec (.exchangeAccessCompletion l) s =
        .next (s.accessed l { c with hist := { c.hist with run := some { run with phase := .published 1 } } }))
      ∧ (run.phase = .published 1 → Machine.exec (.exchangeAccessCompletion l) s = .next (s.accessed l { c with
          hist := { c.hist with run := some { run with phase := .stored } }
          port := { c.port with fresh := c.port.fresh ++ [{
            owner := .history, accs := [.write 0x210C (.lit (BitVec.ofNat 32 c.hist.changeSeq))], got := [] }] } }))
      ∧ (∀ p i key bytes e, run.phase = .shortHeader 1 → run.slot = i →
          c.hist.intake.head? = some (.capture p i key bytes) → (c.slot i).entry = some e →
          c.planOf key.seg key.addr p = none →
          (e.snap = none → e.snapDropped = false → Machine.exec (.exchangeAccessCompletion l) s =
            .next (s.accessed l (c.changeEntry i run { e with snapDropped := true })))
          ∧ (e.snap ≠ none ∨ e.snapDropped = true → Machine.exec (.exchangeAccessCompletion l) s =
            .next (s.accessed l (c.finishItem run))))
      ∧ (∀ k scope rest d, run.phase = .lastHeader 1 → c.hist.intake = .purge k scope :: rest → c.hist.handWait = [] →
          d = { c with hist := { c.hist with intake := rest, run := none } } →
          (∀ card, (c.ctx k).state = .running → (c.ctx k).source = .card card →
            Machine.exec (.exchangeAccessCompletion l) s = .next (s.accessed l { d with
              ctxs := d.ctxs.set k { d.ctx k with state := .writing }
              port := { d.port with fresh := d.port.fresh ++ [{
                owner := .result k, accs := resultAccs card (d.ctx k) (d.ctx k).endCode 0 3, got := [] }] } }))
          ∧ ((c.ctx k).state ≠ .running →
            Machine.exec (.exchangeAccessCompletion l) s = .next (s.accessed l d))))
  ∧ (∀ (c : Chip) (i : SlotIx) (key : Key) (bytes : List Byte) (n : Nat), n = (bytes.length + 15) / 16 →
      ((∀ e, (c.slot i).entry = some e → e.key ≠ key) → c.startCapture i key bytes = c.finishItem (Run.start .stored))
      ∧ (∀ e, (c.slot i).entry = some e → e.key = key →
          (n ≤ c.pool.free.length → c.startCapture i key bytes = { c with
            hist := { c.hist with run := some {
              phase := .data (c.pool.free.take n), todo := [], slot := i, result := .unchanged, lampRise := false
              closing := true } }
            port := { c.port with fresh := c.port.fresh ++ [{
              owner := .history, accs := blockAccs (c.pool.free.take n) bytes, got := [] }] } })
          ∧ (c.pool.free.length < n → c.startCapture i key bytes = { c with
            pool := { c.pool with shortage := if c.pool.shortage < 65535 then c.pool.shortage + 1 else c.pool.shortage }
            hist := { c.hist with run := some {
              phase := .shortHeader (if c.hdr.busy then 2 else 1), todo := [], slot := i, result := .unchanged
              lampRise := false, closing := false } }
            hdr := { c.hdr with wanted := true } })))
  ∧ (∀ (bs : List (Fin 256)) (bytes : List Byte) (m : Nat) (a : Acc), (blockAccs bs bytes)[m]? = some a →
      ∃ b w, bs[m / 4]? = some b ∧ a = .write (0xA200 + 16 * b.val + 4 * (m % 4)) (.lit w)
        ∧ ∀ j : Nat, j < 4 → w.extractLsb' (8 * j) 8 = bytes.getD (4 * m + j) 0)
  ∧ (∀ (c : Chip) (p : Nat) (i : SlotIx) (key : Key), c.planOf key.seg key.addr p = none →
      (∀ e, (c.slot i).entry = some e → e.key = key → e.snapNone = false →
        c.startNoSnap p i key = c.changeEntry i (Run.start .stored) { e with snapNone := true })
      ∧ ((∀ e, (c.slot i).entry = some e → e.key ≠ key ∨ e.snapNone = true) →
        c.startNoSnap p i key = c.finishItem (Run.start .stored)))

/-- R141: an eviction takes an archived slot, one whose archive word equals its last-change sequence, and of those the
one with the smallest sequence, the lowest slot where several have it; none where no slot that was read is archived.
R154, R156: blocks are taken and given back without loss: what leaves the free list gets its owner and comes back to the
top of the list in walk order. -/
def Obligations.SlotsAndBlocksAreTaken : Prop :=
  (∀ (c : Chip) (read : List (SlotIx × Word)),
      (∀ i n, c.victim read = some (i, n) →
        (∃ w e, (i, w) ∈ read ∧ (c.slot i).entry = some e ∧ w.toNat = e.lastChange ∧ n = e.lastChange)
        ∧ (∀ j w e, (j, w) ∈ read → (c.slot j).entry = some e → w.toNat = e.lastChange → n ≤ e.lastChange)
        ∧ (read.Pairwise (fun x y => x.1 < y.1) → ∀ j w e, (j, w) ∈ read → (c.slot j).entry = some e →
            w.toNat = e.lastChange → e.lastChange = n → i ≤ j))
      ∧ (c.victim read = none → ∀ j w e, (j, w) ∈ read → (c.slot j).entry = some e → w.toNat ≠ e.lastChange))
  ∧ (∀ (p : Pool) (i : SlotIx) (bs : List (Fin 256)), bs.Nodup → p.free.Nodup → (∀ b ∈ bs, b ∈ p.free) →
      (∀ b ∈ bs, (p.attach i bs).owner[b] = some i ∧ b ∉ (p.attach i bs).free)
      ∧ (∀ b, b ∉ bs → (p.attach i bs).owner[b] = p.owner[b] ∧ (b ∈ (p.attach i bs).free ↔ b ∈ p.free))
      ∧ ((p.attach i bs).giveBack bs).free.Perm p.free
      ∧ ((p.attach i bs).giveBack bs).free = bs.reverse ++ (p.attach i bs).free
      ∧ ∀ b ∈ bs, ((p.attach i bs).giveBack bs).owner[b] = none)

/-- R124, R150, R200: the sixteen words of an entry with its fields in range, under an even version and any archive
word, read back as the same entry. -/
def Obligations.EntryRoundTrip : Prop :=
  ∀ (e : Entry) (version archive : Word), version.toNat % 2 = 0 →
    1 ≤ e.key.addr.toNat → e.key.addr.toNat ≤ 0xEE → e.key.code ≠ 0 → e.key.code ≠ 0xFFFFFF → e.key.kind.toNat ≤ 15 →
    e.lastChange < 4294967296 → e.createdSeq < 4294967296 → e.total < 65536 → e.baseline < 256 → e.restarts < 256 →
    (∀ n, e.firstSeen = some n → n < 4294967296) → (∀ n, e.lastSeen = some n → n < 4294967296) →
    (∀ n, e.lastCycle = some n → n < 16777216) → e.createdCycle < 16777216 →
    (∀ n, e.clearedAt = some n → n < 4294967296) →
    (∀ r, e.snap = some r → 1 ≤ r.length ∧ r.length < 256 ∧ r.cycle < 16777216
      ∧ ∀ n, r.ct = some n → n < 4294967296) →
    (e.snap ≠ none → e.bareCt = false) →
    readSlot (version :: ((entryWords e).take 2).map Prod.snd ++ archive :: ((entryWords e).drop 2).map Prod.snd) =
      .entry e
end

