-- ==== Sys2Proof/Laws/Base.lean ====
section
/-!
SUPPORT. What the segments, sessions, plans, exchanges and the history leave alone: the registers but NOTICE, the collector
state, the settings, the monitor, the scan, the mirror and STARTING. One lemma for each operation.
-/

namespace Sys2Proof.Machine

/-- The part of the chip that the work of segments, sessions, plans, exchanges and history never touches. -/
structure Base where
  regs : Regs
  col : Collector
  stopRequest : Bool
  stopTimer : Timer
  profileState : ProfileState
  profileFaults : Nat
  settings : Option Settings
  sweepOverruns : Nat
  mon : Monitor
  scan : Scan
  mirrors : Vector Mirror 64
  load : Option Load
  start : Option Starting

/-- The untouched part of a chip. -/
def Chip.base (c : Chip) : Base :=
  { regs := { c.regs with notice := 0 }, col := c.col, stopRequest := c.stopRequest, stopTimer := c.stopTimer,
    profileState := c.profileState, profileFaults := c.profileFaults, settings := c.settings,
    sweepOverruns := c.sweepOverruns, mon := c.mon, scan := c.scan, mirrors := c.mirrors, load := c.load,
    start := c.start }

/-! ## Single updates -/

theorem Chip.base_with_roster (c : Chip) (x : Vector (Option UnitRec) 64) : ({ c with roster := x } : Chip).base = c.base :=
  rfl
theorem Chip.base_with_rosterFull (c : Chip) (x : Nat) : ({ c with rosterFull := x } : Chip).base = c.base := rfl
theorem Chip.base_with_sweep (c : Chip) (x y : Nat) :
    ({ c with sweepCount := x, lastSweepSeq := y } : Chip).base = c.base := rfl
theorem Chip.base_with_hist (c : Chip) (x : Hist) : ({ c with hist := x } : Chip).base = c.base := rfl
theorem Chip.base_with_pool (c : Chip) (x : Pool) : ({ c with pool := x } : Chip).base = c.base := rfl
theorem Chip.base_with_nextSerial (c : Chip) (x : Nat) : ({ c with nextSerial := x } : Chip).base = c.base := rfl
theorem Chip.base_with_segs (c : Chip) (x : Vector SegRec 4) : ({ c with segs := x } : Chip).base = c.base := rfl
@[simp] theorem Chip.setUnit_base (c : Chip) (u : UnitIx) (r : Option UnitRec) : (c.setUnit u r).base = c.base := rfl
@[simp] theorem Chip.modSeg_base (c : Chip) (g : Seg) (f : SegRec → SegRec) : (c.modSeg g f).base = c.base := rfl
@[simp] theorem Chip.modCtx_base (c : Chip) (k : CtxIx) (f : Ctx → Ctx) : (c.modCtx k f).base = c.base := rfl
@[simp] theorem Chip.modSlot_base (c : Chip) (i : SlotIx) (f : SlotRec → SlotRec) : (c.modSlot i f).base = c.base := rfl
@[simp] theorem Chip.modHist_base (c : Chip) (f : Hist → Hist) : (c.modHist f).base = c.base := rfl
@[simp] theorem Chip.modPort_base (c : Chip) (f : Port → Port) : (c.modPort f).base = c.base := rfl
@[simp] theorem Chip.hand_base (c : Chip) (o : Owner) (as : List Acc) : (c.hand o as).base = c.base := rfl
@[simp] theorem Chip.giveUp_base (c : Chip) (o : Owner) : (c.giveUp o).base = c.base := rfl
@[simp] theorem Chip.wantHeader_base (c : Chip) : c.wantHeader.base = c.base := rfl
@[simp] theorem Chip.setCause_base (c : Chip) (x : Cause) : (c.setCause x).base = c.base := by
  unfold Chip.setCause
  split <;> rfl
@[simp] theorem Chip.modUnit_base (c : Chip) (u : UnitIx) (f : UnitRec → UnitRec) : (c.modUnit u f).base = c.base := by
  unfold Chip.modUnit
  split <;> rfl
@[simp] theorem Chip.modSession_base (c : Chip) (u : UnitIx) (f : Session → Session) :
    (c.modSession u f).base = c.base := Chip.modUnit_base ..
@[simp] theorem Chip.modExch_base (c : Chip) (u : UnitIx) (f : Exchange → Exchange) : (c.modExch u f).base = c.base :=
  Chip.modUnit_base ..
@[simp] theorem Chip.modPlan_base (c : Chip) (u : UnitIx) (f : Plan → Plan) : (c.modPlan u f).base = c.base :=
  Chip.modUnit_base ..

/-- A fold of operations that leave the part alone leaves it alone. -/
theorem Chip.foldl_base {α : Type} {f : Chip → α → Chip} (h : ∀ c x, (f c x).base = c.base) (l : List α) (c : Chip) :
    (l.foldl f c).base = c.base := by
  induction l generalizing c with
  | nil => rfl
  | cons x rest ih => rw [List.foldl_cons, ih, h]

/-! ## Operations -/

@[simp] theorem Chip.grant_base (c : Chip) (g : Seg) : (Chip.grant c g).base = c.base := by
  unfold Chip.grant
  (repeat' split) <;> simp only [Chip.modSeg_base]

@[simp] theorem Chip.post_base (c : Chip) (g : Seg) (addr : Byte) (msg : Msg) (again : Bool) : (Chip.post c g addr msg again).base = c.base := by
  unfold Chip.post
  simp only [Chip.modSeg_base, Chip.grant_base]

@[simp] theorem Chip.withdraw_base (c : Chip) (g : Seg) (addr : Byte) (which : Msg → Bool) : (Chip.withdraw c g addr which).base = c.base := by
  unfold Chip.withdraw
  simp only [Chip.modSeg_base]

@[simp] theorem Chip.modAllSegs_base (c : Chip) (f : SegRec → SegRec) : (Chip.modAllSegs c f).base = c.base := by
  unfold Chip.modAllSegs
  simp only [Chip.base_with_segs]

@[simp] theorem Chip.grantAll_base (c : Chip) : c.grantAll.base = c.base := Chip.foldl_base Chip.grant_base _ _

@[simp] theorem Chip.strayOf_base (c : Chip) (g : Seg) : (Chip.strayOf c g).base = c.base := by
  unfold Chip.strayOf
  simp only [Chip.modSeg_base]

@[simp] theorem Chip.hear_base (c : Chip) (u : UnitIx) : (Chip.hear c u).base = c.base := by
  unfold Chip.hear
  simp only [Chip.modUnit_base]

@[simp] theorem Chip.lose_base (c : Chip) (u : UnitIx) : (Chip.lose c u).base = c.base := by
  unfold Chip.lose
  simp only [Chip.modUnit_base, Chip.setCause_base]

@[simp] theorem Chip.strayUnit_base (c : Chip) (u : UnitIx) : (Chip.strayUnit c u).base = c.base := by
  unfold Chip.strayUnit
  simp only [Chip.modUnit_base]

@[simp] theorem Chip.postFor_base (c : Chip) (u : UnitIx) (msg : Msg) (again : Bool) : (Chip.postFor c u msg again).base = c.base := by
  unfold Chip.postFor
  (repeat' split) <;> simp only [Chip.post_base]

@[simp] theorem Chip.withdrawFor_base (c : Chip) (u : UnitIx) (which : Msg → Bool) : (Chip.withdrawFor c u which).base = c.base := by
  unfold Chip.withdrawFor
  (repeat' split) <;> simp only [Chip.withdraw_base]

@[simp] theorem Chip.coolUnit_base (c : Chip) (u : UnitIx) (recovery : Bool) : (Chip.coolUnit c u recovery).base = c.base := by
  unfold Chip.coolUnit
  simp only [Chip.modUnit_base, Chip.withdrawFor_base]

@[simp] theorem Chip.payDebt_base (c : Chip) (u : UnitIx) : (Chip.payDebt c u).base = c.base := by
  unfold Chip.payDebt
  (repeat' split) <;> simp only [Chip.modSession_base, Chip.withdrawFor_base]

@[simp] theorem Chip.postOpen_base (c : Chip) (u : UnitIx) : (Chip.postOpen c u).base = c.base := by
  unfold Chip.postOpen
  (repeat' split) <;> simp only [Chip.modSession_base, Chip.postFor_base]

@[simp] theorem Chip.needSession_base (c : Chip) (u : UnitIx) (req : Option Req) : (c.needSession u req).base = c.base := by
  unfold Chip.needSession
  extract_lets d
  have h : d.base = c.base := Chip.modSession_base ..
  clear_value d
  rw [← h]
  split
  · split
    · rw [Chip.postOpen_base, Chip.modSession_base]
    · cases req with
      | some q => exact (Chip.postFor_base ..).trans (Chip.withdrawFor_base ..)
      | none => exact Chip.withdrawFor_base ..
  all_goals simp only [Chip.postOpen_base, Chip.modSession_base]

@[simp] theorem Chip.shedOpen_base (c : Chip) (u : UnitIx) : (c.shedOpen u).base = c.base := by
  unfold Chip.shedOpen
  (repeat' split) <;> simp only [Chip.modUnit_base]

@[simp] theorem Chip.dropOpen_base (c : Chip) (u : UnitIx) : (Chip.dropOpen c u).base = c.base := by
  unfold Chip.dropOpen
  rw [Chip.withdrawFor_base, Chip.shedOpen_base, Chip.modSession_base]

@[simp] theorem Chip.shedOpens_base (c : Chip) (g : Seg) : (c.shedOpens g).base = c.base :=
  Chip.foldl_base (fun _ _ => Chip.shedOpen_base ..) _ _

@[simp] theorem Chip.withdrawSlot_base (c : Chip) (g : Seg) : (c.withdrawSlot g).base = c.base := by
  unfold Chip.withdrawSlot
  split
  · rfl
  · extract_lets d
    have h : d.base = c.base := Chip.modSeg_base ..
    clear_value d
    (repeat' split) <;> simp only [Chip.shedOpen_base, h]

@[simp] theorem Chip.askClose_base (c : Chip) (u : UnitIx) : (Chip.askClose c u).base = c.base := by
  unfold Chip.askClose
  (repeat' split) <;> simp only [Chip.modSession_base, Chip.postFor_base, Chip.dropOpen_base]

@[simp] theorem Chip.dropSession_base (c : Chip) (u : UnitIx) : (Chip.dropSession c u).base = c.base := by
  unfold Chip.dropSession
  (repeat' split) <;> simp only [Chip.setUnit_base, Chip.modSeg_base, Chip.withdrawFor_base]

@[simp] theorem Chip.endSession_base (c : Chip) (u : UnitIx) : (Chip.endSession c u).base = c.base := by
  unfold Chip.endSession
  (repeat' split) <;> simp only [Chip.setUnit_base, Chip.modSeg_base, Chip.withdrawFor_base]

@[simp] theorem Chip.handOver_base (c : Chip) (i : WorkItem) (origin : Option Seg) : (Chip.handOver c i origin).base = c.base := by
  unfold Chip.handOver
  simp only [Chip.modHist_base]

@[simp] theorem Chip.recordOutcome_base (c : Chip) (k : CtxIx) (u : UnitIx) (v : Verdict) (step : Nat) : (Chip.recordOutcome c k u v step).base = c.base := by
  unfold Chip.recordOutcome
  simp only [Chip.modCtx_base]

@[simp] theorem Chip.orderEnd_base (c : Chip) (k : CtxIx) : (c.orderEnd k).base = c.base := by
  unfold Chip.orderEnd
  extract_lets x d
  have h : d.base = c.base := rfl
  clear_value d
  split
  · rfl
  · split
    · rfl
    · rw [Chip.modCtx_base, Chip.setCause_base, h]

@[simp] theorem Chip.endIfDone_base (c : Chip) (k : CtxIx) : (c.endIfDone k).base = c.base := by
  unfold Chip.endIfDone
  extract_lets x
  split
  · exact Chip.orderEnd_base ..
  · rfl

@[simp] theorem Chip.clearMarks_base (c : Chip) (g : Seg) (addr : Byte) : (c.clearMarks g addr).base = c.base :=
  Chip.foldl_base (fun _ _ => Chip.modSlot_base ..) _ _

@[simp] theorem Chip.handPlanEnd_base (c : Chip) (u : UnitIx) : (c.handPlanEnd u).base = c.base := by
  unfold Chip.handPlanEnd
  (repeat' split) <;> simp only [Chip.handOver_base]

@[simp] theorem Chip.endPlan_base (c : Chip) (u : UnitIx) (v : Verdict) (step : Nat) : (Chip.endPlan c u v step).base = c.base := by
  unfold Chip.endPlan
  split
  · extract_lets c1 c2
    have h : c2.base = c.base := (Chip.modSession_base ..).trans (Chip.modPlan_base ..)
    clear_value c1 c2
    split <;> simp only [Chip.handPlanEnd_base, h]
  · rfl

@[simp] theorem Chip.startWork_base (c : Chip) (u : UnitIx) (r : UnitRec) (p : Plan) (s : Step) : (Chip.startWork c u r p s).1.base = c.base := by
  unfold Chip.startWork
  (repeat' split) <;> simp only [Chip.modPlan_base, Chip.needSession_base, Chip.askClose_base]

@[simp] theorem Chip.settleStep_base (c : Chip) (u : UnitIx) (e : StepEnd) : (c.settleStep u e).1.base = c.base := by
  unfold Chip.settleStep
  split
  · rfl
  · extract_lets x i pairing goOn
    have h : ∀ pair, (goOn pair).1.base = c.base := by
      intro pair
      simp only [goOn]
      (repeat' split) <;> simp only [Chip.endPlan_base, Chip.modPlan_base]
    clear_value goOn pairing
    cases e <;> cases pairing <;> first | exact h _ | exact Chip.endPlan_base ..

@[simp] theorem Chip.runPlan_base (fuel : Nat) (c : Chip) (u : UnitIx) : (Chip.runPlan fuel c u).base = c.base := by
  induction fuel generalizing c with
  | zero => rfl
  | succ n ih =>
    unfold Chip.runPlan
    split
    · rename_i r p _ _
      split
      · split
        · rfl
        · rename_i s _
          split
          · have h := Chip.settleStep_base c u .skipped
            generalize c.settleStep u .skipped = d at h ⊢
            obtain ⟨d, more⟩ := d
            simp only at h ⊢
            split
            · rw [ih, h]
            · exact h
          · have h := Chip.startWork_base c u r p s
            generalize c.startWork u r p s = d at h ⊢
            obtain ⟨d, _ | e⟩ := d
            · exact h
            · have h2 := Chip.settleStep_base d u e
              simp only at h h2 ⊢
              generalize d.settleStep u e = d2 at h2 ⊢
              obtain ⟨d2, more⟩ := d2
              simp only at h2 ⊢
              split
              · rw [ih, h2, h]
              · rw [h2, h]
      · rfl
    · rfl

@[simp] theorem Chip.stepEnds_base (c : Chip) (u : UnitIx) (e : StepEnd) : (c.stepEnds u e).base = c.base := by
  unfold Chip.stepEnds
  have h := Chip.settleStep_base c u e
  generalize c.settleStep u e = d at h ⊢
  obtain ⟨d, more⟩ := d
  simp only at h ⊢
  split
  · rw [Chip.runPlan_base, h]
  · exact h

@[simp] theorem Chip.deliver_base (c : Chip) (u : UnitIx) (e : ReqEnd) : (c.deliver u e).base = c.base := by
  unfold Chip.deliver
  split
  · rfl
  · split
    · extract_lets d
      have h : d.base = c.base := Chip.modPlan_base ..
      clear_value d
      rw [← h]
      (repeat' split) <;> simp only [Chip.modPlan_base, Chip.needSession_base, Chip.stepEnds_base]
    · rfl

@[simp] theorem Chip.requestEnded_base (c : Chip) (u : UnitIx) (serial : Nat) (e : ReqEnd) :
    (c.requestEnded u serial e).base = c.base := by
  unfold Chip.requestEnded
  split
  · rfl
  · split
    · extract_lets d
      have h : d.base = c.base := by
        simp only [d]
        split <;> simp only [Chip.modPlan_base]
      clear_value d
      rw [← h]
      split <;> simp only [Chip.modPlan_base, Chip.deliver_base]
    · rfl

@[simp] theorem Chip.firstPlanEnd_base (c : Chip) (u : UnitIx) (e : ReqEnd) : (c.firstPlanEnd u e).base = c.base := by
  unfold Chip.firstPlanEnd
  (repeat' split) <;> simp only [Chip.requestEnded_base]

@[simp] theorem Chip.closeStepDone_base (c : Chip) (u : UnitIx) : (Chip.closeStepDone c u).base = c.base := by
  unfold Chip.closeStepDone
  (repeat' split) <;> simp only [Chip.stepEnds_base]

@[simp] theorem Chip.startHold_base (c : Chip) (u : UnitIx) : (Chip.startHold c u).base = c.base := by
  unfold Chip.startHold
  (repeat' split) <;> simp only [Chip.modPlan_base]

@[simp] theorem Chip.resume_base (c : Chip) (u : UnitIx) : (c.resume u).base = c.base := by
  unfold Chip.resume
  split
  · rfl
  · extract_lets waits c1 c2
    have h1 : c1.base = c.base := Chip.modSession_base ..
    have h2 : c2.base = c.base := Chip.needSession_base ..
    clear_value c1 c2
    split
    · rw [Chip.needSession_base, h1]
    · split
      · split
        · rw [Chip.startHold_base, h2]
        · exact h2
      · rfl

@[simp] theorem Chip.beginPlan_base (c : Chip) (u : UnitIx) : (c.beginPlan u).base = c.base := by
  unfold Chip.beginPlan
  split
  · split
    · rfl
    · extract_lets d
      have h : d.base = c.base := Chip.modPlan_base ..
      clear_value d
      rw [← h]
      (repeat' split) <;> simp only [Chip.endPlan_base, Chip.runPlan_base]
  · rfl

@[simp] theorem Chip.planFinish_base (c : Chip) (u : UnitIx) : (c.planFinish u).base = c.base := by
  unfold Chip.planFinish
  split
  · rfl
  · split
    · rfl
    · extract_lets c1 c2 c3
      have h1 : c1.base = c.base := by
        simp only [c1]
        split <;> simp only [Chip.askClose_base]
      have h2 : c2.base = c1.base := Chip.recordOutcome_base ..
      have h3 : c3.base = c2.base := Chip.modUnit_base ..
      clear_value c1 c2 c3
      rw [Chip.beginPlan_base, Chip.endIfDone_base, h3, h2, h1]

@[simp] theorem Chip.addPlan_base (c : Chip) (k : CtxIx) (u : UnitIx) : (Chip.addPlan c k u).base = c.base := by
  unfold Chip.addPlan
  simp only [Chip.base_with_nextSerial, Chip.modUnit_base, Chip.beginPlan_base]

@[simp] theorem Chip.startHarvest_base (c : Chip) (k : CtxIx) (mask : BitVec 64) : (c.startHarvest k mask).base = c.base := by
  unfold Chip.startHarvest
  extract_lets named targets empty d
  have h : d.base = c.base := Chip.modCtx_base ..
  clear_value d
  rw [Chip.endIfDone_base, Chip.foldl_base (fun _ _ => Chip.addPlan_base ..), h]

@[simp] theorem Chip.restartStep_base (c : Chip) (u : UnitIx) (p : Plan) (old : Option Exchange) : (Chip.restartStep c u p old).base = c.base := by
  unfold Chip.restartStep
  (repeat' split) <;> simp only [Chip.modPlan_base, Chip.needSession_base]

@[simp] theorem Chip.planDrop_base (c : Chip) (u : UnitIx) (counted : Bool) (old : Option Exchange) :
    (c.planDrop u counted old).base = c.base := by
  unfold Chip.planDrop
  extract_lets discard
  have h : discard.base = c.base := Chip.modSession_base ..
  clear_value discard
  split
  · exact h
  · split
    · exact h
    · extract_lets n d
      have hd : d.base = c.base := by rw [← h]; exact Chip.modPlan_base ..
      clear_value d
      rw [← hd]
      (repeat' split) <;> simp only [Chip.endPlan_base, Chip.stepEnds_base, Chip.restartStep_base]

@[simp] theorem Chip.drop_base (c : Chip) (u : UnitIx) (counted : Bool) : (c.drop u counted).base = c.base := by
  unfold Chip.drop
  split
  · rw [Chip.planDrop_base, Chip.dropSession_base]
  · rfl

@[simp] theorem Chip.dropSegment_base (c : Chip) (g : Seg) (counted : Bool) : (c.dropSegment g counted).base = c.base :=
  Chip.foldl_base (fun _ _ => Chip.drop_base ..) _ _

@[simp] theorem Chip.withdrawPlan_base (c : Chip) (k : CtxIx) (u : UnitIx) : (c.withdrawPlan k u).base = c.base := by
  unfold Chip.withdrawPlan
  split
  · rfl
  · extract_lets queued c1 c2
    have h1 : c1.base = c.base := Chip.modUnit_base ..
    have h2 : c2.base = c1.base := Chip.foldl_base (fun _ _ => Chip.recordOutcome_base ..) _ _
    clear_value c1 c2
    rw [← h1, ← h2]
    (repeat' split) <;> simp only [Chip.endPlan_base, Chip.stepEnds_base]

@[simp] theorem Chip.withdrawHarvest_base (c : Chip) (k : CtxIx) : (c.withdrawHarvest k).base = c.base := by
  unfold Chip.withdrawHarvest
  rw [Chip.endIfDone_base, Chip.foldl_base (fun _ _ => Chip.withdrawPlan_base ..)]
  rfl

@[simp] theorem Chip.cutUnit_base (v : Verdict) (c : Chip) (u : UnitIx) : (Chip.cutUnit v c u).base = c.base := by
  unfold Chip.cutUnit
  split
  · rfl
  · extract_lets cut src d
    have h : d.base = c.base := rfl
    clear_value d
    split
    · rfl
    · rw [Chip.foldl_base, h]
      intro c p
      extract_lets c1
      have h1 : c1.base = c.base := Chip.recordOutcome_base ..
      clear_value c1
      split
      · rw [Chip.handOver_base, Chip.clearMarks_base, h1]
      · exact h1

@[simp] theorem Chip.cutPlans_base (c : Chip) (v : Verdict) : (c.cutPlans v).base = c.base := by
  unfold Chip.cutPlans
  rw [Chip.foldl_base Chip.endIfDone_base, Chip.foldl_base (Chip.cutUnit_base v)]
  rfl

@[simp] theorem Chip.startCensus_base (c : Chip) (k : CtxIx) (g : Seg) : (Chip.startCensus c k g).base = c.base := by
  unfold Chip.startCensus
  simp only [Chip.modSeg_base, Chip.post_base]

@[simp] theorem Chip.endCensus_base (c : Chip) (g : Seg) (code : ErrorCode) : (Chip.endCensus c g code).base = c.base := by
  unfold Chip.endCensus
  (repeat' split) <;> simp only [Chip.modSeg_base, Chip.modCtx_base, Chip.orderEnd_base]

@[simp] theorem Chip.cutCensuses_base (c : Chip) : c.cutCensuses.base = c.base :=
  Chip.foldl_base (fun _ _ => Chip.endCensus_base ..) _ _

@[simp] theorem Chip.openWentOut_base (c : Chip) (u : UnitIx) : (Chip.openWentOut c u).base = c.base := by
  unfold Chip.openWentOut
  (repeat' split) <;> simp only [Chip.setUnit_base]

@[simp] theorem Chip.requestWentOut_base (c : Chip) (u : UnitIx) (q : Req) (again : Bool) :
    (c.requestWentOut u q again).base = c.base := by
  unfold Chip.requestWentOut
  split
  · rfl
  · extract_lets src c1 c2
    have h1 : c1.base = c.base := by
      simp only [c1]
      (repeat' split) <;> rfl
    have h2 : c2.base = c1.base := by
      simp only [c2]
      split
      · rw [Chip.modSession_base, Chip.withdrawFor_base]
      · rfl
    clear_value c1 c2
    rw [Chip.payDebt_base, h2, h1]

@[simp] theorem Chip.pullWentOut_base (c : Chip) (u : UnitIx) (credit : Nat) : (Chip.pullWentOut c u credit).base = c.base := by
  unfold Chip.pullWentOut
  (repeat' split) <;> simp only [Chip.modExch_base, Chip.payDebt_base]

@[simp] theorem Chip.closeWentOut_base (c : Chip) (u : UnitIx) : (Chip.closeWentOut c u).base = c.base := by
  unfold Chip.closeWentOut
  (repeat' split) <;> simp only [Chip.setUnit_base, Chip.withdrawFor_base]

@[simp] theorem Chip.openEnds_base (c : Chip) (u : UnitIx) (e : ReqEnd) : (c.openEnds u e).base = c.base := by
  unfold Chip.openEnds
  split
  · rfl
  · extract_lets waits c1 c2 c3 c4
    have h1 : c1.base = c.base := Chip.modUnit_base ..
    have h2 : c2.base = c1.base := by
      simp only [c2]
      split <;> simp only [Chip.lose_base]
    have h3 : c3.base = c2.base := Chip.coolUnit_base ..
    have h4 : c4.base = c3.base := by
      simp only [c4]
      split <;> simp only [Chip.firstPlanEnd_base]
    clear_value c1 c2 c3 c4
    rw [Chip.closeStepDone_base, h4, h3, h2, h1]

@[simp] theorem Chip.openTimesOut_base (c : Chip) (u : UnitIx) : (Chip.openTimesOut c u).base = c.base := by
  unfold Chip.openTimesOut
  (repeat' split) <;> simp only [Chip.modExch_base, Chip.postFor_base, Chip.openEnds_base]

@[simp] theorem Chip.closeEnds_base (c : Chip) (u : UnitIx) : (Chip.closeEnds c u).base = c.base := by
  unfold Chip.closeEnds
  simp only [Chip.modUnit_base, Chip.coolUnit_base, Chip.closeStepDone_base]

@[simp] theorem Chip.afterRequest_base (c : Chip) (u : UnitIx) (serial : Nat) (e : ReqEnd) :
    (c.afterRequest u serial e).base = c.base := by
  unfold Chip.afterRequest
  split
  · rfl
  · extract_lets c1 c2 c3 c4 c5
    have h1 : c1.base = c.base := Chip.modSession_base ..
    have h2 : c2.base = c1.base := by
      simp only [c2]
      split <;> simp only [Chip.askClose_base]
    have h3 : c3.base = c2.base := by
      simp only [c3]
      split <;> simp only [Chip.drop_base]
    have h4 : c4.base = c3.base := Chip.requestEnded_base ..
    have h5 : c5.base = c4.base := by
      simp only [c5]
      split
      · split
        · rfl
        · rw [Chip.resume_base]
          split <;> simp only [Chip.closeStepDone_base]
      · rfl
    clear_value c1 c2 c3 c4 c5
    rw [h5, h4, h3, h2, h1]

@[simp] theorem Chip.requestEnds_base (c : Chip) (u : UnitIx) (e : ReqEnd) : (c.requestEnds u e).base = c.base := by
  unfold Chip.requestEnds
  split
  · rfl
  · split
    · extract_lets c1 c2 c3 c4
      have h1 : c1.base = c.base := Chip.modUnit_base ..
      have h2 : c2.base = c1.base := Chip.withdrawFor_base ..
      have h3 : c3.base = c2.base := by
        simp only [c3]
        split <;> simp only [Chip.modUnit_base]
      have h4 : c4.base = c3.base := by
        simp only [c4]
        split <;> simp only [Chip.coolUnit_base, Chip.lose_base, Chip.modSession_base]
      clear_value c1 c2 c3 c4
      rw [Chip.afterRequest_base, h4, h3, h2, h1]
    · rfl

@[simp] theorem Chip.postRepeat_base (c : Chip) (u : UnitIx) : (Chip.postRepeat c u).base = c.base := by
  unfold Chip.postRepeat
  (repeat' split) <;> simp only [Chip.modExch_base, Chip.postFor_base]

@[simp] theorem Chip.attemptFails_base (c : Chip) (u : UnitIx) : (Chip.attemptFails c u).base = c.base := by
  unfold Chip.attemptFails
  (repeat' split) <;> simp only [Chip.modExch_base, Chip.withdrawFor_base, Chip.requestEnds_base, Chip.postRepeat_base]

@[simp] theorem Chip.openRefusedBy_base (c : Chip) (u : UnitIx) (reason : Reason) : (Chip.openRefusedBy c u reason).base = c.base := by
  unfold Chip.openRefusedBy
  (repeat' split) <;> simp only [Chip.modExch_base, Chip.postFor_base, Chip.coolUnit_base, Chip.openEnds_base]

@[simp] theorem Chip.requestRefusedBy_base (c : Chip) (u : UnitIx) (reason : Reason) :
    (c.requestRefusedBy u reason).base = c.base := by
  unfold Chip.requestRefusedBy
  split
  · rfl
  · split
    · rfl
    · split
      · extract_lets d
        have h : d.base = c.base := by rw [Chip.withdrawFor_base, Chip.modExch_base]
        clear_value d
        rw [← h]
        split <;> simp only [Chip.postRepeat_base]
      · rw [Chip.requestEnds_base]
        (repeat' split) <;> simp only [Chip.handOver_base]

@[simp] theorem Chip.takeWait_base (c : Chip) (u : UnitIx) : (Chip.takeWait c u).base = c.base := by
  unfold Chip.takeWait
  (repeat' split) <;> simp only [Chip.modExch_base, Chip.attemptFails_base]

@[simp] theorem Chip.takeAccept_base (c : Chip) (u : UnitIx) : (c.takeAccept u).base = c.base := by
  unfold Chip.takeAccept
  split
  · rfl
  · extract_lets posted d
    have h : d.base = c.base := Chip.modUnit_base ..
    clear_value d
    rw [← h]
    split
    · exact Chip.askClose_base ..
    · cases posted with
      | some q => exact Chip.postFor_base ..
      | none =>
        simp only
        split <;> simp only [Chip.askClose_base, Chip.startHold_base]

@[simp] theorem Chip.takeListed_base (c : Chip) (u : UnitIx) (n : Nat) (hours : Option Nat) : (Chip.takeListed c u n hours).base = c.base := by
  unfold Chip.takeListed
  (repeat' split) <;> simp only [Chip.modUnit_base, Chip.modPlan_base, Chip.requestEnds_base]

@[simp] theorem Chip.takeClearDone_base (c : Chip) (u : UnitIx) : (Chip.takeClearDone c u).base = c.base := by
  unfold Chip.takeClearDone
  (repeat' split) <;> simp only [Chip.modUnit_base, Chip.handOver_base, Chip.requestEnds_base]

@[simp] theorem Chip.pullMore_base (c : Chip) (u : UnitIx) : (Chip.pullMore c u).base = c.base := by
  unfold Chip.pullMore
  (repeat' split) <;> simp only [Chip.modExch_base, Chip.postFor_base]

@[simp] theorem Chip.takeHead_base (c : Chip) (u : UnitIx) (count : Nat) : (c.takeHead u count).base = c.base := by
  unfold Chip.takeHead
  split
  · rfl
  · split
    · extract_lets transfer
      have h : ∀ kept, (transfer kept).base = c.base := by
        intro kept
        simp only [transfer, Chip.pullMore_base, Chip.modExch_base]
      clear_value transfer
      (repeat' split) <;> simp only [h, Chip.attemptFails_base, Chip.requestEnds_base, Chip.handOver_base]
    · rfl

@[simp] theorem Chip.takeRecord_base (c : Chip) (u : UnitIx) (serial base slot : Nat) (bytes : List Byte) :
    (c.takeRecord u serial base slot bytes).base = c.base := by
  unfold Chip.takeRecord
  (repeat' split) <;> simp only [Chip.handOver_base, Chip.modPlan_base, Chip.modUnit_base]

@[simp] theorem Chip.answerWhole_base (c : Chip) (u : UnitIx) (r : UnitRec) (x : Exchange) :
    (c.answerWhole u r x).base = c.base := by
  unfold Chip.answerWhole
  rw [Chip.requestEnds_base]
  split
  · rw [Chip.handOver_base]
    split <;> simp only [Chip.modUnit_base]
  · rfl

@[simp] theorem Chip.appendPart_base (c : Chip) (u : UnitIx) (data : List Byte) : (c.appendPart u data).base = c.base := by
  unfold Chip.appendPart
  split
  · rfl
  · rename_i r _
    split
    · rfl
    · extract_lets bytes x goOn
      have h : ∀ c x, (goOn c x).base = c.base := by
        intro c x
        simp only [goOn]
        (repeat' split) <;> simp only [Chip.answerWhole_base, Chip.pullMore_base]
      clear_value goOn
      split
      · dsimp only
        split
        · split
          · rw [h, Chip.takeRecord_base, Chip.modExch_base]
          · rw [Chip.attemptFails_base, Chip.modExch_base]
        · rw [h, Chip.modExch_base]
      · rw [h, Chip.modExch_base]

@[simp] theorem Chip.markAnswered_base (c : Chip) (u : UnitIx) : (Chip.markAnswered c u).base = c.base := by
  unfold Chip.markAnswered
  simp only [Chip.modExch_base]

@[simp] theorem Chip.requestFrame_base (c : Chip) (u : UnitIx) (x : Exchange) (k : ReqKind) (m : RxMsg) :
    (c.requestFrame u x k m).base = c.base := by
  unfold Chip.requestFrame
  extract_lets taken
  have h : taken.base = c.base := Chip.markAnswered_base ..
  clear_value taken
  (repeat' split) <;> simp only [h, Chip.requestRefusedBy_base, Chip.takeWait_base, Chip.takeListed_base,
    Chip.takeHead_base, Chip.takeClearDone_base, Chip.attemptFails_base, Chip.appendPart_base, Chip.strayUnit_base]

@[simp] theorem Chip.matchFrame_base (c : Chip) (u : UnitIx) (m : RxMsg) : (Chip.matchFrame c u m).base = c.base := by
  unfold Chip.matchFrame
  (repeat' split) <;> simp only [Chip.modUnit_base, Chip.strayUnit_base, Chip.closeEnds_base, Chip.openRefusedBy_base, Chip.takeAccept_base, Chip.markAnswered_base, Chip.requestFrame_base]

@[simp] theorem Chip.hereKnown_base (c : Chip) (g : Seg) (u : UnitIx) (addr : Byte) (type : Nat) (hours : Option Nat) : (Chip.hereKnown c g u addr type hours).base = c.base := by
  unfold Chip.hereKnown
  (repeat' split) <;> first | rfl | simp only [Chip.strayUnit_base, Chip.modUnit_base, Chip.modSeg_base]

@[simp] theorem Chip.hereNew_base (c : Chip) (g : Seg) (addr : Byte) (type : Nat) (hours : Option Nat) :
    (c.hereNew g addr type hours).base = c.base := by
  unfold Chip.hereNew
  split
  · exact Chip.strayOf_base ..
  · split
    · exact Chip.strayOf_base ..
    · split
      · rfl
      · extract_lets room
        split <;> rfl

@[simp] theorem Chip.handleFrame_base (c : Chip) (g : Seg) (f : RxFrame) : (c.handleFrame g f).base = c.base := by
  unfold Chip.handleFrame
  split
  · extract_lets d
    have h : d.base = c.base := Chip.hear_base ..
    clear_value d
    rw [← h]
    (repeat' split) <;> simp only [Chip.strayUnit_base, Chip.hereKnown_base, Chip.matchFrame_base]
  · (repeat' split) <;> simp only [Chip.hereNew_base, Chip.strayOf_base]

@[simp] theorem Chip.receivedWhole_base (c : Chip) (g : Seg) : (Chip.receivedWhole c g).base = c.base := by
  unfold Chip.receivedWhole
  (repeat' split) <;> simp only [Chip.modSeg_base]

@[simp] theorem Chip.receive_base (c : Chip) (g : Seg) (f : RxFrame) : (c.receive g f).base = c.base := by
  unfold Chip.receive
  split
  · extract_lets d
    have h : d.base = c.base := Chip.receivedWhole_base ..
    clear_value d
    rw [← h]
    split <;> simp only [Chip.modSeg_base, Chip.handleFrame_base]
  · rfl

@[simp] theorem Chip.bumpVersion_base (c : Chip) (i : SlotIx) : (Chip.bumpVersion c i).base = c.base := by
  unfold Chip.bumpVersion
  simp only [Chip.modSlot_base]

@[simp] theorem Chip.releaseChain_base (c : Chip) (i : SlotIx) : (Chip.releaseChain c i).base = c.base := by
  unfold Chip.releaseChain
  (repeat' split) <;> simp only [Chip.base_with_pool]

@[simp] theorem Chip.setRun_base (c : Chip) (r : Option Run) : (Chip.setRun c r).base = c.base := by
  unfold Chip.setRun
  simp only [Chip.modHist_base]

@[simp] theorem Chip.changeEntry_base (c : Chip) (i : SlotIx) (run : Run) (new : Entry) : (Chip.changeEntry c i run new).base = c.base := by
  unfold Chip.changeEntry
  simp only [Chip.modSlot_base, Chip.modHist_base, Chip.hand_base, Chip.setRun_base]

@[simp] theorem Chip.createAt_base (c : Chip) (i : SlotIx) (new : Entry) : (Chip.createAt c i new).base = c.base := by
  unfold Chip.createAt
  simp only [Chip.modSlot_base, Chip.modHist_base, Chip.hand_base, Chip.setRun_base]

@[simp] theorem Chip.freeSlot_base (c : Chip) (i : SlotIx) : (Chip.freeSlot c i).base = c.base := by
  unfold Chip.freeSlot
  simp only [Chip.modSlot_base, Chip.modHist_base, Chip.releaseChain_base]

@[simp] theorem Chip.countChanged_base (c : Chip) (g : Seg) (addr : Byte) (serial : Nat) : (Chip.countChanged c g addr serial).base = c.base := by
  unfold Chip.countChanged
  (repeat' split) <;> simp only [Chip.modCtx_base]

@[simp] theorem Chip.countCreated_base (c : Chip) (g : Seg) (addr : Byte) (serial : Nat) : (Chip.countCreated c g addr serial).base = c.base := by
  unfold Chip.countCreated
  (repeat' split) <;> simp only [Chip.modCtx_base]

@[simp] theorem Chip.takeResult_base (c : Chip) (g : Seg) (addr : Byte) (serial : Nat) (r : FaultRec) (i : SlotIx)
    (res : MergeResult) : (c.takeResult g addr serial r i res).base = c.base := by
  unfold Chip.takeResult
  (repeat' split) <;> simp only [Chip.modSlot_base, Chip.countCreated_base, Chip.modPlan_base, Chip.countChanged_base]

@[simp] theorem Chip.deliverHeld_base (c : Chip) (g : Seg) (addr : Byte) (serial : Nat) : (Chip.deliverHeld c g addr serial).base = c.base := by
  unfold Chip.deliverHeld
  (repeat' split) <;> simp only [Chip.handPlanEnd_base, Chip.deliver_base]

@[simp] theorem Chip.handOn_base (c : Chip) (i : WorkItem) (run : Run) : (Chip.handOn c i run).base = c.base := by
  unfold Chip.handOn
  (repeat' split) <;> simp only [Chip.orderEnd_base, Chip.planFinish_base, Chip.takeResult_base, Chip.deliverHeld_base]

@[simp] theorem Chip.finishItem_base (c : Chip) (run : Run) : (Chip.finishItem c run).base = c.base := by
  unfold Chip.finishItem
  (repeat' split) <;> simp only [Chip.modHist_base, Chip.setRun_base, Chip.handOn_base]

@[simp] theorem Chip.closeItem_base (c : Chip) (run : Run) : (Chip.closeItem c run).base = c.base := by
  unfold Chip.closeItem
  simp only [Chip.wantHeader_base, Chip.setRun_base]

@[simp] theorem Chip.nextSlot_base (c : Chip) (run : Run) : (Chip.nextSlot c run).base = c.base := by
  unfold Chip.nextSlot
  (repeat' split) <;> simp only [Chip.hand_base, Chip.setRun_base, Chip.changeEntry_base, Chip.countChanged_base, Chip.finishItem_base, Chip.closeItem_base]

@[simp] theorem Chip.refuseRecord_base (c : Chip) (g : Seg) (addr : Byte) : (c.refuseRecord g addr).base = c.base := by
  unfold Chip.refuseRecord
  rw [Chip.finishItem_base, Chip.setCause_base]
  split <;> simp only [Chip.modUnit_base, Chip.modHist_base]

@[simp] theorem Chip.searched_base (c : Chip) (g : Seg) (addr : Byte) (r : FaultRec) (h : HarvestCtx) (read : List (SlotIx × Word)) : (Chip.searched c g addr r h read).base = c.base := by
  unfold Chip.searched
  (repeat' split) <;> simp only [Chip.releaseChain_base, Chip.createAt_base, Chip.refuseRecord_base]

@[simp] theorem Chip.startMerge_base (c : Chip) (g : Seg) (addr : Byte) (r : FaultRec) :
    (c.startMerge g addr r).base = c.base := by
  unfold Chip.startMerge
  extract_lets h key
  split
  · split
    · extract_lets e'
      split <;> simp only [Chip.finishItem_base, Chip.changeEntry_base]
    · rfl
  · (repeat' split) <;> simp only [Chip.createAt_base, Chip.modHist_base, Chip.refuseRecord_base, Chip.hand_base,
      Chip.setRun_base]

@[simp] theorem Chip.startCapture_base (c : Chip) (i : SlotIx) (key : Key) (bytes : List Byte) :
    (c.startCapture i key bytes).base = c.base := by
  unfold Chip.startCapture
  split
  · exact Chip.finishItem_base ..
  · dsimp only
    split <;> rfl

@[simp] theorem Chip.shortEntry_base (c : Chip) (run : Run) : (c.shortEntry run).base = c.base := by
  unfold Chip.shortEntry
  (repeat' split) <;> simp only [Chip.finishItem_base, Chip.changeEntry_base, Chip.countChanged_base]

@[simp] theorem Chip.attach_base (c : Chip) (p : Nat) (i : SlotIx) (key : Key) (bs : List (Fin 256)) (length : Nat)
    (run : Run) : (c.attach p i key bs length run).base = c.base := by
  unfold Chip.attach
  split
  · extract_lets d d2
    have h : d.base = c.base := rfl
    have h2 : d2.base = d.base := by
      simp only [d2]
      split <;> rfl
    clear_value d d2
    rw [Chip.changeEntry_base, Chip.countChanged_base, h2, h]
  · exact Chip.finishItem_base ..

@[simp] theorem Chip.startNoSnap_base (c : Chip) (p : Nat) (i : SlotIx) (key : Key) : (Chip.startNoSnap c p i key).base = c.base := by
  unfold Chip.startNoSnap
  (repeat' split) <;> simp only [Chip.changeEntry_base, Chip.countChanged_base, Chip.finishItem_base]

@[simp] theorem Chip.takeItem_base (c : Chip) : (Chip.takeItem c).base = c.base := by
  unfold Chip.takeItem
  (repeat' split) <;> simp only [Chip.clearMarks_base, Chip.nextSlot_base, Chip.startMerge_base, Chip.startCapture_base, Chip.startNoSnap_base]

@[simp] theorem Chip.publish_base (c : Chip) (run : Run) : (c.publish run).base = c.base := by
  unfold Chip.publish
  rw [Chip.wantHeader_base, Chip.setRun_base]

@[simp] theorem Chip.sequenceWritten_base (c : Chip) : c.sequenceWritten.base = c.base := by
  unfold Chip.sequenceWritten
  split
  · extract_lets d
    have h : d.base = c.base := rfl
    clear_value d
    (repeat' split) <;> simp only [Chip.setCause_base, h]
  · rfl

@[simp] theorem Chip.historyDone_base (c : Chip) (got : List Word) : (c.historyDone got).base = c.base := by
  unfold Chip.historyDone
  generalize c.hist.run = run
  generalize c.hist.intake.head? = item
  rcases run with _ | ⟨ph, todo, slot, res, lamp, closing⟩
  · rfl
  · cases ph with
    | search slots h =>
      rcases item with _ | (_ | _ | _ | _ | _ | _)
      all_goals first | rfl | exact Chip.searched_base ..
    | purgeRead i =>
      rcases item with _ | (_ | _ | _ | _ | _ | _)
      all_goals try rfl
      dsimp only
      split
      · split
        · rw [Chip.hand_base, Chip.setRun_base, Chip.modCtx_base, Chip.freeSlot_base]
        · exact Chip.nextSlot_base ..
      · exact Chip.nextSlot_base ..
    | purgeFree i => exact (Chip.nextSlot_base ..).trans (Chip.bumpVersion_base ..)
    | shortHeader n => rfl
    | data bs =>
      rcases item with _ | (_ | _ | _ | _ | _ | _)
      all_goals first | rfl | exact Chip.attach_base ..
    | slotWrite i => exact (Chip.publish_base ..).trans (Chip.bumpVersion_base ..)
    | published n => rfl
    | stored => exact Chip.nextSlot_base ..
    | lastHeader n => rfl

@[simp] theorem Chip.historyHeader_base (c : Chip) : (Chip.historyHeader c).base = c.base := by
  unfold Chip.historyHeader
  (repeat' split) <;> simp only [Chip.hand_base, Chip.setRun_base, Chip.finishItem_base, Chip.shortEntry_base]


end Sys2Proof.Machine
end

