-- ==== Sys2Proof/Laws/Host.lean ====
section
/-!
SUPPORT. What changes the host's registers: XBASE, NMASK, RUN and START MODE are left alone by every operation but the
register writes and the resets.
-/

namespace Sys2Proof.Machine

/-- The registers that the host writes and the part does not. -/
structure HostRegs where
  xbase : Word
  nmask : Word
  run : Bool
  startMode : StartMode

/-- The host's registers of a chip. -/
def Chip.host (c : Chip) : HostRegs :=
  { xbase := c.regs.xbase, nmask := c.regs.nmask, run := c.regs.run, startMode := c.regs.startMode }

/-- What leaves the untouched part alone leaves the host's registers alone. -/
theorem Chip.host_of_base {c d : Chip} (h : d.base = c.base) : d.host = c.host := by
  have h1 : ({ d.regs with notice := 0 } : Regs) = { c.regs with notice := 0 } := congrArg Base.regs h
  have h2 := congrArg Regs.xbase h1
  have h3 := congrArg Regs.nmask h1
  have h4 := congrArg Regs.run h1
  have h5 := congrArg Regs.startMode h1
  simp only at h2 h3 h4 h5
  simp only [Chip.host, h2, h3, h4, h5]

/-- A fold of operations that leave the host's registers alone leaves them alone. -/
theorem Chip.foldl_host {α : Type} {f : Chip → α → Chip} (h : ∀ c x, (f c x).host = c.host) (l : List α) (c : Chip) :
    (l.foldl f c).host = c.host := by
  induction l generalizing c with
  | nil => rfl
  | cons x rest ih => rw [List.foldl_cons, ih, h]

/-- An update of other fields than the registers. -/
theorem Chip.host_same (c : Chip)
    (x0 : Collector) (x1 : Bool) (x2 : Timer) (x3 : ProfileState) (x4 : Nat) (x5 : Option Settings) (x6 : Vector
    (Option UnitRec) 64) (x7 : Nat) (x8 : Vector SegRec 4) (x9 : Vector Ctx 4) (x10 : Nat) (x11 : Nat) (x12 : Nat)
    (x13 : Hist) (x14 : Pool) (x15 : Monitor) (x16 : Port) (x17 : Scan) (x18 : Header) (x19 : Vector Mirror 64)
    (x20 : Option Load) (x21 : Option Starting) (x22 : Nat) (x23 : Nat) :
    (Chip.mk c.regs x0 x1 x2 x3 x4 x5 x6 x7 x8 x9 x10 x11 x12 x13 x14 x15 x16 x17 x18 x19 x20 x21 x22 x23).host = c.host := rfl

/-- An update that sets the start result or NOTICE besides. -/
theorem Chip.host_regs (c : Chip) (r : StartResult) (n : Word)
    (x0 : Collector) (x1 : Bool) (x2 : Timer) (x3 : ProfileState) (x4 : Nat) (x5 : Option Settings) (x6 : Vector
    (Option UnitRec) 64) (x7 : Nat) (x8 : Vector SegRec 4) (x9 : Vector Ctx 4) (x10 : Nat) (x11 : Nat) (x12 : Nat)
    (x13 : Hist) (x14 : Pool) (x15 : Monitor) (x16 : Port) (x17 : Scan) (x18 : Header) (x19 : Vector Mirror 64)
    (x20 : Option Load) (x21 : Option Starting) (x22 : Nat) (x23 : Nat) :
    (Chip.mk { c.regs with startResult := r, notice := n }
      x0 x1 x2 x3 x4 x5 x6 x7 x8 x9 x10 x11 x12 x13 x14 x15 x16 x17 x18 x19 x20 x21 x22 x23).host = c.host := rfl

theorem Chip.modMon_host (c : Chip) (f : Monitor → Monitor) : (c.modMon f).host = c.host := rfl
theorem Chip.modPort_host (c : Chip) (f : Port → Port) : (c.modPort f).host = c.host := rfl
theorem Chip.hand_host (c : Chip) (o : Owner) (as : List Acc) : (c.hand o as).host = c.host := rfl
theorem Chip.giveUp_host (c : Chip) (o : Owner) : (c.giveUp o).host = c.host := rfl
theorem Chip.wantHeader_host (c : Chip) : c.wantHeader.host = c.host := rfl
theorem Chip.modCtx_host (c : Chip) (k : CtxIx) (f : Ctx → Ctx) : (c.modCtx k f).host = c.host := rfl
theorem Chip.modHist_host (c : Chip) (f : Hist → Hist) : (c.modHist f).host = c.host := rfl
theorem Chip.modSeg_host (c : Chip) (g : Seg) (f : SegRec → SegRec) : (c.modSeg g f).host = c.host := rfl
theorem Chip.modSlot_host (c : Chip) (i : SlotIx) (f : SlotRec → SlotRec) : (c.modSlot i f).host = c.host := rfl
theorem Chip.setUnit_host (c : Chip) (u : UnitIx) (r : Option UnitRec) : (c.setUnit u r).host = c.host := rfl
theorem Chip.modUnit_host (c : Chip) (u : UnitIx) (f : UnitRec → UnitRec) : (c.modUnit u f).host = c.host :=
  Chip.host_of_base (Chip.modUnit_base ..)
theorem Chip.modSession_host (c : Chip) (u : UnitIx) (f : Session → Session) : (c.modSession u f).host = c.host :=
  Chip.host_of_base (Chip.modSession_base ..)

/-! ## Operations of the segments, sessions, plans, exchanges and history -/

theorem Chip.setCause_host (c : Chip) (x : Cause) : (Chip.setCause c x).host = c.host :=
  Chip.host_of_base (Chip.setCause_base ..)
theorem Chip.modAllSegs_host (c : Chip) (f : SegRec → SegRec) : (Chip.modAllSegs c f).host = c.host :=
  Chip.host_of_base (Chip.modAllSegs_base ..)
theorem Chip.grantAll_host (c : Chip) : (Chip.grantAll c).host = c.host := Chip.host_of_base (Chip.grantAll_base ..)
theorem Chip.strayOf_host (c : Chip) (g : Seg) : (Chip.strayOf c g).host = c.host :=
  Chip.host_of_base (Chip.strayOf_base ..)
theorem Chip.lose_host (c : Chip) (u : UnitIx) : (Chip.lose c u).host = c.host :=
  Chip.host_of_base (Chip.lose_base ..)
theorem Chip.postFor_host (c : Chip) (u : UnitIx) (msg : Msg) (again : Bool) :
    (Chip.postFor c u msg again).host = c.host :=
  Chip.host_of_base (Chip.postFor_base ..)
theorem Chip.withdrawFor_host (c : Chip) (u : UnitIx) (which : Msg → Bool) :
    (Chip.withdrawFor c u which).host = c.host :=
  Chip.host_of_base (Chip.withdrawFor_base ..)
theorem Chip.payDebt_host (c : Chip) (u : UnitIx) : (Chip.payDebt c u).host = c.host :=
  Chip.host_of_base (Chip.payDebt_base ..)
theorem Chip.dropOpen_host (c : Chip) (u : UnitIx) : (Chip.dropOpen c u).host = c.host :=
  Chip.host_of_base (Chip.dropOpen_base ..)
theorem Chip.withdrawSlot_host (c : Chip) (g : Seg) : (c.withdrawSlot g).host = c.host :=
  Chip.host_of_base (Chip.withdrawSlot_base ..)
theorem Chip.shedOpens_host (c : Chip) (g : Seg) : (Chip.shedOpens c g).host = c.host :=
  Chip.host_of_base (Chip.shedOpens_base ..)
theorem Chip.askClose_host (c : Chip) (u : UnitIx) : (Chip.askClose c u).host = c.host :=
  Chip.host_of_base (Chip.askClose_base ..)
theorem Chip.endSession_host (c : Chip) (u : UnitIx) : (Chip.endSession c u).host = c.host :=
  Chip.host_of_base (Chip.endSession_base ..)
theorem Chip.handOver_host (c : Chip) (i : WorkItem) (origin : Option Seg) :
    (Chip.handOver c i origin).host = c.host :=
  Chip.host_of_base (Chip.handOver_base ..)
theorem Chip.orderEnd_host (c : Chip) (k : CtxIx) : (Chip.orderEnd c k).host = c.host :=
  Chip.host_of_base (Chip.orderEnd_base ..)
theorem Chip.stepEnds_host (c : Chip) (u : UnitIx) (e : StepEnd) : (Chip.stepEnds c u e).host = c.host :=
  Chip.host_of_base (Chip.stepEnds_base ..)
theorem Chip.deliver_host (c : Chip) (u : UnitIx) (e : ReqEnd) : (Chip.deliver c u e).host = c.host :=
  Chip.host_of_base (Chip.deliver_base ..)
theorem Chip.startHarvest_host (c : Chip) (k : CtxIx) (mask : BitVec 64) :
    (Chip.startHarvest c k mask).host = c.host :=
  Chip.host_of_base (Chip.startHarvest_base ..)
theorem Chip.drop_host (c : Chip) (u : UnitIx) (counted : Bool) : (Chip.drop c u counted).host = c.host :=
  Chip.host_of_base (Chip.drop_base ..)
theorem Chip.dropSegment_host (c : Chip) (g : Seg) (counted : Bool) : (Chip.dropSegment c g counted).host = c.host :=
  Chip.host_of_base (Chip.dropSegment_base ..)
theorem Chip.withdrawHarvest_host (c : Chip) (k : CtxIx) : (Chip.withdrawHarvest c k).host = c.host :=
  Chip.host_of_base (Chip.withdrawHarvest_base ..)
theorem Chip.cutPlans_host (c : Chip) (v : Verdict) : (Chip.cutPlans c v).host = c.host :=
  Chip.host_of_base (Chip.cutPlans_base ..)
theorem Chip.startCensus_host (c : Chip) (k : CtxIx) (g : Seg) : (Chip.startCensus c k g).host = c.host :=
  Chip.host_of_base (Chip.startCensus_base ..)
theorem Chip.endCensus_host (c : Chip) (g : Seg) (code : ErrorCode) : (Chip.endCensus c g code).host = c.host :=
  Chip.host_of_base (Chip.endCensus_base ..)
theorem Chip.cutCensuses_host (c : Chip) : (Chip.cutCensuses c).host = c.host :=
  Chip.host_of_base (Chip.cutCensuses_base ..)
theorem Chip.openWentOut_host (c : Chip) (u : UnitIx) : (Chip.openWentOut c u).host = c.host :=
  Chip.host_of_base (Chip.openWentOut_base ..)
theorem Chip.requestWentOut_host (c : Chip) (u : UnitIx) (q : Req) (again : Bool) :
    (Chip.requestWentOut c u q again).host = c.host :=
  Chip.host_of_base (Chip.requestWentOut_base ..)
theorem Chip.pullWentOut_host (c : Chip) (u : UnitIx) (credit : Nat) : (Chip.pullWentOut c u credit).host = c.host :=
  Chip.host_of_base (Chip.pullWentOut_base ..)
theorem Chip.closeWentOut_host (c : Chip) (u : UnitIx) : (Chip.closeWentOut c u).host = c.host :=
  Chip.host_of_base (Chip.closeWentOut_base ..)
theorem Chip.openTimesOut_host (c : Chip) (u : UnitIx) : (Chip.openTimesOut c u).host = c.host :=
  Chip.host_of_base (Chip.openTimesOut_base ..)
theorem Chip.closeEnds_host (c : Chip) (u : UnitIx) : (Chip.closeEnds c u).host = c.host :=
  Chip.host_of_base (Chip.closeEnds_base ..)
theorem Chip.postRepeat_host (c : Chip) (u : UnitIx) : (Chip.postRepeat c u).host = c.host :=
  Chip.host_of_base (Chip.postRepeat_base ..)
theorem Chip.attemptFails_host (c : Chip) (u : UnitIx) : (Chip.attemptFails c u).host = c.host :=
  Chip.host_of_base (Chip.attemptFails_base ..)
theorem Chip.handleFrame_host (c : Chip) (g : Seg) (f : RxFrame) : (Chip.handleFrame c g f).host = c.host :=
  Chip.host_of_base (Chip.handleFrame_base ..)
theorem Chip.receivedWhole_host (c : Chip) (g : Seg) : (Chip.receivedWhole c g).host = c.host :=
  Chip.host_of_base (Chip.receivedWhole_base ..)
theorem Chip.receive_host (c : Chip) (g : Seg) (f : RxFrame) : (Chip.receive c g f).host = c.host :=
  Chip.host_of_base (Chip.receive_base ..)
theorem Chip.bumpVersion_host (c : Chip) (i : SlotIx) : (Chip.bumpVersion c i).host = c.host :=
  Chip.host_of_base (Chip.bumpVersion_base ..)
theorem Chip.countChanged_host (c : Chip) (g : Seg) (addr : Byte) (serial : Nat) :
    (Chip.countChanged c g addr serial).host = c.host :=
  Chip.host_of_base (Chip.countChanged_base ..)
theorem Chip.takeItem_host (c : Chip) : (Chip.takeItem c).host = c.host := Chip.host_of_base (Chip.takeItem_base ..)
theorem Chip.publish_host (c : Chip) (run : Run) : (Chip.publish c run).host = c.host :=
  Chip.host_of_base (Chip.publish_base ..)
theorem Chip.historyDone_host (c : Chip) (got : List Word) : (Chip.historyDone c got).host = c.host :=
  Chip.host_of_base (Chip.historyDone_base ..)
theorem Chip.historyHeader_host (c : Chip) : (Chip.historyHeader c).host = c.host :=
  Chip.host_of_base (Chip.historyHeader_base ..)

/-! ## Monitor -/

theorem Chip.dipOn_host (c : Chip) : (Chip.dipOn c).host = c.host := by
  unfold Chip.dipOn
  first | with_reducible rfl | simp only [Chip.modMon_host]
theorem Chip.dipLook_host (c : Chip) : (Chip.dipLook c).host = c.host := by
  unfold Chip.dipLook
  (repeat' split) <;> first | with_reducible rfl | simp only [Chip.modMon_host]
theorem Chip.cycleEffects_host (c : Chip) : (Chip.cycleEffects c).host = c.host := by
  unfold Chip.cycleEffects
  first | with_reducible rfl | simp only [Chip.modMon_host, Chip.wantHeader_host, Chip.host_same]
theorem Chip.dropAll_host (c : Chip) : c.dropAll.host = c.host := Chip.foldl_host (fun _ _ => Chip.drop_host ..) _ _
theorem Chip.park_host (c : Chip) : c.park.host = c.host := by
  unfold Chip.park
  extract_lets c1 quieted c2
  have h1 : c1.host = c.host := by
    simp only [c1, Chip.dropAll_host, Chip.modMon_host, Chip.cutCensuses_host, Chip.cutPlans_host]
  clear_value c1
  have h2 : c2.host = c1.host := by
    simp only [c2]
    rw [Chip.foldl_host Chip.shedOpens_host]
    rfl
  clear_value c2
  rw [Chip.setCause_host, Chip.wantHeader_host, Chip.modMon_host, h2, h1]
theorem Chip.wake_host (c : Chip) : (Chip.wake c).host = c.host := by
  unfold Chip.wake
  first | with_reducible rfl | simp only [Chip.wantHeader_host, Chip.modAllSegs_host, Chip.dipOn_host, Chip.host_same]
theorem Chip.graceDrops_host (c : Chip) : c.graceDrops.host = c.host := by
  refine Chip.foldl_host ?_ _ _
  intro c u
  (repeat' split) <;> simp only [Chip.modSession_host, Chip.drop_host]
theorem Chip.graceEnd_host (c : Chip) : c.graceEnd.host = c.host := by
  unfold Chip.graceEnd
  extract_lets d
  have h : d.host = c.host := by rw [Chip.graceDrops_host, Chip.cutCensuses_host, Chip.cutPlans_host, Chip.modMon_host]
  clear_value d
  split
  · rw [Chip.modMon_host, h]
  · rw [Chip.park_host, h]
theorem Chip.startSweep_host (c : Chip) (k : CtxIx) : (Chip.startSweep c k).host = c.host := by
  unfold Chip.startSweep
  first | with_reducible rfl | simp only [Chip.modCtx_host, Chip.startHarvest_host]
theorem Chip.sweepExpiry_host (c : Chip) : c.sweepExpiry.1.host = c.host := by
  unfold Chip.sweepExpiry
  (repeat' split) <;> first | exact Chip.startSweep_host .. | rfl

/-! ## Loader -/

theorem Chip.enterUnit_host (c : Chip) (r : UnitRec) : (Chip.enterUnit c r).host = c.host := by
  unfold Chip.enterUnit
  (repeat' split) <;> first | with_reducible rfl | simp only [Chip.setUnit_host]
theorem Chip.putSettings_host (c : Chip) (l : Loaded) : (Chip.putSettings c l).host = c.host := by
  unfold Chip.putSettings
  (repeat' split) <;> first | with_reducible rfl | simp only [Chip.setCause_host, Chip.host_same]
theorem Chip.restCounts_host (c : Chip) (g : Seg) : (c.restCounts g).host = c.host := by
  unfold Chip.restCounts
  split <;> simp only [Chip.modSeg_host]
theorem Chip.applyStart_host (c : Chip) (l : Loaded) : (c.applyStart l).host = c.host := by
  unfold Chip.applyStart
  rw [Chip.foldl_host (fun _ _ => Chip.enterUnit_host ..), Chip.foldl_host Chip.restCounts_host]
  exact Chip.putSettings_host ..
theorem Chip.removeUnit_host (c : Chip) (u : UnitIx) : (Chip.removeUnit c u).host = c.host := by
  unfold Chip.removeUnit
  first | with_reducible rfl | simp only [Chip.setUnit_host, Chip.endSession_host]
theorem Chip.reloadUnit_host (ds : List Desc) (ck : Chip × List Seg) (u : UnitIx) :
    (Chip.reloadUnit ds ck u).1.host = ck.1.host := by
  unfold Chip.reloadUnit
  obtain ⟨c, kept⟩ := ck
  dsimp only
  (repeat' split) <;> first
    | rfl
    | exact Chip.removeUnit_host ..

theorem Chip.reloadFold_host (ds : List Desc) (l : List UnitIx) (ck : Chip × List Seg) :
    (l.foldl (Chip.reloadUnit ds) ck).1.host = ck.1.host := by
  induction l generalizing ck with
  | nil => rfl
  | cons u rest ih => rw [List.foldl_cons, ih, Chip.reloadUnit_host]

theorem Chip.reloadRoster_host (c : Chip) (ds : List Desc) : (c.reloadRoster ds).host = c.host := by
  unfold Chip.reloadRoster
  have h := Chip.reloadFold_host ds allUnits (c, [])
  generalize allUnits.foldl (Chip.reloadUnit ds) (c, []) = d at h ⊢
  obtain ⟨d, kept⟩ := d
  dsimp only at h ⊢
  rw [Chip.foldl_host (fun _ _ => Chip.enterUnit_host ..), h]
theorem Chip.reloadSegment_host (old new : Settings) (c : Chip) (g : Seg) :
    (Chip.reloadSegment old new c g).host = c.host := by
  unfold Chip.reloadSegment
  extract_lets was now c1 c2 running c3
  have h1 : c1.host = c.host := Chip.dropSegment_host ..
  have h2 : c2.host = c1.host := by rw [Chip.modSeg_host, Chip.withdrawSlot_host]
  have h3 : c3.host = c2.host := by
    simp only [c3]
    split <;> simp only [Chip.modSeg_host]
  clear_value c1 c2 running c3
  (repeat' split) <;> simp only [Chip.shedOpens_host, Chip.modSeg_host, h3, h2, h1]
theorem Chip.readdress_host (c : Chip) : c.readdress.host = c.host := by
  unfold Chip.readdress
  rw [Chip.dropAll_host, Chip.foldl_host Chip.shedOpens_host, Chip.modAllSegs_host]
theorem Chip.applyReload_host (c : Chip) (l : Loaded) : (c.applyReload l).host = c.host := by
  unfold Chip.applyReload
  extract_lets old c1 c2 c3 c4
  have h1 : c1.host = c.host := by rw [Chip.putSettings_host, Chip.reloadRoster_host]
  have h2 : c2.host = c1.host := by
    simp only [c2]
    split <;> simp only [Chip.readdress_host]
  have h3 : c3.host = c2.host := Chip.foldl_host (fun _ _ => Chip.reloadSegment_host ..) _ _
  have h4 : c4.host = c3.host := by
    simp only [c4]
    split <;> simp only [Chip.dipLook_host]
  clear_value c1 c2 c3 c4
  split
  · rw [h4, h3, h2, h1]
  · rw [Chip.modMon_host, h4, h3, h2, h1]
theorem Chip.startLoad_host (c : Chip) (k : Option CtxIx) : (Chip.startLoad c k).host = c.host := by
  unfold Chip.startLoad
  first | with_reducible rfl | simp only [Chip.hand_host, Chip.host_same]
theorem Chip.endReload_host (c : Chip) (k : CtxIx) (code : ErrorCode) : (Chip.endReload c k code).host = c.host := by
  unfold Chip.endReload
  first | with_reducible rfl | simp only [Chip.modCtx_host, Chip.orderEnd_host, Chip.host_same]
theorem Chip.abandonReload_host (c : Chip) (k : CtxIx) (code : ErrorCode) :
    (Chip.abandonReload c k code).host = c.host := by
  unfold Chip.abandonReload
  first | with_reducible rfl | simp only [Chip.giveUp_host, Chip.endReload_host]

/-! ## Cards -/

theorem Chip.readOwner_host (c : Chip) (card : Fin 16) : (Chip.readOwner c card).host = c.host := by
  unfold Chip.readOwner
  first | with_reducible rfl | simp only [Chip.hand_host, Chip.host_same]
theorem Chip.startScan_host (c : Chip) : (Chip.startScan c).host = c.host := by
  unfold Chip.startScan
  first | with_reducible rfl | simp only [Chip.readOwner_host, Chip.host_same]
theorem Chip.scanRequest_host (c : Chip) : (Chip.scanRequest c).host = c.host := by
  unfold Chip.scanRequest
  (repeat' split) <;> first | with_reducible rfl | simp only [Chip.startScan_host, Chip.host_same]
theorem Chip.scanNext_host (c : Chip) (card : Fin 16) : (c.scanNext card).host = c.host := by
  unfold Chip.scanNext
  split
  · rfl
  · split
    · exact Chip.readOwner_host ..
    · extract_lets src d
      have h : d.host = c.host := rfl
      clear_value d
      split
      · rw [Chip.startScan_host]
        exact h
      · exact h
theorem Chip.stopTaking_host (c : Chip) : (Chip.stopTaking c).host = c.host := by
  unfold Chip.stopTaking
  first | with_reducible rfl | simp only [Chip.host_same]
theorem Chip.failCard_host (c : Chip) (card : Fin 16) (code : ErrorCode) (step : Nat) :
    (Chip.failCard c card code step).host = c.host := by
  unfold Chip.failCard
  first | with_reducible rfl | simp only [Chip.hand_host, Chip.host_same]
theorem Chip.withdrawHeld_host (c : Chip) (k : CtxIx) : (c.withdrawHeld k).host = c.host := by
  unfold Chip.withdrawHeld
  extract_lets x
  clear_value x
  (repeat' split) <;> simp only [Chip.withdrawHarvest_host, Chip.endCensus_host, Chip.abandonReload_host]
theorem Chip.scanOwner_host (c : Chip) (card : Fin 16) (w : Word) : (Chip.scanOwner c card w).host = c.host := by
  unfold Chip.scanOwner
  (repeat' split) <;> first | with_reducible rfl | simp only [Chip.hand_host, Chip.scanNext_host, Chip.failCard_host, Chip.withdrawHeld_host, Chip.host_same]
theorem Chip.takeCard_host (c : Chip) (card : Fin 16) (k : CtxIx) (content : Content) :
    (Chip.takeCard c card k content).host = c.host := by
  unfold Chip.takeCard
  first | with_reducible rfl | simp only [Chip.hand_host, Chip.host_same]
theorem Chip.takeOrFail_host (c : Chip) (card : Fin 16) (k : CtxIx) (e : Except (ErrorCode × Nat) Content) :
    (c.takeOrFail card k e).host = c.host := by
  unfold Chip.takeOrFail
  (repeat' split) <;> simp only [Chip.failCard_host, Chip.scanNext_host, Chip.takeCard_host]
theorem Chip.scanKind_host (c : Chip) (card : Fin 16) (w : Word) : (c.scanKind card w).host = c.host := by
  unfold Chip.scanKind
  split
  · exact Chip.scanNext_host ..
  · split
    · rw [Chip.scanNext_host, Chip.stopTaking_host]
    · split
      · rw [Chip.scanNext_host]
        split <;> simp only [Chip.stopTaking_host]
      · split
        · exact Chip.takeOrFail_host ..
        · rfl
theorem Chip.cutHarvest_host (c : Chip) (k : CtxIx) (mask : BitVec 64) (v : Verdict) :
    (Chip.cutHarvest c k mask v).host = c.host := by
  unfold Chip.cutHarvest
  first | with_reducible rfl | simp only [Chip.modCtx_host, Chip.orderEnd_host]
theorem Chip.startOrder_host (c : Chip) (k : CtxIx) (content : Content) : (c.startOrder k content).host = c.host := by
  unfold Chip.startOrder
  split
  · split <;> simp only [Chip.startHarvest_host, Chip.cutHarvest_host]
  · split <;> simp only [Chip.startCensus_host, Chip.orderEnd_host, Chip.modCtx_host]
  · rfl
  · split <;> simp only [Chip.startLoad_host, Chip.endReload_host]
  · exact Chip.handOver_host ..
theorem Chip.scanDone_host (c : Chip) (got : List Word) : (c.scanDone got).host = c.host := by
  unfold Chip.scanDone
  split
  · rfl
  · exact Chip.scanOwner_host ..
  · exact Chip.scanKind_host ..
  · exact Chip.takeOrFail_host ..
  · extract_lets src0 c1 src c2
    have h1 : c1.host = c.host := rfl
    have h2 : c2.host = c1.host := Chip.startOrder_host ..
    clear_value c1 c2
    rw [Chip.scanNext_host]
    split <;> simp only [Chip.stopTaking_host, h2, h1]
  · rw [Chip.scanNext_host, Chip.setCause_host]
theorem Chip.resultDone_host (c : Chip) (k : CtxIx) : (Chip.resultDone c k).host = c.host := by
  unfold Chip.resultDone
  first | with_reducible rfl | simp only [Chip.modCtx_host, Chip.setCause_host]
theorem Chip.clockHeader_host (c : Chip) (k : CtxIx) : (c.clockHeader k).host = c.host := by
  unfold Chip.clockHeader
  extract_lets x d
  have h : d.host = c.host := rfl
  clear_value x d
  (repeat' split) <;> simp only [Chip.orderEnd_host, h]

/-! ## Starting -/

theorem Chip.modMirror_host (c : Chip) (u : UnitIx) (f : Mirror → Mirror) : (Chip.modMirror c u f).host = c.host := by
  unfold Chip.modMirror
  first | with_reducible rfl | simp only [Chip.host_same]
theorem Chip.atStage_host (c : Chip) (st : Starting) (stage : StartStage) (accs : List Acc) :
    (Chip.atStage c st stage accs).host = c.host := by
  unfold Chip.atStage
  first | with_reducible rfl | simp only [Chip.hand_host, Chip.host_same]
theorem Chip.enterStarting_host (c : Chip) : (Chip.enterStarting c).host = c.host := by
  unfold Chip.enterStarting
  first | with_reducible rfl | simp only [Chip.modMon_host, Chip.modHist_host, Chip.atStage_host, Chip.host_regs]
theorem Chip.runEdge_host (c : Chip) : (Chip.runEdge c).host = c.host := by
  unfold Chip.runEdge
  (repeat' split) <;> first | with_reducible rfl | simp only [Chip.enterStarting_host, Chip.host_regs]
theorem Chip.coldStart_host (c : Chip) (st : Starting) : (Chip.coldStart c st).host = c.host := by
  unfold Chip.coldStart
  first | with_reducible rfl | simp only [Chip.atStage_host, Chip.host_same]
theorem Chip.writeRegion_host (c : Chip) (st : Starting) : (Chip.writeRegion c st).host = c.host := by
  unfold Chip.writeRegion
  first | with_reducible rfl | simp only [Chip.atStage_host]
theorem Chip.warmBegin_host (c : Chip) (st : Starting) (ws : List Word) : (Chip.warmBegin c st ws).host = c.host := by
  unfold Chip.warmBegin
  (repeat' split) <;> first | with_reducible rfl | simp only [Chip.atStage_host, Chip.coldStart_host, Chip.host_same]
theorem Chip.nextRepair_host (c : Chip) (st : Starting) (todo : List SlotIx) : (c.nextRepair st todo).host = c.host := by
  unfold Chip.nextRepair
  (repeat' split) <;> first | exact Chip.writeRegion_host .. | rfl
theorem Chip.repairPublished_host (c : Chip) (st : Starting) (todo : List SlotIx) :
    (c.repairPublished st todo).host = c.host := by
  unfold Chip.repairPublished
  extract_lets d
  have h : d.host = c.host := by
    simp only [d]
    split <;> simp only [Chip.bumpVersion_host]
  clear_value d
  rw [Chip.atStage_host, Chip.setCause_host, Chip.modHist_host, h]
theorem Chip.warmSettled_host (c : Chip) (st : Starting) : (c.warmSettled st).host = c.host := by
  unfold Chip.warmSettled
  generalize c.checkRefs = pd
  obtain ⟨p, dropped⟩ := pd
  dsimp only
  rw [Chip.nextRepair_host]
  rfl
theorem Chip.warmNext_host (c : Chip) (st : Starting) (i : SlotIx) : (Chip.warmNext c st i).host = c.host := by
  unfold Chip.warmNext
  (repeat' split) <;> first | with_reducible rfl | simp only [Chip.atStage_host, Chip.warmSettled_host]
theorem Chip.warmSlot_host (c : Chip) (st : Starting) (i : SlotIx) (ws : List Word) :
    (Chip.warmSlot c st i ws).host = c.host := by
  unfold Chip.warmSlot
  (repeat' split) <;> first | with_reducible rfl | simp only [Chip.modHist_host, Chip.modSlot_host, Chip.atStage_host, Chip.warmNext_host]
theorem Chip.publishStart_host (c : Chip) (st : Starting) : (Chip.publishStart c st).host = c.host := by
  unfold Chip.publishStart
  (repeat' split) <;> first | with_reducible rfl | simp only [Chip.atStage_host]
theorem Chip.writeMirror_host (c : Chip) (st : Starting) (u : UnitIx) : (Chip.writeMirror c st u).host = c.host := by
  unfold Chip.writeMirror
  first | with_reducible rfl | simp only [Chip.atStage_host]
theorem Chip.startClock_host (c : Chip) (st : Starting) : (Chip.startClock c st).host = c.host := by
  unfold Chip.startClock
  (repeat' split) <;> first | with_reducible rfl | simp only [Chip.modMon_host, Chip.atStage_host, Chip.writeMirror_host]
theorem Chip.startHeader_host (c : Chip) (st : Starting) : (Chip.startHeader c st).host = c.host := by
  unfold Chip.startHeader
  (repeat' split) <;> first | with_reducible rfl | simp only [Chip.wantHeader_host, Chip.host_regs]
theorem Chip.startingDone_host (c : Chip) (got : List Word) : (c.startingDone got).host = c.host := by
  unfold Chip.startingDone
  split
  · rfl
  · split
    · exact Chip.startLoad_host ..
    · split <;> simp only [Chip.atStage_host, Chip.writeRegion_host]
    · exact Chip.warmBegin_host ..
    · exact Chip.warmSlot_host ..
    · exact Chip.warmNext_host ..
    · exact Chip.repairPublished_host ..
    · exact Chip.nextRepair_host ..
    · exact Chip.publishStart_host ..
    · exact Chip.startClock_host ..
    · rw [Chip.writeMirror_host, Chip.modMon_host]
    · split
      · split <;> simp only [Chip.writeMirror_host, Chip.modMirror_host, Chip.startHeader_host]
      · rfl
    · rfl
    · rfl
theorem Chip.loaderDone_host (c : Chip) (got : List Word) : (c.loaderDone got).host = c.host := by
  unfold Chip.loaderDone
  split
  · rfl
  · rename_i l _
    extract_lets words more r d
    clear_value words more r
    split
    · rfl
    · cases l.ctx with
      | some k =>
        dsimp only
        rw [Chip.endReload_host, Chip.applyReload_host]
      | none =>
        have h : d.host = c.host := Chip.applyStart_host ..
        clear_value d
        dsimp only
        split
        · exact h
        · split
          · exact (Chip.coldStart_host ..).trans h
          · exact h
theorem Chip.stopSession_host (c : Chip) (u : UnitIx) : (c.stopSession u).host = c.host := by
  unfold Chip.stopSession
  extract_lets d
  have h : d.host = c.host := Chip.modSession_host ..
  clear_value d
  (repeat' split) <;> simp only [Chip.dropOpen_host, Chip.askClose_host, Chip.withdrawFor_host, Chip.modUnit_host,
    Chip.modSession_host, h]
theorem Chip.cutReloads_host (c : Chip) : c.cutReloads.host = c.host := by
  refine Chip.foldl_host ?_ _ _
  intro c k
  dsimp only
  split <;> simp only [Chip.abandonReload_host]
theorem Chip.stopScan_host (c : Chip) : c.stopScan.host = c.host := by
  unfold Chip.stopScan
  extract_lets src d
  have h : d.host = c.host := rfl
  clear_value d
  (repeat' split) <;> exact h
theorem Chip.enterStopping_host (c : Chip) : c.enterStopping.host = c.host := by
  unfold Chip.enterStopping
  extract_lets was c1 c2 c3 c4
  have h1 : c1.host = c.host := by rw [Chip.modMon_host, Chip.stopScan_host]; rfl
  have h2 : c2.host = c1.host := by
    simp only [c2]
    split <;> simp only [Chip.dipOn_host]
  have h3 : c3.host = c2.host := by rw [Chip.cutReloads_host, Chip.cutCensuses_host, Chip.cutPlans_host]
  have h4 : c4.host = c3.host := Chip.foldl_host Chip.stopSession_host _ _
  clear_value c1 c2 c3 c4
  rw [Chip.wantHeader_host, ← h1, ← h2, ← h3, ← h4]
  rfl
theorem Chip.shutDown_host (c : Chip) : c.shutDown.host = c.host := by
  unfold Chip.shutDown
  extract_lets c1 c2 c3
  have h1 : c1.host = c.host := rfl
  have h2 : c2.host = c1.host := rfl
  have h3 : c3.host = c2.host := Chip.foldl_host (fun _ _ => (Chip.modUnit_host ..).trans (Chip.endSession_host ..)) _ _
  clear_value c1 c2 c3
  rw [Chip.modHist_host, h3, h2, h1]
theorem Chip.handLast_host (c : Chip) (owner : Owner) (accs : List Acc) :
    (Chip.handLast c owner accs).host = c.host := by
  unfold Chip.handLast
  first | with_reducible rfl | simp only [Chip.modPort_host]
theorem Chip.entryWrites_host (before after : Chip) : (Chip.entryWrites before after).host = after.host := by
  unfold Chip.entryWrites
  extract_lets due d
  have h : d.host = after.host := Chip.foldl_host (fun _ _ => (Chip.modMirror_host ..).trans (Chip.handLast_host ..)) _ _
  clear_value d
  rw [Chip.handLast_host, ← h]
  rfl
theorem Chip.enterStopped_host (c : Chip) : c.enterStopped.host = c.host := by
  unfold Chip.enterStopped
  rw [Chip.entryWrites_host, Chip.shutDown_host]
theorem Chip.portOff_host (c : Chip) : (Chip.portOff c).host = c.host := by
  unfold Chip.portOff
  first | with_reducible rfl | simp only [Chip.host_same]
theorem Chip.enterHalted_host (c : Chip) : c.enterHalted.host = c.host := by
  unfold Chip.enterHalted
  extract_lets src c1 c2 c3
  have h1 : c1.host = c.host := rfl
  have h2 : c2.host = c1.host := rfl
  have h3 : c3.host = c2.host := Chip.foldl_host (fun _ _ => (Chip.modUnit_host ..).trans (Chip.endSession_host ..)) _ _
  clear_value c1 c2 c3
  rw [Chip.setCause_host, Chip.modHist_host, h3, h2, h1]
theorem Chip.enterChosen_host (c : Chip) (chosen : Collector) : (c.enterChosen chosen).host = c.host := by
  unfold Chip.enterChosen
  extract_lets c1 c2 running c3
  have h1 : c1.host = c.host := rfl
  have h2 : c2.host = c1.host := by
    simp only [c2]
    split <;> simp only [Chip.dipOn_host]
  have h3 : c3.host = c2.host := by
    refine Chip.foldl_host ?_ _ _
    intro c g
    split <;> rfl
  clear_value c1 c2 c3
  split
  · rw [Chip.enterStopping_host, h3, h2, h1]
  · rw [Chip.startScan_host, ← h1, ← h2, ← h3]
    rfl
theorem Chip.startingHeader_host (c : Chip) : (Chip.startingHeader c).host = c.host := by
  unfold Chip.startingHeader
  (repeat' split) <;> first | with_reducible rfl | simp only [Chip.enterChosen_host, Chip.host_same]

/-! ## Port -/

theorem Chip.startAccess_host (c : Chip) : c.startAccess.host = c.host := by
  unfold Chip.startAccess
  split
  · rfl
  · extract_lets p
    split <;> rfl
theorem Chip.enqueue_host (c : Chip) : (Chip.enqueue c).host = c.host := by
  unfold Chip.enqueue
  first | with_reducible rfl | simp only [Chip.host_same]
theorem Chip.headerDone_host (c : Chip) : c.headerDone.host = c.host := by
  unfold Chip.headerDone
  extract_lets d
  have h : d.host = c.host := rfl
  clear_value d
  rw [Chip.startingHeader_host, Chip.foldl_host Chip.clockHeader_host, Chip.historyHeader_host, h]
theorem Chip.mirrorDone_host (c : Chip) (u : UnitIx) : (c.mirrorDone u).host = c.host := by
  unfold Chip.mirrorDone
  extract_lets m d
  have h : d.host = c.host := rfl
  clear_value m d
  split <;> simp only [Chip.hand_host, h]
theorem Chip.requestDone_host (c : Chip) (r : Request) : (Chip.requestDone c r).host = c.host := by
  unfold Chip.requestDone
  (repeat' split) <;> first | with_reducible rfl | simp only [Chip.historyDone_host, Chip.scanDone_host, Chip.resultDone_host, Chip.startingDone_host, Chip.loaderDone_host, Chip.headerDone_host, Chip.mirrorDone_host]
theorem Chip.accessDone_host (c : Chip) (got : Option Word) : (c.accessDone got).host = c.host := by
  unfold Chip.accessDone
  split
  · rfl
  · extract_lets d r
    have h : d.host = c.host := by
      simp only [d]
      split
      · exact Chip.host_of_base (Chip.sequenceWritten_base ..)
      · rfl
    clear_value d r
    split
    · rw [Chip.requestDone_host, Chip.modPort_host, h]
    · exact (Chip.modPort_host ..).trans h
theorem Chip.askHeader_host (c : Chip) : c.askHeader.host = c.host := by
  unfold Chip.askHeader
  extract_lets d
  have h : d.host = c.host := rfl
  clear_value d
  split
  · exact h
  · exact h
theorem Chip.askMirror_host (c : Chip) (u : UnitIx) : (Chip.askMirror c u).host = c.host := by
  unfold Chip.askMirror
  (repeat' split) <;> first | with_reducible rfl | simp only [Chip.hand_host, Chip.modMirror_host]
theorem Chip.askRewrites_host (old c : Chip) : (Chip.askRewrites old c).host = c.host := by
  unfold Chip.askRewrites
  split
  · rfl
  · extract_lets d
    have h : d.host = c.host := by
      simp only [d]
      split
      · rfl
      · exact Chip.foldl_host Chip.askMirror_host _ _
    clear_value d
    split
    · rw [Chip.askHeader_host, h]
    · rw [Chip.foldl_host (fun _ _ => Chip.modSeg_host ..), h]
theorem Chip.handleWaiting_host (c : Chip) (g : Seg) : (Chip.handleWaiting c g).host = c.host := by
  unfold Chip.handleWaiting
  (repeat' split) <;> first | with_reducible rfl | simp only [Chip.modSeg_host, Chip.handleFrame_host]
theorem Chip.drain_host (fuel : Nat) (c : Chip) : (Chip.drain fuel c).host = c.host := by
  induction fuel generalizing c with
  | zero => rfl
  | succ n ih =>
    unfold Chip.drain
    (repeat' split) <;> simp only [ih, Chip.park_host, Chip.modMon_host, Chip.takeItem_host, Chip.handleWaiting_host]
theorem Chip.settle_host (old c : Chip) : (Chip.settle old c).host = c.host := by
  unfold Chip.settle
  rw [Chip.startAccess_host, Chip.enqueue_host, Chip.askRewrites_host, Chip.grantAll_host, Chip.drain_host]

/-! ## Registers -/

theorem Chip.onEnterStopped_host (c : Chip) : (Chip.onEnterStopped c).host = c.host := by
  unfold Chip.onEnterStopped
  (repeat' split) <;> first | with_reducible rfl | simp only [Chip.shutDown_host, Chip.enterStopped_host]

/-! ## Ignition -/

theorem Chip.ignOn_host (c : Chip) : c.ignOn.host = c.host := by
  unfold Chip.ignOn
  split
  · rfl
  · extract_lets d
    have h : d.host = c.host := rfl
    clear_value d
    split <;> simp only [Chip.cycleEffects_host, Chip.wake_host, Chip.modMon_host, h]
theorem Chip.startGrace_host (c : Chip) : (Chip.startGrace c).host = c.host := by
  unfold Chip.startGrace
  (repeat' split) <;> first | with_reducible rfl | simp only [Chip.modMon_host, Chip.graceEnd_host]
theorem Chip.ignOff_host (c : Chip) : c.ignOff.host = c.host := by
  unfold Chip.ignOff
  split
  · rfl
  · extract_lets d
    have h : d.host = c.host := rfl
    clear_value d
    split <;> simp only [Chip.startGrace_host, h]
theorem Chip.dipEntry_host (c : Chip) : (Chip.dipEntry c).host = c.host := by
  unfold Chip.dipEntry
  (repeat' split) <;> first | with_reducible rfl | simp only [Chip.modMon_host, Chip.wantHeader_host, Chip.setCause_host, Chip.modAllSegs_host]
theorem Chip.dipEnd_host (c : Chip) : (Chip.dipEnd c).host = c.host := by
  unfold Chip.dipEnd
  (repeat' split) <;> first | with_reducible rfl | simp only [Chip.modMon_host, Chip.wantHeader_host, Chip.modAllSegs_host, Chip.dropAll_host]
theorem Chip.ctRise_host (c : Chip) : c.ctRise.host = c.host := by
  unfold Chip.ctRise
  split
  · split
    · extract_lets d
      have h : d.host = c.host := rfl
      clear_value d
      split <;> simp only [Chip.wantHeader_host, h]
    · rfl
  · rfl
theorem Chip.sweepTimer_host (c : Chip) : c.sweepTimer.host = c.host := by
  unfold Chip.sweepTimer
  split
  · have h := Chip.sweepExpiry_host c
    generalize c.sweepExpiry = d at h ⊢
    exact h
  · rfl
theorem Chip.scanTimer_host (c : Chip) : (Chip.scanTimer c).host = c.host := by
  unfold Chip.scanTimer
  (repeat' split) <;> first | with_reducible rfl | simp only [Chip.scanRequest_host, Chip.host_same]

/-! ## Timers -/

theorem Chip.keepExpiry_host (u : UnitIx) (c : Chip) : (Chip.keepExpiry u c).host = c.host := by
  unfold Chip.keepExpiry
  split
  · split
    · rfl
    · extract_lets debt d
      have h : d.host = c.host := Chip.modSession_host ..
      clear_value debt d
      (repeat' split) <;> simp only [Chip.drop_host, Chip.postFor_host, h]
  · rfl
theorem Chip.coolExpiry_host (u : UnitIx) (c : Chip) : (Chip.coolExpiry u c).host = c.host := by
  unfold Chip.coolExpiry
  first | with_reducible rfl | simp only [Chip.modSession_host]
theorem Chip.openExpiry_host (u : UnitIx) (c : Chip) : (Chip.openExpiry u c).host = c.host := by
  unfold Chip.openExpiry
  (repeat' split) <;> first | with_reducible rfl | simp only [Chip.openTimesOut_host]
theorem Chip.replyExpiry_host (u : UnitIx) (c : Chip) : (Chip.replyExpiry u c).host = c.host := by
  unfold Chip.replyExpiry
  (repeat' split) <;> first | with_reducible rfl | simp only [Chip.closeEnds_host, Chip.attemptFails_host]
theorem Chip.restExpiry_host (u : UnitIx) (c : Chip) : (Chip.restExpiry u c).host = c.host := by
  unfold Chip.restExpiry
  (repeat' split) <;> first | with_reducible rfl | simp only [Chip.postRepeat_host]
theorem Chip.holdExpiry_host (u : UnitIx) (c : Chip) : (Chip.holdExpiry u c).host = c.host := by
  unfold Chip.holdExpiry
  (repeat' split) <;> first | with_reducible rfl | simp only [Chip.stepEnds_host]
theorem Chip.rollExpiry_host (g : Seg) (c : Chip) : (Chip.rollExpiry g c).host = c.host := by
  unfold Chip.rollExpiry
  (repeat' split) <;> first | with_reducible rfl | simp only [Chip.endCensus_host]
theorem Chip.recoveryExpiry_host (g : Seg) (c : Chip) : (Chip.recoveryExpiry g c).host = c.host := by
  unfold Chip.recoveryExpiry
  extract_lets running d
  have h : d.host = c.host := rfl
  clear_value running d
  (repeat' split) <;> simp only [Chip.shedOpens_host, h]
theorem Chip.errorsDue_host (g : Seg) (c : Chip) : (Chip.errorsDue g c).host = c.host := by
  unfold Chip.errorsDue
  (repeat' split) <;> first | with_reducible rfl | simp only [Chip.wantHeader_host, Chip.modSeg_host]

/-! ## Transmissions -/

theorem Chip.completed_host (c : Chip) (g : Seg) (which : Msg → Bool) (f : Chip → Item → Chip)
    (ht : ∀ c i, (f c i).host = c.host) : (c.completed g which f).host = c.host := by
  unfold Chip.completed
  split
  · rfl
  · extract_lets d
    have h : d.host = c.host := rfl
    clear_value d
    (repeat' split) <;> simp only [ht, h]
theorem Chip.toUnit_host (g : Seg) (f : Chip → UnitIx → Chip) (hf : ∀ c u, (f c u).host = c.host) (c : Chip) (i : Item) :
    (Chip.toUnit g f c i).host = c.host := by
  unfold Chip.toUnit
  split <;> simp only [hf]
theorem Chip.openDone_host (g : Seg) (c : Chip) : (Chip.openDone g c).host = c.host := by
  unfold Chip.openDone
  extract_lets entered d
  have h : d.host = c.host := by
    simp only [d]
    clear_value entered
    split <;> rfl
  clear_value entered d
  rw [Chip.completed_host _ _ _ _ (Chip.toUnit_host g _ Chip.openWentOut_host), h]
theorem Chip.requestOut_host (g : Seg) (c : Chip) : (Chip.requestOut g c).host = c.host := by
  unfold Chip.requestOut
  refine Chip.completed_host _ _ _ _ ?_
  intro c i
  split
  · exact Chip.toUnit_host g _ (fun _ _ => Chip.requestWentOut_host ..) _ _
  · rfl
theorem Chip.pullOut_host (g : Seg) (c : Chip) : (Chip.pullOut g c).host = c.host := by
  unfold Chip.pullOut
  refine Chip.completed_host _ _ _ _ ?_
  intro c i
  split
  · exact Chip.toUnit_host g _ (fun _ _ => Chip.pullWentOut_host ..) _ _
  · rfl
theorem Chip.startWindow_host (c : Chip) (g : Seg) (stamp : Nat) : (Chip.startWindow c g stamp).host = c.host := by
  unfold Chip.startWindow
  first | with_reducible rfl | simp only [Chip.modSeg_host]
theorem Chip.openLost_host (g : Seg) (c : Chip) (i : Item) : (Chip.openLost g c i).host = c.host := by
  unfold Chip.openLost
  split
  · rfl
  · split
    · rfl
    · extract_lets busy waits d d2 d3
      have h : d.host = c.host := by rw [Chip.withdrawFor_host, Chip.modUnit_host]
      have h2 : d2.host = d.host := by
        simp only [d2]
        split <;> simp only [Chip.lose_host]
      have h3 : d3.host = d2.host := by
        simp only [d3]
        split
        · exact Chip.host_of_base (Chip.firstPlanEnd_base ..)
        · rfl
      clear_value busy waits d d2 d3
      rw [Chip.host_of_base (Chip.closeStepDone_base ..), h3, h2, h]
theorem Chip.unansweredLimit_host (c : Chip) (g : Seg) : (c.unansweredLimit g).host = c.host := by
  unfold Chip.unansweredLimit
  extract_lets pending d d2
  have h : d.host = c.host := Chip.foldl_host (Chip.openLost_host g) _ _
  have h2 : d2.host = d.host := Chip.foldl_host (fun _ _ => Chip.startWindow_host ..) _ _
  clear_value pending d d2
  rw [Chip.modSeg_host, h2, h]
theorem Chip.busOff_host (c : Chip) (g : Seg) : (c.busOff g).host = c.host := by
  unfold Chip.busOff
  extract_lets errors c1 c2 c3
  have h1 : c1.host = c.host := rfl
  have h2 : c2.host = c1.host := by rw [Chip.wantHeader_host, Chip.dropSegment_host]
  have h3 : c3.host = c2.host := by rw [Chip.setCause_host, Chip.modSeg_host]
  split
  · exact (Chip.unansweredLimit_host ..).trans (h3.trans (h2.trans h1))
  · exact h3.trans (h2.trans h1)
theorem Chip.failed_host (g : Seg) (c : Chip) : (Chip.failed g c).host = c.host := by
  unfold Chip.failed
  (repeat' split) <;> first
    | with_reducible rfl
    | with_reducible exact Chip.busOff_host ..
    | simp only [Chip.withdrawSlot_host, Chip.modSeg_host]

/-! ## Receptions -/

theorem Chip.receiveError_host (g : Seg) (c : Chip) : (Chip.receiveError g c).host = c.host := by
  unfold Chip.receiveError
  (repeat' split) <;> first | with_reducible rfl | simp only [Chip.modSeg_host]
theorem Chip.foreign_host (g : Seg) (form : FrameForm) (id : BitVec 29) (c : Chip) :
    (Chip.foreign g form id c).host = c.host := by
  unfold Chip.foreign
  (repeat' split) <;> first
    | with_reducible rfl
    | simp only [Chip.receive_host, Chip.receivedWhole_host]

/-! ## Accesses -/

theorem Chip.accessError_host (c : Chip) : (Chip.accessError c).host = c.host := by
  unfold Chip.accessError
  (repeat' split) <;> first | with_reducible rfl | simp only [Chip.setCause_host, Chip.portOff_host, Chip.enterHalted_host]

/-! ## Clock -/

theorem Chip.tickBase_host (c : Chip) : (Chip.tickBase c).host = c.host := by
  unfold Chip.tickBase
  (repeat' split) <;> first | with_reducible rfl | simp only [Chip.modMon_host]
theorem Chip.tick_host (c : Chip) : (Chip.tick c).host = c.host := by
  unfold Chip.tick
  first | with_reducible rfl | simp only [Chip.modMon_host, Chip.tickBase_host, Chip.host_same]

end Sys2Proof.Machine
end

