-- ==== Sys2Proof/Laws/Memory.lean ====
section
/-!
SUPPORT. The laws of the exchange area in host RAM: every write keeps the canonical form; a byte written is read back, and
no other byte changes.
-/

namespace Sys2Proof.Machine

/-- Every entry's address is above `n`. -/
def Memory.above (n : Nat) : List Host.Cell → Prop
  | [] => True
  | (a, _) :: _ => n < a

theorem Memory.wf_cons (a : Nat) (b : Byte) (m : List Host.Cell) :
    Memory.wf ((a, b) :: m) = true ↔ b ≠ Config.unwritten ∧ Memory.above a m ∧ Memory.wf m = true := by
  cases m with
  | nil => simp [Memory.wf, Memory.above]
  | cons x rest =>
    obtain ⟨a', b'⟩ := x
    simp [Memory.wf, Memory.above, and_assoc]

theorem Memory.above_write {n x : Nat} (hx : n < x) (v : Byte) :
    ∀ {m : List Host.Cell}, Memory.above n m → Memory.wf m = true → Memory.above n (Memory.write m x v)
  | [], _, _ => by
    unfold Memory.write
    split <;> simp [Memory.above, hx]
  | (a, b) :: rest, h, hw => by
    have ha : n < a := h
    unfold Memory.write
    split
    · split
      · exact ha
      · exact hx
    · split
      · split
        · cases rest with
          | nil => trivial
          | cons y r =>
            obtain ⟨a', b'⟩ := y
            have := ((Memory.wf_cons _ _ _).mp hw).2.1
            simp only [Memory.above] at this ⊢
            omega
        · exact hx
      · exact ha

/-- A byte write keeps the canonical form. -/
theorem Memory.write_wf (x : Nat) (v : Byte) :
    ∀ {m : List Host.Cell}, Memory.wf m = true → Memory.wf (Memory.write m x v) = true
  | [], _ => by
    unfold Memory.write
    split
    · rfl
    · simpa [Memory.wf] using ‹_›
  | (a, b) :: rest, h => by
    obtain ⟨hb, ha, hr⟩ := (Memory.wf_cons _ _ _).mp h
    unfold Memory.write
    split
    · split
      · exact h
      · exact (Memory.wf_cons _ _ _).mpr ⟨‹_›, ‹_›, h⟩
    · split
      · split
        · exact hr
        · have hxa : x = a := ‹_›
          subst hxa
          exact (Memory.wf_cons _ _ _).mpr ⟨‹_›, ha, hr⟩
      · have hax : a < x := by omega
        exact (Memory.wf_cons _ _ _).mpr ⟨hb, Memory.above_write hax v ha hr, Memory.write_wf x v hr⟩

/-- A word write keeps the canonical form. -/
theorem Memory.writeWord_wf {m : List Host.Cell} (h : Memory.wf m = true) (x : Nat) (w : Word) :
    Memory.wf (Memory.writeWord m x w) = true :=
  Memory.write_wf _ _ (Memory.write_wf _ _ (Memory.write_wf _ _ (Memory.write_wf _ _ h)))

/-- The host's writes keep the canonical form. -/
theorem Memory.writeBytes_wf (bs : List (Word × Byte)) :
    ∀ {m : List Host.Cell}, Memory.wf m = true → Memory.wf (Memory.writeBytes m bs) = true := by
  induction bs with
  | nil => exact fun h => h
  | cons x rest ih => exact fun h => ih (Memory.write_wf _ _ h)

theorem Memory.read_of_above {n : Nat} : ∀ {m : List Host.Cell}, Memory.above n m → Memory.wf m = true →
    ∀ {x : Nat}, x ≤ n → Memory.read m x = Config.unwritten
  | [], _, _, _, _ => rfl
  | (a, b) :: rest, h, hw, x, hx => by
    have ha : n < a := h
    obtain ⟨_, hr, hwr⟩ := (Memory.wf_cons _ _ _).mp hw
    unfold Memory.read
    rw [if_neg (by omega)]
    exact Memory.read_of_above hr hwr (by omega)

/-- What reading a byte gives after a byte write, on a memory in canonical form. -/
theorem Memory.read_write (x : Nat) (v : Byte) (y : Nat) :
    ∀ {m : List Host.Cell}, Memory.wf m = true →
      Memory.read (Memory.write m x v) y = if y = x then v else Memory.read m y
  | [], _ => by
    by_cases hv : v = Config.unwritten <;> by_cases hy : y = x <;> simp [Memory.write, Memory.read, hv, hy, eq_comm (a := x)]
  | (a, b) :: rest, h => by
    obtain ⟨_, ha, hr⟩ := (Memory.wf_cons _ _ _).mp h
    simp only [Memory.write]
    split
    · have habove : Memory.above x ((a, b) :: rest) := ‹_›
      split
      · by_cases hy : y = x
        · subst hy
          rw [if_pos rfl, Memory.read_of_above habove h (Nat.le_refl _)]
          exact Eq.symm ‹_›
        · rw [if_neg hy]
      · by_cases hy : y = x
        · simp [Memory.read, hy]
        · simp [Memory.read, hy, Ne.symm hy]
    · split
      · have hxa : x = a := ‹_›
        subst hxa
        split
        · by_cases hy : y = x
          · subst hy
            rw [if_pos rfl, Memory.read_of_above ha hr (Nat.le_refl _)]
            exact Eq.symm ‹_›
          · simp [Memory.read, hy, Ne.symm hy]
        · by_cases hy : y = x
          · simp [Memory.read, hy]
          · simp [Memory.read, hy, Ne.symm hy]
      · simp only [Memory.read]
        by_cases hya : a = y
        · subst hya
          rw [if_pos rfl, if_neg (by omega), if_pos rfl]
        · rw [if_neg hya, if_neg hya]
          exact Memory.read_write x v y hr

/-- A word written outside a byte's place leaves the byte. -/
theorem Memory.read_writeWord_other {m : List Host.Cell} (h : Memory.wf m = true) (x : Nat) (w : Word) {y : Nat}
    (hy : y < x ∨ x + 3 < y) : Memory.read (Memory.writeWord m x w) y = Memory.read m y := by
  have h1 := Memory.write_wf x (w.extractLsb' 0 8) h
  have h2 := Memory.write_wf (x + 1) (w.extractLsb' 8 8) h1
  have h3 := Memory.write_wf (x + 2) (w.extractLsb' 16 8) h2
  unfold Memory.writeWord
  rw [Memory.read_write _ _ _ h3, if_neg (by omega), Memory.read_write _ _ _ h2, if_neg (by omega),
    Memory.read_write _ _ _ h1, if_neg (by omega), Memory.read_write _ _ _ h, if_neg (by omega)]

/-- A word written is read back. -/
theorem Memory.readWord_writeWord {m : List Host.Cell} (h : Memory.wf m = true) (x : Nat) (w : Word) :
    Memory.readWord (Memory.writeWord m x w) x = w := by
  have h1 := Memory.write_wf x (w.extractLsb' 0 8) h
  have h2 := Memory.write_wf (x + 1) (w.extractLsb' 8 8) h1
  have h3 := Memory.write_wf (x + 2) (w.extractLsb' 16 8) h2
  unfold Memory.readWord Memory.writeWord
  have e : ∀ i j : Nat, i ≠ j → (x + i = x + j) = False := fun i j hij => by simp [hij]
  have e0 : ∀ j : Nat, j ≠ 0 → (x = x + j) = False := fun j hj => by simp [hj]
  have e1 : ∀ i : Nat, i ≠ 0 → (x + i = x) = False := fun i hi => by simp [hi]
  simp only [Memory.read_write _ _ _ h3, Memory.read_write _ _ _ h2, Memory.read_write _ _ _ h1, Memory.read_write _ _ _ h,
    e 2 3 (by decide), e 1 3 (by decide), e 1 2 (by decide), e0 3 (by decide), e0 2 (by decide), e0 1 (by decide),
    if_true, if_false]
  apply BitVec.eq_of_getLsbD_eq
  intro i hi
  simp only [BitVec.getLsbD_append, BitVec.getLsbD_extractLsb']
  split
  · simp [*]
  · split
    · simp only [*, decide_true, Bool.true_and]
      congr 1
      omega
    · split
      · simp only [*, decide_true, Bool.true_and]
        congr 1
        omega
      · have : i - 8 - 8 - 8 < 8 := by omega
        simp only [this, decide_true, Bool.true_and]
        congr 1
        omega

end Sys2Proof.Machine
end

