-- ==== Sys2Proof/Laws/State.lean ====
section
/-!
SUPPORT. What each update of the chip leaves alone and what it sets, one lemma for each field, so that no later proof
unfolds a record update.
-/

namespace Sys2Proof.Machine

variable (c : Chip)

/-! ## Chip.setUnit -/

@[simp] theorem Chip.setUnit_regs (u : UnitIx) (r : Option UnitRec) : (c.setUnit u r).regs = c.regs := rfl
@[simp] theorem Chip.setUnit_col (u : UnitIx) (r : Option UnitRec) : (c.setUnit u r).col = c.col := rfl
@[simp] theorem Chip.setUnit_stopRequest (u : UnitIx) (r : Option UnitRec) : (c.setUnit u r).stopRequest = c.stopRequest := rfl
@[simp] theorem Chip.setUnit_stopTimer (u : UnitIx) (r : Option UnitRec) : (c.setUnit u r).stopTimer = c.stopTimer := rfl
@[simp] theorem Chip.setUnit_profileState (u : UnitIx) (r : Option UnitRec) : (c.setUnit u r).profileState = c.profileState := rfl
@[simp] theorem Chip.setUnit_profileFaults (u : UnitIx) (r : Option UnitRec) : (c.setUnit u r).profileFaults = c.profileFaults := rfl
@[simp] theorem Chip.setUnit_settings (u : UnitIx) (r : Option UnitRec) : (c.setUnit u r).settings = c.settings := rfl
@[simp] theorem Chip.setUnit_rosterFull (u : UnitIx) (r : Option UnitRec) : (c.setUnit u r).rosterFull = c.rosterFull := rfl
@[simp] theorem Chip.setUnit_segs (u : UnitIx) (r : Option UnitRec) : (c.setUnit u r).segs = c.segs := rfl
@[simp] theorem Chip.setUnit_ctxs (u : UnitIx) (r : Option UnitRec) : (c.setUnit u r).ctxs = c.ctxs := rfl
@[simp] theorem Chip.setUnit_sweepCount (u : UnitIx) (r : Option UnitRec) : (c.setUnit u r).sweepCount = c.sweepCount := rfl
@[simp] theorem Chip.setUnit_lastSweepSeq (u : UnitIx) (r : Option UnitRec) : (c.setUnit u r).lastSweepSeq = c.lastSweepSeq := rfl
@[simp] theorem Chip.setUnit_sweepOverruns (u : UnitIx) (r : Option UnitRec) : (c.setUnit u r).sweepOverruns = c.sweepOverruns := rfl
@[simp] theorem Chip.setUnit_hist (u : UnitIx) (r : Option UnitRec) : (c.setUnit u r).hist = c.hist := rfl
@[simp] theorem Chip.setUnit_pool (u : UnitIx) (r : Option UnitRec) : (c.setUnit u r).pool = c.pool := rfl
@[simp] theorem Chip.setUnit_mon (u : UnitIx) (r : Option UnitRec) : (c.setUnit u r).mon = c.mon := rfl
@[simp] theorem Chip.setUnit_port (u : UnitIx) (r : Option UnitRec) : (c.setUnit u r).port = c.port := rfl
@[simp] theorem Chip.setUnit_scan (u : UnitIx) (r : Option UnitRec) : (c.setUnit u r).scan = c.scan := rfl
@[simp] theorem Chip.setUnit_hdr (u : UnitIx) (r : Option UnitRec) : (c.setUnit u r).hdr = c.hdr := rfl
@[simp] theorem Chip.setUnit_mirrors (u : UnitIx) (r : Option UnitRec) : (c.setUnit u r).mirrors = c.mirrors := rfl
@[simp] theorem Chip.setUnit_load (u : UnitIx) (r : Option UnitRec) : (c.setUnit u r).load = c.load := rfl
@[simp] theorem Chip.setUnit_start (u : UnitIx) (r : Option UnitRec) : (c.setUnit u r).start = c.start := rfl
@[simp] theorem Chip.setUnit_nextSerial (u : UnitIx) (r : Option UnitRec) : (c.setUnit u r).nextSerial = c.nextSerial := rfl
@[simp] theorem Chip.setUnit_freeIdx (u : UnitIx) (r : Option UnitRec) : (c.setUnit u r).freeIdx = c.freeIdx := rfl

/-! ## Chip.modSeg -/

@[simp] theorem Chip.modSeg_regs (g : Seg) (f : SegRec → SegRec) : (c.modSeg g f).regs = c.regs := rfl
@[simp] theorem Chip.modSeg_col (g : Seg) (f : SegRec → SegRec) : (c.modSeg g f).col = c.col := rfl
@[simp] theorem Chip.modSeg_stopRequest (g : Seg) (f : SegRec → SegRec) : (c.modSeg g f).stopRequest = c.stopRequest := rfl
@[simp] theorem Chip.modSeg_stopTimer (g : Seg) (f : SegRec → SegRec) : (c.modSeg g f).stopTimer = c.stopTimer := rfl
@[simp] theorem Chip.modSeg_profileState (g : Seg) (f : SegRec → SegRec) : (c.modSeg g f).profileState = c.profileState := rfl
@[simp] theorem Chip.modSeg_profileFaults (g : Seg) (f : SegRec → SegRec) : (c.modSeg g f).profileFaults = c.profileFaults := rfl
@[simp] theorem Chip.modSeg_settings (g : Seg) (f : SegRec → SegRec) : (c.modSeg g f).settings = c.settings := rfl
@[simp] theorem Chip.modSeg_roster (g : Seg) (f : SegRec → SegRec) : (c.modSeg g f).roster = c.roster := rfl
@[simp] theorem Chip.modSeg_rosterFull (g : Seg) (f : SegRec → SegRec) : (c.modSeg g f).rosterFull = c.rosterFull := rfl
@[simp] theorem Chip.modSeg_ctxs (g : Seg) (f : SegRec → SegRec) : (c.modSeg g f).ctxs = c.ctxs := rfl
@[simp] theorem Chip.modSeg_sweepCount (g : Seg) (f : SegRec → SegRec) : (c.modSeg g f).sweepCount = c.sweepCount := rfl
@[simp] theorem Chip.modSeg_lastSweepSeq (g : Seg) (f : SegRec → SegRec) : (c.modSeg g f).lastSweepSeq = c.lastSweepSeq := rfl
@[simp] theorem Chip.modSeg_sweepOverruns (g : Seg) (f : SegRec → SegRec) : (c.modSeg g f).sweepOverruns = c.sweepOverruns := rfl
@[simp] theorem Chip.modSeg_hist (g : Seg) (f : SegRec → SegRec) : (c.modSeg g f).hist = c.hist := rfl
@[simp] theorem Chip.modSeg_pool (g : Seg) (f : SegRec → SegRec) : (c.modSeg g f).pool = c.pool := rfl
@[simp] theorem Chip.modSeg_mon (g : Seg) (f : SegRec → SegRec) : (c.modSeg g f).mon = c.mon := rfl
@[simp] theorem Chip.modSeg_port (g : Seg) (f : SegRec → SegRec) : (c.modSeg g f).port = c.port := rfl
@[simp] theorem Chip.modSeg_scan (g : Seg) (f : SegRec → SegRec) : (c.modSeg g f).scan = c.scan := rfl
@[simp] theorem Chip.modSeg_hdr (g : Seg) (f : SegRec → SegRec) : (c.modSeg g f).hdr = c.hdr := rfl
@[simp] theorem Chip.modSeg_mirrors (g : Seg) (f : SegRec → SegRec) : (c.modSeg g f).mirrors = c.mirrors := rfl
@[simp] theorem Chip.modSeg_load (g : Seg) (f : SegRec → SegRec) : (c.modSeg g f).load = c.load := rfl
@[simp] theorem Chip.modSeg_start (g : Seg) (f : SegRec → SegRec) : (c.modSeg g f).start = c.start := rfl
@[simp] theorem Chip.modSeg_nextSerial (g : Seg) (f : SegRec → SegRec) : (c.modSeg g f).nextSerial = c.nextSerial := rfl
@[simp] theorem Chip.modSeg_freeIdx (g : Seg) (f : SegRec → SegRec) : (c.modSeg g f).freeIdx = c.freeIdx := rfl

/-! ## Chip.modCtx -/

@[simp] theorem Chip.modCtx_regs (k : CtxIx) (f : Ctx → Ctx) : (c.modCtx k f).regs = c.regs := rfl
@[simp] theorem Chip.modCtx_col (k : CtxIx) (f : Ctx → Ctx) : (c.modCtx k f).col = c.col := rfl
@[simp] theorem Chip.modCtx_stopRequest (k : CtxIx) (f : Ctx → Ctx) : (c.modCtx k f).stopRequest = c.stopRequest := rfl
@[simp] theorem Chip.modCtx_stopTimer (k : CtxIx) (f : Ctx → Ctx) : (c.modCtx k f).stopTimer = c.stopTimer := rfl
@[simp] theorem Chip.modCtx_profileState (k : CtxIx) (f : Ctx → Ctx) : (c.modCtx k f).profileState = c.profileState := rfl
@[simp] theorem Chip.modCtx_profileFaults (k : CtxIx) (f : Ctx → Ctx) : (c.modCtx k f).profileFaults = c.profileFaults := rfl
@[simp] theorem Chip.modCtx_settings (k : CtxIx) (f : Ctx → Ctx) : (c.modCtx k f).settings = c.settings := rfl
@[simp] theorem Chip.modCtx_roster (k : CtxIx) (f : Ctx → Ctx) : (c.modCtx k f).roster = c.roster := rfl
@[simp] theorem Chip.modCtx_rosterFull (k : CtxIx) (f : Ctx → Ctx) : (c.modCtx k f).rosterFull = c.rosterFull := rfl
@[simp] theorem Chip.modCtx_segs (k : CtxIx) (f : Ctx → Ctx) : (c.modCtx k f).segs = c.segs := rfl
@[simp] theorem Chip.modCtx_sweepCount (k : CtxIx) (f : Ctx → Ctx) : (c.modCtx k f).sweepCount = c.sweepCount := rfl
@[simp] theorem Chip.modCtx_lastSweepSeq (k : CtxIx) (f : Ctx → Ctx) : (c.modCtx k f).lastSweepSeq = c.lastSweepSeq := rfl
@[simp] theorem Chip.modCtx_sweepOverruns (k : CtxIx) (f : Ctx → Ctx) : (c.modCtx k f).sweepOverruns = c.sweepOverruns := rfl
@[simp] theorem Chip.modCtx_hist (k : CtxIx) (f : Ctx → Ctx) : (c.modCtx k f).hist = c.hist := rfl
@[simp] theorem Chip.modCtx_pool (k : CtxIx) (f : Ctx → Ctx) : (c.modCtx k f).pool = c.pool := rfl
@[simp] theorem Chip.modCtx_mon (k : CtxIx) (f : Ctx → Ctx) : (c.modCtx k f).mon = c.mon := rfl
@[simp] theorem Chip.modCtx_port (k : CtxIx) (f : Ctx → Ctx) : (c.modCtx k f).port = c.port := rfl
@[simp] theorem Chip.modCtx_scan (k : CtxIx) (f : Ctx → Ctx) : (c.modCtx k f).scan = c.scan := rfl
@[simp] theorem Chip.modCtx_hdr (k : CtxIx) (f : Ctx → Ctx) : (c.modCtx k f).hdr = c.hdr := rfl
@[simp] theorem Chip.modCtx_mirrors (k : CtxIx) (f : Ctx → Ctx) : (c.modCtx k f).mirrors = c.mirrors := rfl
@[simp] theorem Chip.modCtx_load (k : CtxIx) (f : Ctx → Ctx) : (c.modCtx k f).load = c.load := rfl
@[simp] theorem Chip.modCtx_start (k : CtxIx) (f : Ctx → Ctx) : (c.modCtx k f).start = c.start := rfl
@[simp] theorem Chip.modCtx_nextSerial (k : CtxIx) (f : Ctx → Ctx) : (c.modCtx k f).nextSerial = c.nextSerial := rfl
@[simp] theorem Chip.modCtx_freeIdx (k : CtxIx) (f : Ctx → Ctx) : (c.modCtx k f).freeIdx = c.freeIdx := rfl

/-! ## Chip.modSlot -/

@[simp] theorem Chip.modSlot_regs (i : SlotIx) (f : SlotRec → SlotRec) : (c.modSlot i f).regs = c.regs := rfl
@[simp] theorem Chip.modSlot_col (i : SlotIx) (f : SlotRec → SlotRec) : (c.modSlot i f).col = c.col := rfl
@[simp] theorem Chip.modSlot_stopRequest (i : SlotIx) (f : SlotRec → SlotRec) : (c.modSlot i f).stopRequest = c.stopRequest := rfl
@[simp] theorem Chip.modSlot_stopTimer (i : SlotIx) (f : SlotRec → SlotRec) : (c.modSlot i f).stopTimer = c.stopTimer := rfl
@[simp] theorem Chip.modSlot_profileState (i : SlotIx) (f : SlotRec → SlotRec) : (c.modSlot i f).profileState = c.profileState := rfl
@[simp] theorem Chip.modSlot_profileFaults (i : SlotIx) (f : SlotRec → SlotRec) : (c.modSlot i f).profileFaults = c.profileFaults := rfl
@[simp] theorem Chip.modSlot_settings (i : SlotIx) (f : SlotRec → SlotRec) : (c.modSlot i f).settings = c.settings := rfl
@[simp] theorem Chip.modSlot_roster (i : SlotIx) (f : SlotRec → SlotRec) : (c.modSlot i f).roster = c.roster := rfl
@[simp] theorem Chip.modSlot_rosterFull (i : SlotIx) (f : SlotRec → SlotRec) : (c.modSlot i f).rosterFull = c.rosterFull := rfl
@[simp] theorem Chip.modSlot_segs (i : SlotIx) (f : SlotRec → SlotRec) : (c.modSlot i f).segs = c.segs := rfl
@[simp] theorem Chip.modSlot_ctxs (i : SlotIx) (f : SlotRec → SlotRec) : (c.modSlot i f).ctxs = c.ctxs := rfl
@[simp] theorem Chip.modSlot_sweepCount (i : SlotIx) (f : SlotRec → SlotRec) : (c.modSlot i f).sweepCount = c.sweepCount := rfl
@[simp] theorem Chip.modSlot_lastSweepSeq (i : SlotIx) (f : SlotRec → SlotRec) : (c.modSlot i f).lastSweepSeq = c.lastSweepSeq := rfl
@[simp] theorem Chip.modSlot_sweepOverruns (i : SlotIx) (f : SlotRec → SlotRec) : (c.modSlot i f).sweepOverruns = c.sweepOverruns := rfl
@[simp] theorem Chip.modSlot_pool (i : SlotIx) (f : SlotRec → SlotRec) : (c.modSlot i f).pool = c.pool := rfl
@[simp] theorem Chip.modSlot_mon (i : SlotIx) (f : SlotRec → SlotRec) : (c.modSlot i f).mon = c.mon := rfl
@[simp] theorem Chip.modSlot_port (i : SlotIx) (f : SlotRec → SlotRec) : (c.modSlot i f).port = c.port := rfl
@[simp] theorem Chip.modSlot_scan (i : SlotIx) (f : SlotRec → SlotRec) : (c.modSlot i f).scan = c.scan := rfl
@[simp] theorem Chip.modSlot_hdr (i : SlotIx) (f : SlotRec → SlotRec) : (c.modSlot i f).hdr = c.hdr := rfl
@[simp] theorem Chip.modSlot_mirrors (i : SlotIx) (f : SlotRec → SlotRec) : (c.modSlot i f).mirrors = c.mirrors := rfl
@[simp] theorem Chip.modSlot_load (i : SlotIx) (f : SlotRec → SlotRec) : (c.modSlot i f).load = c.load := rfl
@[simp] theorem Chip.modSlot_start (i : SlotIx) (f : SlotRec → SlotRec) : (c.modSlot i f).start = c.start := rfl
@[simp] theorem Chip.modSlot_nextSerial (i : SlotIx) (f : SlotRec → SlotRec) : (c.modSlot i f).nextSerial = c.nextSerial := rfl
@[simp] theorem Chip.modSlot_freeIdx (i : SlotIx) (f : SlotRec → SlotRec) : (c.modSlot i f).freeIdx = c.freeIdx := rfl

/-! ## Chip.modMon -/

@[simp] theorem Chip.modMon_regs (f : Monitor → Monitor) : (c.modMon f).regs = c.regs := rfl
@[simp] theorem Chip.modMon_col (f : Monitor → Monitor) : (c.modMon f).col = c.col := rfl
@[simp] theorem Chip.modMon_stopRequest (f : Monitor → Monitor) : (c.modMon f).stopRequest = c.stopRequest := rfl
@[simp] theorem Chip.modMon_stopTimer (f : Monitor → Monitor) : (c.modMon f).stopTimer = c.stopTimer := rfl
@[simp] theorem Chip.modMon_profileState (f : Monitor → Monitor) : (c.modMon f).profileState = c.profileState := rfl
@[simp] theorem Chip.modMon_profileFaults (f : Monitor → Monitor) : (c.modMon f).profileFaults = c.profileFaults := rfl
@[simp] theorem Chip.modMon_settings (f : Monitor → Monitor) : (c.modMon f).settings = c.settings := rfl
@[simp] theorem Chip.modMon_roster (f : Monitor → Monitor) : (c.modMon f).roster = c.roster := rfl
@[simp] theorem Chip.modMon_rosterFull (f : Monitor → Monitor) : (c.modMon f).rosterFull = c.rosterFull := rfl
@[simp] theorem Chip.modMon_segs (f : Monitor → Monitor) : (c.modMon f).segs = c.segs := rfl
@[simp] theorem Chip.modMon_ctxs (f : Monitor → Monitor) : (c.modMon f).ctxs = c.ctxs := rfl
@[simp] theorem Chip.modMon_sweepCount (f : Monitor → Monitor) : (c.modMon f).sweepCount = c.sweepCount := rfl
@[simp] theorem Chip.modMon_lastSweepSeq (f : Monitor → Monitor) : (c.modMon f).lastSweepSeq = c.lastSweepSeq := rfl
@[simp] theorem Chip.modMon_sweepOverruns (f : Monitor → Monitor) : (c.modMon f).sweepOverruns = c.sweepOverruns := rfl
@[simp] theorem Chip.modMon_hist (f : Monitor → Monitor) : (c.modMon f).hist = c.hist := rfl
@[simp] theorem Chip.modMon_pool (f : Monitor → Monitor) : (c.modMon f).pool = c.pool := rfl
@[simp] theorem Chip.modMon_port (f : Monitor → Monitor) : (c.modMon f).port = c.port := rfl
@[simp] theorem Chip.modMon_scan (f : Monitor → Monitor) : (c.modMon f).scan = c.scan := rfl
@[simp] theorem Chip.modMon_hdr (f : Monitor → Monitor) : (c.modMon f).hdr = c.hdr := rfl
@[simp] theorem Chip.modMon_mirrors (f : Monitor → Monitor) : (c.modMon f).mirrors = c.mirrors := rfl
@[simp] theorem Chip.modMon_load (f : Monitor → Monitor) : (c.modMon f).load = c.load := rfl
@[simp] theorem Chip.modMon_start (f : Monitor → Monitor) : (c.modMon f).start = c.start := rfl
@[simp] theorem Chip.modMon_nextSerial (f : Monitor → Monitor) : (c.modMon f).nextSerial = c.nextSerial := rfl
@[simp] theorem Chip.modMon_freeIdx (f : Monitor → Monitor) : (c.modMon f).freeIdx = c.freeIdx := rfl

/-! ## Chip.modHist -/

@[simp] theorem Chip.modHist_regs (f : Hist → Hist) : (c.modHist f).regs = c.regs := rfl
@[simp] theorem Chip.modHist_col (f : Hist → Hist) : (c.modHist f).col = c.col := rfl
@[simp] theorem Chip.modHist_stopRequest (f : Hist → Hist) : (c.modHist f).stopRequest = c.stopRequest := rfl
@[simp] theorem Chip.modHist_stopTimer (f : Hist → Hist) : (c.modHist f).stopTimer = c.stopTimer := rfl
@[simp] theorem Chip.modHist_profileState (f : Hist → Hist) : (c.modHist f).profileState = c.profileState := rfl
@[simp] theorem Chip.modHist_profileFaults (f : Hist → Hist) : (c.modHist f).profileFaults = c.profileFaults := rfl
@[simp] theorem Chip.modHist_settings (f : Hist → Hist) : (c.modHist f).settings = c.settings := rfl
@[simp] theorem Chip.modHist_roster (f : Hist → Hist) : (c.modHist f).roster = c.roster := rfl
@[simp] theorem Chip.modHist_rosterFull (f : Hist → Hist) : (c.modHist f).rosterFull = c.rosterFull := rfl
@[simp] theorem Chip.modHist_segs (f : Hist → Hist) : (c.modHist f).segs = c.segs := rfl
@[simp] theorem Chip.modHist_ctxs (f : Hist → Hist) : (c.modHist f).ctxs = c.ctxs := rfl
@[simp] theorem Chip.modHist_sweepCount (f : Hist → Hist) : (c.modHist f).sweepCount = c.sweepCount := rfl
@[simp] theorem Chip.modHist_lastSweepSeq (f : Hist → Hist) : (c.modHist f).lastSweepSeq = c.lastSweepSeq := rfl
@[simp] theorem Chip.modHist_sweepOverruns (f : Hist → Hist) : (c.modHist f).sweepOverruns = c.sweepOverruns := rfl
@[simp] theorem Chip.modHist_pool (f : Hist → Hist) : (c.modHist f).pool = c.pool := rfl
@[simp] theorem Chip.modHist_mon (f : Hist → Hist) : (c.modHist f).mon = c.mon := rfl
@[simp] theorem Chip.modHist_port (f : Hist → Hist) : (c.modHist f).port = c.port := rfl
@[simp] theorem Chip.modHist_scan (f : Hist → Hist) : (c.modHist f).scan = c.scan := rfl
@[simp] theorem Chip.modHist_hdr (f : Hist → Hist) : (c.modHist f).hdr = c.hdr := rfl
@[simp] theorem Chip.modHist_mirrors (f : Hist → Hist) : (c.modHist f).mirrors = c.mirrors := rfl
@[simp] theorem Chip.modHist_load (f : Hist → Hist) : (c.modHist f).load = c.load := rfl
@[simp] theorem Chip.modHist_start (f : Hist → Hist) : (c.modHist f).start = c.start := rfl
@[simp] theorem Chip.modHist_nextSerial (f : Hist → Hist) : (c.modHist f).nextSerial = c.nextSerial := rfl
@[simp] theorem Chip.modHist_freeIdx (f : Hist → Hist) : (c.modHist f).freeIdx = c.freeIdx := rfl

/-! ## Chip.modPort -/

@[simp] theorem Chip.modPort_regs (f : Port → Port) : (c.modPort f).regs = c.regs := rfl
@[simp] theorem Chip.modPort_col (f : Port → Port) : (c.modPort f).col = c.col := rfl
@[simp] theorem Chip.modPort_stopRequest (f : Port → Port) : (c.modPort f).stopRequest = c.stopRequest := rfl
@[simp] theorem Chip.modPort_stopTimer (f : Port → Port) : (c.modPort f).stopTimer = c.stopTimer := rfl
@[simp] theorem Chip.modPort_profileState (f : Port → Port) : (c.modPort f).profileState = c.profileState := rfl
@[simp] theorem Chip.modPort_profileFaults (f : Port → Port) : (c.modPort f).profileFaults = c.profileFaults := rfl
@[simp] theorem Chip.modPort_settings (f : Port → Port) : (c.modPort f).settings = c.settings := rfl
@[simp] theorem Chip.modPort_roster (f : Port → Port) : (c.modPort f).roster = c.roster := rfl
@[simp] theorem Chip.modPort_rosterFull (f : Port → Port) : (c.modPort f).rosterFull = c.rosterFull := rfl
@[simp] theorem Chip.modPort_segs (f : Port → Port) : (c.modPort f).segs = c.segs := rfl
@[simp] theorem Chip.modPort_ctxs (f : Port → Port) : (c.modPort f).ctxs = c.ctxs := rfl
@[simp] theorem Chip.modPort_sweepCount (f : Port → Port) : (c.modPort f).sweepCount = c.sweepCount := rfl
@[simp] theorem Chip.modPort_lastSweepSeq (f : Port → Port) : (c.modPort f).lastSweepSeq = c.lastSweepSeq := rfl
@[simp] theorem Chip.modPort_sweepOverruns (f : Port → Port) : (c.modPort f).sweepOverruns = c.sweepOverruns := rfl
@[simp] theorem Chip.modPort_hist (f : Port → Port) : (c.modPort f).hist = c.hist := rfl
@[simp] theorem Chip.modPort_pool (f : Port → Port) : (c.modPort f).pool = c.pool := rfl
@[simp] theorem Chip.modPort_mon (f : Port → Port) : (c.modPort f).mon = c.mon := rfl
@[simp] theorem Chip.modPort_scan (f : Port → Port) : (c.modPort f).scan = c.scan := rfl
@[simp] theorem Chip.modPort_hdr (f : Port → Port) : (c.modPort f).hdr = c.hdr := rfl
@[simp] theorem Chip.modPort_mirrors (f : Port → Port) : (c.modPort f).mirrors = c.mirrors := rfl
@[simp] theorem Chip.modPort_load (f : Port → Port) : (c.modPort f).load = c.load := rfl
@[simp] theorem Chip.modPort_start (f : Port → Port) : (c.modPort f).start = c.start := rfl
@[simp] theorem Chip.modPort_nextSerial (f : Port → Port) : (c.modPort f).nextSerial = c.nextSerial := rfl
@[simp] theorem Chip.modPort_freeIdx (f : Port → Port) : (c.modPort f).freeIdx = c.freeIdx := rfl

/-! ## Chip.wantHeader -/

@[simp] theorem Chip.wantHeader_regs : (c.wantHeader).regs = c.regs := rfl
@[simp] theorem Chip.wantHeader_col : (c.wantHeader).col = c.col := rfl
@[simp] theorem Chip.wantHeader_stopRequest : (c.wantHeader).stopRequest = c.stopRequest := rfl
@[simp] theorem Chip.wantHeader_stopTimer : (c.wantHeader).stopTimer = c.stopTimer := rfl
@[simp] theorem Chip.wantHeader_profileState : (c.wantHeader).profileState = c.profileState := rfl
@[simp] theorem Chip.wantHeader_profileFaults : (c.wantHeader).profileFaults = c.profileFaults := rfl
@[simp] theorem Chip.wantHeader_settings : (c.wantHeader).settings = c.settings := rfl
@[simp] theorem Chip.wantHeader_roster : (c.wantHeader).roster = c.roster := rfl
@[simp] theorem Chip.wantHeader_rosterFull : (c.wantHeader).rosterFull = c.rosterFull := rfl
@[simp] theorem Chip.wantHeader_segs : (c.wantHeader).segs = c.segs := rfl
@[simp] theorem Chip.wantHeader_ctxs : (c.wantHeader).ctxs = c.ctxs := rfl
@[simp] theorem Chip.wantHeader_sweepCount : (c.wantHeader).sweepCount = c.sweepCount := rfl
@[simp] theorem Chip.wantHeader_lastSweepSeq : (c.wantHeader).lastSweepSeq = c.lastSweepSeq := rfl
@[simp] theorem Chip.wantHeader_sweepOverruns : (c.wantHeader).sweepOverruns = c.sweepOverruns := rfl
@[simp] theorem Chip.wantHeader_hist : (c.wantHeader).hist = c.hist := rfl
@[simp] theorem Chip.wantHeader_pool : (c.wantHeader).pool = c.pool := rfl
@[simp] theorem Chip.wantHeader_mon : (c.wantHeader).mon = c.mon := rfl
@[simp] theorem Chip.wantHeader_port : (c.wantHeader).port = c.port := rfl
@[simp] theorem Chip.wantHeader_scan : (c.wantHeader).scan = c.scan := rfl
@[simp] theorem Chip.wantHeader_mirrors : (c.wantHeader).mirrors = c.mirrors := rfl
@[simp] theorem Chip.wantHeader_load : (c.wantHeader).load = c.load := rfl
@[simp] theorem Chip.wantHeader_start : (c.wantHeader).start = c.start := rfl
@[simp] theorem Chip.wantHeader_nextSerial : (c.wantHeader).nextSerial = c.nextSerial := rfl
@[simp] theorem Chip.wantHeader_freeIdx : (c.wantHeader).freeIdx = c.freeIdx := rfl

/-! ## Chip.hand -/

@[simp] theorem Chip.hand_regs (o : Owner) (as : List Acc) : (c.hand o as).regs = c.regs := rfl
@[simp] theorem Chip.hand_col (o : Owner) (as : List Acc) : (c.hand o as).col = c.col := rfl
@[simp] theorem Chip.hand_stopRequest (o : Owner) (as : List Acc) : (c.hand o as).stopRequest = c.stopRequest := rfl
@[simp] theorem Chip.hand_stopTimer (o : Owner) (as : List Acc) : (c.hand o as).stopTimer = c.stopTimer := rfl
@[simp] theorem Chip.hand_profileState (o : Owner) (as : List Acc) : (c.hand o as).profileState = c.profileState := rfl
@[simp] theorem Chip.hand_profileFaults (o : Owner) (as : List Acc) : (c.hand o as).profileFaults = c.profileFaults := rfl
@[simp] theorem Chip.hand_settings (o : Owner) (as : List Acc) : (c.hand o as).settings = c.settings := rfl
@[simp] theorem Chip.hand_roster (o : Owner) (as : List Acc) : (c.hand o as).roster = c.roster := rfl
@[simp] theorem Chip.hand_rosterFull (o : Owner) (as : List Acc) : (c.hand o as).rosterFull = c.rosterFull := rfl
@[simp] theorem Chip.hand_segs (o : Owner) (as : List Acc) : (c.hand o as).segs = c.segs := rfl
@[simp] theorem Chip.hand_ctxs (o : Owner) (as : List Acc) : (c.hand o as).ctxs = c.ctxs := rfl
@[simp] theorem Chip.hand_sweepCount (o : Owner) (as : List Acc) : (c.hand o as).sweepCount = c.sweepCount := rfl
@[simp] theorem Chip.hand_lastSweepSeq (o : Owner) (as : List Acc) : (c.hand o as).lastSweepSeq = c.lastSweepSeq := rfl
@[simp] theorem Chip.hand_sweepOverruns (o : Owner) (as : List Acc) : (c.hand o as).sweepOverruns = c.sweepOverruns := rfl
@[simp] theorem Chip.hand_hist (o : Owner) (as : List Acc) : (c.hand o as).hist = c.hist := rfl
@[simp] theorem Chip.hand_pool (o : Owner) (as : List Acc) : (c.hand o as).pool = c.pool := rfl
@[simp] theorem Chip.hand_mon (o : Owner) (as : List Acc) : (c.hand o as).mon = c.mon := rfl
@[simp] theorem Chip.hand_scan (o : Owner) (as : List Acc) : (c.hand o as).scan = c.scan := rfl
@[simp] theorem Chip.hand_hdr (o : Owner) (as : List Acc) : (c.hand o as).hdr = c.hdr := rfl
@[simp] theorem Chip.hand_mirrors (o : Owner) (as : List Acc) : (c.hand o as).mirrors = c.mirrors := rfl
@[simp] theorem Chip.hand_load (o : Owner) (as : List Acc) : (c.hand o as).load = c.load := rfl
@[simp] theorem Chip.hand_start (o : Owner) (as : List Acc) : (c.hand o as).start = c.start := rfl
@[simp] theorem Chip.hand_nextSerial (o : Owner) (as : List Acc) : (c.hand o as).nextSerial = c.nextSerial := rfl
@[simp] theorem Chip.hand_freeIdx (o : Owner) (as : List Acc) : (c.hand o as).freeIdx = c.freeIdx := rfl

/-! ## What the updates set -/

@[simp] theorem Chip.modMon_mon (f : Monitor → Monitor) : (c.modMon f).mon = f c.mon := rfl
@[simp] theorem Chip.modHist_hist (f : Hist → Hist) : (c.modHist f).hist = f c.hist := rfl
@[simp] theorem Chip.modPort_port (f : Port → Port) : (c.modPort f).port = f c.port := rfl
@[simp] theorem Chip.wantHeader_hdr : c.wantHeader.hdr = { c.hdr with wanted := true } := rfl
@[simp] theorem Chip.hand_port (o : Owner) (as : List Acc) :
    (c.hand o as).port = { c.port with fresh := c.port.fresh ++ [{ owner := o, accs := as, got := [] }] } := rfl

theorem Chip.setUnit_unit (u v : UnitIx) (r : Option UnitRec) :
    (c.setUnit u r).unit v = if u = v then r else c.unit v := by
  simp only [Chip.unit, Chip.setUnit, Fin.getElem_fin, Vector.getElem_set, Fin.val_inj]

@[simp] theorem Chip.setUnit_unit_self (u : UnitIx) (r : Option UnitRec) : (c.setUnit u r).unit u = r := by
  simp [Chip.setUnit_unit]

theorem Chip.modSeg_seg (g h : Seg) (f : SegRec → SegRec) :
    (c.modSeg g f).seg h = if g = h then f (c.seg g) else c.seg h := by
  simp only [Chip.seg, Chip.modSeg, Fin.getElem_fin, Vector.getElem_set, Fin.val_inj]

@[simp] theorem Chip.modSeg_seg_self (g : Seg) (f : SegRec → SegRec) : (c.modSeg g f).seg g = f (c.seg g) := by
  simp [Chip.modSeg_seg]

theorem Chip.modCtx_ctx (k j : CtxIx) (f : Ctx → Ctx) :
    (c.modCtx k f).ctx j = if k = j then f (c.ctx k) else c.ctx j := by
  simp only [Chip.ctx, Chip.modCtx, Fin.getElem_fin, Vector.getElem_set, Fin.val_inj]

@[simp] theorem Chip.modCtx_ctx_self (k : CtxIx) (f : Ctx → Ctx) : (c.modCtx k f).ctx k = f (c.ctx k) := by
  simp [Chip.modCtx_ctx]

theorem Chip.modSlot_slot (i j : SlotIx) (f : SlotRec → SlotRec) :
    (c.modSlot i f).slot j = if i = j then f (c.slot i) else c.slot j := by
  simp only [Chip.slot, Chip.modSlot, Fin.getElem_fin, Vector.getElem_set, Fin.val_inj]

@[simp] theorem Chip.modSlot_slot_self (i : SlotIx) (f : SlotRec → SlotRec) : (c.modSlot i f).slot i = f (c.slot i) := by
  simp [Chip.modSlot_slot]

/-! ## Reads that an update does not touch -/

@[simp] theorem Chip.modSeg_unit (g : Seg) (f : SegRec → SegRec) (u : UnitIx) : (c.modSeg g f).unit u = c.unit u := rfl
@[simp] theorem Chip.modCtx_unit (k : CtxIx) (f : Ctx → Ctx) (u : UnitIx) : (c.modCtx k f).unit u = c.unit u := rfl
@[simp] theorem Chip.modMon_unit (f : Monitor → Monitor) (u : UnitIx) : (c.modMon f).unit u = c.unit u := rfl
@[simp] theorem Chip.modHist_unit (f : Hist → Hist) (u : UnitIx) : (c.modHist f).unit u = c.unit u := rfl
@[simp] theorem Chip.wantHeader_unit (u : UnitIx) : c.wantHeader.unit u = c.unit u := rfl
@[simp] theorem Chip.hand_unit (o : Owner) (as : List Acc) (u : UnitIx) : (c.hand o as).unit u = c.unit u := rfl
@[simp] theorem Chip.setUnit_seg (u : UnitIx) (r : Option UnitRec) (g : Seg) : (c.setUnit u r).seg g = c.seg g := rfl
@[simp] theorem Chip.modCtx_seg (k : CtxIx) (f : Ctx → Ctx) (g : Seg) : (c.modCtx k f).seg g = c.seg g := rfl
@[simp] theorem Chip.modMon_seg (f : Monitor → Monitor) (g : Seg) : (c.modMon f).seg g = c.seg g := rfl
@[simp] theorem Chip.modHist_seg (f : Hist → Hist) (g : Seg) : (c.modHist f).seg g = c.seg g := rfl
@[simp] theorem Chip.wantHeader_seg (g : Seg) : c.wantHeader.seg g = c.seg g := rfl
@[simp] theorem Chip.hand_seg (o : Owner) (as : List Acc) (g : Seg) : (c.hand o as).seg g = c.seg g := rfl
@[simp] theorem Chip.modMon_mode (f : Monitor → Monitor) (g : Seg) : (c.modMon f).mode g = c.mode g := rfl
@[simp] theorem Chip.modSeg_mode (g : Seg) (f : SegRec → SegRec) (h : Seg) : (c.modSeg g f).mode h = c.mode h := rfl
@[simp] theorem Chip.setUnit_mode (u : UnitIx) (r : Option UnitRec) (g : Seg) : (c.setUnit u r).mode g = c.mode g := rfl
@[simp] theorem Chip.modMon_segSets (f : Monitor → Monitor) (g : Seg) : (c.modMon f).segSets g = c.segSets g := rfl
@[simp] theorem Chip.modSeg_segSets (g : Seg) (f : SegRec → SegRec) (h : Seg) :
    (c.modSeg g f).segSets h = c.segSets h := rfl
@[simp] theorem Chip.setUnit_segSets (u : UnitIx) (r : Option UnitRec) (g : Seg) :
    (c.setUnit u r).segSets g = c.segSets g := rfl

/-- A cause set changes NOTICE alone. -/
theorem Chip.setCause_eq (cause : Cause) :
    ∃ n, c.setCause cause = { c with regs := { c.regs with notice := n } } := by
  unfold Chip.setCause
  split
  · exact ⟨c.regs.notice, rfl⟩
  · exact ⟨_, rfl⟩

/-- A unit's record changed is that unit's record set. -/
theorem Chip.modUnit_of {u : UnitIx} {r : UnitRec} (h : c.unit u = some r) (f : UnitRec → UnitRec) :
    c.modUnit u f = c.setUnit u (some (f r)) := by
  unfold Chip.modUnit
  rw [h]

end Sys2Proof.Machine
end

