-- ==== Sys2Proof/Laws/Settle.lean ====
section
/-!
SUPPORT. What follows a command (Chip.settle), said once: on a quiet chip nothing but grants and reporting; and whatever is
ready, the registers, the collector state and the settings stay while no parking is due.
-/

namespace Sys2Proof.Machine

/-! ## The arbiters' grants -/

theorem Chip.grant_segSets (c : Chip) (g h : Seg) : (c.grant g).segSets h = c.segSets h := by
  unfold Chip.grant
  (repeat' split) <;> rfl

theorem Chip.grant_mode (c : Chip) (g h : Seg) : (c.grant g).mode h = c.mode h := by
  unfold Chip.grant
  (repeat' split) <;> rfl

/-- A grant changes the segments' records alone. -/
theorem Chip.grant_eq (c : Chip) (g : Seg) : ∃ v, c.grant g = { c with segs := v } := by
  unfold Chip.grant
  (repeat' split) <;> exact ⟨_, rfl⟩

/-- A segment's grant leaves the other segments alone. -/
theorem Chip.grant_seg_other (c : Chip) {g h : Seg} (n : g ≠ h) : (c.grant g).seg h = c.seg h := by
  unfold Chip.grant
  (repeat' split) <;> first | rfl | rw [Chip.modSeg_seg, if_neg n]

/-- What a segment's arbiter grants depends on the segment, the roster and the settings. -/
theorem Chip.grant_seg_congr {c d : Chip} (g : Seg) (hs : c.seg g = d.seg g) (hr : c.roster = d.roster)
    (hset : c.settings = d.settings) : (c.grant g).seg g = (d.grant g).seg g := by
  have hu : c.unit = d.unit := by funext u; simp only [Chip.unit, hr]
  have hf : c.findUnit = d.findUnit := by funext g a; simp only [Chip.findUnit, hu]
  have hm : c.mode g = d.mode g := by simp only [Chip.mode, hset]
  have hss : c.sessState = d.sessState := by funext u; simp only [Chip.sessState, hu]
  have hsl : c.slotsHeld g = d.slotsHeld g := by simp only [Chip.slotsHeld, Chip.unitsOf, hu]
  have hset' : c.segSets g = d.segSets g := by simp only [Chip.segSets, Chip.sets, hset]
  have he : c.eligible g = d.eligible g := by
    funext i
    simp only [Chip.eligible, hs, hf, hss, hsl]
  have ho : c.overdue g = d.overdue g := by
    funext i
    simp only [Chip.overdue, hf, hu]
  have hp : c.pick g = d.pick g := by simp only [Chip.pick, hs, ho, hset', he]
  unfold Chip.grant
  rw [hs, hm, hp]
  split
  · split <;> simp only [Chip.modSeg_seg_self, hs]
  · exact hs

/-- A second grant of the same arbiter grants nothing: the slot is taken, or nothing was eligible. -/
theorem Chip.grant_grant_seg (c : Chip) (g : Seg) : ((c.grant g).grant g).seg g = (c.grant g).seg g := by
  by_cases h : (c.seg g).slot.isNone ∧ (c.seg g).state = .live ∧ c.mode g = some .active
  · cases hp : c.pick g with
    | none => simp only [Chip.grant, if_pos h, hp]
    | some i =>
      have h1 : ((c.grant g).seg g).slot.isNone = false := by
        simp only [Chip.grant, if_pos h, hp, Chip.modSeg_seg_self, Option.isNone_some]
      generalize c.grant g = d at h1 ⊢
      simp only [Chip.grant, h1, Bool.false_eq_true, false_and, if_false]
  · simp only [Chip.grant, if_neg h]

/-- Grants of every arbiter change the segments' records alone. -/
theorem Chip.grantAll_eq (c : Chip) : c.grantAll = { c with segs := c.grantAll.segs } := by
  have key : ∀ (l : List Seg) (c : Chip), ∃ v, l.foldl Chip.grant c = { c with segs := v } := by
    intro l
    induction l with
    | nil => exact fun c => ⟨c.segs, rfl⟩
    | cons g rest ih =>
      intro c
      obtain ⟨v, hv⟩ := Chip.grant_eq c g
      obtain ⟨w, hw⟩ := ih (c.grant g)
      exact ⟨w, by rw [List.foldl_cons, hw, hv]⟩
  obtain ⟨v, hv⟩ := key allSegs c
  have h : c.grantAll = { c with segs := v } := hv
  rw [h]

/-- Each segment is as its own arbiter's grant leaves it. -/
theorem Chip.grantAll_seg (c : Chip) (g : Seg) : c.grantAll.seg g = (c.grant g).seg g := by
  have roster : ∀ (c : Chip) (h : Seg), (c.grant h).roster = c.roster ∧ (c.grant h).settings = c.settings := by
    intro c h
    obtain ⟨v, hv⟩ := Chip.grant_eq c h
    rw [hv]
    exact ⟨rfl, rfl⟩
  have step : ∀ (c : Chip) (h : Seg), h ≠ g → ((c.grant h).grant g).seg g = (c.grant g).seg g := by
    intro c h n
    exact Chip.grant_seg_congr g (Chip.grant_seg_other c n) (roster c h).1 (roster c h).2
  have other : ∀ (c : Chip) (h : Seg), h ≠ g → (c.grant h).seg g = c.seg g := fun c h n => Chip.grant_seg_other c n
  show (((((c.grant 0).grant 1).grant 2).grant 3)).seg g = (c.grant g).seg g
  match g, step, other with
  | 0, step, other => rw [other _ 3 (by decide), other _ 2 (by decide), other _ 1 (by decide)]
  | 1, step, other => rw [other _ 3 (by decide), other _ 2 (by decide), step _ 0 (by decide)]
  | 2, step, other => rw [other _ 3 (by decide), step _ 1 (by decide), step _ 0 (by decide)]
  | 3, step, other => rw [step _ 2 (by decide), step _ 1 (by decide), step _ 0 (by decide)]

/-- Two chips are equal when their segments are and nothing else differs. -/
theorem Chip.ext_segs {c d : Chip} (h : ∀ g, c.seg g = d.seg g) (hs : ∃ v, d = { c with segs := v }) : c = d := by
  obtain ⟨v, hv⟩ := hs
  have : c.segs = v := by
    apply Vector.ext
    intro i hi
    have := h ⟨i, hi⟩
    rw [hv] at this
    exact this
  rw [hv, ← this]

/-- A grant made within a command is among the grants that follow it. -/
theorem Chip.grantAll_grant (c : Chip) (g : Seg) : (c.grant g).grantAll = c.grantAll := by
  refine Chip.ext_segs ?_ ?_
  · intro h
    rw [Chip.grantAll_seg, Chip.grantAll_seg]
    by_cases n : g = h
    · subst n
      exact Chip.grant_grant_seg c g
    · obtain ⟨v, hv⟩ := Chip.grant_eq c g
      exact Chip.grant_seg_congr h (Chip.grant_seg_other c n) (by rw [hv]) (by rw [hv])
  · obtain ⟨v, hv⟩ := Chip.grant_eq c g
    refine ⟨c.grantAll.segs, ?_⟩
    rw [Chip.grantAll_eq c]
    rw [Chip.grantAll_eq (c.grant g), hv]

/-- Posting an item and granting: the item joins the end of its class, then the grants. -/
theorem Chip.grantAll_post (c : Chip) (g : Seg) (addr : Byte) (msg : Msg) (again : Bool) :
    (c.post g addr msg again).grantAll = (c.modSeg g fun r =>
      { r.join ⟨addr, msg, r.nextStamp, c.sets.collector, again⟩
          (fun l => l ++ [⟨addr, msg, r.nextStamp, c.sets.collector, again⟩]) with
        nextStamp := r.nextStamp + 1 }).grantAll :=
  Chip.grantAll_grant _ g

/-! ## What only reports the chip -/

theorem Chip.inner_foldl {α : Type} {f : Chip → α → Chip} (h : ∀ c x, (f c x).inner = c.inner) (l : List α) (c : Chip) :
    (l.foldl f c).inner = c.inner := by
  induction l generalizing c with
  | nil => rfl
  | cons x rest ih => rw [List.foldl_cons, ih, h]

theorem Chip.inner_askMirror (c : Chip) (u : UnitIx) : (c.askMirror u).inner = c.inner := by
  unfold Chip.askMirror
  split <;> rfl

theorem Chip.inner_segs (c : Chip) (v : Vector SegRec 4)
    (h : (v.map fun (r : SegRec) => ({ r with errTimer := none } : SegRec)) =
      (c.segs.map fun (r : SegRec) => ({ r with errTimer := none } : SegRec))) :
    ({ c with segs := v } : Chip).inner = c.inner := by
  simp only [Chip.inner, h]

theorem Chip.inner_errTimers (c : Chip) : (c.modAllSegs fun r => { r with errTimer := none }).inner = c.inner := by
  refine Chip.inner_segs c _ ?_
  rw [Vector.map_map]
  rfl

theorem Chip.inner_modMon_rises (c : Chip) : (c.modMon fun m => { m with rises := 0 }).inner = c.inner := rfl

theorem Chip.inner_askHeader (c : Chip) : c.askHeader.inner = c.inner := by
  have h : ((c.modMon fun m => { m with rises := 0 }).modAllSegs fun r => { r with errTimer := none }).inner = c.inner :=
    (Chip.inner_errTimers _).trans (Chip.inner_modMon_rises c)
  rw [← h]
  unfold Chip.askHeader
  dsimp only
  split <;> rfl

theorem Chip.inner_countChanged (old : SegRec) (c : Chip) (g : Seg) :
    (c.modSeg g (SegRec.countChanged old)).inner = c.inner := by
  refine Chip.inner_segs c _ ?_
  rw [Vector.map_set]
  have : ({ SegRec.countChanged old (c.seg g) with errTimer := none } : SegRec)
      = (c.segs.map fun (r : SegRec) => { r with errTimer := none })[g.val] := by
    have h : (c.segs.map fun (r : SegRec) => ({ r with errTimer := none } : SegRec))[g.val]
        = { c.seg g with errTimer := none } := Vector.getElem_map _ _
    rw [h]
    unfold SegRec.countChanged
    (repeat' split) <;> rfl
  rw [this, Vector.set_getElem_self]

/-- The rewrites asked for change what reports the chip and nothing else. -/
theorem Chip.inner_askRewrites (old c : Chip) : (Chip.askRewrites old c).inner = c.inner := by
  unfold Chip.askRewrites
  split
  · rfl
  · extract_lets d
    have h : d.inner = c.inner := by
      simp only [d]
      split
      · rfl
      · exact Chip.inner_foldl Chip.inner_askMirror _ _
    clear_value d
    split
    · rw [Chip.inner_askHeader, h]
    · rw [Chip.inner_foldl (fun c g => Chip.inner_countChanged (old.seg g) c g), h]

theorem Chip.inner_enqueue (c : Chip) : c.enqueue.inner = c.inner := by
  unfold Chip.enqueue
  extract_lets
  rfl

theorem Chip.inner_startAccess (c : Chip) : c.startAccess.inner = c.inner := by
  unfold Chip.startAccess
  split
  · rfl
  · extract_lets p
    split <;> rfl

/-! ## What follows a command -/

theorem Chip.quiet_iff (c : Chip) :
    c.quiet = true ↔ c.parkDue = false ∧ c.mayTake = false ∧ c.frameReady = none := by
  simp only [Chip.quiet, Bool.and_eq_true, Bool.not_eq_true', Option.isNone_iff_eq_none, and_assoc]

theorem Chip.drain_quiet {c : Chip} (h : c.quiet = true) : ∀ fuel, Chip.drain fuel c = c
  | 0 => rfl
  | n + 1 => by
    obtain ⟨h1, h2, h3⟩ := (Chip.quiet_iff c).mp h
    simp only [Chip.drain, h1, h2, h3, Bool.false_eq_true, if_false]

/-- A round in which parking is due. -/
theorem Chip.drain_park {c : Chip} (n : Nat) (h : c.parkDue = true) :
    Chip.drain (n + 1) c = Chip.drain n (c.modMon fun m => { m with parkPending := false }).park := by
  simp only [Chip.drain, h, if_true]

/-- A round in which the history takes its next item. -/
theorem Chip.drain_take {c : Chip} (n : Nat) (h : c.parkDue = false) (t : c.mayTake = true) :
    Chip.drain (n + 1) c = Chip.drain n c.takeItem := by
  simp only [Chip.drain, h, t, Bool.false_eq_true, if_false, if_true]

/-- A round in which a frame that waited is handled. -/
theorem Chip.drain_frame {c : Chip} {g : Seg} (n : Nat) (h : c.parkDue = false) (t : c.mayTake = false)
    (f : c.frameReady = some g) : Chip.drain (n + 1) c = Chip.drain n (c.handleWaiting g) := by
  simp only [Chip.drain, h, t, f, Bool.false_eq_true, if_false]

/-- On a quiet chip what follows a command is the arbiters' grants and the reporting. -/
theorem Chip.settle_quiet (old : Chip) {c : Chip} (h : c.quiet = true) : (Chip.settle old c).inner = c.grantAll.inner := by
  unfold Chip.settle
  rw [Chip.drain_quiet h, Chip.inner_startAccess, Chip.inner_enqueue]
  exact Chip.inner_askRewrites old c.grantAll

@[simp] theorem State.after_pending (s : State) (c : Chip) : (s.after c).pending = s.pending := rfl
@[simp] theorem State.after_mem (s : State) (c : Chip) : (s.after c).mem = s.mem := rfl
@[simp] theorem State.after_chip (s : State) (c : Chip) : (s.after c).chip = Chip.settle s.chip c := rfl

/-- A command whose effect on the chip is `f` completes. -/
theorem State.act_eq (s : State) (f : Chip → Chip) : s.act f = .next (s.after (f s.chip)) := rfl

/-- The same, for an effect written in another way. -/
theorem State.act_of {s : State} {f : Chip → Chip} {c : Chip} (h : f s.chip = c) : s.act f = .next (s.after c) :=
  h ▸ rfl

/-- What is ready is done without touching registers, collector state, settings or monitor, while no parking is due. -/
theorem Chip.drain_base (fuel : Nat) (c : Chip) (h : c.mon.parkPending = false ∨ c.col ≠ .running) :
    (Chip.drain fuel c).base = c.base := by
  induction fuel generalizing c with
  | zero => rfl
  | succ n ih =>
    have keep : ∀ d : Chip, d.base = c.base → d.mon.parkPending = false ∨ d.col ≠ .running := by
      intro d hd
      have h1 : d.mon = c.mon := congrArg Base.mon hd
      have h2 : d.col = c.col := congrArg Base.col hd
      rw [h1, h2]
      exact h
    have hp : c.parkDue = false := by
      unfold Chip.parkDue
      rcases h with h | h
      · rw [h]
        rfl
      · simp [h]
    unfold Chip.drain
    rw [hp]
    simp only [Bool.false_eq_true, if_false]
    split
    · have := Chip.takeItem_base c
      rw [ih _ (keep _ this), this]
    · split
      · rename_i g _
        have : (c.handleWaiting g).base = c.base := by
          unfold Chip.handleWaiting
          split
          · rw [Chip.handleFrame_base, Chip.modSeg_base]
          · rfl
        rw [ih _ (keep _ this), this]
      · rfl

end Sys2Proof.Machine
end

