-- ==== Sys2Proof/Laws/Units.lean ====
section
/-!
SUPPORT. Updates of units and segments put together: the same place set twice, updates of different places in another
order, and the unit that an address names.
-/

namespace Sys2Proof.Machine

variable (c : Chip)

theorem Chip.setUnit_setUnit (u : UnitIx) (a b : Option UnitRec) : (c.setUnit u a).setUnit u b = c.setUnit u b := by
  simp only [Chip.setUnit, Vector.set_set]

theorem Chip.setUnit_same {c : Chip} {u : UnitIx} {r : Option UnitRec} (h : c.unit u = r) : c.setUnit u r = c := by
  subst h
  simp only [Chip.setUnit, Chip.unit, Fin.getElem_fin, Vector.set_getElem_self]

theorem Chip.modSeg_setUnit (g : Seg) (f : SegRec → SegRec) (u : UnitIx) (r : Option UnitRec) :
    (c.modSeg g f).setUnit u r = (c.setUnit u r).modSeg g f := rfl

theorem Chip.modSeg_modSeg (g : Seg) (f h : SegRec → SegRec) :
    (c.modSeg g f).modSeg g h = c.modSeg g fun r => h (f r) := by
  simp only [Chip.modSeg, Chip.seg, Fin.getElem_fin, Vector.getElem_set_self, Vector.set_set]

theorem Chip.modSeg_congr {c : Chip} {g : Seg} {f h : SegRec → SegRec} (e : f (c.seg g) = h (c.seg g)) :
    c.modSeg g f = c.modSeg g h := by
  simp only [Chip.modSeg, e]

theorem Chip.modSeg_same {c : Chip} {g : Seg} {f : SegRec → SegRec} (e : f (c.seg g) = c.seg g) : c.modSeg g f = c := by
  simp only [Chip.modSeg, e]
  simp only [Chip.seg, Fin.getElem_fin, Vector.set_getElem_self]

/-- The unit that an address names stands on the segment with that address. -/
theorem Chip.findUnit_spec {c : Chip} {g : Seg} {a : Byte} {u : UnitIx} {r : UnitRec} (h : c.findUnit g a = some u)
    (hr : c.unit u = some r) : r.seg = g ∧ r.addr = a := by
  have := List.find?_some h
  rw [hr] at this
  simpa using this

/-- A unit's record changed, but not its segment and address: the addresses name what they named. -/
theorem Chip.findUnit_setUnit {c : Chip} {u : UnitIx} {r r' : UnitRec} (h : c.unit u = some r) (hs : r'.seg = r.seg)
    (ha : r'.addr = r.addr) (g : Seg) (a : Byte) : (c.setUnit u (some r')).findUnit g a = c.findUnit g a := by
  unfold Chip.findUnit
  congr 1
  funext v
  rw [Chip.setUnit_unit]
  by_cases e : u = v
  · subst e
    rw [if_pos rfl, h]
    simp only [hs, ha]
  · rw [if_neg e]

theorem Chip.findUnit_modSeg (g h : Seg) (f : SegRec → SegRec) (a : Byte) :
    (c.modSeg g f).findUnit h a = c.findUnit h a := rfl

/-- Posting for a unit. -/
theorem Chip.postFor_of {c : Chip} {u : UnitIx} {r : UnitRec} (h : c.unit u = some r) (m : Msg) (again : Bool) :
    c.postFor u m again = c.post r.seg r.addr m again := by
  unfold Chip.postFor
  rw [h]

/-- Withdrawing for a unit. -/
theorem Chip.withdrawFor_of {c : Chip} {u : UnitIx} {r : UnitRec} (h : c.unit u = some r) (which : Msg → Bool) :
    c.withdrawFor u which = c.withdraw r.seg r.addr which := by
  unfold Chip.withdrawFor
  rw [h]

/-- A unit whose queue is empty has no first plan. -/
theorem Chip.firstPlan_none {c : Chip} {u : UnitIx} {r : UnitRec} (h : c.unit u = some r) (q : r.queue = []) :
    c.firstPlan u = none := by
  simp only [Chip.firstPlan, h, Option.bind_some, q, List.head?_nil]

/-- The first plan of a unit. -/
theorem Chip.firstPlan_some {c : Chip} {u : UnitIx} {r : UnitRec} {p : Plan} {qs : List Plan} (h : c.unit u = some r)
    (q : r.queue = p :: qs) : c.firstPlan u = some p := by
  simp only [Chip.firstPlan, h, Option.bind_some, q, List.head?_cons]

/-! ## A unit's record known

Where the chip is written as `c.setUnit u (some r)`, with segments changed and causes set about it, every operation on
the unit comes down to another record set. -/

@[simp] theorem Chip.modUnit_setUnit (u : UnitIx) (r : UnitRec) (f : UnitRec → UnitRec) :
    (c.setUnit u (some r)).modUnit u f = c.setUnit u (some (f r)) := by
  rw [Chip.modUnit_of _ (Chip.setUnit_unit_self ..), Chip.setUnit_setUnit]

@[simp] theorem Chip.modUnit_modSeg (g : Seg) (h : SegRec → SegRec) (u : UnitIx) (f : UnitRec → UnitRec) :
    (c.modSeg g h).modUnit u f = (c.modUnit u f).modSeg g h := by
  unfold Chip.modUnit
  rw [Chip.modSeg_unit]
  cases c.unit u <;> rfl

@[simp] theorem Chip.setCause_unit (k : Cause) (u : UnitIx) : (c.setCause k).unit u = c.unit u := by
  unfold Chip.setCause
  split <;> rfl

@[simp] theorem Chip.setCause_seg (k : Cause) (g : Seg) : (c.setCause k).seg g = c.seg g := by
  unfold Chip.setCause
  split <;> rfl

@[simp] theorem Chip.setCause_col (k : Cause) : (c.setCause k).col = c.col := by
  unfold Chip.setCause
  split <;> rfl

@[simp] theorem Chip.setCause_sets (k : Cause) : (c.setCause k).sets = c.sets := by
  unfold Chip.setCause
  split <;> rfl

@[simp] theorem Chip.setCause_segSets (k : Cause) (g : Seg) : (c.setCause k).segSets g = c.segSets g := by
  unfold Chip.setCause
  split <;> rfl

@[simp] theorem Chip.setCause_hist (k : Cause) : (c.setCause k).hist = c.hist := by
  unfold Chip.setCause
  split <;> rfl

theorem Chip.setCause_setUnit (k : Cause) (u : UnitIx) (r : Option UnitRec) :
    (c.setCause k).setUnit u r = (c.setUnit u r).setCause k := by
  unfold Chip.setCause
  by_cases h : c.col = .stopped ∧ k ≠ .memFault
  · rw [if_pos h, if_pos (by exact h)]
  · rw [if_neg h, if_neg (by exact h)]
    rfl

theorem Chip.setCause_modSeg (k : Cause) (g : Seg) (f : SegRec → SegRec) :
    (c.setCause k).modSeg g f = (c.modSeg g f).setCause k := by
  unfold Chip.setCause
  by_cases h : c.col = .stopped ∧ k ≠ .memFault
  · rw [if_pos h, if_pos (by exact h)]
  · rw [if_neg h, if_neg (by exact h)]
    rfl

theorem Chip.setCause_modUnit (k : Cause) (u : UnitIx) (f : UnitRec → UnitRec) :
    (c.setCause k).modUnit u f = (c.modUnit u f).setCause k := by
  unfold Chip.modUnit
  rw [Chip.setCause_unit]
  cases c.unit u with
  | none => rfl
  | some r => exact Chip.setCause_setUnit ..

@[simp] theorem Chip.firstPlan_setUnit (u : UnitIx) (r : UnitRec) :
    (c.setUnit u (some r)).firstPlan u = r.queue.head? := by
  simp only [Chip.firstPlan, Chip.setUnit_unit_self, Option.bind_some]

@[simp] theorem Chip.firstPlan_modSeg (g : Seg) (f : SegRec → SegRec) (u : UnitIx) :
    (c.modSeg g f).firstPlan u = c.firstPlan u := rfl

@[simp] theorem Chip.firstPlan_setCause (k : Cause) (u : UnitIx) : (c.setCause k).firstPlan u = c.firstPlan u := by
  simp only [Chip.firstPlan, Chip.setCause_unit]

theorem Chip.withdrawFor_setUnit (u : UnitIx) (r : UnitRec) (which : Msg → Bool) :
    (c.setUnit u (some r)).withdrawFor u which = (c.setUnit u (some r)).withdraw r.seg r.addr which :=
  Chip.withdrawFor_of (Chip.setUnit_unit_self ..) which

/-- The known record made explicit. -/
theorem Chip.eq_setUnit {c : Chip} {u : UnitIx} {r : UnitRec} (h : c.unit u = some r) : c = c.setUnit u (some r) :=
  (Chip.setUnit_same h).symm

/-! ## The frame in the slot as a segment enters a state (R68) -/

@[simp] theorem SegRec.doom_state (f : SlotFate) (r : SegRec) : (r.doom f).state = r.state := rfl
@[simp] theorem SegRec.doom_slot (f : SlotFate) (r : SegRec) :
    (r.doom f).slot = r.slot.map fun t => { t with fate := f } := rfl
@[simp] theorem SegRec.doom_items (f : SlotFate) (r : SegRec) (k : Cls) : (r.doom f).items k = r.items k := by
  cases k <;> rfl

/-- A LIVE segment that enters HELD keeps its work; the frame in its slot is given back if it fails. -/
theorem SegRec.hold_live {r : SegRec} (h : r.state = .live) : r.hold = { r.doom .back with state := .held } := if_pos h

/-- A segment that is not LIVE does not enter HELD. -/
theorem SegRec.hold_other {r : SegRec} (h : r.state ≠ .live) : r.hold = r := if_neg h

end Sys2Proof.Machine
end

