-- ==== Sys2Proof/WellFormed.lean ====
section
/-!
DEFINITION. Which commands the table's rows can carry. Every other operand is bounded by its type.
-/

namespace Sys2Proof

/-- The offsets of the registers whose writes are commands of their own (11_formats.md 11.1): XBASE, XCTL, ATTEND,
NOTICE and NMASK. -/
def ownWriteOffsets : List Nat := [0x00, 0x04, 0x0C, 0x10, 0x14]

/-- The message types a unit may send (11_formats.md 11.8, direction 1). -/
def unitTypeKnown (type : BitVec 4) : Bool := decide (1 ≤ type.toNat) && decide (type.toNat ≤ 9)

/-- A command is well formed: an ignored register write names no register with behaviour of its own (R185), and an
unknown message is short or has an unknown type (R23). -/
def Instr.wf : Instr → Bool
  | .registerWriteIgnored offset _ => !ownWriteOffsets.contains offset
  | .unknownMessage _ _ len type => decide (len < 8) || (decide (len = 8) && !unitTypeKnown type)
  | _ => true

end Sys2Proof
end

