-- ==== Sys2Proof/Tests/Slice0.lean ====
section
/-!
SUPPORT. The model's own tests. Expected values come from the spec: the rule or the section is named at each. The
theorems named `hyps_…` show, for each statement with hypotheses, states and operands that meet them, clause by clause.
-/

namespace Sys2Proof.Tests

set_option Elab.async false

open Sys2Proof Sys2Proof.Machine

/-! ## Well-formedness (R185, R23) -/

/-- NMASK (0x14) has behaviour of its own. -/
theorem test_wf_refuses_nmask_as_ignored : Instr.wf (.registerWriteIgnored 0x14 0) = false := by decide
theorem test_wf_refuses_xbase_as_ignored : Instr.wf (.registerWriteIgnored 0x00 0) = false := by decide
/-- Eight bytes with type 9 are a HERE, not unknown. -/
theorem test_wf_refuses_known_type : Instr.wf (.unknownMessage 0 0x17 8 9) = false := by decide
theorem test_wf_refuses_long_frame : Instr.wf (.unknownMessage 0 0x17 9 0) = false := by decide
theorem test_wf_accepts : Instr.wf (.registerWriteIgnored 0x08 0) = true ∧ Instr.wf (.unknownMessage 0 0x17 7 1) = true
    ∧ Instr.wf (.unknownMessage 0 0x17 8 10) = true := by decide

/-! ## Words and frames (11.8) -/

/-- No row of the table has bits, so no word spells a command. -/
theorem test_no_word_spells_a_command : decodeTableWord 32 0 = none := by decide

/-- A unit record for the tests: unit 0x17 of segment 0, with the descriptor defaults of R3. -/
def unit17 (x : SessState) : UnitRec :=
  { origin := .profile, seg := 0, addr := 0x17, typeCode := 0, desc := .default, presence := .unknown, losses := 0
    session := { Session.fresh with state := x }, drops := 0, malformed := 0, refused := 0, strays := 0, lastN := none
    hours := none, clearUncertain := false, exch := none, ignore := 0, queue := [] }

/-- A RUNNING chip with the settings of R11, every segment LIVE, no unit. Every rewrite is under way, so that no two
requests reach the port at once: their order is free (log 6), and no test could be evaluated past it. -/
def live : Chip :=
  { State.reset.chip with
    col := .running, settings := some .default
    hdr := { busy := true, pending := false, wanted := false }
    mirrors := .replicate 64 { Mirror.reset with busy := true }
    segs := .replicate 4 { SegRec.reset with state := .live } }

/-- `live` with one unit. -/
def one (r : UnitRec) : Chip := live.setUnit 0 (some r)

/-- A machine around a chip. -/
def on (c : Chip) : State := { State.reset with chip := c }

/-- What a command leaves of a chip. -/
def cmd (c : Chip) (i : Instr) : Chip :=
  match Machine.exec i (on c) with
  | .next t => t.chip
  | .fault _ | .refused _ => State.reset.chip

/-- A pending item of unit 0x17. -/
def item (m : Msg) (again : Bool) : Item := { addr := 0x17, msg := m, stamp := 0, collector := 0xF4, again := again }

/-- A chip whose segment 0 has the item's frame in its transmit slot. -/
def sending (c : Chip) (i : Item) : Chip :=
  c.modSeg 0 fun r =>
    { r with slot := some { item := i, frame := frameOf i, stale := false, fate := .again }, nextStamp := 1 }

/-- The identifier 0x13A, direction 1, address 0x17, collector 0xF4, tail 0. -/
def rxId : BitVec 29 := 0x13A8BFA0
/-- An extended data frame. -/
def dataForm : FrameForm := { extended := true, remote := false }

theorem test_draw_frame : frameOf (item (.request { kind := .draw 11 8 12, plan := 1 }) false)
    = { id := 0x13A0BFA0, data := #v[0x40, 11, 8, 0, 0, 0, 0, 0] } := by decide +kernel
theorem test_snap_frame : (frameOf (item (.request { kind := .snap 3 0x0102A3 5, plan := 1 }) false)).data
    = #v[0x50, 0x01, 0x02, 0xA3, 5, 0, 0, 0] := by decide +kernel
theorem test_pull_frame : (frameOf (item (.pull 4) false)).data = #v[0x80, 4, 0, 0, 0, 0, 0, 0] := by decide +kernel

theorem test_rx_listed : commandOfFrame (one (unit17 .opened)) 0 dataForm rxId [0x40, 3, 0x01, 0x02, 0, 0, 0, 0]
    = .listed 0 0x17 3 0x0102 := by decide +kernel
theorem test_rx_part : commandOfFrame (one (unit17 .opened)) 0 dataForm rxId [0x6E, 1, 2, 3, 4, 5, 6, 7]
    = .part 0 0x17 0xE #v[1, 2, 3, 4, 5, 6, 7] := by decide +kernel
theorem test_rx_short : commandOfFrame (one (unit17 .opened)) 0 dataForm rxId [0x10]
    = .unknownMessage 0 0x17 1 1 := by decide +kernel
/-- Direction 0 fails the filter of R22. -/
theorem test_rx_foreign : commandOfFrame (one (unit17 .opened)) 0 dataForm 0x13A0BFA0 [0x10, 0, 0, 0, 0, 0, 0, 0]
    = .foreignFrame 0 dataForm 0x13A0BFA0 := by decide +kernel

/-- R22, test 1: a data frame; a remote frame is no message of the unit. -/
theorem test_rx_remote : commandOfFrame (one (unit17 .opened)) 0 { dataForm with remote := true } rxId [0x10, 0, 0, 0, 0, 0, 0, 0]
    = .foreignFrame 0 { dataForm with remote := true } rxId := by decide +kernel
/-- R22, test 5: the message type alone makes a HERE of a frame from an address of no unit. -/
theorem test_rx_short_here : ∃ ty h, commandOfFrame live 0 dataForm rxId [0x90] = .here 0 0x17 ty h := ⟨_, _, rfl⟩

/-- The examples of R36. -/
theorem test_wrap_order : wrapOrder 11 8 = [11, 12, 13, 14, 15, 8, 9, 10] ∧ wrapOrder 4 4 = [4, 5, 6, 7] := by decide

/-! ## Registers, ignition, supply -/

/-- XSTAT after reset reads STOPPED, no result, profile state NONE. -/
theorem test_reset_reads : (readRegister State.reset.chip 0x08, readRegister State.reset.chip 0x0C) = (0, 0) := by
  decide +kernel
/-- R187: SOFT RESET keeps XBASE and NMASK. -/
theorem test_soft_reset : (cmd { live with regs := { live.regs with xbase := 0x10000, nmask := 7, notice := 3 } }
    .softReset).regs = { xbase := 0x10000, run := false, startMode := .cold, startResult := .noResult, notice := 0
                         nmask := 7 } := by decide +kernel
theorem test_power_on_reset : (cmd { live with regs := { live.regs with xbase := 0x10000, nmask := 7 } }
    .powerOnReset).regs.xbase = 0 := by decide +kernel
theorem test_run_set_base_bad : (cmd { State.reset.chip with regs := { State.reset.chip.regs with xbase := 0x8000 } }
    .runSet).regs.startResult = .baseBad := by decide +kernel
/-- R188: the first access of a start writes the collector state in the header, word 1. -/
theorem test_run_set_starts : (let d := cmd State.reset.chip .runSet; (d.col, d.port.bus.map fun b => b.addr))
    = (.starting, some 4) := by decide +kernel
theorem test_run_clear : (let d := cmd { live with regs := { live.regs with run := true } } .runClear
    (d.col, d.stopTimer)) = (.stopping, some 500) := by decide +kernel
theorem test_enter_stopped : (cmd { live with col := .halted } .enterStopped).col = .stopped := by decide +kernel
theorem test_stopping_timer : (cmd { live with col := .stopping, stopTimer := some 1 } .stoppingTimerExpiry).stopTimer
    = none := by decide +kernel
theorem test_xbase_ignored : (cmd live (.xbaseWrite 0x20000)).regs.xbase = 0 := by decide +kernel
theorem test_xbase_taken : (cmd State.reset.chip (.xbaseWrite 0x20000)).regs.xbase = 0x20000 := by decide +kernel
theorem test_start_mode : (cmd live (.startModeWrite .warm)).regs.startMode = .warm := by decide +kernel
theorem test_notice_clear : (cmd { live with regs := { live.regs with notice := 0x41 } } (.noticeClear 0x40)).regs.notice
    = 1 := by decide +kernel
theorem test_nmask : (cmd live (.nmaskWrite 0xFFFFFFFF)).regs.nmask = 0x7FF := by decide +kernel
theorem test_notice_n : (cmd { live with regs := { live.regs with notice := 0x40 } } (.nmaskWrite 0x40)).noticeAsserted
    = true := by decide +kernel
/-- R195: the scan reads the owner word of card 0 first. -/
theorem test_attend : (cmd live (.attend 0)).port.bus.map (fun b => b.addr) = some 0x100 := by decide +kernel
theorem test_scan_timer : (cmd { live with scan := { live.scan with timer := some 1 } } .scanTimerExpiry).scan.timer
    = some 250 := by decide +kernel
theorem test_raw_change : (cmd live (.ignRawChange true)).mon.debounce = some 20 := by decide +kernel
/-- R166, R167: an IGN-on in RUNNING raises K. -/
theorem test_ign_on : (let d := cmd { live with mon := { live.mon with raw := true, debounce := some 1 } } .ignOn
    (d.mon.ign, d.mon.k)) = (true, 1) := by decide +kernel
/-- R173 with the default run-on grace of 10 s. -/
theorem test_ign_off : (cmd { live with mon := { live.mon with ign := true, debounce := some 1 } } .ignOff).mon.grace
    = some 10000 := by decide +kernel
theorem test_grace_end : (cmd { live with mon := { live.mon with grace := some 1 } } .graceEnd).col = .parked := by
  decide +kernel
/-- R179: 8,000 mV is not below the dip level of 12 V; 7,999 mV is. -/
theorem test_supply : ((cmd live (.supplyCrossing 8000)).mon.dip, (cmd live (.supplyCrossing 7999)).mon.dip)
    = (.normal, .falling) := by decide +kernel
theorem test_dip_entry : (let d := cmd { live with mon := { live.mon with dip := .falling } } .dipEntry
    ((d.seg 3).state, d.mon.dipCount, d.regs.notice)) = (.held, 1, 0x40) := by decide +kernel
theorem test_dip_end : (let d := cmd (({ live with mon := { live.mon with dip := .settling } }).modSeg 1 fun r =>
    { r with state := .held }) .dipEnd; ((d.seg 1).state, d.mon.dip)) = (.live, .normal) := by decide +kernel
theorem test_ct_stops : (cmd { live with mon := { live.mon with ign := true, ct := 0xFFFFFFFF } } .ctRise).mon.ct
    = 0xFFFFFFFF := by decide +kernel
theorem test_sweep_without_units : (let d := cmd { live with
      settings := live.settings.map fun s => { s with sweep := { s.sweep with enable := true } }
      mon := { live.mon with ign := true } } .sweepTimerExpiry
    (d.sweepCount, d.regs.notice)) = (1, 2) := by decide +kernel

/-! ## Units -/

/-- R57: at debt 0 the KEEP is posted, and on an empty slot granted at once (R78). -/
theorem test_keep_expiry : (let d := cmd (one { unit17 .opened with
      session := { (unit17 .opened).session with keepTimer := some 1 } }) (.keepTimerExpiry 0)
    ((d.unit 0).map fun r => (r.session.keepDebt, r.session.keepTimer), (d.seg 0).slot.map fun t => t.item.msg))
    = (some (1, some 1000), some .keep) := by decide +kernel
theorem test_cooling_ends : (cmd (one { unit17 .cooling with
      session := { (unit17 .cooling).session with coolTimer := some 1, clearMark := true } }) (.coolingTimerExpiry 0)).unit 0
    = some (unit17 .closed) := by decide +kernel
/-- R54: 20 + 500 ms with the clear-done mark. -/
theorem test_cooling_length : ({ unit17 .opened with
      session := { (unit17 .opened).session with clearMark := true } }).coolLength true = 520 := by decide

/-- An exchange record of unit 0x17. -/
def exch (k : ExKind) (n : Nat) (p : Phase) : Exchange := Exchange.new k n p 1
/-- `unit17` with an exchange record. -/
def busyUnit (x : SessState) (k : ExKind) (n : Nat) (p : Phase) : UnitRec := { unit17 x with exch := some (exch k n p) }
/-- A LIST of plan 1. -/
def listReq : Req := { kind := .list, plan := 1 }

/-- R48: the default descriptor allows 1 + 2 attempts. -/
theorem test_open_unanswered : ((cmd (one { busyUnit .opening .opn 3 .awaitAccept with
      session := { (unit17 .opening).session with openAttempts := 3 } }) (.openTimerExpiry 0)).unit 0).map
      (fun r => (r.presence, r.session.state, r.session.coolTimer))
        = some (.lost, .cooling, some 20) := by decide +kernel
theorem test_open_repeat : ((cmd (one { busyUnit .opening .opn 2 .awaitAccept with
      session := { (unit17 .opening).session with openAttempts := 2 } }) (.openTimerExpiry 0)).seg 0).slot.map
      (fun t => t.item.msg) = some .opn := by decide +kernel
theorem test_reply_timeout : ((cmd (one (busyUnit .exchanging (.request listReq) 3 .awaitAnswer)) (.replyTimerExpiry 0)).unit
      0).map (fun r => (r.losses, r.session.state)) = some (1, .cooling) := by decide +kernel
theorem test_rest_expiry : ((cmd (one { unit17 .exchanging with
      exch := some { exch (.request listReq) 1 .repeatHeld with timer := none, rest := some 1 } })
      (.restTimerExpiry 0)).seg 0).slot.map (fun t => (t.item.msg, t.item.again)) = some (.request listReq, true) := by
  decide +kernel
theorem test_open_completion : (let d := cmd (sending (one (unit17 .closed)) (item .opn false)) (.openCompletion 0)
    ((d.unit 0).map fun r => (r.session.state, r.exch.map fun x => x.timer), (d.seg 0).window))
    = (some (.opening, some (some 50)), [0]) := by decide +kernel
theorem test_request_completion : ((cmd (sending (one (unit17 .opened)) (item (.request listReq) false))
      (.requestCompletion 0)).unit 0).map (fun r => (r.session.state, r.exch)) =
    some (.exchanging, some (Exchange.new (.request listReq) 1 .awaitAnswer 150)) := by decide +kernel
theorem test_pull_completion : ((cmd (sending (one (busyUnit .exchanging (.request listReq) 1 .awaitPull))
      (item (.pull 4) false)) (.pullCompletion 0)).unit 0).bind (fun r => r.exch.map fun x => (x.phase, x.credit))
    = some (.receiving, 4) := by decide +kernel
theorem test_close_completion : ((cmd (sending (one (unit17 .opened)) (item .close false)) (.closeCompletion 0)).unit 0).map
      (fun r => (r.session.state, r.exch.map fun x => x.phase)) = some (.closing, some .awaitBye) := by decide +kernel
theorem test_keep_completion : ((cmd (sending (one { unit17 .opened with
      session := { (unit17 .opened).session with keepDebt := 2 } }) (item .keep false)) (.keepCompletion 0)).unit 0).map
      (fun r => r.session.keepDebt) = some 0 := by decide +kernel
/-- R71, R68: 8 to the count; the frame stays, goes back to its class, or is withdrawn, by the state entered since. -/
theorem test_transmit_failure : ([SlotFate.again, .back, .gone].map fun f =>
      let d := cmd ((sending (one (unit17 .closed)) (item .opn false)).modSeg 0 fun r =>
        { r with slot := r.slot.map fun t => { t with fate := f }, state := .quiet }) (.transmitFailure 0)
      ((d.seg 0).txErrors, (d.seg 0).slot.isSome, (d.seg 0).op.length))
    = [(8, true, 0), (8, false, 1), (8, false, 0)] := by decide +kernel
/-- R73: 248 + 8 is past 255. -/
theorem test_bus_off : (fun d : Chip => ((d.seg 0).state, (d.seg 0).recovery, d.regs.notice))
      (cmd ((sending live (item .opn false)).modSeg 0 fun r => { r with txErrors := 248 }) (.transmitFailure 0))
    = (.recovering, some 200, 0x100) := by decide +kernel
theorem test_recovery : ((cmd (live.modSeg 0 fun r => { r with state := .recovering, recovery := some 1, rxErrors := 9 })
    (.recoveryTimerExpiry 0)).seg 0) = { SegRec.reset with state := .live } := by decide +kernel
theorem test_lost_arbitration : (let c := sending (one (unit17 .closed)) (item .opn false)
    (cmd c (.lostArbitration 0)).seg 0 = c.seg 0) := by decide +kernel
theorem test_window_ages : ((cmd (live.modSeg 0 fun r => { r with window := [100, 5] }) (.openWindowAgeingExpiry 0)).seg
    0).window = [5] := by decide +kernel
theorem test_errors_due : (cmd (live.modSeg 0 fun r => { r with errTimer := some 1 }) (.errorCountRewriteDue 0)).hdr.pending
    = true := by decide +kernel

/-! ## Receptions -/

theorem test_receive_error : ((cmd live (.receiveError 2)).seg 2).rxErrors = 1 := by decide +kernel
theorem test_foreign_stray : ((cmd live (.foreignFrame 0 dataForm rxId)).seg 0).strays = 1 := by decide +kernel
theorem test_accept : ((cmd (one (busyUnit .opening .opn 1 .awaitAccept)) (.accept 0 0x17)).unit 0).map
    (fun r => (r.session.keepTimer, r.presence)) = some (some 1000, .present) := by decide +kernel
theorem test_refuse_busy : ((cmd (one (busyUnit .exchanging (.request listReq) 1 .awaitAnswer)) (.refuse 0 0x17 1)).unit 0).bind
    (fun r => r.exch.map fun x => (x.phase, x.rest)) = some (.repeatHeld, some 20) := by decide +kernel
/-- R199: a reason of 7 is DENIED, and DENIED ends the request with the session OPEN. -/
theorem test_refuse_denied : ((cmd (one (busyUnit .exchanging (.request listReq) 1 .awaitAnswer)) (.refuse 0 0x17 7)).unit
    0).map (fun r => (r.session.state, r.exch)) = some (.opened, none) := by decide +kernel
theorem test_wait : ((cmd (one (busyUnit .exchanging (.request listReq) 1 .awaitAnswer)) (.wait 0 0x17)).unit 0).bind
    (fun r => r.exch.map fun x => (x.waits, x.timer)) = some (1, some 2000) := by decide +kernel
theorem test_listed : ((cmd (one (busyUnit .exchanging (.request listReq) 1 .awaitAnswer)) (.listed 0 0x17 3 0xFFFF)).unit
    0).map (fun r => (r.lastN, r.hours)) = some (some 3, none) := by decide +kernel
/-- R34: a snapshot of 49 bytes or more needs the PARTs of 48 bytes, which is 7 (R39). -/
theorem test_head_snap : ((cmd (one (busyUnit .exchanging (.request { kind := .snap 0 1 1, plan := 1 }) 1 .awaitAnswer))
      (.head 0 0x17 49)).unit 0).bind (fun r => r.exch.map fun x => (x.announced, x.needed)) = some (49, 7) := by
  decide +kernel
theorem test_part_first_sequence : ((cmd (one { unit17 .exchanging with exch := some { exch (.request
      { kind := .snap 0 1 1, plan := 1 }) 1 .receiving with announced := 48, needed := 7, credit := 4 } })
      (.part 0 0x17 1 (.replicate 7 0xAA))).unit 0).bind (fun r => r.exch.map fun x => (x.taken, x.credit, x.nextSeq))
    = some (1, 3, 2) := by decide +kernel
/-- The History Table is at work on another item. -/
theorem test_clear_done : (let c := one (busyUnit .exchanging (.request { kind := .clear, plan := 1 }) 1 .awaitAnswer)
    let d := cmd { c with hist := { c.hist with run := some (Run.start .stored) } } (.clearDone 0 0x17)
    ((d.unit 0).map fun r => (r.session.clearMark, r.session.state), d.hist.intake))
    = (some (true, .opened), [.cleared 1 0 0x17]) := by decide +kernel
theorem test_bye : ((cmd (one (busyUnit .closing .close 1 .awaitBye)) (.bye 0 0x17)).unit 0).map
    (fun r => (r.session.state, r.session.coolTimer)) = some (.cooling, some 20) := by decide +kernel
theorem test_unknown_message : ((cmd (one (unit17 .opened)) (.unknownMessage 0 0x17 8 0xF)).unit 0).map (fun r => r.strays)
    = some 1 := by decide +kernel

/-- A census whose roll window runs. -/
def census : Census := { ctx := 0, answered := [], created := 0, rollStamp := 0, window := some 200 }
/-- `live` with that census on segment 1. -/
def counting : Chip := live.modSeg 1 fun r => { r with census := some census }

theorem test_here_creates : ((cmd counting (.here 1 0xEE 0x1234 0xFFFF)).unit 0).map
    (fun r => (r.origin, r.addr, r.typeCode, r.hours)) = some (.census, 0xEE, 0x1234, none) := by decide +kernel
/-- R2, and R22: a HERE that comes while its census's ROLL is pending is no stray. -/
theorem test_here_out_of_range : (cmd counting (.here 1 0xEF 0x1234 0)).unit 0 = none
    ∧ (let d := cmd (counting.modSeg 1 fun r => { r with census := some { census with window := none } }) (.here 1 0x17 1 2);
      (d.unit 0, (d.seg 1).strays) = (none, 0)) := by decide +kernel
theorem test_roll_completion : ((cmd ((live.modSeg 1 fun r => { r with
      census := some { census with window := none }
      nextStamp := 1
      slot := some {
        item := { item .roll false with addr := 0xFF }, frame := frameOf (item .roll false), stale := false, fate := .again } }))
      (.rollCompletion 1)).seg 1).census = some census := by decide +kernel

/-! ## Exchange area -/

/-- A chip whose header read of word 2 is in flight. -/
def reading : Chip :=
  { live with port := { Port.idle with
      bus := some { addr := 0x100, data := none }
      serving := some { owner := .scan, accs := [.read 0x100, .read 0x104], got := [] } } }

/-- The port goes on with the next access of the request. -/
theorem test_access_completes : (let d := cmd reading (.exchangeAccessCompletion []); d.port.bus.map fun b => b.addr)
    = some 0x104 := by decide +kernel
theorem test_access_error : (let d := cmd reading .exchangeAccessError; (d.col, d.regs.notice, d.port))
    = (.halted, 0x400, Port.idle) := by decide +kernel
/-- 11, first paragraph: words lie little-endian. -/
theorem test_little_endian : Memory.writeWord [] 0x100 0x04030201
    = [(0x100, 1), (0x101, 2), (0x102, 3), (0x103, 4)] := by
  decide +kernel
theorem test_writing_the_unwritten_value_unlists : Memory.writeWord [(0x101, 7)] 0x100 0 = [] := by decide +kernel

/-! ## The hypotheses of the statements can be met -/

/-- What holds of every unit of a chip. -/
theorem every {P : UnitRec → Prop} [DecidablePred P] {c : Chip}
    (h : ∀ u, (c.unit u).all (fun r => decide (P r)) = true) : ∀ u r, c.unit u = some r → P r := by
  intro u r hr
  have h1 := h u
  rw [hr] at h1
  exact of_decide_eq_true h1

/-- What is absent meets everything. -/
theorem absent {α : Type} {o : Option α} (h : o = none) (P : α → Prop) : ∀ x, o = some x → P x := by
  intro x hx
  rw [h] at hx
  cases hx

/-- The one thing that is present meets what it meets. -/
theorem present {α : Type} {o : Option α} {y : α} {P : α → Prop} (h : o = some y) (p : P y) : ∀ x, o
    = some x → P x := by
  intro x hx
  rw [h] at hx
  cases hx
  exact p

/-- A chip in another collector state. -/
def inState (x : Collector) : Chip := { live with col := x }
/-- A chip with the monitor changed. -/
def withMon (f : Monitor → Monitor) : Chip := { live with mon := f live.mon }
/-- A RUNNING chip with RUN set. -/
def runs (c : Chip) : Chip := { c with regs := { c.regs with run := true } }
/-- A machine with one command waiting. -/
def before (c : Chip) (i : Instr) : State := { on c with pending := [i] }
/-- A chip on which a write is in flight. -/
def writing : Chip :=
  { live with port := { Port.idle with
      bus := some { addr := 0x100, data := some 5 }
      serving := some { owner := .scan, accs := [.write 0x100 (.lit 5), .read 0x104], got := [] } } }

/-- A chip with IGN ON and a run-on grace of 0. -/
def noGrace : Chip :=
  { live with
    mon := { live.mon with ign := true }
    settings := live.settings.map fun x => { x with grace := 0 } }

/-- A unit whose CLEAR awaits its CLEAR-DONE. -/
def clearing : UnitRec := busyUnit .exchanging (.request { kind := .clear, plan := 1 }) 1 .awaitAnswer

/-- A chip whose sweep timer counts. -/
def sweeping : Chip :=
  { live with
    settings := live.settings.map fun s => { s with sweep := { s.sweep with enable := true } }
    mon := { live.mon with ign := true } }

/-- A unit whose KEEP is overdue. -/
def overdueUnit : UnitRec :=
  { unit17 .opened with session := { (unit17 .opened).session with keepDebt := 3, keepTimer := some 1 } }

/-- A plan in context 0 at its only step. -/
def plan (w : Work) : Plan :=
  { serial := 1, ctx := 0, running := true, cursor := 1, flags := 0, drops := 0, listed := none, pair := .unpaired
    work := some w, heldEnd := none, highU := 0, covered := [], spoiled := false, ended := none }

/-- A chip on which unit 0 runs that plan, of one step, in an exchange. -/
def planned (r : UnitRec) (s : StepKind) (w : Work) : Chip :=
  { one { r with queue := [plan w] } with
    ctxs := live.ctxs.set 0 { Ctx.cleared with
      state := .running, source := .card 0, outstanding := 1
      content := .harvest 1 false false [{ kind := s, cond := .always, pairing := .alone }] } }

/-- The slot of `sending`. -/
def slotOf (m : Msg) (again : Bool) : TxSlot :=
  { item := item m again, frame := frameOf (item m again), stale := false, fate := .again }

/-- `live` with segment 0 in LISTEN. -/
def listening : Chip :=
  { one (unit17 .closed) with
    settings := live.settings.map fun s => { s with segs := s.segs.set 0 { SegSettings.default with mode := .listen } } }

/-- A frame of unit 0x17 reaches its exchange on `one`. -/
theorem hears (r : UnitRec) (hf : (one r).findUnit 0 0x17 = some 0) (hu : (one r).unit 0
    = some r) : (one r).Hears 0 0x17 0 r :=
  ⟨show live.receives 0 = true by decide +kernel, show live.mode 0 = some .active by decide +kernel,
    show live.rxBlocked 0 = false by decide +kernel, show (live.seg 0).rxWait = [] by decide +kernel, hf, hu⟩

/-- A unit record in slot 0: code 0x010203, kind 4, ACTIVE with RED, u 5, c 0, hours 10 and 12. -/
def recordBytes : List Byte := [1, 2, 3, 4, 0x32, 5, 0, 0, 10, 0, 12, 0]

/-- A harvest context with the clock set and the hours known. -/
def harvestCtx : HarvestCtx := { ct := some 1000, k := 7, hours := some 12 }
/-- The entry that the record of `recordBytes` makes. -/
def entry : Entry := createEntry { seg := 0, addr := 0x17, code := 0x010203, kind := 4 } harvestCtx (recordOf recordBytes)

/-- The only unit of `one`. -/
theorem only {r q : UnitRec} {u : UnitIx} (h : (one r).unit u = some q) : u = 0 ∧ q = r := by
  have hn : ∀ v : UnitIx, live.roster[v.val] = none := by decide +kernel
  have hu : (live.roster.set 0 (some r))[u.val] = some q := h
  rw [Vector.getElem_set] at hu
  split at hu
  · exact ⟨Fin.ext (by simpa using ‹0 = u.val›.symm), (Option.some.inj hu).symm⟩
  · rw [hn u] at hu
    cases hu

/-- A chip with one entry, in slot 511, and the change sequence 9. -/
def tabled (e : Entry) : Chip :=
  { live with hist := { live.hist with
      changeSeq := 9, inUse := 1, slots := live.hist.slots.set 511 { SlotRec.free with entry := some e } } }

/-- `live` has no entry. -/
theorem live_slot (j : SlotIx) : live.slot j = .free := Vector.getElem_replicate j.isLt

/-- The only entry of `tabled`. -/
theorem only_entry {e f : Entry} {j : SlotIx} (h : ((tabled e).slot j).entry = some f) : f = e := by
  have hj : ((live.hist.slots.set 511 { SlotRec.free with entry := some e })[j.val]).entry = some f := h
  rw [Vector.getElem_set] at hj
  split at hj
  · exact (Option.some.inj hj).symm
  · have hn : live.hist.slots[j.val] = .free := live_slot j
    rw [hn] at hj
    cases hj

/-- Every block FREE, as R154 leaves the pool. -/
theorem pool_sound : Pool.reset.Sound := by simp [Pool.Sound, Pool.reset, List.nodup_finRange]

/-- A chip on whose port the last access of a request of the owner `o` is in flight, a write. -/
def ends (c : Chip) (o : Owner) (got : List Word) : Chip :=
  { c with port := { Port.idle with
      bus := some { addr := 0x100, data := some 5 }
      serving := some { owner := o, accs := [.write 0x100 (.lit 5)], got := got } } }

theorem ends_request (c : Chip) (o : Owner) (got : List Word) : (on (ends c o got)).EndsRequest [] o got :=
  ⟨_, _, _, rfl, rfl, rfl, rfl, (fun _ h => by cases h), (List.append_nil got).symm⟩

/-- A chip on which write 4 of an entry change is in flight, and more of the header after it. -/
def publishing (x : RunPhase) : Chip :=
  { live with
    hist := { live.hist with run := some (Run.start x) }
    port := { Port.idle with
      bus := some { addr := 0x0C, data := some 5 }
      serving := some { owner := .header, accs := [.write 0x0C (.header 3), .write 0x10 (.header 4)], got := [] } } }

/-- A chip on which the scan's request ends with the word `w` read, in a stage of the scan. -/
def scanning (c : Chip) (x : ScanStage) (w : Word) : Chip :=
  ends { c with scan := { c.scan with stage := some x, taking := true } } .scan [w]
/-- A context that is RUNNING for card 15. -/
def ctxOf (x : Content) : Ctx := { Ctx.cleared with state := .running, source := .card 15, content := x, outstanding := 1 }
/-- `live` with that context, 3. -/
def ordered (x : Content) : Chip := { live with ctxs := live.ctxs.set 3 (ctxOf x) }

/-- A chip on which unit 0 runs a plan, and a HARVEST of the indices 0 and 63 is taken in context 3. -/
def reaping : Chip :=
  { one { unit17 .opened with queue := [plan .list] } with
    ctxs := live.ctxs.set 3 (ctxOf (.harvest 0x8000000000000001 false false [])) }

/-- A valid profile of 48 words of 16 bits: signature, version, length, no descriptor, and the sum 0xA55A. -/
def profile : List Word := [0x0001C35A, 48, 0, 0x60] ++ .replicate 19 0 ++ [0xE16F0000]

/-- A chip in STARTING on which a request of the start ends. -/
def starting (c : Chip) (st : Starting) (got : List Word) : Chip :=
  ends { c with col := .starting, start := some st } .starting got
/-- Where STARTING stands, warm. -/
def stage (x : StartStage) : Starting := { stage := x, mode := .warm, fellBack := false, stored := 9, report := .zero }
/-- The sixteen words of the entry of `recordBytes`, under a version. -/
def slotWords (version : Word) : List Word :=
  version :: ((entryWords entry).take 2).map Prod.snd ++ 0 :: ((entryWords entry).drop 2).map Prod.snd

/-- A chip with one entry, an item at the head of the intake and a run in a phase. -/
def working (e : Entry) (i : WorkItem) (x : RunPhase) : Chip :=
  let c := tabled e
  { c with hist := { c.hist with intake := [i], run := some (Run.start x) } }

/-- A plan at its only step, with pair state and flags, whose step has not started. -/
def fresh (x : PairState) (f : Byte) : Plan := { plan .list with work := none, pair := x, flags := f }

/-- `planned` with that plan and that step. -/
def stepping (r : UnitRec) (p : Plan) (st : Step) : Chip :=
  { one { r with queue := [p] } with
    ctxs := live.ctxs.set 0 { ctxOf (.harvest 1 false false [st]) with source := .card 0 } }

/-- A chip without an entry has no candidate for a SNAP. -/
theorem no_candidate (r : UnitRec) : (one r).candidates 0 0x17 false = [] := by
  have h : ∀ j, (one r).slot j = .free := live_slot
  simp [Chip.candidates, Chip.entriesOf, h, SlotRec.free]

/-- `tabled`, with an ACTIVE entry that a plan has merged. -/
def merged : Chip :=
  let c := tabled { entry with status := .active }
  { c with hist := { c.hist with slots := c.hist.slots.set 511 { c.slot 511 with activeMerged := true } } }

/-- Its entry is a candidate. -/
theorem a_candidate : ∃ k ks, merged.candidates 0 0x17 false = k :: ks := by
  refine List.exists_cons_of_ne_nil (List.ne_nil_of_mem (a := ⟨511, 0x010203, 4⟩) ?_)
  refine List.mem_filterMap.mpr ⟨511, List.mem_filter.mpr ⟨List.mem_finRange 511, ?_⟩, ?_⟩ <;> decide +kernel

/-- A chip on which a hand-over from segment 0 waits. -/
def blocked (c : Chip) : Chip := { c with hist := { c.hist with handWait := [(.cleared 1 0 0x17, some 0)] } }

/-- The only entry of `tabled` is in slot 511. -/
theorem only_slot {e f : Entry} {j : SlotIx} (h : ((tabled e).slot j).entry = some f) : j = 511 := by
  have hj : ((live.hist.slots.set 511 { SlotRec.free with entry := some e })[j.val]).entry = some f := h
  rw [Vector.getElem_set] at hj
  split at hj
  · exact Fin.ext (by omega)
  · have hn : live.hist.slots[j.val] = .free := live_slot j
    rw [hn] at hj
    cases hj

/-- `live` with the same entry in every slot. -/
def full (e : Entry) : Chip :=
  { live with hist := { live.hist with slots := .replicate 512 { SlotRec.free with entry := some e } } }

theorem full_slot (e : Entry) (j : SlotIx) : ((full e).slot j).entry = some e :=
  congrArg SlotRec.entry (Vector.getElem_replicate j.isLt)

theorem hyps_StepRunsTheFrontCommand : (before live .ctRise).pending = .ctRise :: [] := rfl

theorem hyps_IdleMillisecond : (State.reset.pending = [] ∧ State.reset.chip.stopEnds = false)
    ∧ ((on (inState .stopping)).pending = [] ∧ (inState .stopping).stopEnds = true)
    ∧ (let r := { unit17 .opened with session := { (unit17 .opened).session with keepTimer := some 1 } };
      let c := (one r).modSeg 0 fun x => { x with state := .held }
      (on c).pending = [] ∧ c.stopEnds = false ∧ c.unit 0 = some r ∧ (c.seg r.seg).state = .held) := by decide +kernel

/-- Every timer of the block with a millisecond left, and with two; the clock, the sweep timer and a window entry next to
their ends; a plan that holds, and a unit without plans. -/
theorem hyps_IdleMillisecondTimers : ∀ n ∈ [1, 2],
    let p := plan (.hold 5 (some n))
    let q := { unit17 .exchanging with
      session := { (unit17 .exchanging).session with keepTimer := some n, coolTimer := some n }
      exch := some { exch (.request listReq) 1 .repeatHeld with timer := some n, rest := some n }, queue := p :: [] }
    let c := { sweeping.setUnit 0 (some q) with
      stopTimer := some n, scan := { sweeping.scan with timer := some n }
      segs := .replicate 4 { SegRec.reset with
        state := .live, recovery := some n, errTimer := some n, window := [101 - n], census := some { census with window := some n } }
      mon := { sweeping.mon with
        debounce := some n, dipTimer := some n, settleTimer := some n, grace := some n, phase := 6000 - n
        sweepMs := sweeping.sets.sweep.period - n } }
    (on c).pending = [] ∧ c.stopEnds = false ∧ c.unit 0 = some q ∧ c.unit 1 = none ∧ q.queue = p :: []
    ∧ p.work = some (.hold 5 (some n)) ∧ (q.queue.head?.isSome = true)
    ∧ c.col = .running ∧ c.mon.ign = true ∧ c.sets.sweep.enable = true ∧ c.mon.spent = false ∧ (5999 ≤ c.mon.phase ↔ n = 1)
    ∧ (c.sets.sweep.period ≤ c.mon.sweepMs + 1 ↔ n = 1) ∧ (c.segSets 3).openWindow = 100
    ∧ ((unit17 .opened).queue.head? = none) := by decide +kernel

theorem hyps_MemoryStaysCanonical : Memory.wf (before writing (.exchangeAccessCompletion [])).mem = true
    ∧ ∃ t, Machine.step (before writing (.exchangeAccessCompletion [])) = .next t := ⟨by decide +kernel, _, rfl⟩

/-- The bytes beside the word written are 0xFF and 0x104. -/
theorem hyps_HostRamChangesAtAccessEnds : Memory.wf (before writing (.exchangeAccessCompletion [])).mem = true
    ∧ (∃ t, Machine.step (before writing (.exchangeAccessCompletion [])) = .next t)
    ∧ (∃ t, Machine.step (before writing .exchangeAccessError) = .next t)
    ∧ (∃ t, Machine.step (before writing .ctRise) = .next t)
    ∧ (∀ b w, writing.port.bus = some b → b.data = some w → 0xFF < b.addr ∨ b.addr + 4 ≤ 0xFF)
    ∧ (∀ b w, writing.port.bus = some b → b.data = some w → 0x104 < b.addr ∨ b.addr + 4 ≤ 0x104) := by
  refine ⟨by decide +kernel, ⟨_, rfl⟩, ⟨_, rfl⟩, ⟨_, rfl⟩, ?_, ?_⟩ <;> intro b w h _ <;> cases h <;> decide

theorem hyps_HostRegistersChangeByTheirWrites :
    (∃ t, Machine.step (before State.reset.chip (.xbaseWrite 0x10000)) = .next t ∧ t.chip.regs.xbase ≠ 0)
    ∧ (∃ t, Machine.step (before State.reset.chip (.nmaskWrite 1)) = .next t ∧ t.chip.regs.nmask ≠ 0)
    ∧ (∃ t, Machine.step (before State.reset.chip .runSet) = .next t ∧ t.chip.regs.run ≠ false)
    ∧ (∃ t, Machine.step (before (runs live) .runClear) = .next t ∧ t.chip.regs.run ≠ true)
    ∧ (∃ t, Machine.step (before State.reset.chip (.startModeWrite .warm)) = .next t ∧ t.chip.regs.startMode ≠ .cold) :=
  ⟨⟨_, rfl, by decide +kernel⟩, ⟨_, rfl, by decide +kernel⟩, ⟨_, rfl, by decide +kernel⟩, ⟨_, rfl, by decide +kernel⟩,
    ⟨_, rfl, by decide +kernel⟩⟩

theorem hyps_GraceAndParkPending :
    (∃ t, Machine.step (before live .powerOnReset) = .next t) ∧ (∃ t, Machine.step (before live .softReset) = .next t)
    ∧ (∃ t, Machine.step (before State.reset.chip .runSet) = .next t ∧ t.chip.col = .starting)
    ∧ (∃ t, Machine.step (before (runs (withMon fun m => { m with grace := some 5 })) .runClear) = .next t
        ∧ t.chip.col = .stopping)
    ∧ (∃ t, Machine.step (before (inState .halted) .enterStopped) = .next t ∧ t.chip.col = .stopped)
    ∧ (∃ t, Machine.step (before writing .exchangeAccessError) = .next t ∧ t.chip.col = .halted)
    ∧ (withMon fun m => { m with grace := some 5 }).col = .running
    ∧ (∃ t, Machine.step (before (withMon fun m => { m with grace := some 5 }) .graceEnd) = .next t
        ∧ t.chip.col = .parked)
    ∧ (withMon fun m => { m with grace := some 5 }).Rests ∧ State.reset.chip.Rests :=
  ⟨⟨_, rfl⟩, ⟨_, rfl⟩, ⟨_, rfl, by decide +kernel⟩, ⟨_, rfl, by decide +kernel⟩, ⟨_, rfl, by decide +kernel⟩,
    ⟨_, rfl, by decide +kernel⟩, rfl, ⟨_, rfl, by decide +kernel⟩,
    ⟨fun h => absurd rfl h, fun h => absurd rfl h⟩, ⟨fun _ => ⟨rfl, rfl⟩, fun h => absurd rfl h⟩⟩

/-- A unit at address EEH with every count at the end of its range, and the KEEP expiry that drops its session. -/
theorem hyps_RosterStaysSound :
    let r := { overdueUnit with addr := 0xEE, losses := 3, drops := 255, malformed := 255, refused := 255, strays := 255 }
    (before (one r) (.keepTimerExpiry 0)).chip.RosterSound
    ∧ ∃ t, Machine.step (before (one r) (.keepTimerExpiry 0)) = .next t := by
  refine ⟨⟨fun u v _ _ hu hv _ _ => (only hu).1.trans (only hv).1.symm, by decide +kernel, every ?_, every ?_⟩, _, rfl⟩ <;>
    decide +kernel

/-- An OPEN in the slot of an OPENING unit, a CLOSE of its pending, and the completion of the OPEN. -/
theorem hyps_SessionsStaySound :
    let r := busyUnit .opening .opn 1 .awaitAccept
    let c := (sending (one r) (item .opn true)).modSeg 0 fun x => { x with cs := [item .close false] }
    (before c (.openCompletion 0)).chip.SessionsSound ∧ ∃ t, Machine.step (before c (.openCompletion 0)) = .next t := by
  refine ⟨⟨by decide +kernel, ?_, ?_, ?_, ?_⟩, _, rfl⟩
  · intro g k
    cases k <;> revert g <;> decide +kernel
  · intro g k
    cases k <;> revert g <;> decide +kernel
  · intro u q x hu hx
    obtain ⟨rfl, rfl⟩ := only hu
    cases hx
    exact ⟨fun _ _ => rfl, fun _ h => by cases h⟩
  · exact fun g _ _ _ _ => .inl ((by decide +kernel : ∀ g, (sending (one (busyUnit .opening .opn 1 .awaitAccept))
      (item .opn true)).slotsHeld g < 6) g)

/-- An entry changed last, a pool with every block FREE, and a rise of CT. -/
theorem hyps_HistoryStaysSound :
    let c := before (tabled { entry with lastChange := 9 }) .ctRise
    c.chip.HistorySound ∧ c.chip.pool.Sound ∧ ∃ t, Machine.step c = .next t :=
  ⟨⟨⟨fun h => absurd rfl h, fun h => absurd rfl h⟩, fun _ _ _ he => by rw [only_entry he]; decide⟩, pool_sound, _, rfl⟩

theorem hyps_WhatFollowsACommand : live.quiet = true ∧ live.mon.parkPending = false
    ∧ (inState .parked).col ≠ .running := by decide +kernel

/-- A chip on which the oldest item of the intake is a snapshot-none whose slot is empty. -/
def handed : Chip :=
  { live with hist := { live.hist with intake := [.noSnap 1 511 { seg := 0, addr := 0x17, code := 1, kind := 1 }] } }
/-- A chip on which a frame of no roster unit waited. -/
def heldFrame : Chip := live.modSeg 3 fun r => { r with rxWait := [{ addr := 0x17, msg := .unknown }] }
/-- A chip whose parking is due. -/
def dueToPark : Chip := withMon fun m => { m with parkPending := true }

/-- One round of each kind, after which nothing is ready. -/
theorem hyps_WhatFollowsACommandRounds :
    (∀ c ∈ [live, (Chip.park { dueToPark with mon := { dueToPark.mon with parkPending := false } }), handed.takeItem
        , (heldFrame.modSeg 3 fun r => { r with rxWait := [] }).handleFrame 3 { addr := 0x17, msg := .unknown }], c.quiet = true)
    ∧ (dueToPark.mon.parkPending = true ∧ dueToPark.col = .running ∧ dueToPark.anyClearAwaits = false)
    ∧ (handed.parkDue = false ∧ handed.hist.run = none ∧ handed.hist.intake ≠ [] ∧ handed.col = .running)
    ∧ (∀ x ∈ [Collector.parked, .stopping], let c := { handed.setUnit 0 (some (unit17 .opened)) with col := x, stopTimer := some 1 }
        c.parkDue = false ∧ c.hist.run = none ∧ c.hist.intake ≠ [] ∧ c.stopReady = false)
    ∧ (heldFrame.parkDue = false ∧ heldFrame.mayTake = false
      ∧ (heldFrame.seg 3).rxWait = { addr := 0x17, msg := .unknown } :: [] ∧ heldFrame.rxBlocked 3 = false
      ∧ ∀ h, h < 3 → (heldFrame.seg h).rxWait = []) := by decide +kernel

/-- A unit that changed; a header field that changed, and error counts alone; a collector that writes the header in STARTING
and one that is STOPPED. -/
theorem hyps_WhatFollowsACommandAsks :
    let other := { live with sweepCount := 7 }
    let counts := live.modSeg 0 fun r => { r with txErrors := 8 }
    (∃ d, d = Chip.askRewrites live (one (unit17 .opened))) ∧ live.col = .running
    ∧ mirrorWords (live.unit 0) ≠ mirrorWords ((one (unit17 .opened)).unit 0) ∧ (live.mirror 0).busy = true
    ∧ (State.reset.chip.mirror 0).busy = false
    ∧ (∃ i, i < 28 ∧ i ≠ 3 ∧ i ≠ 4 ∧ i ≠ 13 ∧ i ≠ 17 ∧ i ≠ 21 ∧ i ≠ 25 ∧ headerWord live i ≠ headerWord other i)
    ∧ (∀ i, i < 28 → i ≠ 3 ∧ i ≠ 4 → if i = 13 ∨ i = 17 ∨ i = 21 ∨ i = 25
        then headerWord live i >>> 16 = headerWord counts i >>> 16 else headerWord live i = headerWord counts i)
    ∧ counts.hdr.wanted = false ∧ (live.seg 0).txErrors ≠ (counts.seg 0).txErrors ∧ (counts.seg 0).errTimer = none
    ∧ (∃ st a b, (starting live (stage (.header .parked 1)) []).start = some st ∧ st.stage = .header a b)
    ∧ State.reset.chip.col = .stopped ∧ State.reset.chip.hdr.wanted = false := by
  refine ⟨⟨_, rfl⟩, rfl, by decide +kernel, by decide +kernel, by decide +kernel, ?_,
    by decide +kernel, by decide +kernel, by decide +kernel,
    by decide +kernel, ⟨_, _, _, rfl, rfl⟩, rfl, rfl⟩
  exact ⟨_, by decide, by decide, by decide, by decide, by decide, by decide, by decide, (by decide +kernel :
    headerWord live 8 ≠ headerWord { live with sweepCount := 7 } 8)⟩

/-- A port with an access in flight, an idle one, one between two accesses, and one with a request waiting. -/
theorem hyps_WhatFollowsACommandAccess :
    reading.port.bus = some { addr := 0x100, data := none } ∧ (live.port.serving = none ∧ live.port.waiting = [])
    ∧ (∀ a ∈ [Acc.read 0x100, .write 0x100 (.lit 5)], let q : Request := { owner := .scan, accs := [a], got := [] }
      let busy := { Port.idle with serving := some q }
      let next := { Port.idle with waiting := [q] }
      busy.bus = none ∧ busy.serving = some q ∧ busy.waiting = [] ∧ q.accs = a :: [] ∧ next.bus = none ∧ next.serving = none
      ∧ next.waiting = q :: []) := by decide +kernel

theorem hyps_RegisterWritesAndScanRequests : ((runs live).regs.run = true
      ∧ (let c := { State.reset.chip with regs := { State.reset.chip.regs with xbase := 0xFFFF } };
          c.regs.run = false ∧ c.col = .stopped ∧ c.regs.xbase.toNat % 65536 ≠ 0)
      ∧ ((inState .starting).regs.run = false ∧ (inState .starting).col = .starting)
      ∧ (live.regs.run = false ∧ live.col ≠ .stopped ∧ live.col ≠ .starting ∧ live.col ≠ .halted)
      ∧ ((runs (inState .starting)).regs.run = true ∧ (runs (inState .starting)).col = .starting)
      ∧ ((runs State.reset.chip).regs.run = true ∧ (runs State.reset.chip).col = .stopped)
      ∧ ((runs (inState .stopping)).regs.run = true ∧ (runs (inState .stopping)).col = .stopping)
      ∧ (State.reset.chip.col = .stopped ∧ (inState .halted).col = .halted))
    ∧ (let timed := { live with scan := { live.scan with timer := some 1 } };
      let busy := { timed with scan := { timed.scan with stage := some (.owner 15) } }
      (State.reset.chip.col ≠ .running ∧ State.reset.chip.col ≠ .parked ∧ State.reset.chip.scan.timer = none)
      ∧ (timed.col = .running ∧ timed.scan.stage = none ∧ timed.scan.timer ≠ none)
      ∧ (busy.col = .running ∧ busy.scan.stage ≠ none ∧ busy.scan.timer ≠ none)
      ∧ ((inState .parked).col = .parked ∧ (inState .parked).scan.stage = none)) := by decide +kernel

/-- A session in each state at the entry to STOPPING; one reload at work and none. -/
theorem hyps_RunEntersStartingAndStopping : (State.reset.chip.regs.run = false ∧ State.reset.chip.col = .stopped
      ∧ State.reset.chip.regs.xbase.toNat % 65536 = 0 ∧ (0xFFFF0000 : Word).toNat % 65536 = 0)
    ∧ ((runs live).regs.run = true ∧ (runs live).col = .running ∧ (runs live).scan.stage = none)
    ∧ ((runs (inState .parked)).regs.run = true ∧ (runs (inState .parked)).col = .parked
      ∧ (runs (inState .parked)).scan.stage = none)
    ∧ (∀ x ∈ [SessState.opened, .opening, .closing, .exchanging, .closed, .cooling],
      (one (unit17 x)).unit 0 = some (unit17 x) ∧ (unit17 x).session.state = x ∧ (unit17 x).clearAwaits = false
      ∧ ((one (unit17 x)).seg 0).hasGranted 0x17 Msg.isOpen = false)
    ∧ (clearing.session.state = .exchanging ∧ clearing.clearAwaits = true)
    ∧ ((sending (one (unit17 .closed)) (item .opn false)).seg 0).hasGranted 0x17 Msg.isOpen = true
    ∧ (∀ k, (live.ctx k).state ≠ .running)
    ∧ (let c := ordered .reload;
      (c.ctx 3).state = .running ∧ (c.ctx 3).content = .reload ∧ (c.ctx 3).source = .card 15
      ∧ (∀ k, k ≠ 3 → (c.ctx k).state ≠ .running) ∧ c.port.waiting = [] ∧ c.port.fresh = []) := by decide +kernel

theorem hyps_StoppingAndStopped : ((inState .halted).col = .halted ∧ (inState .halted).regs.run = false
    ∧ (runs (inState .halted)).col = .halted ∧ (inState .stopping).stopEnds = true)
    ∧ (live.stopEnds = false ∧ live.col ≠ .halted)
    ∧ ((runs (inState .halted)).stopEnds = false ∧ (runs (inState .halted)).regs.run = true)
    ∧ (inState .stopping).col = .stopping ∧ live.col ≠ .stopping := by decide +kernel

theorem hyps_IgnitionEdges :
    (live.mon.raw = false ∧ live.mon.raw ≠ true ∧ live.mon.ign ≠ true ∧ live.mon.debounce = none)
    ∧ (let c := withMon fun m => { m with raw := true };
        c.mon.raw ≠ false ∧ c.mon.ign = false ∧ c.mon.raw = true)
    ∧ (let c := fun x : Chip => { x with mon := { x.mon with raw := false, ign := true, debounce := some 1 } };
        (∀ x ∈ [inState .parked, live, noGrace], (c x).mon.debounce ≠ none ∧ (c x).mon.raw = false ∧ (c x).mon.ign = true)
        ∧ (c (inState .parked)).col ≠ .running ∧ (c live).col = .running ∧ (c live).sets.grace ≠ 0
        ∧ (c noGrace).col = .running ∧ (c noGrace).sets.grace = 0 ∧ (c noGrace).Idle)
    ∧ (∀ x ∈ [Collector.stopped, .starting, .halted, .running, .stopping, .parked],
        let c := { inState x with mon := { live.mon with raw := true, debounce := some 1 } }
        c.mon.debounce ≠ none ∧ c.mon.raw = true ∧ c.mon.ign = false ∧ c.col = x) :=
  ⟨by decide +kernel, by decide +kernel, ⟨by decide +kernel, by decide +kernel, by decide +kernel, by decide +kernel,
    by decide +kernel, by decide +kernel, every (by decide +kernel), by decide +kernel, by decide +kernel⟩,
    by decide +kernel⟩

/-- The last four blocks: a plan that runs and one that is QUEUED behind one that has ended; a HARVEST with plans
outstanding; a census of a card; an order of a card and of a sweep. -/
theorem hyps_GraceEndAndCuts : live.mon.grace = none
    ∧ (let c := withMon fun m => { m with grace := some 1 };
        c.mon.grace ≠ none ∧ c.col = .running ∧ c.Idle
        ∧ (Chip.graceDrops (Chip.cutCensuses (Chip.cutPlans { c with mon := { c.mon with grace := none } }
            .cutGrace))).anyClearAwaits = false)
    ∧ (let c := { one clearing with mon := { live.mon with grace := some 1 } };
        c.mon.grace ≠ none ∧ c.anyClearAwaits = true
        ∧ (∀ u r, c.unit u = some r → r.queue = [] ∧ (r.clearAwaits = false → r.session.state.holdsSlot = false))
        ∧ (∀ g, (c.seg g).census = none) ∧ (∀ k, (c.ctx k).state = .free)
        ∧ (Chip.graceDrops (Chip.cutCensuses (Chip.cutPlans { c with mon := { c.mon with grace := none } }
            .cutGrace))).anyClearAwaits = true)
    ∧ (let r := fun x => { unit17 x with queue := [{ plan .list with ended := some (.complete, 1) }] };
        (∀ u q, (one (r .opened)).unit u = some q → ∀ p ∈ q.queue.head?, p.ended ≠ none)
        ∧ (∀ u q, (one (r .closed)).unit u = some q → q.exch = none ∧ q.session.state.holdsSlot = false
          ∧ ∀ p ∈ q.queue, p.ended ≠ none)
        ∧ (∀ g, ((one (r .closed)).seg g).census = none) ∧ ∀ k, ((one (r .closed)).ctx k).state ≠ .running)
    ∧ (let done := { plan .list with ended := some (.complete, 1) };
        ∀ b ∈ [false, true], let r := { unit17 .opened with queue := [done] ++ [{ plan .list with running := b }] }
        (one r).unit 0 = some r ∧ (∀ q ∈ [done], q.ended ≠ none) ∧ { plan .list with running := b }.ended = none)
    ∧ (let c := { one { unit17 .opened with queue := [{ plan .list with ended := some (.complete, 1) }] } with
          ctxs := live.ctxs.set 3 (ctxOf (.harvest 1 false false [])) };
        (∀ u r, c.unit u = some r → ∀ p ∈ r.queue, p.ended ≠ none)
        ∧ ∀ k, (c.ctx k).state = .running → (c.ctx k).outstanding ≠ 0)
    ∧ (let c := (ordered (.census 1)).modSeg 1 fun r => { r with census := some { census with ctx := 3 } };
        (c.seg 1).census = some { census with ctx := 3 } ∧ (∀ g, g ≠ 1 → (c.seg g).census = none)
        ∧ (c.ctx 3).source = .card 15)
    ∧ (live.ctx 0).source = .sweep ∧ (live.ctx 0).endCode ≠ .cut ∧ live.col ≠ .stopped
    ∧ { Ctx.cleared with endCode := .cut }.endCode = .cut :=
  ⟨by decide +kernel, ⟨by decide +kernel, by decide +kernel, ⟨every (by decide +kernel), by decide +kernel, by decide +kernel⟩,
    by decide +kernel⟩, ⟨by decide +kernel, by decide +kernel, every (by decide +kernel), by decide +kernel, by decide +kernel, by decide +kernel⟩,
    ⟨every (by decide +kernel), every (by decide +kernel), by decide +kernel, by decide +kernel⟩, by decide +kernel,
    ⟨every (by decide +kernel), by decide +kernel⟩, by decide +kernel, by decide +kernel, by decide +kernel, by decide +kernel,
    by decide⟩

/-- Each clause at the supply next to its threshold: 8,000 mV, and 9,000 mV for the recovery. -/
theorem hyps_SupplyMovesTheDipState :
    let dip := fun x => withMon fun m => { m with dip := x }
    live.sets.supply.dipLevel = 8000 ∧ live.col = .running ∧ (State.reset.chip.col ≠ .running
    ∧ State.reset.chip.col ≠ .stopping)
    ∧ (live.mon.dip = .normal ∧ 7999 < live.sets.supply.dipLevel ∧ live.sets.supply.dipLevel ≤ 8000)
    ∧ ((dip .falling).mon.dip = .falling ∧ (dip .falling).sets.supply.dipLevel < 8001)
    ∧ ((dip .dipped).mon.dip = .dipped ∧ (dip .dipped).sets.supply.dipLevel + 1000 < 9001)
    ∧ ((dip .settling).mon.dip = .settling ∧ 8999 < (dip .settling).sets.supply.dipLevel + 1000)
    ∧ 9000 ≤ (dip .dipped).sets.supply.dipLevel + 1000 := by decide +kernel

/-- In the last clause a unit holds a session slot, and a CLEAR of its awaits CLEAR-DONE. -/
theorem hyps_DipHoldsAndReleases :
    let dip := fun x => withMon fun m => { m with dip := x }
    (live.mon.dip ≠ .falling ∧ live.mon.dip ≠ .settling)
    ∧ ((dip .falling).mon.dip = .falling ∧ (dip .falling).col = .running) ∧ (dip .settling).mon.dip = .settling
    ∧ (∀ u r, (dip .settling).unit u = some r → r.session.state.holdsSlot = false)
    ∧ ((one clearing).unit 0 = some clearing ∧ clearing.session.state.holdsSlot = true
      ∧ ∀ u r, (one clearing).unit u = some r → r.queue = []) :=
  ⟨by decide +kernel, by decide +kernel, by decide +kernel, every (by decide +kernel), by decide +kernel, by decide +kernel,
    every (by decide +kernel)⟩

/-- The last unit that a sweep takes runs another plan already; the clock next to its end. -/
theorem hyps_SweepTimerAndClock :
    (sweeping.col = .running ∧ sweeping.mon.ign = true ∧ sweeping.sets.sweep.enable = true ∧ sweeping.mon.spent = false
      ∧ sweeping.sweepTaken = false ∧ sweeping.reloadTaken = false ∧ sweeping.freeCtx = some 0
      ∧ sweeping.mon.parkPending = false)
    ∧ (∀ u r, sweeping.unit u = some r →
        sweeping.mode r.seg ≠ some .active ∨ r.presence = .silent ∨ r.desc.sweepExclude = true)
    ∧ (let r := { unit17 .closed with addr := 0x18, queue := [{ plan .list with ctx := 3 }] };
        let c := (sweeping.setUnit 0 (some (unit17 .closed))).setUnit 63 (some r)
        (c.units.filter c.sweepTarget) = [0, 63] ∧ c.sweepTaken = false ∧ c.reloadTaken = false ∧ c.freeCtx = some 0
        ∧ ∀ u r, c.unit u = some r → ∀ p ∈ r.queue.head?, p.running = true)
    ∧ (let busy := fun x => { sweeping with ctxs := sweeping.ctxs.set 3 x };
        (busy { Ctx.cleared with state := .running }).sweepTaken = true
        ∧ (busy { Ctx.cleared with state := .running, source := .card 0 }).reloadTaken = true)
    ∧ ({ sweeping with ctxs := .replicate 4 { Ctx.cleared with state := .running } }).freeCtx = none
    ∧ live.mon.ign = false ∧ (withMon fun m => { m with spent := true }).mon.spent = true
    ∧ (∀ n ∈ [4294967294, 4294967295], let c := withMon fun m => { m with ign := true, ct := n }
        c.col = .running ∧ c.mon.ign = true ∧ c.mon.ct = n) :=
  ⟨by decide +kernel, every (by decide +kernel), ⟨by decide +kernel, by decide +kernel, by decide +kernel,
    by decide +kernel, every (by decide +kernel)⟩, by decide +kernel, by decide +kernel, by decide +kernel, by decide +kernel,
    by decide +kernel⟩

/-- Each clause at its boundary: an intake of 63 items and of 64; a first counted drop and a second. -/
theorem hyps_SharedOperations :
    (((sending live (item .keep false)).seg 0).slot ≠ none
      ∧ (live.seg 0).slot = none ∧ (live.seg 0).state = .live ∧ live.mode 0 = some .active
      ∧ (∀ k ∈ [Cls.ka, .pl, .op, .cs, .rq, .cl], (live.seg 0).items k = []) ∧ Msg.keep ≠ .opn)
    ∧ (∀ x ∈ [SessState.opened, .closed, .opening, .closing, .exchanging, .cooling], let c := one (unit17 x)
      c.unit 0 = some (unit17 x) ∧ (unit17 x).clearAwaits = false ∧ (c.seg 0).hasPending 0x17 Msg.isOpen = false
      ∧ (c.seg 0).hasGranted 0x17 Msg.isOpen = false)
    ∧ (((one (unit17 .closed)).modSeg 0 fun r => { r with op := [item .opn false] }).seg 0).hasPending 0x17 Msg.isOpen = true
    ∧ ((sending (one (unit17 .closed)) (item .opn false)).seg 0).hasGranted 0x17 Msg.isOpen = true
    ∧ (clearing.session.state = .exchanging ∧ clearing.clearAwaits = true)
    ∧ (let c := fun n => { live with hist := { live.hist with intake := .replicate n (.cleared 1 0 0x17) } };
      let w := { c 63 with hist := { (c 63).hist with handWait := [(.cleared 1 0 0x17, some 0)] } }
      (c 63).hist.intake.length < 64 ∧ (c 63).hist.handWait = [] ∧ 64 ≤ (c 64).hist.intake.length
      ∧ w.hist.handWait ≠ [] ∧ w.hist.handWait = (.cleared 1 0 0x17, some 0) :: [] ∧ w.hist.intake.length < 64)
    ∧ (∀ x ∈ [SessState.opened, .closing], ∀ n ∈ [0, 1, 2],
      let p := { plan .list with drops := n }
      let r := { unit17 x with queue := [p] }
      let c := one r
      c.unit 0 = some r ∧ r.session.state.holdsSlot = true ∧ r.queue = p :: [] ∧ p.running = true ∧ p.ended = none
      ∧ p.work = some .list ∧ p.heldEnd = none ∧ (c.ctx p.ctx).withdrawn = false ∧ c.itemsLeft p.serial = false)
    ∧ (unit17 .closed).session.state.holdsSlot = false ∧ (unit17 .opened).queue = [] := by decide +kernel

theorem hyps_ClosingAndCooling : ((1 : Nat) ≠ 0 ∧ (unit17 .opened).session.clearMark = false
      ∧ ({ (unit17 .opened).session with clearMark := true }).clearMark = true)
    ∧ (let r := { unit17 .cooling with session := { (unit17 .cooling).session with coolTimer := some 1 } };
        (one r).unit 0 = some r ∧ r.session.state = .cooling ∧ r.session.coolTimer ≠ none)
    ∧ ((one (unit17 .closed)).unit 0 = some (unit17 .closed) ∧ (unit17 .closed).session.state ≠ .cooling)
    ∧ (let r := busyUnit .closing .close 1 .awaitBye;
      (one r).Hears 0 0x17 0 r ∧ r.exch = some (exch .close 1 .awaitBye) ∧ r.queue = []
      ∧ (exch .close 1 .awaitBye).kind = .close ∧ (exch .close 1 .awaitBye).timer ≠ none
      ∧ (exch .close 1 .awaitBye).phase = .awaitBye) :=
  ⟨by decide, by decide +kernel, by decide +kernel, hears _ (by decide +kernel) (by decide +kernel), by decide⟩

theorem hyps_ArbiterGrantsTheEligible :
    ((sending live (item .keep false)).seg 0).slot ≠ none
    ∧ (((one overdueUnit).modSeg 0 fun r => { r with state := .held }).seg 0).state ≠ .live
    ∧ (let c := (one overdueUnit).modSeg 0 fun r => { r with ka := [item .keep false] };
        (c.seg 0).slot = none ∧ (c.seg 0).state = .live ∧ c.mode 0 = some .active
        ∧ (c.seg 0).ka = [] ++ item .keep false :: [] ∧ c.overdue 0 (item .keep false) = true)
    ∧ (let c := (one (unit17 .closed)).modSeg 0 fun r => { r with op := [item .opn false], window := [3, 2, 1] };
        (∀ j ∈ (c.seg 0).ka, c.overdue 0 j = false) ∧ (c.seg 0).slot = none
        ∧ (∃ k, ∃ j ∈ (c.seg 0).items k, c.eligible 0 j = true)
        ∧ ((c.grant 0).seg 0).slot = some {
          item := item .opn false, frame := frameOf (item .opn false), stale := false, fate := .again }
        ∧ c.findUnit 0 (item .opn false).addr = some 0 ∧ c.unit 0 = some (unit17 .closed)
        ∧ (item .opn false).msg = .opn ∧ (c.seg 0).window.length = 3)
    ∧ (item .close false).msg ≠ .opn :=
  ⟨by decide +kernel, by decide +kernel, by decide +kernel, ⟨by decide +kernel, by decide +kernel,
    ⟨.op, item .opn false, by decide +kernel, by decide +kernel⟩, by decide +kernel⟩, by decide⟩

theorem hyps_KeepTimerExpires :
    let r := fun n => { unit17 .exchanging with session := { (unit17 .exchanging).session with keepDebt := n, keepTimer := some 1 } }
    (∀ n ∈ [0, 1, 2, 3], (one (r n)).unit 0 = some (r n) ∧ (r n).session.keepTimer ≠ none
        ∧ (r n).session.state = .exchanging ∧ ((one (r n)).seg (r n).seg).state ≠ .held ∧ (r n).session.keepDebt = n
        ∧ (r n).queue = [])
    ∧ (unit17 .opened).session.keepTimer = none := by decide +kernel

theorem hyps_OpenTimerExpires :
    let r := fun n a => { unit17 .opening with
      session := { (unit17 .opening).session with openAttempts := n }
      exch := some { exch .opn n .awaitAccept with answered := a } }
    (∀ n ∈ [2, 3], ∀ a ∈ [false, true], (one (r n a)).unit 0 = some (r n a) ∧ (r n a).queue = []
        ∧ (r n a).exch = some { exch .opn n .awaitAccept with answered := a } ∧ (one (r n a)).col ≠ .stopped)
    ∧ (exch .opn 2 .awaitAccept).timer ≠ none ∧ (exch .opn 2 .awaitAccept).kind = .opn
    ∧ 2 < 1 + (unit17 .opening).desc.retries ∧ 1 + (unit17 .opening).desc.retries ≤ 3
    ∧ (exch (.request listReq) 1 .awaitAnswer).kind ≠ .opn := by decide +kernel

/-- Attempts left and none, with each of the two marks set and not. -/
theorem hyps_RequestAttemptEnds :
    let r := fun n a h d => { unit17 .exchanging with
      session := { (unit17 .exchanging).session with heldClose := h, graceDrop := d }
      exch := some { exch (.request listReq) n .awaitAnswer with answered := a } }
    (∀ n ∈ [2, 3], ∀ a ∈ [false, true], ∀ h ∈ [false, true], ∀ d ∈ [false, true],
        (one (r n a h d)).unit 0 = some (r n a h d) ∧ (r n a h d).queue = []
        ∧ (r n a h d).exch = some { exch (.request listReq) n .awaitAnswer with answered := a }
        ∧ (one (r n a h d)).col ≠ .stopped ∧ (r n a h d).session.heldClose = h ∧ (r n a h d).session.graceDrop = d)
    ∧ (exch (.request listReq) 2 .awaitAnswer).kind = .request listReq
      ∧ (exch (.request listReq) 2 .awaitAnswer).timer ≠ none
    ∧ 2 < 1 + (unit17 .exchanging).desc.retries ∧ 1 + (unit17 .exchanging).desc.retries ≤ 3
    ∧ (∀ start group base, listReq.kind ≠ .draw start group base)
    ∧ ({ kind := .draw 0 8 9, plan := 1 } : Req).kind = .draw 0 8 9
    ∧ ({ exch (.request listReq) 1 .repeatHeld with timer := none, rest := some 1 }).rest ≠ none :=
  ⟨by decide +kernel, by decide, by decide, by decide, by decide, (fun _ _ _ h => by cases h), rfl, by decide⟩

/-- In the third clause a record of the plan waits for its merge; in the last the plan has ended. -/
theorem hyps_HoldEnds :
    let p := plan (.hold 10000 (some 1))
    let c := planned (unit17 .opened) (.hold 10000) (.hold 10000 (some 1))
    let waits := fun c : Chip => { c with hist := { c.hist with intake := [.merge 1 0 0x17 (recordOf recordBytes)] } }
    (c.unit 0 = some { unit17 .opened with queue := [p] } ∧ p.work = some (.hold 10000 (some 1)) ∧ p.ended = none
      ∧ (c.ctx 0).steps.length ≤ p.cursor ∧ c.itemsLeft p.serial = false)
    ∧ ((waits c).unit 0 = some { unit17 .opened with queue := [p] } ∧ (waits c).itemsLeft p.serial = true)
    ∧ (∀ full n, (plan .list).work ≠ some (.hold full (some n)))
    ∧ (let r := { unit17 .opened with queue := [{ p with ended := some (.complete, 1) }] };
      (one r).unit 0 = some r ∧ (one r).findUnit 0 0x17 = some 0 ∧ (one r).itemsLeft 1 = false
      ∧ (waits (one r)).findUnit 0 0x17 = some 0 ∧ (waits (one r)).itemsLeft 1 = true) :=
  ⟨by decide +kernel, by decide +kernel, (fun _ _ h => by cases h), by decide +kernel⟩

/-- Each of the ways a plan begins; a step whose condition holds and does not; each kind of step at the boundary of what
it asks for; each end of a step at the last step and before it. -/
theorem hyps_PlansGoStepByStep :
    (∀ b ∈ [false, true], let p := { plan .list with running := b }
      let r := { unit17 .closed with queue := [p] }
      (one r).unit 0 = some r ∧ r.queue = p :: [] ∧ (one r).mode 0 = some .active ∧ (one r).itemsLeft 1 = false)
    ∧ (((live.ctx 0).source = .sweep ∧ ((ordered (.census 1)).ctx 3).source ≠ .sweep ∧ (unit17 .closed).presence ≠ .silent
      ∧ { unit17 .closed with presence := .silent }.presence = .silent ∧ listening.mode 0 = some .listen)
      ∧ ({ live with
          settings := live.settings.map fun (s : Settings) => { s with segs := s.segs.set 0 { SegSettings.default with mode := .off } }
        }).mode 0 = some .off
      ∧ ({ live with hist := { live.hist with intake := [.merge 1 0 0x17 (recordOf recordBytes)] } }).itemsLeft 1 = true)
    ∧ (∀ x ∈ [PairState.unpaired, .followerRuns, .followerAnnulled], ∀ f ∈ [(0 : Byte), 0x80],
      ∀ y ∈ [Cond.always, .ifSet 7, .ifClear 7],
      let st : Step := { kind := .list, cond := y, pairing := .alone }
      let p := fresh x f
      let c := stepping (unit17 .closed) p st
      c.unit 0 = some { unit17 .closed with queue := [p] } ∧ p.running = true ∧ p.ended = none ∧ p.work = none
      ∧ (c.ctx p.ctx).steps[p.cursor - 1]? = some st ∧ p.pair = x ∧ p.flags = f)
    ∧ ((0x80 : Byte).getLsbD 7 = true ∧ (0 : Byte).getLsbD 7 = false ∧ (∀ f, Cond.always ≠ .ifSet f)
      ∧ ∀ f, Cond.always ≠ .ifClear f)
    ∧ (let r := { unit17 .closed with queue := [fresh .unpaired 0] };
      (∀ x ∈ [(StepKind.list, none), (.hold 5, none), (.close, some StepEnd.done), (.draw 0, some .skipped)],
        ((one r).startWork 0 r (fresh .unpaired 0) { kind := x.1, cond := .always, pairing := .alone }).2 = x.2)
      ∧ r.desc.noSnapshot = false ∧ r.desc.clearPermitted = false
      ∧ { r.desc with clearPermitted := true, noSnapshot := true }.clearPermitted = true ∧ r.session.state = .closed
      ∧ (unit17 .opening).session.state ≠ .closed ∧ (unit17 .opening).session.state ≠ .cooling
      ∧ (live.seg 0).hasGranted 0x17 Msg.isClose = false
      ∧ ((sending live (item .close false)).seg 0).hasGranted 0x17 Msg.isClose = true
      ∧ ∀ n ∈ [none, some 0, some 1], { plan .list with listed := n }.listed = n)
    ∧ (one { unit17 .closed with queue := [fresh .unpaired 0] }).candidates 0 0x17 false = []
    ∧ (∃ k ks, merged.candidates 0 0x17 false = k :: ks)
    ∧ (let p := fresh .unpaired 0;
      (∀ n ∈ [0, 1], (∃ v : Nat, some n = some v ∧ (Relation.ge = .eq ∧ v = 1 ∨ Relation.ge = .ne ∧ v ≠ 1
        ∨ Relation.ge = .lt ∧ v < 1 ∨ Relation.ge = .ge ∧ 1 ≤ v)) ↔ n = 1) ∧ p.listed = none)
    ∧ (∀ x ∈ [Pairing.alone, .strict, .eager], ∀ n ∈ [1, 2], ∀ b ∈ [false, true],
      let st : Step := { kind := .list, cond := .always, pairing := x }
      let r := { unit17 .closed with queue := [plan .list] }
      let c := { one r with ctxs := live.ctxs.set 0 { ctxOf (.harvest 1 false false (.replicate n st)) with withdrawn := b } }
      c.unit 0 = some r ∧ (c.ctx 0).steps[(plan .list).cursor - 1]? = some st ∧ st.pairing = x ∧ (c.ctx 0).withdrawn = b
      ∧ (c.ctx 0).steps.length = n ∧ (plan .list).cursor = 1) := by
  refine ⟨by decide +kernel, by decide +kernel, by decide +kernel, ⟨by decide, by decide, (fun _ h => by cases h), fun _ h => by cases h⟩,
    by decide +kernel, no_candidate _, a_candidate, ⟨?_, by decide⟩, by decide +kernel⟩
  intro n hn
  constructor
  · rintro ⟨v, h, h2⟩
    simp at h hn h2
    omega
  · rintro rfl
    exact ⟨1, rfl, .inr (.inr (.inr ⟨rfl, Nat.le_refl 1⟩))⟩

/-- Each end of a request, on a plan in each kind of step, with nothing of the plan in the intake and with a record there;
the middle group of a DRAW and its last; a candidate that still holds its slot and one that does not; the last attempt of
each kind of exchange. -/
theorem hyps_RequestEndsReachThePlan :
    let cand : Candidate := { slot := 511, code := 0x010203, kind := 4 }
    let r := fun (w : Work) => { busyUnit .exchanging (.request listReq) 3 .awaitAnswer with queue := [plan w] }
    (∀ w ∈ [Work.list, .clear, .close, .hold 5 (some 1), .draw 9 8 0 0, .draw 8 8 0 0, .snap [cand], .snap [cand, cand]],
      (one (r w)).unit 0 = some (r w) ∧ (r w).queue = plan w :: [] ∧ (plan w).running = true ∧ (plan w).ended = none
      ∧ (plan w).work = some w ∧ (plan w).serial = 1 ∧ (one (r w)).itemsLeft 1 = false
      ∧ (r w).exch = some (exch (.request listReq) 3 .awaitAnswer) ∧ (plan w).serial = listReq.plan
      ∧ (r w).session.heldClose = false ∧ (r w).session.graceDrop = false ∧ (one (r w)).col ≠ .stopped)
    ∧ ((plan .list).serial ≠ 2 ∧ { plan .list with ended := some (.complete, 1) }.ended ≠ none)
    ∧ ({ live with hist := { live.hist with intake := [.merge 1 0 0x17 (recordOf recordBytes)] } }).itemsLeft 1 = true
    ∧ (8 * (0 + 1) < 9 ∧ 8 ≤ 8 * (0 + 1) ∧ 1 ≤ 8)
    ∧ (((tabled entry).slot 511).entry = some entry
      ∧ entry.key = { seg := 0, addr := 0x17, code := cand.code, kind := cand.kind } ∧ (live.slot 511).entry = none
      ∧ [cand, cand] = [cand] ++ cand :: [])
    ∧ (∀ x ∈ [SessState.opened, .closed, .closing, .cooling, .opening, .exchanging],
      (one (unit17 x)).unit 0 = some (unit17 x) ∧ (unit17 x).session.state = x
      ∧ ((one (unit17 x)).seg 0).hasGranted 0x17 Msg.isClose = false)
    ∧ ((sending (one (unit17 .opened)) (item .close false)).seg 0).hasGranted 0x17 Msg.isClose = true
    ∧ (let q := fun (w : Work) (p : Option Req) => { unit17 .opening with queue := [plan w], session := { (unit17 .opening).session with posted := p } };
      (q .list (some listReq)).session.posted ≠ none ∧ (q (.hold 5 none) none).session.posted = none
      ∧ (plan (.hold 5 none)).work = some (.hold 5 none) ∧ (q .close none).session.posted = none
      ∧ (one (q .close none)).unit 0 = some (q .close none))
    ∧ (∀ k ∈ [ExKind.opn, .close, .request listReq], let x := exch k 3 .awaitAnswer
      x.timer ≠ none ∧ x.kind = k ∧ 1 + Descriptor.default.retries ≤ x.attempt)
    ∧ (∀ x ∈ [exch .opn 3 .awaitAccept, exch .close 1 .awaitBye, exch (.request listReq) 3 .awaitAnswer
        , exch (.request { kind := .clear, plan := 1 }) 1 .awaitAnswer
        , exch (.request { kind := .snap 511 0x010203 4, plan := 1 }) 1 .awaitAnswer],
      let q := { unit17 .exchanging with exch := some x, queue := [plan .list] }
      (one q).findUnit 0 0x17 = some 0 ∧ (one q).unit 0 = some q ∧ q.exch = some x)
    ∧ (let q := r .list; (one q).Hears 0 0x17 0 q)
    ∧ ((1 : BitVec 4) ≠ 3 ∧ (0 : BitVec 4) ≠ 1 ∧ (0 : BitVec 4) ≠ 3 ∧ (4 : BitVec 4) ≠ 3
      ∧ listReq = { kind := .list, plan := (plan .list).serial }) :=
  ⟨by decide +kernel, by decide, by decide +kernel, by decide, by decide +kernel, by decide +kernel, by decide +kernel,
    by decide +kernel, by decide, by decide +kernel, hears _ (by decide +kernel) (by decide +kernel), by decide⟩

/-- The end of a request of the running plan, of another plan, and of a unit without plans, with each of the two marks set
and not; with both, the drop leaves the session without a slot, and without them it keeps one. -/
theorem hyps_RequestEndsOfAnyPlan :
    let r := fun (h g : Bool) (qs : List Plan) => { clearing with
      session := { clearing.session with heldClose := h, graceDrop := g }, queue := qs }
    (∀ h ∈ [false, true], ∀ g ∈ [false, true], ∀ qs ∈ [[], [plan .list], [{ plan .list with serial := 2 }]],
      (one (r h g qs)).unit 0 = some (r h g qs) ∧ (r h g qs).exch = some (exch (.request { kind := .clear, plan := 1 }) 1 .awaitAnswer)
      ∧ (r h g qs).session.heldClose = h ∧ (r h g qs).session.graceDrop = g ∧ (r h g qs).queue = qs)
    ∧ ((plan .list).serial = 1 ∧ { plan .list with serial := 2 }.serial ≠ 1 ∧ ReqEnd.complete ≠ .unanswered ∧ live.col ≠ .stopped)
    ∧ (let d := fun (g : Bool) => one { r false g [{ plan .list with serial := 2 }] with
        exch := none, session := { clearing.session with state := .opened, graceDrop := false } };
      ((d false).sessState 0).holdsSlot = true ∧ (((d true).drop 0 false).sessState 0).holdsSlot = false) := by decide +kernel

/-- A step in flight that looks at its session again: a request that was posted, a HOLD whose session is there and is not,
and a step that asks for none. -/
theorem hyps_StepResumes :
    let r := fun (q : Option Req) (w : Work) (x : SessState) => { unit17 x with
      session := { (unit17 x).session with posted := q }, queue := plan w :: [] }
    (∀ x ∈ [SessState.opened, .closed], ∀ q ∈ [none, some listReq], ∀ w ∈ [Work.hold 5 none, .hold 5 (some 1), .list],
      (one (r q w x)).unit 0 = some (r q w x) ∧ (r q w x).queue = plan w :: [] ∧ (r q w x).session.posted = q
      ∧ (plan w).work = some w)
    ∧ ((one (r none (.hold 5 none) .opened)).seg 0).hasGranted 0x17 Msg.isClose = false
    ∧ (unit17 .closed).session.state ≠ .opened
    ∧ ((sending (one (r none (.hold 5 none) .opened)) (item .close false)).seg 0).hasGranted 0x17 Msg.isClose = true
    ∧ (∀ full, (plan (.hold 5 (some 1))).work ≠ some (.hold full none)) ∧ ∀ full, (plan .list).work ≠ some (.hold full none) :=
  ⟨by decide +kernel, by decide +kernel, by decide, by decide +kernel, (fun _ h => by cases h), fun _ h => by cases h⟩

/-- An OPEN that ends UNANSWERED and otherwise: without a plan, for a plan whose request is posted, for a HOLD, and beside a
plan that waits for nothing of it. -/
theorem hyps_OpenEndsReachThePlan :
    let r := fun (q : Option Req) (qs : List Plan) => { busyUnit .opening .opn 3 .awaitAccept with
      session := { (unit17 .opening).session with posted := q, openAttempts := 3 }, queue := qs }
    (∀ q ∈ [none, some listReq], ∀ qs ∈ [[], [plan .list], [plan (.hold 5 none)]],
      (one (r q qs)).unit 0 = some (r q qs) ∧ (r q qs).queue = qs ∧ (r q qs).session.posted = q)
    ∧ (some listReq ≠ none ∧ (plan (.hold 5 none)).work = some (.hold 5 none) ∧ live.col ≠ .stopped
      ∧ ReqEnd.openRefused .busy ≠ .openUnanswered)
    ∧ ∀ full, (plan .list).work ≠ some (.hold full none) := ⟨by decide +kernel, by decide, fun _ h => by cases h⟩

/-- The end that waited for the plan's items, with an item left and with none; no end that waits; the ninth WAIT of a last
attempt. -/
theorem hyps_HeldEndIsDelivered :
    (∀ e ∈ [none, some (ReqEnd.refused .denied)], let p := { plan .list with heldEnd := e }
      let r := { busyUnit .exchanging (.request listReq) 1 .awaitAnswer with queue := p :: [] }
      (one r).unit 0 = some r ∧ r.queue = p :: [] ∧ (one r).findUnit r.seg r.addr = some 0 ∧ (one r).itemsLeft p.serial = false
      ∧ p.ended = none ∧ p.heldEnd = e ∧ 2 ≠ p.serial
      ∧ ({ one r with hist := { live.hist with intake := [.merge 1 0 0x17 (recordOf recordBytes)] } }).itemsLeft p.serial = true)
    ∧ ∀ p ∈ [Phase.awaitAnswer, .awaitPull, .receiving], let x := { exch (.request listReq) 3 p with waits := 8 }
      x.kind = .request listReq ∧ x.phase = p ∧ 8 ≤ x.waits ∧ 1 + Descriptor.default.retries ≤ x.attempt := by decide +kernel

theorem hyps_SegmentTimersExpire :
    let recovering := fun c : Chip => c.modSeg 0 fun r => { r with state := .recovering, recovery := some 1 }
    (live.seg 0).recovery = none
    ∧ (((recovering live).seg 0).recovery ≠ none ∧ (recovering live).col ≠ .parked
      ∧ (recovering live).mon.dip = .normal)
    ∧ ((recovering (withMon fun m => { m with dip := .falling })).mon.dip = .falling)
    ∧ ((recovering (withMon fun m => { m with dip := .dipped })).mon.dip = .dipped)
    ∧ ((recovering (withMon fun m => { m with dip := .settling })).mon.dip = .settling)
    ∧ (recovering (inState .parked)).col = .parked
    ∧ (∀ u r, (recovering (inState .parked)).unit u = some r → r.exch = none)
    ∧ ((live.modSeg 0 fun r => { r with window := [100] }).seg 0).window = 100 :: [] ∧ (live.seg 0).window = []
    ∧ (live.seg 0).errTimer = none ∧ ((live.modSeg 0 fun r => { r with errTimer := some 1 }).seg 0).errTimer ≠ none :=
  ⟨by decide +kernel, by decide +kernel, by decide +kernel, by decide +kernel, by decide +kernel, by decide +kernel,
    every (by decide +kernel), by decide +kernel⟩

/-- An empty slot holds no frame of any kind, and a slot with a KEEP none of another kind; a first OPEN, a repeat to a session
that is OPENING still, and one to a session CLOSED after REFUSE BUSY. -/
theorem hyps_OpenGoesOut :
    ((∀ t, (live.seg 0).slot = some t → t.item.msg ≠ .opn)
      ∧ (∀ t, ((sending live (item .keep false)).seg 0).slot = some t → t.item.msg ≠ .opn)
      ∧ (∀ t q, ((sending live (item .keep false)).seg 0).slot = some t → t.item.msg ≠ .request q)
      ∧ (∀ t k, ((sending live (item .keep false)).seg 0).slot = some t → t.item.msg ≠ .pull k)
      ∧ (∀ t, ((sending live (item .keep false)).seg 0).slot = some t → t.item.msg ≠ .close)
      ∧ (∀ t, ((sending live (item .opn false)).seg 0).slot = some t → t.item.msg ≠ .keep)
      ∧ (∀ t, ((sending live (item .keep false)).seg 0).slot = some t → t.item.msg ≠ .roll))
    ∧ (let c := sending (one (unit17 .closed)) (item .opn false);
      (c.seg 0).slot = some (slotOf .opn false) ∧ (slotOf .opn false).item.msg = .opn
        ∧ (slotOf .opn false).stale = false
      ∧ c.findUnit 0 (slotOf .opn false).item.addr = some 0 ∧ c.unit 0 = some (unit17 .closed)
      ∧ (unit17 .closed).session.state = .closed ∧ (unit17 .closed).exch = none)
    ∧ (∀ x ∈ [SessState.opening, .closed], let r := busyUnit x .opn 1 .repeatHeld
      let c := sending (one r) (item .opn true)
      (c.seg 0).slot = some (slotOf .opn true) ∧ c.findUnit 0 0x17 = some 0 ∧ c.unit 0 = some r ∧ r.session.state = x
      ∧ r.exch = some (exch .opn 1 .repeatHeld))
    ∧ (let c := live.modSeg 0 fun x => { x with slot := some { slotOf .opn false with stale := true } };
      (c.seg 0).slot = some { slotOf .opn false with stale := true }) := by
  have h : ((sending live (item .keep false)).seg 0).slot
    = some { item := item .keep false, frame := frameOf (item .keep false), stale := false, fate := .again } := by decide +kernel
  have ho : ((sending live (item .opn false)).seg 0).slot
    = some { item := item .opn false, frame := frameOf (item .opn false), stale := false, fate := .again } := by decide +kernel
  refine ⟨⟨absent (by decide +kernel) _, present h (by decide), fun t q => ?_, fun t k => ?_, present h (by decide),
    present ho (by decide), present h (by decide)⟩, by decide +kernel, by decide +kernel, by decide +kernel⟩
  · exact present (P := fun t => t.item.msg ≠ .request q) h (fun e => by cases e) t
  · exact present (P := fun t => t.item.msg ≠ .pull k) h (fun e => by cases e) t

theorem hyps_RequestGoesOut :
    (let c := sending (one (unit17 .opened)) (item (.request listReq) false);
      (c.seg 0).slot = some (slotOf (.request listReq) false) ∧ c.findUnit 0 0x17 = some 0
        ∧ c.unit 0 = some (unit17 .opened)
      ∧ listReq.kind ≠ .clear ∧ (c.seg 0).hasPending 0x17 Msg.isClose = false
      ∧ (unit17 .opened).session.state = .opened ∧ (unit17 .opened).exch = none)
    ∧ (let r := busyUnit .exchanging (.request listReq) 1 .repeatHeld;
      let c := sending (one r) (item (.request listReq) true)
      (c.seg 0).slot = some (slotOf (.request listReq) true) ∧ c.findUnit 0 0x17 = some 0 ∧ c.unit 0 = some r
      ∧ r.session.state = .exchanging ∧ r.exch = some (exch (.request listReq) 1 .repeatHeld)
      ∧ (exch (.request listReq) 1 .repeatHeld).phase = .repeatHeld) := by decide +kernel

theorem hyps_ClosePullAndKeepGoOut :
    (let c := sending (one (unit17 .opened)) (item .close false);
      (c.seg 0).slot = some (slotOf .close false) ∧ c.findUnit 0 0x17 = some 0 ∧ c.unit 0 = some (unit17 .opened)
      ∧ (unit17 .opened).session.state = .opened ∧ (unit17 .opened).exch = none)
    ∧ (let r := busyUnit .exchanging (.request listReq) 1 .awaitPull;
      let c := sending (one r) (item (.pull 8) false)
      (c.seg 0).slot = some (slotOf (.pull 8) false) ∧ c.findUnit 0 0x17 = some 0 ∧ c.unit 0 = some r
      ∧ r.session.state = .exchanging ∧ r.exch = some (exch (.request listReq) 1 .awaitPull))
    ∧ (∀ x ∈ [SessState.opened, .exchanging, .closed], let c := sending (one (unit17 x)) (item .keep false)
      (c.seg 0).slot = some (slotOf .keep false) ∧ c.findUnit 0 0x17 = some 0 ∧ c.unit 0 = some (unit17 x)) := by
  decide +kernel

theorem hyps_RollStartsAndCensusEnds :
    (let n := { census with window := none };
      let c := live.modSeg 1 fun r => { r with
        census := some n
        slot := some (slotOf .roll false) }
      (c.seg 1).slot = some (slotOf .roll false) ∧ (slotOf .roll false).item.msg = .roll
        ∧ (slotOf .roll false).stale = false
      ∧ (c.seg 1).census = some n ∧ n.rollStamp = (slotOf .roll false).item.stamp)
    ∧ (let c := { counting with ctxs := counting.ctxs.set 0 { Ctx.cleared with
          state := .running, source := .card 15, content := .census 1 } };
      (c.seg 1).census = some census ∧ census.window ≠ none ∧ (c.ctx census.ctx).source = .card 15)
    ∧ ∀ n, (live.seg 1).census = some n → n.window = none :=
  ⟨by decide +kernel, by decide +kernel, absent (by decide +kernel) _⟩

/-- The frame in the slot under each of the three fates, on a segment in each state, next to bus-off; a segment that is DOWN
with its count next to the end of its range; a segment that is not ACTIVE. -/
theorem hyps_TransmissionFailsAndIsGivenBack :
    (∀ f ∈ [SlotFate.again, .back, .gone], ∀ x ∈ [SegState.live, .held, .quiet, .recovering, .down], ∀ m ∈ [Msg.opn, .keep],
      let c := (sending (one (busyUnit .closed .opn 1 .repeatHeld)) (item m false)).modSeg 0 fun r =>
        { r with txErrors := 247, state := x, slot := some { slotOf m false with fate := f } }
      (c.seg 0).slot = some { slotOf m false with fate := f } ∧ c.mode 0 = some .active ∧ (c.seg 0).txErrors + 8 ≤ 255
      ∧ (c.seg 0).state = x ∧ { slotOf m false with fate := f }.fate = f
      ∧ c.findUnit 0 { slotOf m false with fate := f }.item.addr = some 0 ∧ (c.unit 0).isSome = true
      ∧ { slotOf m false with fate := f }.item.msg = m ∧ { slotOf m false with fate := f }.stale = false)
    ∧ (min 255 (247 + 8) = 255 ∧ min 255 (248 + 8) = 255)
    ∧ (((sending listening (item .keep false)).seg 0).slot = some (slotOf .keep false)
      ∧ (sending listening (item .keep false)).mode 0 ≠ some .active)
    ∧ (slotOf .keep false).item.msg ≠ .opn ∧ (live.seg 0).slot = none
    ∧ (let r := { SegRec.reset with
          op := [{ item .opn false with addr := 0x18, stamp := 1 }], slot := some (slotOf .opn false), nextStamp := 2 };
      r.slot = some (slotOf .opn false) ∧ (slotOf .opn false).stale = false ∧ r.occupied (slotOf .opn false).item = false
      ∧ (r.items (slotOf .opn false).item.msg.cls).Pairwise (fun i j => i.stamp ≤ j.stamp))
    ∧ ({ slotOf .opn false with stale := true }).stale = true
    ∧ ({ SegRec.reset with op := [item .opn true] }).occupied (slotOf .opn false).item = true := by decide +kernel

theorem hyps_BusOffAndTheThirdInARow :
    (let c := (sending (one (unit17 .closed)) (item .opn false)).modSeg 0 fun r => { r with txErrors := 248, unanswered := 1 };
      (c.seg 0).slot = some (slotOf .opn false) ∧ 255 < (c.seg 0).txErrors + 8 ∧ c.mode 0 = some .active
      ∧ (c.seg 0).state ≠ .down ∧ c.col ≠ .stopped
      ∧ (∀ u r, c.unit u = some r → r.seg = 0 → r.session.state.holdsSlot = false) ∧ (c.seg 0).unanswered < 2)
    ∧ (let c := (sending (one (unit17 .closed)) (item .opn false)).modSeg 0 fun r => { r with txErrors := 248, unanswered := 2 };
      (c.seg 0).slot = some (slotOf .opn false) ∧ 255 < (c.seg 0).txErrors + 8 ∧ c.mode 0 = some .active
      ∧ (c.seg 0).state ≠ .down ∧ c.col ≠ .stopped
      ∧ (∀ u r, c.unit u = some r → r.seg = 0 → r.session.state.holdsSlot = false) ∧ 2 ≤ (c.seg 0).unanswered
      ∧ (c.seg 0).op = [] ∧ c.findUnit 0 0x17 = some 0 ∧ c.unit 0 = some (unit17 .closed)
      ∧ (unit17 .closed).exch = none ∧ (unit17 .closed).queue = []) :=
  ⟨⟨by decide +kernel, by decide +kernel, by decide +kernel, by decide +kernel, by decide +kernel, every (by decide +kernel),
    by decide +kernel⟩, by decide +kernel, by decide +kernel, by decide +kernel, by decide +kernel, by decide +kernel,
    every (by decide +kernel), by decide +kernel⟩

/-- A unit whose session holds a slot, the unanswered bus-off count next to its limit; the OPENs, and a ROLL, that pend at
the limit; an OPEN with an attempt answered and with none, without a plan, for a plan that waits for it and beside one that
does not. -/
theorem hyps_BusOffDropsAndEndsOpens :
    (∀ n ∈ [1, 2], let r := { unit17 .opened with queue := [] }
      let c := (sending (one r) (item .keep false)).modSeg 0 fun x => { x with txErrors := 248, unanswered := n }
      (c.seg 0).slot = some (slotOf .keep false) ∧ 255 < (c.seg 0).txErrors + 8 ∧ c.mode 0 = some .active
      ∧ (c.seg 0).state ≠ .down ∧ c.col ≠ .stopped ∧ r.session.state.holdsSlot = true ∧ r.seg = 0
      ∧ ((c.seg 0).unanswered < 2 ∨ 2 ≤ (c.seg 0).unanswered))
    ∧ (∀ u q, (one (unit17 .opened)).unit u = some q → q.seg = 0 → q.queue = [])
    ∧ (let i := item .opn false
      let c := live.modSeg 1 fun x => { x with op := [i, { i with addr := 0x18 }] };
      ∀ j ∈ (c.seg 1).op, j.msg = .opn)
    ∧ (let i := { item .roll false with addr := 0xFF };
      let c := live.modSeg 1 fun x => { x with op := [i], census := some { census with window := none } }
      (c.seg 1).op = [i] ∧ i.msg = .roll ∧ (c.seg 1).census = some { census with window := none }
      ∧ { census with window := none }.rollStamp = i.stamp)
    ∧ (∀ a ∈ [none, some false, some true], ∀ q ∈ [none, some listReq], ∀ qs ∈ [[], [plan .list], [plan (.hold 5 none)]],
      let r := { unit17 .closed with
        exch := a.map fun b => { exch .opn 1 .repeatHeld with answered := b }, queue := qs
        session := { (unit17 .closed).session with posted := q } }
      (one r).findUnit 0 (item .opn true).addr = some 0 ∧ (one r).unit 0 = some r ∧ live.col ≠ .stopped ∧ r.queue = qs
      ∧ r.session.posted = q ∧ (r.exch.any (fun x => x.answered) = true ↔ a = some true))
    ∧ (plan (.hold 5 none)).work = some (.hold 5 none) ∧ ∀ full, (plan .list).work ≠ some (.hold full none) := by
  refine ⟨by decide +kernel, every (by decide +kernel), by decide +kernel, by decide +kernel, by decide +kernel, rfl,
    fun _ h => by cases h⟩

/-- `rxId` is the identifier of a roster unit's frame, and with the address 0x18 that of no unit's. -/
theorem hyps_FramesThatAnswerNothing :
    (State.reset.chip.receives 0 = false
      ∧ (live.receives 0 = true ∧ live.mode 0 = some .active ∧ live.rxBlocked 0 = false ∧ (live.seg 0).rxWait = [])
      ∧ filterPasses live.sets.collector { dataForm with extended := false } rxId = false
      ∧ filterPasses live.sets.collector { dataForm with remote := true } rxId = false
      ∧ (filterPasses live.sets.collector dataForm 0x13A8C7A0 = true ∧ live.findUnit 0 (idAddr 0x13A8C7A0) = none)
      ∧ (one (unit17 .closed)).findUnit 0 (idAddr rxId) ≠ none
      ∧ (listening.receives 0 = true ∧ listening.mode 0 = some .listen ∧ listening.rxBlocked 0 = false
        ∧ (listening.seg 0).rxWait = [] ∧ listening.findUnit 0 0x17 = some 0
        ∧ listening.unit 0 = some (unit17 .closed) ∧ listening.findUnit 0 (idAddr 0x13A8C7A0) = none
        ∧ filterPasses listening.sets.collector dataForm 0x13A8C7A0 = true))
    ∧ ((blocked live).receives 0 = true ∧ (blocked live).mode 0 = some .active ∧ (blocked live).rxBlocked 0 = true)
    ∧ (let c := (one (unit17 .opened)).modSeg 0 fun r => { r with rxWait := [{ addr := 0x17, msg := .unknown }] };
      (c.seg 0).rxWait = { addr := 0x17, msg := .unknown } :: [] ∧ c.findUnit 0 0x17 = some 0
      ∧ c.unit 0 = some (unit17 .opened) ∧ c.mode 0 ≠ some .listen ∧ live.findUnit 0 0x17 = none)
    ∧ ((one (unit17 .opened)).Hears 0 0x17 0 (unit17 .opened) ∧ (unit17 .opened).exch = none
      ∧ (unit17 .opened).ignore = 0 ∧ ((one (unit17 .opened)).seg 0).census = none
      ∧ ((counting.modSeg 1 fun r => { r with census := some { census with window := none } }).seg 1).census
        = some { census with window := none })
    ∧ (let r := { unit17 .opened with ignore := 1 };
      (one r).Hears 0 0x17 0 r ∧ r.exch = none ∧ 0 < r.ignore)
    ∧ (∀ x ∈ [exch .opn 1 .repeatHeld, exch .close 1 .repeatHeld, exch (.request listReq) 1 .repeatHeld], x.phase = .repeatHeld)
    ∧ (Instr.bye 0 0x17).Answers 0 0x17 ∧ (exch .opn 1 .awaitAccept).kind = .opn
    ∧ (exch (.request { kind := .draw 0 4 4, plan := 1 }) 1 .awaitPull).phase ≠ .awaitAnswer
    ∧ (exch (.request listReq) 1 .awaitAnswer).phase = .awaitAnswer ∧ listReq.kind = .list ∧ listReq.kind ≠ .clear :=
  ⟨by decide +kernel, by decide +kernel, by decide +kernel,
    ⟨hears _ (by decide +kernel) (by decide +kernel), by decide, by decide, by decide +kernel, by decide +kernel⟩,
    ⟨hears _ (by decide +kernel) (by decide +kernel), by decide, by decide⟩, by decide,
    .inr (.inr (.inr (.inr (.inr (.inr (.inr rfl)))))), by decide⟩

/-- A posted request, none, a close asked while OPENING, a HOLD that waits for the session, and STOPPING. -/
theorem hyps_AcceptOpens :
    let r := fun q => { busyUnit .opening .opn 1 .awaitAccept with session := { (unit17 .opening).session with posted := q } }
    let asked := { r none with session := { (r none).session with closeAtAccept := true } }
    let holds := { r none with queue := [plan (.hold 5 none)] }
    (∀ x ∈ [r (some listReq), r none, asked, holds], x.exch = some (exch .opn 1 .awaitAccept)
      ∧ (one x).findUnit 0 0x17 = some 0 ∧ (one x).unit 0 = some x ∧ ((one x).seg 0).hasPending 0x17 Msg.isClose = false
      ∧ ((one x).seg 0).hasGranted 0x17 Msg.isClose = false ∧ (one x).col ≠ .stopping)
    ∧ (one (r none)).Hears 0 0x17 0 (r none)
    ∧ ({ one (r none) with col := .stopping }).Hears 0 0x17 0 (r none)
    ∧ (r (some listReq)).session.posted = some listReq
    ∧ ((r none).session.posted = none ∧ (r none).session.closeAtAccept = false ∧ (r none).queue = [])
    ∧ (asked.session.posted = none ∧ asked.session.closeAtAccept = true)
    ∧ (holds.session.posted = none ∧ holds.session.closeAtAccept = false ∧ holds.queue = plan (.hold 5 none) :: []
      ∧ (plan (.hold 5 none)).work = some (.hold 5 none)) :=
  ⟨by decide +kernel, hears _ (by decide +kernel) (by decide +kernel),
    ⟨by decide +kernel, by decide +kernel, by decide +kernel, by decide +kernel, by decide +kernel, by decide +kernel⟩, by decide⟩

/-- Attempts left and none, a rest time and none, and the eighth WAIT and the ninth, in each phase of an attempt, of a LIST,
a DRAW and a SNAP. -/
theorem hyps_RefusedOrToldToWait :
    (∀ n ∈ [2, 3], let r := { busyUnit .opening .opn n .awaitAccept with
        session := { (unit17 .opening).session with openAttempts := n } }
      r.exch = some (exch .opn n .awaitAccept) ∧ r.queue = [] ∧ (one r).findUnit 0 0x17 = some 0 ∧ (one r).unit 0 = some r
      ∧ (r.session.openAttempts < 1 + r.desc.retries ∨ 1 + r.desc.retries ≤ r.session.openAttempts ∧ n = 3))
    ∧ (let snap : Req := { kind := .snap 511 0x010203 4, plan := 1 };
      let draw : Req := { kind := .draw 0 8 9, plan := 1 }
      ∀ q ∈ [listReq, snap, draw], ∀ p ∈ [Phase.awaitAnswer, .awaitPull, .receiving], ∀ n ∈ [2, 3], ∀ t ∈ [0, 1],
      ∀ w ∈ [7, 8],
      let r := { busyUnit .exchanging (.request q) n p with
        exch := some { exch (.request q) n p with waits := w }, desc := { Descriptor.default with restTime := t } }
      (one r).findUnit 0 0x17 = some 0 ∧ (one r).unit 0 = some r ∧ r.queue = [] ∧ r.desc.restTime = t
      ∧ r.session.heldClose = false ∧ r.session.graceDrop = false
      ∧ r.exch = some { exch (.request q) n p with waits := w }
      ∧ ({ exch (.request q) n p with waits := w }.attempt < 1 + r.desc.retries ∨ 1 + r.desc.retries ≤ n ∧ n = 3))
    ∧ (one (busyUnit .exchanging (.request listReq) 2 .awaitAnswer)).Hears 0 0x17 0
        (busyUnit .exchanging (.request listReq) 2 .awaitAnswer)
    ∧ (∀ start group base, listReq.kind ≠ .draw start group base)
    ∧ (∀ slot code kind, listReq.kind ≠ .snap slot code kind)
    ∧ ((2 : BitVec 4) ≠ 1 ∧ (2 : BitVec 4) ≠ 3 ∧ (3 : BitVec 4) ≠ 1 ∧ 7 < 8 ∧ 8 ≤ 8) :=
  ⟨by decide +kernel, by decide +kernel, hears _ (by decide +kernel) (by decide +kernel), (fun _ _ _ h => by cases h),
    (fun _ _ _ h => by cases h), by decide⟩

theorem hyps_ListedAnswersAList :
    let r := { busyUnit .exchanging (.request listReq) 1 .awaitAnswer with queue := [plan .list] }
    let c := planned r .list .list
    c.Hears 0 0x17 0 r ∧ r.exch = some (exch (.request listReq) 1 .awaitAnswer)
    ∧ listReq = { kind := .list, plan := (plan .list).serial }
    ∧ r.queue = plan .list :: [] ∧ (plan .list).running = true ∧ (plan .list).ended = none
      ∧ (plan .list).work = some .list
    ∧ c.itemsLeft (plan .list).serial = false ∧ (c.ctx (plan .list).ctx).steps.length ≤ (plan .list).cursor
    ∧ r.session.heldClose = false ∧ r.session.graceDrop = false :=
  ⟨⟨by decide +kernel, by decide +kernel, by decide +kernel, by decide +kernel, by decide +kernel, by decide +kernel⟩,
    rfl, rfl, rfl, rfl, rfl, rfl, by decide +kernel, by decide +kernel, rfl, rfl⟩

/-- A HEAD; a PART that is not the last, the last of the credit, and the last of a snapshot and of a DRAW; a PART of a DRAW that
completes a record and one that does not; what breaks an attempt, with attempts left and with none. -/
theorem hyps_SegmentedAnswer :
    let snapReq : Req := { kind := .snap 0 1 1, plan := 1 }
    let drawReq : Req := { kind := .draw 9 8 16, plan := 1 }
    let r := fun (q : Req) (n : Nat) (p : Phase) => busyUnit .exchanging (.request q) n p
    (∀ q ∈ [snapReq, drawReq], ∀ n ∈ [2, 3], ∀ p ∈ [Phase.awaitAnswer, .awaitPull, .receiving],
      (one (r q n p)).unit 0 = some (r q n p) ∧ (one (r q n p)).findUnit 0 0x17 = some 0 ∧ (r q n p).queue = []
      ∧ (r q n p).session.heldClose = false ∧ (r q n p).session.graceDrop = false)
    ∧ (one (r snapReq 1 .awaitAnswer)).Hears 0 0x17 0 (r snapReq 1 .awaitAnswer)
    ∧ ((96 : BitVec 16).toNat = 12 * 8 ∧ (95 : BitVec 16).toNat ≠ 12 * 8 ∧ (1 : BitVec 16).toNat ≠ 0
      ∧ (0 : BitVec 16).toNat = 0)
    ∧ (∀ k ∈ [1, 2], let x := { exch (.request snapReq) 1 .receiving with
          announced := 49, needed := 7, taken := 5, credit := k, nextSeq := 15 }
      x.phase = .receiving ∧ x.nextSeq = (15 : BitVec 4).toNat ∧ x.nextSeq ≠ (0 : BitVec 4).toNat
      ∧ x.taken + 1 ≠ x.needed ∧ (x.credit = 1 ∨ 2 ≤ x.credit) ∧ { x with taken := 6 }.taken + 1 = x.needed)
    ∧ (∀ k ∈ [1, 2], let x := fun n => { exch (.request drawReq) 1 .receiving with
          announced := 96, needed := 14, taken := n / 7, credit := k, nextSeq := n / 7 + 1, bytes := .replicate n 9 }
      (x 0).taken + 1 ≠ (x 0).needed ∧ ((x 0).credit = 1 ∨ 2 ≤ (x 0).credit) ∧ (x 7).nextSeq = (2 : BitVec 4).toNat
      ∧ 0 = (x 0).bytes.length / 12 ∧ (x 0).bytes.length + 7 < 12 * (0 + 1) ∧ 12 * (0 + 1) ≤ (x 7).bytes.length + 7 ∧ 0 < 8
      ∧ (x 7).taken + 1 ≠ (x 7).needed
      ∧ slotEcho (((x 7).bytes ++ (Vector.replicate 7 (9 : Byte)).toList).drop 0 |>.take 12) = wrapSlot 9 8 0
      ∧ slotEcho (((x 7).bytes ++ (Vector.replicate 7 (8 : Byte)).toList).drop 0 |>.take 12) ≠ wrapSlot 9 8 0
      ∧ 7 = (x 91).bytes.length / 12 ∧ 12 * (7 + 1) ≤ (x 91).bytes.length + 7 ∧ 7 < 8 ∧ (x 91).taken + 1 = (x 91).needed
      ∧ slotEcho (((x 91).bytes ++ (Vector.replicate 7 (8 : Byte)).toList).drop (12 * 7) |>.take 12) = wrapSlot 9 8 7)
    ∧ 2 < 1 + Descriptor.default.retries ∧ 1 + Descriptor.default.retries ≤ 3 :=
  ⟨by decide +kernel, hears _ (by decide +kernel) (by decide +kernel), by decide, by decide, by decide, by decide⟩

/-- The draw base next to the record's slot; a record of the running plan, and of one that runs no more. -/
theorem hyps_DrawRecords :
    let r := { busyUnit .exchanging (.request { kind := .draw 0 4 1, plan := 1 }) 1 .receiving with queue := [plan (.draw 1 4 0 0)] }
    ((4 = 4 ∨ 4 = 8) ∧ (8 = 4 ∨ 8 = 8))
    ∧ ((one r).unit 0 = some r ∧ r.queue = plan (.draw 1 4 0 0) :: [] ∧ (plan (.draw 1 4 0 0)).serial = 1)
    ∧ (1 ≤ 1 ∧ 0 < 1 ∧ recordMalformed recordBytes = false
      ∧ recordMalformed [1, 2, 3, 16, 0x32, 5, 0, 0, 10, 0, 12, 0] = true ∧ recordBytes.length = 12)
    ∧ (∀ p ∈ r.queue.head?, p.serial ≠ 2) := by decide +kernel

/-- A CLEAR whose close was held back and was not, whose session a grace end left and did not; a close that already pends or
is on the wire leaves no second one to post. -/
theorem hyps_ClearDoneAnswersAClear :
    let r := fun h g => { clearing with session := { clearing.session with heldClose := h, graceDrop := g } }
    (∀ h ∈ [false, true], ∀ g ∈ [false, true], (one (r h g)).findUnit 0 0x17 = some 0 ∧ (one (r h g)).unit 0 = some (r h g)
      ∧ (r h g).queue = [] ∧ (r h g).exch = some (exch (.request { kind := .clear, plan := 1 }) 1 .awaitAnswer)
      ∧ (exch (.request { kind := .clear, plan := 1 }) 1 .awaitAnswer).phase = .awaitAnswer
      ∧ (r h g).session.heldClose = h ∧ (r h g).session.graceDrop = g)
    ∧ (one (r true true)).Hears 0 0x17 0 (r true true)
    ∧ ((one (r true false)).seg 0).hasPending 0x17 Msg.isClose = false
    ∧ ((one (r true false)).seg 0).hasGranted 0x17 Msg.isClose = false :=
  ⟨by decide +kernel, hears _ (by decide +kernel) (by decide +kernel), by decide +kernel, by decide +kernel⟩

/-- A roster unit on segment 0; the new addresses 0x01 and 0xEE, answered already or not; the addresses 0 and 0xEF; a roster
without a free index. -/
theorem hyps_HereInTheRollWindow :
    let c := (one (unit17 .closed)).modSeg 0 fun r => { r with census := some census }
    (c.seg 0).census = some census ∧ census.window ≠ none ∧ census.answered.contains 0x17 = false
    ∧ { census with answered := [0x17, 0x01] }.answered.contains 0x17 = true
    ∧ { census with answered := [0x17, 0x01] }.answered.contains 0x01 = true
    ∧ c.Hears 0 0x17 0 (unit17 .closed)
    ∧ (c.receives 0 = true ∧ c.mode 0 = some .active ∧ c.rxBlocked 0 = false ∧ (c.seg 0).rxWait = []
      ∧ (∀ a ∈ [(0x01 : Byte), 0xEE], c.findUnit 0 a = none ∧ 1 ≤ a.toNat ∧ a.toNat ≤ 0xEE
        ∧ census.answered.contains a = false)
      ∧ (c.findUnit 0 0 = none ∧ c.findUnit 0 0xEF = none ∧ 0xEE < (0xEF : Byte).toNat)
      ∧ (c.unitsOf 0).length < 24 ∧ c.freeIndex = some 1)
    ∧ (let full := { live with roster := .replicate 64 (some { unit17 .closed with seg := 1 }) };
      full.findUnit 0 0x01 = none ∧ full.freeIndex = none ∧ 24 ≤ (full.unitsOf 1).length) :=
  ⟨by decide +kernel, by decide, by decide, by decide, by decide,
    ⟨by decide +kernel, by decide +kernel, by decide +kernel, by decide +kernel, by decide +kernel, by decide +kernel⟩,
    by decide +kernel, by decide +kernel⟩

/-- A segment without a census and one whose ROLL is still pending; an address of no roster unit at each end of the range, and
next to it. -/
theorem hyps_HereOutsideTheRollWindow :
    let early := live.modSeg 0 fun r => { r with census := some { census with window := none } }
    (∀ c ∈ [live, early], c.receives 0 = true ∧ c.mode 0 = some .active ∧ c.rxBlocked 0 = false ∧ (c.seg 0).rxWait = []
      ∧ ∀ a ∈ [(0 : Byte), 1, 0xEE, 0xEF], c.findUnit 0 a = none)
    ∧ (live.seg 0).census = none ∧ (early.seg 0).census = some { census with window := none }
    ∧ { census with window := none }.window = none ∧ 0xEE < (0xEF : Byte).toNat ∧ (0xEE : Byte).toNat ≤ 0xEE
    ∧ 1 ≤ (1 : Byte).toNat := by decide +kernel

/-- An access in the middle of a request, a write and a read; the published change sequence written by a rewrite of the
header, by write 4 with no rewrite before it and with one, and at the end of STARTING; a last read. -/
theorem hyps_AccessCompletes : live.port.bus = none
    ∧ (writing.port.bus = some { addr := 0x100, data := some 5 }
      ∧ writing.port.serving = some { owner := .scan, accs := .write 0x100 (.lit 5) :: .read 0x104 :: [], got := [] }
      ∧ ∀ off, Acc.write 0x100 (.lit 5) ≠ .write off (.header 3))
    ∧ (reading.port.bus = some { addr := 0x100, data := none }
      ∧ reading.port.serving = some { owner := .scan, accs := .read 0x100 :: .read 0x104 :: [], got := [] })
    ∧ (∀ x, (publishing x).port.bus = some { addr := 0x0C, data := some 5 } ∧ (publishing x).col ≠ .stopped
      ∧ (publishing x).port.serving = some {
          owner := .header, accs := .write 0x0C (.header 3) :: .write 0x10 (.header 4) :: [], got := [] }
      ∧ (publishing x).hist.run = some (Run.start x))
    ∧ (RunPhase.published 1 = .published 1 ∧ 1 ≤ 1 ∧ 2 ≤ 2 ∧ RunPhase.stored ≠ .published 2)
    ∧ (let c := { publishing .stored with
          hist := live.hist
          start := some { stage := .publish, mode := .warm, fellBack := false, stored := 0, report := .zero } };
      c.hist.run = none ∧ ∃ st, c.start = some st ∧ st.stage = .publish)
    ∧ (on (ends live .scan [7])).EndsRequest [] .scan [7]
    ∧ State.EndsRequest { on { reading with port := { reading.port with
          serving := some { owner := .scan, accs := [.read 0x100], got := [1] } } } with mem := [(0x103, 2)] }
        [] .scan [1, 0x02000000] :=
  ⟨by decide +kernel, ⟨by decide +kernel, by decide +kernel, fun _ h => by cases h⟩, by decide +kernel,
    fun _ => ⟨rfl, (fun h => by cases h), rfl, rfl⟩, by decide, ⟨rfl, _, rfl, rfl⟩, ends_request _ _ _,
    ⟨_, _, _, rfl, rfl, rfl, rfl, (fun _ h => by cases h), by decide +kernel⟩⟩

theorem hyps_AccessErrorHalts : live.port.bus = none
    ∧ (writing.port.bus = some { addr := 0x100, data := some 5 } ∧ writing.col ≠ .stopped)
    ∧ (let c := { writing with col := .stopped };
      c.port.bus = some { addr := 0x100, data := some 5 } ∧ c.col = .stopped ∧ ∀ g, (c.seg g).rxWait = []) := by
  decide +kernel

theorem hyps_RecordRewrites :
    (State.reset.chip.mirror 63).busy = false ∧ (live.mirror 63).busy = true ∧ (live.mirror 63).pending = false
    ∧ ((live.modMirror 63 fun m => { m with pending := true }).mirror 63).pending = true
    ∧ live.hdr.busy = true ∧ State.reset.chip.hdr.busy = false
    ∧ (live.start = none ∧ live.col = .running ∧ live.hist.run = none ∧ (live.seg 3).state = .live)
    ∧ (starting live (stage (.header .parked 1)) []).start = some (stage (.header .parked 1))
    ∧ (publishing (.published 1)).hist.run = some (Run.start (.published 1))
    ∧ (live.mode 3 = some .active ∧ listening.mode 0 = some .listen) := by decide +kernel

/-- A LIST step, then a DRAW of the whole table: words as 11.3 lays them out; and a card for each error but BAD-KIND, each step
passing every test before the one it fails. -/
theorem hyps_CardStepsAreSound : (∃ steps, checkSteps [] [(1, 0), (2, 0)] = .ok steps ∧ steps.length = 2)
    ∧ checkSteps [] [(1, 0), (0, 0)] = .error (.badKind, 2)
    ∧ (let flags := fun x : Step => (∀ f, x.cond = .ifSet f ∨ x.cond = .ifClear f → f ≤ 7)
        ∧ ∀ f q r n, x.kind = .test f q r n → 4 ≤ f ∧ f ≤ 7
      let group := fun x : Step => ∀ m, x.kind = .draw m → m = 0 ∨ m = 4 ∨ m = 8
      let order := fun (before : List Step) (x : Step) =>
        (∃ m, x.kind = .draw m) ∨ x.kind = .snap → ∃ y ∈ before, y.kind = .list
      let nest := fun (before : List Step) (x : Step) =>
        ∀ y, before.getLast? = some y → y.pairing ≠ .alone → x.cond = .always ∧ x.pairing = .alone
      let step := fun (k : StepKind) (p : Pairing) => ({ kind := k, cond := .always, pairing := p } : Step)
      ¬ flags (step (.test 3 .listedCount .eq 0) .alone)
      ∧ (flags (step (.draw 5) .alone) ∧ ¬ group (step (.draw 5) .alone))
      ∧ (flags (step (.draw 8) .alone) ∧ group (step (.draw 8) .alone) ∧ ¬ order [] (step (.draw 8) .alone))
      ∧ (flags (step .list .strict) ∧ group (step .list .strict) ∧ order [step .list .eager] (step .list .strict)
        ∧ ¬ nest [step .list .eager] (step .list .strict))
      ∧ (order [] (step .list .strict) ∧ nest [] (step .list .strict) ∧ (step .list .strict).pairing ≠ .alone)
      ∧ (flags (step .list .alone) ∧ group (step .list .alone) ∧ order [] (step .list .alone) ∧ nest [] (step .list .alone))) := by
  refine ⟨⟨_, rfl, rfl⟩, rfl, fun h => absurd (h.2 3 _ _ _ rfl).1 (by decide), ⟨?_, fun h => ?_⟩, ⟨?_, ?_, ?_⟩,
    ⟨?_, ?_, ?_, fun h => ?_⟩, ⟨?_, ?_, by decide⟩, ?_, ?_, ?_, ?_⟩
  case refine_2 => exact absurd (h 5 rfl) (by decide)
  case refine_9 => exact absurd (h _ rfl (by decide)).2 (by decide)
  all_goals simp

theorem hyps_CardsAreScanned :
    (State.reset.chip.col ≠ .running ∧ State.reset.chip.col ≠ .parked ∧ live.col = .running
      ∧ (15 : Fin 16).val = (14 : Fin 16).val + 1 ∧ live.scan.again = false
      ∧ ({ live.scan with again := true }).again = true)
    ∧ (∀ c x w, (on (scanning c x w)).EndsRequest [] .scan [w] ∧ (scanning c x w).scan.stage = some x
      ∧ wordAt [w] 0 = w ∧ (scanning c x w).portFree.scan.taking = true ∧ (scanning c x w).portFree.col = c.col)
    ∧ (let c := (scanning live (.owner 15) 1).portFree;
      (∀ k, (c.ctx k).state = .free ∨ (c.ctx k).source ≠ .card 15) ∧ c.holderOf 15 = none ∧ (0 : Word) ≠ 5 ∧ (0 : Word) ≠ 1)
    ∧ (scanning (ordered .reload) (.owner 15) 5).portFree.holderOf 15 = some 3
    ∧ ((scanning (ordered .reload) (.kind 15) 1).portFree.reloadTaken = true
      ∧ (let c := (scanning { live with ctxs := .replicate 4 (ctxOf (.purge none)) } (.kind 15) 1).portFree;
        c.reloadTaken = false ∧ c.freeCtx = none)
      ∧ (let c := (scanning live (.kind 15) 1).portFree;
        c.reloadTaken = false ∧ c.freeCtx = some 0 ∧ (∀ k, (c.ctx k).state = .free) ∧ c.col ≠ .parked
        ∧ ∀ g, (c.seg g).census = none ∧ c.mode g = some .active)
      ∧ (scanning (inState .parked) (.kind 15) 1).portFree.col = .parked
      ∧ ((scanning counting (.kind 15) 0x01000002).portFree.seg 1).census ≠ none
      ∧ (let c := (scanning (ordered (.purge none)) (.kind 15) 4).portFree;
        c.reloadTaken = false ∧ c.freeCtx = some 0 ∧ (c.ctx 3).state ≠ .free)
      ∧ (scanning listening (.kind 15) 2).portFree.mode 0 ≠ some .active
      ∧ [(0x000C0001 : Word), 0x000D0001, 3, 5, 4, 0x03000002, 0x04000002, 0, 6].map (fun w => (byteOf w 0, byteOf w 2, byteOf w 3))
        = [(1, 12, 0), (1, 13, 0), (3, 0, 0), (5, 0, 0), (4, 0, 0), (2, 0, 3), (2, 0, 4), (0, 0, 0), (6, 0, 0)])
    ∧ (let c := (scanning (one (unit17 .closed)) (.fields 15 0 0x00010001) 0).portFree;
      (∃ x, c.checkCard 0x00010001 [1, 0, 1, 0] = .ok x ∧ x.kind = .harvest)
      ∧ c.checkCard 0x00000001 [1, 0] = .error (.stepCount, 0) ∧ c.checkCard 0x000D0001 [1, 0] = .error (.stepCount, 0)
      ∧ c.checkCard 0x00010001 [2, 0, 1, 0] = .error (.emptyTarget, 0)
      ∧ (∃ u r, c.unit u = some r ∧ (maskOf 1 0).getLsbD u.val = true)
      ∧ (∃ steps, checkSteps [] (pairs [1, 0]) = .ok steps) ∧ ∃ e, checkSteps [] (pairs [2, 0]) = .error e)
    ∧ (∀ u r, live.unit u = some r → (maskOf 1 0).getLsbD u.val = false)
    ∧ [(0x00EE0300 : Word), 0x00010000, 1, 2, 0x00EE0400, 0x00000000, 0x00EF0000].map (fun w => (byteOf w 0, byteOf w 1, byteOf w 2))
        = [(0, 3, 0xEE), (0, 0, 1), (1, 0, 0), (2, 0, 0), (0, 4, 0xEE), (0, 0, 0), (0, 0, 0xEF)]
    ∧ (scanning live (.failing 15) 0).col ≠ .stopped
    ∧ (live.ctx 3).state ≠ .running
    ∧ (∀ x ∈ [Content.harvest 1 false false [], .reload, .setClock 0 0, .purge none],
      ((ordered x).ctx 3).state = .running ∧ ((ordered x).ctx 3).content = x ∧ ((ordered x).ctx 3).withdrawn = false
      ∧ ((ordered x).ctx 3).source = .card 15 ∧ (ordered x).port.waiting = [] ∧ (ordered x).port.fresh = [])
    ∧ (let c := (ordered (.census 1)).modSeg 1 fun r => { r with census := some { census with ctx := 3 } };
      (c.ctx 3).content = .census 1 ∧ (c.seg 1).census = some { census with ctx := 3 })
    ∧ (∀ x ∈ [{ plan .list with running := false }, plan .list, { plan .list with work := none }
        , { plan (.hold 5 (some 1)) with ended := some (.complete, 1) }, plan (.hold 5 (some 1))],
      let r := { unit17 .opened with queue := [x] }
      let c := { one r with ctxs := live.ctxs.set 0 { ctxOf (.harvest 1 false false [
        { kind := .hold 5, cond := .always, pairing := .alone }]) with withdrawn := true } }
      c.unit 0 = some r ∧ x.ctx = 0 ∧ (x.running = false ∨ x.ended ≠ none ∨ x.work = none ∨ x.work = some .list
        ∨ x.work = some (.hold 5 (some 1))) ∧ c.itemsLeft x.serial = false ∧ (c.ctx 0).withdrawn = true
      ∧ (c.ctx 0).steps.length ≤ x.cursor
      ∧ ∀ st, (c.ctx 0).steps[x.cursor - 1]? = some st → st.pairing = .alone)
    ∧ ∀ full t, Work.list ≠ .hold full t :=
  ⟨by decide +kernel, fun c x w => ⟨ends_request _ _ _, rfl, rfl, rfl, rfl⟩, by decide +kernel, by decide +kernel,
    by decide +kernel, ⟨⟨_, rfl, rfl⟩, rfl, rfl, rfl,
      ⟨0, _, rfl, by decide⟩, ⟨_, rfl⟩, _, rfl⟩,
    fun u => absent ((by decide +kernel : ∀ u, live.unit u = none) u) _, by decide +kernel, by decide +kernel, by decide +kernel,
    by decide +kernel, by decide +kernel, by decide +kernel, fun _ _ h => by cases h⟩

/-- Every kind of order as TAKEN lands in each state; a HARVEST of an occupied index with a plan already and of an empty
one; the last plan of an order and one that is not; the last write of a result; the header rewrites of a SET-CLOCK. -/
theorem hyps_OrdersStartAndEnd :
    (∀ (c : Chip) (x : Content), let s := on (ends { c with scan := { c.scan with stage := some (.taking 15 3 x) } } .scan [])
      s.EndsRequest [] .scan [] ∧ s.chip.scan.stage = some (.taking 15 3 x) ∧ s.chip.col = c.col)
    ∧ (live.col = .running ∧ (inState .parked).col ≠ .running ∧ (inState .parked).col = .parked
      ∧ (inState .stopping).col ≠ .running ∧ (inState .stopping).col ≠ .parked)
    ∧ (allUnits.filter (fun u => (0x8000000000000001 : BitVec 64).getLsbD u.val && (reaping.unit u).isSome) = [0]
      ∧ (reaping.ctx 3).state = .running ∧ (reaping.ctx 3).content.kind = .harvest ∧ (reaping.ctx 3).skippedMask = 0
      ∧ (0x8000000000000001 : BitVec 64).getLsbD 63 = true ∧ reaping.unit 63 = none
      ∧ ∀ u r, reaping.unit u = some r → ∀ p ∈ r.queue.head?, p.running = true)
    ∧ (∀ v ∈ [Verdict.lost, .dropped, .complete, .refused .busy], ∀ n ∈ [1, 2],
      let p := { plan .list with ctx := 3, ended := some (v, 1) }
      let c := { one { unit17 .opened with queue := [p] } with
        ctxs := live.ctxs.set 3 { ctxOf (.harvest 1 true false []) with outstanding := n } }
      c.unit 0 = some { unit17 .opened with queue := [p] } ∧ (c.ctx 3).state = .running
      ∧ (c.ctx 3).content.kind = .harvest ∧ (c.ctx 3).source = .card 15 ∧ (c.ctx 3).keepOpen = true
      ∧ (c.ctx 3).withdrawn = false ∧ (c.ctx 3).outstanding = n
      ∧ (v = .lost ∨ v = .dropped ∨ v = .complete ∨ v = .refused .busy))
    ∧ ((on (ends live (.result 3) [])).EndsRequest [] (.result 3) [] ∧ (ends live (.result 3) []).col ≠ .stopped)
    ∧ (∀ n ∈ [1, 2], let c := { live with
          ctxs := live.ctxs.set 3 { ctxOf (.setClock 0 0) with clockWait := n } }
      c.hist.run = none ∧ c.start = none ∧ (∀ k, k ≠ 3 → (c.ctx k).clockWait = 0) ∧ (c.ctx 3).clockWait = n
      ∧ (c.ctx 3).source = .card 15)
    ∧ ∀ c, (on (ends c .header [])).EndsRequest [] .header [] :=
  ⟨fun _ _ => ⟨ends_request _ _ _, rfl, rfl⟩, by decide +kernel, ⟨by decide +kernel, by decide +kernel, by decide +kernel,
    by decide +kernel, by decide +kernel, by decide +kernel, every (by decide +kernel)⟩, by decide +kernel,
    ⟨ends_request _ _ _, by decide +kernel⟩, by decide +kernel, fun _ => ends_request _ _ _⟩

/-- The end of a plan under each sort of verdict, of an order that keeps sessions open and of one that does not, as its last
plan and before another; the unit's next plan behind it and none. -/
theorem hyps_PlanFinishes :
    (∀ v ∈ [Verdict.lost, .dropped, .complete, .refused .busy, .skippedSilent, .cutWithdrawn, .cutGrace], ∀ keep ∈ [false, true],
      ∀ n ∈ [1, 2], ∀ qs ∈ [[], [{ plan .list with serial := 2, running := false }]],
      let p := { plan .list with ctx := 3, ended := some (v, 1) }
      let r := { unit17 .opened with queue := p :: qs }
      let c := { one r with ctxs := live.ctxs.set 3 { ctxOf (.harvest 1 keep false []) with outstanding := n } }
      c.unit 0 = some r ∧ r.queue = p :: qs ∧ p.ended = some (v, 1) ∧ (c.ctx 3).keepOpen = keep ∧ (c.ctx 3).withdrawn = false
      ∧ (c.ctx 3).state = .running ∧ (c.ctx 3).content.kind = .harvest ∧ (c.ctx 3).outstanding = n)
    ∧ (∀ v ∈ [Verdict.lost, .dropped, .complete, .refused .busy, .skippedSilent, .cutWithdrawn, .cutGrace], ∀ keep ∈ [false, true],
      ((v = .lost ∨ v = .dropped ∨ keep = true ∧ v ≠ .cutWithdrawn ∧ v ≠ .cutGrace ∧ v ≠ .cutStop)
        ∨ v ≠ .lost ∧ v ≠ .dropped ∧ (keep = false ∨ v = .cutWithdrawn ∨ v = .cutGrace ∨ v = .cutStop)))
    ∧ (∃ w, (Chip.askClose (one { unit17 .opened with queue := [plan .list] }) 0).unit 0 = some w)
    ∧ ({ ctxOf .reload with state := .writing }.state ≠ .running ∧ (Content.census 1).kind ≠ .harvest
      ∧ (one (unit17 .opened)).unit 0 = some (unit17 .opened) ∧ (unit17 .opened).queue = []) := by
  refine ⟨by decide +kernel, by decide +kernel,
    ⟨(Chip.askClose (one { unit17 .opened with queue := [plan .list] }) 0).unit 0 |>.getD (unit17 .closed),
    by decide +kernel⟩, by decide +kernel⟩

/-- The address and the segment of a descriptor next to the ends of their ranges, the second of a pair, the 25th of a
segment. -/
theorem hyps_ProfileIsLoaded :
    (profValid profile = true ∧ profValid [] = false)
    ∧ (∀ ld : Load, let c := ends { ordered .reload with load := some { ld with ctx := some 3 } } .loader []
      (on c).EndsRequest [] .loader [] ∧ c.load = some { ld with ctx := some 3 }
      ∧ (c.portFree.ctx 3).source = .card 15)
    ∧ ((((ends (ordered .reload) .loader []).portFree.applyReload (loadProfile [])).ctx 3).source = .card 15)
    ∧ (profHeadValid profile = true ∧ (profile ++ []).length = 24 ∧ ceilDiv (profHalf profile 2) 2 = 24
      ∧ profHeadValid (profile.set 1 49) = true ∧ (profile.set 1 49).length < ceilDiv (profHalf (profile.set 1 49) 2) 2
      ∧ profHeadValid [] = false)
    ∧ (([0xEE03, 0x0104, 0x0003, 0xEF03] : List Word).map fun w => (profByte [w] 0, profByte [w] 1))
      = [(3, 0xEE), (4, 1), (3, 0), (3, 0xEF)]
    ∧ (let d : Desc := { seg := 3, addr := 0xEE, desc := .default };
      (∃ e ∈ [d], e.seg.val = profByte [0xEE03] 0 ∧ e.addr.toNat = profByte [0xEE03] 1)
      ∧ 24 ≤ ((List.replicate 24 d).filter fun e => decide (e.seg.val = profByte [0xED03] 0)).length
      ∧ (∀ e ∈ List.replicate 23 d, e.seg ≠ 3 ∨ e.addr.toNat ≠ profByte [0xED03] 1)
      ∧ ((List.replicate 23 d).filter fun e => decide (e.seg = 3)).length < 24) :=
  ⟨by decide +kernel, fun _ => ⟨ends_request _ _ _, rfl, rfl⟩, by decide +kernel, by decide +kernel, by decide, by decide⟩

/-- A unit with a descriptor, one without, and the 24th and the 25th unit of a segment; each setting changed alone; an OPEN in
the slot of a segment whose bit rate changes. -/
theorem hyps_ReloadTakesEffect :
    (let d := fun a : Byte => ({ seg := 0, addr := a, desc := .default } : Desc);
      let ds := [d 0x17, d 0x18]
      (one (unit17 .closed)).RosterSound ∧ ds.length ≤ 64 ∧ ds.Pairwise (fun d e => d.seg ≠ e.seg ∨ d.addr ≠ e.addr)
      ∧ (∀ g : Seg, (ds.filter fun d => decide (d.seg = g)).length ≤ 24)
      ∧ (one (unit17 .closed)).unit 0 = some (unit17 .closed) ∧ d 0x17 ∈ ds ∧ (d 0x17).seg = (unit17 .closed).seg
      ∧ (d 0x17).addr = (unit17 .closed).addr ∧ (∀ b ∈ [d 0x16], b.seg ≠ 0 ∨ b.addr ≠ 0x17)
      ∧ (∀ e ∈ [d 0x18], e.seg ≠ 0 ∨ e.addr ≠ 0x17) ∧ (unit17 .closed).origin = .profile
      ∧ { unit17 .closed with origin := .census }.origin = .census
      ∧ (∀ n ∈ [22, 23], ([d 0x18].filter fun e => decide (e.seg = 0)).length
          + ((List.replicate n (0 : Seg)).filter fun g => decide (g = 0)).length = n + 1))
    ∧ live.settings = some .default
    ∧ (let with_ := fun x : SegSettings => { Settings.default with segs := Settings.default.segs.set 1 x };
      ∀ x ∈ [{ SegSettings.default with mode := .off }, { SegSettings.default with mode := .listen }
          , { SegSettings.default with bitRate := .k500 }],
        (Settings.default.segs[1].mode ≠ (with_ x).segs[1].mode ∨ Settings.default.segs[1].bitRate ≠ (with_ x).segs[1].bitRate)
        ∧ Settings.default.segs[0] = (with_ x).segs[0] ∧ (one (unit17 .closed)).unitsOf 1 = []
        ∧ Settings.default.segs[1].mode ≠ .off)
    ∧ (∀ x ∈ [{ Settings.default with collector := 0xF5 }, { Settings.default with supply := .v24 }
        , { Settings.default with sweep := { Settings.default.sweep with enable := true } }],
      Settings.default.segs = x.segs
      ∧ (Settings.default.collector ≠ x.collector ∨ Settings.default.supply ≠ x.supply ∨ Settings.default.sweep ≠ x.sweep))
    ∧ (∀ u r, (one (unit17 .opened)).unit u = some r → r.queue = [])
    ∧ (let c := sending (one (busyUnit .closed .opn 1 .repeatHeld)) (item .opn true);
      (∀ v w, c.unit v = some w → w.seg = 0 → w.session.state.holdsSlot = false)
      ∧ (c.seg 0).slot = some (slotOf .opn true) ∧ (slotOf .opn true).item.msg = .opn ∧ (slotOf .opn true).stale = false
      ∧ c.findUnit 0 0x17 = some 0 ∧ c.unit 0 = some (busyUnit .closed .opn 1 .repeatHeld)) :=
  ⟨⟨⟨fun u v _ _ hu hv _ _ => (only hu).1.trans (only hv).1.symm, by decide +kernel, every (by decide +kernel),
      every (by decide +kernel)⟩, by decide, by decide, by decide, by decide +kernel, by decide, by decide, by decide,
      by decide, by decide, by decide, by decide, by decide⟩, rfl, by decide +kernel, by decide +kernel,
    every (by decide +kernel), every (by decide +kernel), by decide +kernel⟩

/-- A segment that turns OFF, to LISTEN, and stays ACTIVE at another bit rate, while a unit's session holds a slot there and
its frame stands in the transmit slot; one that turns from OFF. -/
theorem hyps_ReloadDropsFirst :
    let with_ := fun x : SegSettings => { Settings.default with segs := Settings.default.segs.set 0 x }
    let c := sending (one (unit17 .opened)) (item .keep false)
    (∀ x ∈ [{ SegSettings.default with mode := .off }, { SegSettings.default with mode := .listen }
        , { SegSettings.default with bitRate := .k500 }],
      (Settings.default.segs[0].mode ≠ (with_ x).segs[0].mode ∨ Settings.default.segs[0].bitRate ≠ (with_ x).segs[0].bitRate)
      ∧ Settings.default.segs[0].mode ≠ .off ∧ (with_ x).segs[0].mode = x.mode)
    ∧ (∀ u r, c.unit u = some r → r.seg = 0 → r.queue = []) ∧ (unit17 .opened).session.state.holdsSlot = true
    ∧ (∀ t, (c.seg 0).slot = some t → t.item.msg ≠ .opn ∨ t.stale = true ∨ c.slotHeldBy 0 t.item.addr = true)
    ∧ ((with_ { SegSettings.default with mode := .off }).segs[0].mode = .off
      ∧ (live.modSeg 0 fun r => { r with state := .down }).seg 0 = { live.seg 0 with state := .down }) :=
  ⟨by decide +kernel, every (by decide +kernel), by decide, present (y := slotOf .keep false) (by decide +kernel) (by decide),
    by decide +kernel⟩

/-- Every stage is met by every chip; the words of a region header and of a slot of each sort; an entry to repair; the
claims; the last header rewrite of a start, with the ignition ON and OFF. -/
theorem hyps_StartPaths :
    (∀ c x got, (on (starting c (stage x) got)).EndsRequest [] .starting got
      ∧ (starting c (stage x) got).start = some (stage x) ∧ (stage x).stage = x ∧ (starting c (stage x) got).col ≠ .stopped)
    ∧ ((510 : Nat) + 1 < 512 ∧ (511 : SlotIx).val = (510 : SlotIx).val + 1 ∧ (63 : UnitIx).val = (62 : UnitIx).val + 1)
    ∧ (let w : List Word := [0x48495354, 0x00400001, 512, 9];
      (wordAt w 0).toNat = 0x48495354 ∧ halfOf (wordAt w 1) 0 = 1 ∧ halfOf (wordAt w 2) 0 = 512 ∧ halfOf (wordAt w 1) 1 = 64
      ∧ (wordAt [0x48495355] 0).toNat ≠ 0x48495354)
    ∧ (readSlot [] = .free ∧ readSlot (slotWords 3) = .torn ∧ readSlot (slotWords 4) = .entry entry
      ∧ readSlot [4, 1] = .malformed)
    ∧ ((∀ j f, (live.slot j).entry = some f → f.key ≠ entry.key) ∧ ((tabled entry).slot 511).entry = some entry)
    ∧ (∀ ld st, let c := ends { inState .starting with load := some ld, start := some st } .loader []
      (on c).EndsRequest [] .loader [] ∧ c.load = some ld ∧ c.start = some st)
    ∧ profHeadValid ([] ++ []) = false
    ∧ (let r : SnapRef := { head := 255, second := 0, third := 9, length := 17, ct := none, cycle := 0 };
      1 ≤ r.length ∧ r.length ≤ 48 ∧ r.chain = [255, 0] ∧ r.chain.Nodup ∧ (∀ b ∈ r.chain, live.pool.owner[b] = none)
      ∧ { r with length := 49 }.length > 48 ∧ { r with length := 0 }.length = 0
      ∧ ¬ ({ r with second := 255 }).chain.Nodup ∧ ∃ b ∈ r.chain, (live.pool.attach 511 [255]).owner[b] ≠ none)
    ∧ ∀ ign ∈ [false, true], let c := { inState .starting with
          start := some (stage (.header .running 1)), mon := { live.mon with ign := ign } }
      c.start = some (stage (.header .running 1)) ∧ c.hist.run = none ∧ (∀ k, (c.ctx k).clockWait = 0) ∧ c.scan.again = false
      ∧ c.stopRequest = false ∧ (∀ k, (c.ctx k).state = .free) ∧ c.scan.stage = none ∧ c.mon.ign = ign :=
  ⟨fun _ _ _ => ⟨ends_request _ _ _, rfl, rfl, fun h => by cases h⟩, by decide, by decide, by decide +kernel,
    ⟨(fun j f h => by rw [live_slot j] at h; cases h), by decide +kernel⟩,
    fun _ _ => ⟨ends_request _ _ _, rfl, rfl⟩, by decide +kernel, by decide +kernel, by decide +kernel⟩

theorem hyps_MergeCounts :
    let f := fun n => { recordOf recordBytes with u := n }
    let e := fun b t => { entry with baseline := b, total := t }
    ((f 127).u ≤ 127 ∧ (e 127 65535).total ≤ 65535)
    ∧ ((f 127).u = 127 ∧ (e 127 65535).baseline = 127)
    ∧ ((e 126 65535).baseline ≤ (f 127).u ∧ ¬ ((f 127).u = 127 ∧ (e 126 65535).baseline = 127))
    ∧ (f 0).u < (e 1 65535).baseline := by decide +kernel

/-- The clock unset; the hours beside the record's, below them, and unknown; an age beyond the clock; a record of this cycle
and of the last. -/
theorem hyps_MergeStamps : { harvestCtx with ct := none }.ct = none
    ∧ (harvestCtx.ct = some 1000 ∧ harvestCtx.hours = some 12 ∧ (recordOf recordBytes).hFirst = some 10
      ∧ (recordOf recordBytes).hLast = some 12 ∧ (recordOf recordBytes).c = some 0)
    ∧ ((10 : Nat) = (some 12).elim 10 (min 10) ∧ 10 ≤ 12 ∧ (some 880 : Option Nat) = some (1000 - 60 * (12 - 10))
      ∧ 1000 - 60 * (12 - 12) = 1000 ∧ ¬ 1000 < 60 * (12 - 10) ∧ 119 < 60 * (12 - 10) ∧ 11 < 12)
    ∧ ((9 : Nat) = (some 9).elim 10 (min 10) ∧ (10 : Nat) = (none : Option Nat).elim 10 (min 10))
    ∧ ({ harvestCtx with hours := none }.hours = none ∧ { recordOf recordBytes with hFirst := none, hLast := none }.hFirst = none
      ∧ { recordOf recordBytes with c := some 1 }.c ≠ some 0)
    ∧ (∀ fse ∈ [none, some (880 : Nat)], ∃ fs, (fse = none → fs = entry.firstSeen)
      ∧ ∀ x, fse = some x → fs = some (entry.firstSeen.elim x (min x)))
    ∧ (let e := { entry with firstSeen := none, lastSeen := none, skew := false, early := false };
      e.firstSeen = none ∧ e.lastSeen = none ∧ e.skew = false ∧ e.early = false) := by
  refine ⟨by decide, by decide +kernel, by decide, by decide, by decide +kernel, ?_, by decide⟩
  intro fse _
  cases fse with
  | none => exact ⟨_, (fun _ => rfl), fun _ h => by cases h⟩
  | some y => exact ⟨_, (fun h => by cases h), fun _ h => by cases h; rfl⟩

theorem hyps_LastSeenCycle : (recordOf recordBytes).c = some 0 ∧ entry.lastCycle = some 7
    ∧ (recordOf [1, 2, 3, 4, 0x32, 5, 0xFF, 0, 10, 0, 12, 0]).c = none := by decide +kernel

/-- A record of a key in the table, with the same content and with another; of a new key with a free slot, with none, and with
none that an eviction may take; each item at the head of the intake, with slots to go and with none; a plan end of the plan in
front and of one behind. -/
theorem hyps_MergesAndMarkings :
    let other : Key := { entry.key with code := 5 }
    (((tabled entry).slot 511).entry = some entry
      ∧ (∀ j f, ((tabled entry).slot j).entry = some f → f.key = entry.key → (511 : SlotIx) ≤ j)
      ∧ entry.key = { seg := 0, addr := 0x17, code := (recordOf recordBytes).code, kind := (recordOf recordBytes).kind }
      ∧ mergeEntry harvestCtx (recordOf recordBytes) entry = entry
      ∧ mergeEntry harvestCtx { recordOf recordBytes with u := 6 } entry ≠ entry)
    ∧ ((∀ j f, (live.slot j).entry = some f → f.key ≠ entry.key) ∧ (live.slot 0).entry = none ∧ ∀ j : SlotIx, ¬ j < 0)
    ∧ ((∀ j f, ((full entry).slot j).entry = some f → f.key ≠ other) ∧ (∀ i, ((full entry).slot i).entry ≠ none)
      ∧ (full entry).evictionPool = [] ∧ (full { entry with status := .stored }).evictionPool ≠ [])
    ∧ (∀ x ∈ [WorkItem.merge 1 0 0x17 (recordOf recordBytes), .planEnd 1 0 0x17 true, .planEnd 1 0 0x17 false
        , .cleared 1 0 0x17, .purge 3 none, .capture 1 511 entry.key [1], .noSnap 1 511 entry.key],
      let c := working entry x .stored
      c.hist.intake = x :: [] ∧ c.hist.handWait = [] ∧ (c.slot 511).entry = some entry)
    ∧ ((Run.start .stored).todo = [] ∧ (Run.start .stored).closing = false
      ∧ { Run.start .stored with todo := [511] }.todo = 511 :: [])
    ∧ (let r := { unit17 .opened with queue := [{ plan .list with ended := some (.complete, 1) }] };
      (one r).findUnit 0 0x17 = some 0 ∧ (one r).unit 0 = some r
      ∧ r.queue = { plan .list with ended := some (.complete, 1) } :: [] ∧ (plan .list).serial = 1 ∧ (plan .list).serial ≠ 2
      ∧ (one r).planOf 0 0x17 2 = none) := by
  refine ⟨⟨by decide +kernel, fun j f h _ => (only_slot h).symm ▸ Nat.le_refl _, by decide +kernel, by decide +kernel,
    by decide +kernel⟩, ⟨fun j f h => ?_, by decide +kernel, fun j => Nat.not_lt_zero _⟩,
    ⟨fun j f h => ?_, fun i h => ?_, ?_, ?_⟩, fun x _ => ⟨rfl, rfl, (by decide +kernel : ((tabled entry).slot 511).entry = some entry)⟩, by decide,
    by decide +kernel⟩
  · rw [live_slot j] at h
    cases h
  · rw [full_slot] at h
    cases h
    decide +kernel
  · rw [full_slot] at h
    cases h
  · have h : entry.status.evictable = false := by decide +kernel
    simp [Chip.evictionPool, full_slot, h]
  · refine List.ne_nil_of_mem (a := 0) (List.mem_filter.mpr ⟨List.mem_finRange 0, ?_⟩)
    rw [full_slot]
    rfl

/-- An item at each phase; the archive word equal to the last-change sequence and beside it; a pool with the blocks a
snapshot of 48 bytes needs and with one less. -/
theorem hyps_SnapshotsAndPurges :
    let e := { entry with lastChange := 9 }
    let r : SnapRef := { head := 0, second := 0, third := 0, length := 1, ct := none, cycle := 0 }
    let cap : WorkItem := .capture 1 511 e.key [1, 2]
    (∀ c o, (on (ends c o [9])).EndsRequest [] o [9] ∧ (ends c o [9]).portFree.hist = c.hist)
    ∧ (∀ e' i x, (working e' i x).hist.run = some (Run.start x) ∧ (working e' i x).hist.intake.head? = some i
      ∧ (working e' i x).start = none ∧ (working e' i x).hist.handWait = [])
    ∧ (9 < 4294967295 ∧ 4294967295 = 4294967295 ∧ [(0 : Byte), 1].length + 15 = 17)
    ∧ (((working e cap (.data [0])).slot 511).entry = some e ∧ (working e cap (.data [0])).planOf e.key.seg e.key.addr 1 = none
      ∧ e.snap = none ∧ e.snapDropped = false ∧ e.snapNone = false
      ∧ ((working { e with snap := some r } cap (.data [0])).slot 511).entry.bind Entry.snap = some r
      ∧ ({ e with snapDropped := true, snapNone := true }).snapNone = true)
    ∧ ((tabled e).victim ([511].zip [9]) = some (511, 9) ∧ (tabled e).victim ([511].zip [8]) = none
      ∧ (wordAt [9] 0).toNat = e.lastChange ∧ (wordAt [8] 0).toNat ≠ e.lastChange)
    ∧ ((one (unit17 .closed)).findUnit 0 0x17 = some 0 ∧ (one (unit17 .closed)).unit 0 = some (unit17 .closed)
      ∧ live.col ≠ .stopped)
    ∧ ((Run.start .stored).todo = [] ∧ (Run.start .stored).closing = false ∧ { Run.start .stored with closing := true }.closing = true
      ∧ ({ Run.start (.shortHeader 1) with slot := 511 }).slot = 511)
    ∧ (∀ k, ((working e cap .stored).ctx k).clockWait = 0 ∧ ((working e cap .stored).ctx k).state ≠ .running)
    ∧ (((ordered (.purge none)).ctx 3).state = .running ∧ ((ordered (.purge none)).ctx 3).source = .card 15)
    ∧ ((List.replicate 48 (1 : Byte)).length + 15) / 16 = 3
    ∧ (3 ≤ ({ Pool.reset with free := [0, 1, 2] }).free.length ∧ ({ Pool.reset with free := [0, 1] }).free.length < 3)
    ∧ (∀ x, ((tabled e).slot 511).entry = some x → x.key ≠ { e.key with kind := 5 }) :=
  ⟨fun _ _ => ⟨ends_request _ _ _, rfl⟩, fun _ _ _ => ⟨rfl, rfl, rfl, rfl⟩, by decide +kernel, by decide +kernel,
    by decide +kernel, by decide +kernel, by decide +kernel, by decide +kernel, by decide +kernel, by decide +kernel,
    by decide +kernel,
    present (y := { entry with lastChange := 9 }) (by decide +kernel) (by decide +kernel)⟩

/-- A purge that meets an entry with a snapshot of two blocks; a block of a chain that is owned and one that is FREE. -/
theorem hyps_PurgeGivesTheChainBack :
    let old : SnapRef := { head := 3, second := 255, third := 0, length := 17, ct := none, cycle := 0 }
    let e := { entry with lastChange := 9, snap := some old }
    let c := working e (.purge 3 none) (.purgeRead 511)
    c.hist.run = some (Run.start (.purgeRead 511)) ∧ c.hist.intake.head? = some (.purge 3 none) ∧ (c.slot 511).entry = some e
    ∧ (wordAt [9] 0).toNat = e.lastChange ∧ e.snap = some old ∧ old.chain = [3, 255]
    ∧ Pool.reset.owner[(3 : Fin 256)] = none ∧ (Pool.reset.attach 511 [3, 255]).owner[(255 : Fin 256)] ≠ none := by
  decide +kernel

theorem hyps_SlotsAndBlocksAreTaken :
    (let e := { entry with status := .stored, lastChange := 9 };
      let c := { live with hist := { live.hist with
        slots := live.hist.slots.set 511 { SlotRec.free with entry := some e } } }
      c.victim [(511, 9)] = some (511, 9) ∧ c.victim [(511, 8)] = none ∧ (c.slot 511).entry = some e
      ∧ ([(511, 9)] : List (SlotIx × Word)).Pairwise fun x y => x.1 < y.1)
    ∧ ([(0 : Fin 256), 255].Nodup ∧ Pool.reset.free.Nodup ∧ ∀ b ∈ [(0 : Fin 256), 255], b ∈ Pool.reset.free) :=
  ⟨by decide +kernel, by decide, pool_sound.1, by decide +kernel⟩

theorem hyps_EntryRoundTrip :
    let e := { entry with
      restarts := 255, baseline := 255, total := 65535, lastChange := 4294967295, clearedAt := some 4294967295
      key := { entry.key with addr := 0xEE, code := 0xFFFFFE, kind := 15 }
      snap := some { head := 255, second := 0, third := 0, length := 255, ct := none, cycle := 16777215 } }
    (0xFFFFFFFE : Word).toNat % 2 = 0 ∧ 1 ≤ e.key.addr.toNat ∧ e.key.addr.toNat ≤ 0xEE ∧ e.key.code ≠ 0
    ∧ e.key.code ≠ 0xFFFFFF ∧ e.key.kind.toNat ≤ 15 ∧ e.lastChange < 4294967296 ∧ e.createdSeq < 4294967296
    ∧ e.total < 65536 ∧ e.baseline < 256 ∧ e.restarts < 256 ∧ (∀ n, e.firstSeen = some n → n < 4294967296)
    ∧ (∀ n, e.lastSeen = some n → n < 4294967296) ∧ (∀ n, e.lastCycle = some n → n < 16777216)
    ∧ e.createdCycle < 16777216 ∧ (∀ n, e.clearedAt = some n → n < 4294967296)
    ∧ (∀ r, e.snap = some r → 1 ≤ r.length ∧ r.length < 256 ∧ r.cycle < 16777216
      ∧ ∀ n, r.ct = some n → n < 4294967296)
    ∧ (e.snap ≠ none → e.bareCt = false) :=
  ⟨by decide, by decide, by decide, by decide, by decide, by decide, by decide, by decide +kernel, by decide, by decide,
    by decide, present (y := 880) (by decide +kernel) (by decide), present (y := 1000) (by decide +kernel) (by decide),
    present (y := 7) (by decide +kernel) (by decide), by decide +kernel, present rfl (by decide),
    present rfl ⟨by decide, by decide, by decide, fun _ h => by cases h⟩, fun _ => rfl⟩

end Sys2Proof.Tests
end

