-- ==== Sys2Proof/Proofs/MergeArithmetic.lean ====
section
/-!
SUPPORT. The rules of the merge's arithmetic: the occurrence count by the rows of R131, the last-seen cycle (R134), and the
frame of the steps that give a merged entry its stamps. O54 and O56 are settled from them.
-/

namespace Sys2Proof.Machine

/-! ## The occurrence count (R131) -/

/-- R131, first row: 127 on 127. -/
theorem occurrence_of_floor {b u : Nat} (hu : u = 127) (hb : b = 127) : occurrence b u = (0, true, false) :=
  if_pos ⟨hu, hb⟩

/-- R131, second row: the unit's counter has gone on. -/
theorem occurrence_of_le {b u : Nat} (hle : b ≤ u) (hrow : ¬ (u = 127 ∧ b = 127)) :
    occurrence b u = (u - b, false, false) :=
  (if_neg hrow).trans (if_pos hle)

/-- R131, third row: the unit's counter has been restarted. -/
theorem occurrence_of_lt {b u : Nat} (hlt : u < b) : occurrence b u = (u, false, true) := by
  have hrow : ¬ (u = 127 ∧ b = 127) := fun ⟨hu, hb⟩ => by omega
  exact (if_neg hrow).trans (if_neg (Nat.not_le.mpr hlt))

@[simp] theorem countStep_baseline (u : Nat) (e : Entry) : (countStep u e).baseline = u := rfl

theorem countStep_total (u : Nat) (e : Entry) :
    (countStep u e).total = min 65535 (e.total + (occurrence e.baseline u).1) :=
  ((Nat.min_comm ..).trans Nat.min_def).symm

theorem countStep_saturated (u : Nat) (e : Entry) :
    (countStep u e).saturated = (e.saturated || decide (65535 < e.total + (occurrence e.baseline u).1)) := rfl

theorem countStep_floor (u : Nat) (e : Entry) :
    (countStep u e).floor = (e.floor || (occurrence e.baseline u).2.1) := rfl

theorem countStep_restarts (u : Nat) (e : Entry) :
    (countStep u e).restarts = if (occurrence e.baseline u).2.2 then satInc 15 e.restarts else e.restarts := rfl

theorem countStep_total_le (u : Nat) (e : Entry) : (countStep u e).total ≤ 65535 :=
  countStep_total u e ▸ Nat.min_le_left ..

/-- A total within its range never falls. -/
theorem le_countStep_total (u : Nat) {e : Entry} (he : e.total ≤ 65535) : e.total ≤ (countStep u e).total :=
  countStep_total u e ▸ Nat.le_min.mpr ⟨he, Nat.le_add_right ..⟩

/-! ## The last-seen cycle (R134) -/

theorem optMax_none_right (a : Option Nat) : optMax a none = a := by cases a <;> rfl

/-- The cycle of a record aged `c`, or 0, is the difference that stops at 0. -/
theorem sub_or_zero_eq_sub (k c : Nat) : (if c ≤ k then k - c else 0) = k - c := by
  split <;> omega

/-- R134 as one update, for a known and for an unknown age. -/
theorem cycleStep_eq (k : Nat) (c : Option Nat) (e : Entry) :
    cycleStep k c e = { e with lastCycle := optMax e.lastCycle (c.map (k - ·)) } := by
  cases c with
  | none => rw [Option.map_none, optMax_none_right, cycleStep]
  | some c => simp only [cycleStep, sub_or_zero_eq_sub, Option.map_some]

theorem optMax_some_right (a : Option Nat) (n : Nat) : optMax a (some n) = a.elim (some n) fun old => some (max old n) := by
  cases a with
  | none => rfl
  | some old => exact congrArg some Nat.max_def.symm

/-- A known value stays known under `optMax`, and does not fall. -/
theorem optMax_some_left_le (n : Nat) (b : Option Nat) : ∃ m, optMax (some n) b = some m ∧ n ≤ m := by
  cases b with
  | none => exact ⟨n, rfl, Nat.le_refl n⟩
  | some b => exact ⟨max n b, optMax_some_right (some n) b, Nat.le_max_left ..⟩

/-! ## What the stamps of R132 to R135 leave alone -/

theorem firstSeenStep_frame (h : HarvestCtx) (r : FaultRec) (e : Entry) :
    ∃ first skew early, firstSeenStep h r e = { e with firstSeen := first, skew := skew, early := early } := by
  unfold firstSeenStep
  split
  · exact ⟨_, _, _, rfl⟩
  · split <;> exact ⟨_, _, _, rfl⟩

theorem clampFirstSeen_frame (e : Entry) : ∃ first, clampFirstSeen e = { e with firstSeen := first } := by
  unfold clampFirstSeen
  split
  · split <;> exact ⟨_, rfl⟩
  · exact ⟨_, rfl⟩

theorem lastSeenStep_frame (h : HarvestCtx) (r : FaultRec) (e : Entry) :
    ∃ first last skew, lastSeenStep h r e = { e with firstSeen := first, lastSeen := last, skew := skew } := by
  unfold lastSeenStep
  split
  · exact ⟨_, _, _, rfl⟩
  · next now _ =>
    obtain ⟨first, hclamp⟩ := clampFirstSeen_frame { e with
      lastSeen := optMax e.lastSeen (lastEstimate now h.hours r).1
      skew := e.skew || (lastEstimate now h.hours r).2 }
    exact ⟨first, _, _, hclamp⟩

/-- R132 to R135: what a merge and a creation alike do to the entry that R131 has counted. -/
def stampEntry (h : HarvestCtx) (r : FaultRec) (e : Entry) : Entry :=
  statusStep r (cycleStep h.k r.c (lastSeenStep h r (firstSeenStep h r e)))

theorem mergeEntry_eq_stampEntry (h : HarvestCtx) (r : FaultRec) (e : Entry) :
    mergeEntry h r e = stampEntry h r (countStep r.u e) := rfl

theorem createEntry_eq_stampEntry (key : Key) (h : HarvestCtx) (r : FaultRec) :
    createEntry key h r = stampEntry h r (countNew r.u (blankEntry key h)) := rfl

/-- The stamps touch the two times with their marks, the cycle, and the status with its lamps; nothing else. -/
theorem stampEntry_frame (h : HarvestCtx) (r : FaultRec) (e : Entry) :
    ∃ first last skew early, stampEntry h r e = statusStep r { e with
      firstSeen := first, lastSeen := last, skew := skew, early := early
      lastCycle := optMax e.lastCycle (r.c.map (h.k - ·)) } := by
  obtain ⟨_, _, early, hfirst⟩ := firstSeenStep_frame h r e
  obtain ⟨first, last, skew, hlast⟩ := lastSeenStep_frame h r (firstSeenStep h r e)
  refine ⟨first, last, skew, early, ?_⟩
  rw [stampEntry, cycleStep_eq, hlast, hfirst]

section StampedFields

variable (h : HarvestCtx) (r : FaultRec) (e : Entry)

@[simp] theorem stampEntry_total : (stampEntry h r e).total = e.total := by
  obtain ⟨_, _, _, _, hs⟩ := stampEntry_frame h r e
  rw [hs, statusStep]

@[simp] theorem stampEntry_baseline : (stampEntry h r e).baseline = e.baseline := by
  obtain ⟨_, _, _, _, hs⟩ := stampEntry_frame h r e
  rw [hs, statusStep]

@[simp] theorem stampEntry_saturated : (stampEntry h r e).saturated = e.saturated := by
  obtain ⟨_, _, _, _, hs⟩ := stampEntry_frame h r e
  rw [hs, statusStep]

@[simp] theorem stampEntry_floor : (stampEntry h r e).floor = e.floor := by
  obtain ⟨_, _, _, _, hs⟩ := stampEntry_frame h r e
  rw [hs, statusStep]

@[simp] theorem stampEntry_restarts : (stampEntry h r e).restarts = e.restarts := by
  obtain ⟨_, _, _, _, hs⟩ := stampEntry_frame h r e
  rw [hs, statusStep]

@[simp] theorem stampEntry_lastCycle :
    (stampEntry h r e).lastCycle = optMax e.lastCycle (r.c.map (h.k - ·)) := by
  obtain ⟨_, _, _, _, hs⟩ := stampEntry_frame h r e
  rw [hs, statusStep]

end StampedFields

/-! ## The last-seen cycle of a merge and of a creation -/

/-- The last-seen cycle that a merge leaves. -/
theorem mergeEntry_lastCycle (h : HarvestCtx) (r : FaultRec) (e : Entry) :
    (mergeEntry h r e).lastCycle = optMax e.lastCycle (r.c.map (h.k - ·)) :=
  stampEntry_lastCycle h r (countStep r.u e)

/-- A new entry takes the record's cycle as it is. -/
theorem createEntry_lastCycle (key : Key) (h : HarvestCtx) (r : FaultRec) :
    (createEntry key h r).lastCycle = r.c.map (h.k - ·) :=
  stampEntry_lastCycle h r (countNew r.u (blankEntry key h))

/-- R37: 255 in a record's byte 6 carries no age. -/
theorem recordOf_c (bytes : List Byte) :
    (recordOf bytes).c = if bytes.getD 6 0 = 255 then none else some (bytes.getD 6 0).toNat := by
  have hbyte : (bytes.getD 6 0).toNat = 255 ↔ bytes.getD 6 0 = 255 := BitVec.toNat_inj (y := 255#8)
  simp only [recordOf, hbyte]

/-! ## The obligations -/

/-- Settles O54: each row of R131 gives the counts of `countStep`, and the stamps leave them alone. -/
theorem mergeCounts : Obligations.MergeCounts := by
  intro h f e _ htotal
  simp only [mergeEntry_eq_stampEntry, createEntry_eq_stampEntry, stampEntry_total, stampEntry_baseline,
    stampEntry_saturated, stampEntry_floor, stampEntry_restarts, countStep_baseline]
  refine ⟨trivial, countStep_total_le f.u e, le_countStep_total f.u htotal, ?floor, ?goesOn, ?restart, ?others⟩
  case floor =>
    rintro ⟨hu, hb⟩
    have hrow := occurrence_of_floor hu hb
    have hsat : ¬ 65535 < e.total := Nat.not_lt.mpr htotal
    simp [countStep_total, countStep_saturated, countStep_floor, countStep_restarts, hrow, htotal, hsat]
  case goesOn =>
    intro hle hnot
    have hrow := occurrence_of_le hle hnot
    simp [countStep_total, countStep_saturated, countStep_floor, countStep_restarts, hrow]
  case restart =>
    intro hlt
    have hrow := occurrence_of_lt hlt
    simp [countStep_total, countStep_saturated, countStep_floor, countStep_restarts, hrow, satInc]
  case others => exact fun _ _ => ⟨rfl, rfl, rfl, rfl, rfl, rfl, rfl⟩

/-- Settles O56: the cycle of a merge is the greater of the stored one and the record's. -/
theorem lastSeenCycle : Obligations.LastSeenCycle := by
  intro h f e key bytes
  rw [mergeEntry_lastCycle, createEntry_lastCycle]
  refine ⟨?known, ?unknown, ?rises, recordOf_c bytes⟩
  case known =>
    intro c hc
    rw [hc, sub_or_zero_eq_sub, Option.map_some, optMax_some_right]
    exact ⟨rfl, rfl⟩
  case unknown =>
    intro hc
    rw [hc, Option.map_none, optMax_none_right]
    exact ⟨rfl, rfl⟩
  case rises =>
    intro n hn
    rw [hn]
    exact optMax_some_left_le n _

end Sys2Proof.Machine
end

