-- ==== Sys2Proof/Proofs/GraceFrame.lean ====
section
/-!
SUPPORT. What of R172 each operation touches: the collector state, the grace timer, the park-pending mark, and whether a
start is under way (Base.watch). Most operations leave the four alone; for parking, waking, the grace end, the stages of a start
and the entries of the collector states their effect on the four is said. In the order of the model.
-/

namespace Sys2Proof.Machine

/-- What R172 speaks of. -/
structure Watch where
  col : Collector
  grace : Timer
  parkPending : Bool
  starting : Bool

/-- The watched part of what only the collector itself changes. -/
def Base.watch (b : Base) : Watch :=
  { col := b.col, grace := b.mon.grace, parkPending := b.mon.parkPending, starting := b.start.isSome }

/-- The collector in the state `col`, with the grace timer stopped and the park-pending mark clear. -/
def Watch.enter (w : Watch) (col : Collector) : Watch := { w with col := col, grace := none, parkPending := false }

theorem Chip.modMon_base (c : Chip) (f : Monitor → Monitor) :
    (c.modMon f).base = { c.base with mon := f c.base.mon } := rfl
theorem Chip.base_with_col (c : Chip) (x : Collector) : ({ c with col := x } : Chip).base = { c.base with col := x } := rfl

/-- A start is under way. -/
def Watch.begun (w : Watch) : Watch := { w with starting := true }

/-- An update of the monitor that leaves the grace timer and the park-pending mark alone. -/
theorem Chip.modMon_watch {c : Chip} {f : Monitor → Monitor} (hg : (f c.mon).grace = c.mon.grace)
    (hp : (f c.mon).parkPending = c.mon.parkPending) : (c.modMon f).base.watch = c.base.watch := by
  simp only [Base.watch, Chip.base, Chip.modMon, hg, hp]

/-- A fold of operations that leave the watched part alone leaves it alone. -/
theorem Chip.foldl_watch {α : Type} {f : Chip → α → Chip} (h : ∀ c x, (f c x).base.watch = c.base.watch) (l : List α)
    (c : Chip) : (l.foldl f c).base.watch = c.base.watch := by
  induction l generalizing c with
  | nil => rfl
  | cons x rest ih => rw [List.foldl_cons, ih, h]

variable (c : Chip)

/-! ## Monitor -/

theorem Monitor.compare_frame (s : SupplyClass) (m : Monitor) :
    (m.compare s).grace = m.grace ∧ (m.compare s).parkPending = m.parkPending := by
  unfold Monitor.compare
  split <;> split <;> exact ⟨rfl, rfl⟩

@[simp] theorem Chip.dipOn_watch : c.dipOn.base.watch = c.base.watch := by
  obtain ⟨hgrace, hpending⟩ := Monitor.compare_frame c.sets.supply c.mon.dipOff
  exact Chip.modMon_watch hgrace hpending

@[simp] theorem Chip.dipLook_watch : c.dipLook.base.watch = c.base.watch := by
  obtain ⟨hgrace, hpending⟩ := Monitor.compare_frame c.sets.supply c.mon
  unfold Chip.dipLook
  split
  · exact Chip.modMon_watch hgrace hpending
  · rfl

@[simp] theorem Chip.cycleEffects_watch : c.cycleEffects.base.watch = c.base.watch := rfl

@[simp] theorem Chip.dropAll_base : c.dropAll.base = c.base := Chip.foldl_base (fun _ _ => Chip.drop_base ..) _ _

@[simp] theorem Chip.graceDrops_base : c.graceDrops.base = c.base := by
  refine Chip.foldl_base (fun d u => ?_) _ _
  split
  · split <;> simp only [Chip.modSession_base, Chip.drop_base]
  · rfl

@[simp] theorem Chip.sweepExpiry_watch : c.sweepExpiry.1.base.watch = c.base.watch := by
  unfold Chip.sweepExpiry Chip.startSweep
  split
  · rfl
  · split
    · simp only [Chip.startHarvest_base, Chip.modCtx_base]
    · rfl

/-- Parking (R176). -/
theorem Chip.park_watch : c.park.base.watch = c.base.watch.enter .parked := by
  unfold Chip.park
  simp only [Chip.setCause_base, Chip.wantHeader_base, Chip.modMon_base, Chip.foldl_base Chip.shedOpens_base,
    Chip.modAllSegs_base, Chip.base_with_col, Chip.dropAll_base, Chip.cutCensuses_base, Chip.cutPlans_base]
  rfl

/-- The wake (R177). -/
theorem Chip.wake_watch : c.wake.base.watch = { c.base.watch with col := .running } := by
  unfold Chip.wake
  simp only [Chip.wantHeader_base, Chip.dipOn_watch, Chip.modAllSegs_base, Chip.base_with_col]
  rfl

/-- The grace end (R175): parking is left pending, or made. -/
theorem Chip.graceEnd_watch :
    c.graceEnd.base.watch = { c.base.watch with grace := none, parkPending := true }
      ∨ c.graceEnd.base.watch = c.base.watch.enter .parked := by
  unfold Chip.graceEnd
  extract_lets d
  have hd : d.base = { c.base with mon := { c.base.mon with grace := none } } := by
    simp only [d, Chip.graceDrops_base, Chip.cutCensuses_base, Chip.cutPlans_base, Chip.modMon_base]
  clear_value d
  split
  · left
    rw [Chip.modMon_base, hd]
    rfl
  · right
    rw [Chip.park_watch, hd]
    rfl

/-! ## Loader -/

@[simp] theorem Chip.enterUnit_base (r : UnitRec) : (c.enterUnit r).base = c.base := by
  unfold Chip.enterUnit
  split <;> simp only [Chip.setUnit_base]

@[simp] theorem Chip.putSettings_watch (l : Loaded) : (c.putSettings l).base.watch = c.base.watch := by
  unfold Chip.putSettings
  split <;> simp only [Chip.setCause_base] <;> rfl

@[simp] theorem Chip.restCounts_base (g : Seg) : (c.restCounts g).base = c.base := by
  unfold Chip.restCounts
  split <;> simp only [Chip.modSeg_base]

@[simp] theorem Chip.applyStart_watch (l : Loaded) : (c.applyStart l).base.watch = c.base.watch := by
  unfold Chip.applyStart
  rw [Chip.foldl_base (fun _ _ => Chip.enterUnit_base ..), Chip.foldl_base Chip.restCounts_base, Chip.base_with_roster,
    Chip.putSettings_watch]

@[simp] theorem Chip.removeUnit_base (u : UnitIx) : (c.removeUnit u).base = c.base := by
  unfold Chip.removeUnit
  rw [Chip.setUnit_base, Chip.endSession_base]

theorem Chip.reloadUnit_base (ds : List Desc) (ck : Chip × List Seg) (u : UnitIx) :
    (Chip.reloadUnit ds ck u).1.base = ck.1.base := by
  obtain ⟨c, kept⟩ := ck
  unfold Chip.reloadUnit
  dsimp only
  split
  · rfl
  · split
    · exact Chip.setUnit_base ..
    · split
      · exact Chip.removeUnit_base ..
      · split
        · rfl
        · exact Chip.removeUnit_base ..

theorem Chip.reloadFold_base (ds : List Desc) (l : List UnitIx) (ck : Chip × List Seg) :
    (l.foldl (Chip.reloadUnit ds) ck).1.base = ck.1.base := by
  induction l generalizing ck with
  | nil => rfl
  | cons u rest ih => rw [List.foldl_cons, ih, Chip.reloadUnit_base]

@[simp] theorem Chip.reloadRoster_base (ds : List Desc) : (c.reloadRoster ds).base = c.base := by
  unfold Chip.reloadRoster
  have hfold := Chip.reloadFold_base ds allUnits (c, [])
  generalize allUnits.foldl (Chip.reloadUnit ds) (c, []) = d at hfold ⊢
  rw [Chip.foldl_base (fun _ _ => Chip.enterUnit_base ..), hfold]

@[simp] theorem Chip.reloadSegment_base (old new : Settings) (g : Seg) :
    (Chip.reloadSegment old new c g).base = c.base := by
  unfold Chip.reloadSegment
  extract_lets was now d e running f
  have he : e.base = c.base := by
    simp only [e, d, Chip.modSeg_base, Chip.withdrawSlot_base, Chip.dropSegment_base]
  have hf : f.base = e.base := by
    simp only [f]
    split <;> simp only [Chip.modSeg_base]
  clear_value e running f
  split
  · rfl
  · split
    · rw [Chip.shedOpens_base, Chip.modSeg_base, he]
    · split
      · rw [Chip.shedOpens_base, Chip.modSeg_base, hf, he]
      · rw [hf, he]

@[simp] theorem Chip.readdress_base : c.readdress.base = c.base := by
  unfold Chip.readdress
  rw [Chip.dropAll_base, Chip.foldl_base Chip.shedOpens_base, Chip.modAllSegs_base]

@[simp] theorem Chip.applyReload_watch (l : Loaded) : (c.applyReload l).base.watch = c.base.watch := by
  unfold Chip.applyReload
  extract_lets old c1 c2 c3 c4
  have h1 : c1.base.watch = c.base.watch := by rw [Chip.putSettings_watch, Chip.reloadRoster_base]
  have h2 : c2.base = c1.base := by
    simp only [c2]
    split <;> simp only [Chip.readdress_base]
  have h3 : c3.base = c2.base := Chip.foldl_base (fun _ _ => Chip.reloadSegment_base ..) _ _
  have h4 : c4.base.watch = c3.base.watch := by
    simp only [c4]
    split <;> simp only [Chip.dipLook_watch]
  clear_value c1 c2 c3 c4
  have h : c4.base.watch = c.base.watch := by rw [h4, h3, h2, h1]
  split
  · exact h
  · exact (Chip.modMon_watch rfl rfl).trans h

@[simp] theorem Chip.startLoad_watch (k : Option CtxIx) : (c.startLoad k).base.watch = c.base.watch := rfl

@[simp] theorem Chip.endReload_watch (k : CtxIx) (code : ErrorCode) : (c.endReload k code).base.watch = c.base.watch := by
  unfold Chip.endReload
  rw [Chip.orderEnd_base]
  rfl

@[simp] theorem Chip.abandonReload_watch (k : CtxIx) (code : ErrorCode) :
    (c.abandonReload k code).base.watch = c.base.watch := by
  unfold Chip.abandonReload
  rw [Chip.endReload_watch, Chip.giveUp_base]

/-! ## Cards -/

@[simp] theorem Chip.readOwner_watch (card : Fin 16) : (c.readOwner card).base.watch = c.base.watch := rfl

@[simp] theorem Chip.startScan_watch : c.startScan.base.watch = c.base.watch := rfl

@[simp] theorem Chip.scanRequest_watch : c.scanRequest.base.watch = c.base.watch := by
  unfold Chip.scanRequest
  split
  · rfl
  · split
    · exact Chip.startScan_watch ..
    · rfl

@[simp] theorem Chip.scanNext_watch (card : Fin 16) : (c.scanNext card).base.watch = c.base.watch := by
  unfold Chip.scanNext
  split
  · rfl
  · split
    · exact Chip.readOwner_watch ..
    · dsimp only
      split
      · exact Chip.startScan_watch ..
      · rfl

@[simp] theorem Chip.stopTaking_watch : c.stopTaking.base.watch = c.base.watch := rfl

@[simp] theorem Chip.failCard_watch (card : Fin 16) (code : ErrorCode) (step : Nat) :
    (c.failCard card code step).base.watch = c.base.watch := rfl

@[simp] theorem Chip.withdrawHeld_watch (k : CtxIx) : (c.withdrawHeld k).base.watch = c.base.watch := by
  unfold Chip.withdrawHeld
  extract_lets x
  clear_value x
  split
  · split
    · split <;> simp only [Chip.withdrawHarvest_base]
    · rw [Chip.endCensus_base]
    · rw [Chip.abandonReload_watch]
    · rfl
    · rfl
  · rfl

@[simp] theorem Chip.scanOwner_watch (card : Fin 16) (w : Word) : (c.scanOwner card w).base.watch = c.base.watch := by
  unfold Chip.scanOwner
  split
  · split
    · rfl
    · exact Chip.scanNext_watch ..
  · rw [Chip.scanNext_watch, Chip.withdrawHeld_watch]
  · exact Chip.failCard_watch ..
  · exact Chip.scanNext_watch ..

@[simp] theorem Chip.takeCard_watch (card : Fin 16) (k : CtxIx) (content : Content) :
    (c.takeCard card k content).base.watch = c.base.watch := rfl

@[simp] theorem Chip.takeOrFail_watch (card : Fin 16) (k : CtxIx) (e : Except (ErrorCode × Nat) Content) :
    (c.takeOrFail card k e).base.watch = c.base.watch := by
  unfold Chip.takeOrFail
  split
  · exact Chip.failCard_watch ..
  · split <;> simp only [Chip.scanNext_watch, Chip.takeCard_watch]

@[simp] theorem Chip.scanKind_watch (card : Fin 16) (w : Word) : (c.scanKind card w).base.watch = c.base.watch := by
  unfold Chip.scanKind
  split
  · exact Chip.scanNext_watch ..
  · split
    · rw [Chip.scanNext_watch, Chip.stopTaking_watch]
    · split
      · rw [Chip.scanNext_watch]
        split <;> simp only [Chip.stopTaking_watch]
      · split
        · exact Chip.takeOrFail_watch ..
        · rfl

@[simp] theorem Chip.cutHarvest_base (k : CtxIx) (mask : BitVec 64) (v : Verdict) :
    (c.cutHarvest k mask v).base = c.base := by
  unfold Chip.cutHarvest
  rw [Chip.orderEnd_base, Chip.modCtx_base]

@[simp] theorem Chip.startOrder_watch (k : CtxIx) (content : Content) :
    (c.startOrder k content).base.watch = c.base.watch := by
  unfold Chip.startOrder
  split
  · split <;> simp only [Chip.startHarvest_base, Chip.cutHarvest_base]
  · split <;> simp only [Chip.startCensus_base, Chip.orderEnd_base, Chip.modCtx_base]
  · rfl
  · split <;> simp only [Chip.startLoad_watch, Chip.endReload_watch]
  · rw [Chip.handOver_base]

@[simp] theorem Chip.scanDone_watch (got : List Word) : (c.scanDone got).base.watch = c.base.watch := by
  unfold Chip.scanDone
  split
  · rfl
  · exact Chip.scanOwner_watch ..
  · exact Chip.scanKind_watch ..
  · exact Chip.takeOrFail_watch ..
  · extract_lets src d src' e
    have hd : d.base.watch = c.base.watch := rfl
    have he : e.base.watch = d.base.watch := Chip.startOrder_watch ..
    clear_value d e
    rw [Chip.scanNext_watch]
    split <;> simp only [Chip.stopTaking_watch, he, hd]
  · rw [Chip.scanNext_watch, Chip.setCause_base]

@[simp] theorem Chip.resultDone_base (k : CtxIx) : (c.resultDone k).base = c.base := by
  unfold Chip.resultDone
  rw [Chip.modCtx_base, Chip.setCause_base]

@[simp] theorem Chip.clockHeader_base (k : CtxIx) : (c.clockHeader k).base = c.base := by
  unfold Chip.clockHeader
  extract_lets x d
  have hd : d.base = c.base := Chip.modCtx_base ..
  clear_value x d
  split
  · rfl
  · split <;> simp only [Chip.orderEnd_base, hd]

/-! ## STARTING -/

@[simp] theorem Chip.atStage_watch (st : Starting) (stage : StartStage) (accs : List Acc) :
    (c.atStage st stage accs).base.watch = c.base.watch.begun := rfl

@[simp] theorem Chip.coldStart_watch (st : Starting) : (c.coldStart st).base.watch = c.base.watch.begun := rfl

@[simp] theorem Chip.writeRegion_watch (st : Starting) : (c.writeRegion st).base.watch = c.base.watch.begun := rfl

@[simp] theorem Chip.warmBegin_watch (st : Starting) (ws : List Word) :
    (c.warmBegin st ws).base.watch = c.base.watch.begun := by
  unfold Chip.warmBegin
  split
  · rfl
  · exact Chip.coldStart_watch ..

@[simp] theorem Chip.nextRepair_watch (st : Starting) (todo : List SlotIx) :
    (c.nextRepair st todo).base.watch = c.base.watch.begun := by
  unfold Chip.nextRepair
  split
  · exact Chip.writeRegion_watch ..
  · split
    · exact Chip.writeRegion_watch ..
    · rfl

@[simp] theorem Chip.repairPublished_watch (st : Starting) (todo : List SlotIx) :
    (c.repairPublished st todo).base.watch = c.base.watch.begun := by
  unfold Chip.repairPublished
  extract_lets d
  have hd : d.base = c.base := by
    simp only [d]
    split <;> simp only [Chip.bumpVersion_base]
  clear_value d
  rw [Chip.atStage_watch, Chip.setCause_base, Chip.modHist_base, hd]

@[simp] theorem Chip.warmSettled_watch (st : Starting) : (c.warmSettled st).base.watch = c.base.watch.begun := by
  unfold Chip.warmSettled
  dsimp only
  rw [Chip.nextRepair_watch, Chip.modHist_base, Chip.base_with_pool]

@[simp] theorem Chip.warmNext_watch (st : Starting) (i : SlotIx) :
    (c.warmNext st i).base.watch = c.base.watch.begun := by
  unfold Chip.warmNext
  split
  · rfl
  · exact Chip.warmSettled_watch ..

@[simp] theorem Chip.warmSlot_watch (st : Starting) (i : SlotIx) (ws : List Word) :
    (c.warmSlot st i ws).base.watch = c.base.watch.begun := by
  unfold Chip.warmSlot
  split
  · rw [Chip.warmNext_watch, Chip.modSlot_base]
  · rfl
  · rfl
  · split
    · rfl
    · rw [Chip.warmNext_watch, Chip.modHist_base, Chip.modSlot_base]

@[simp] theorem Chip.publishStart_watch (st : Starting) : (c.publishStart st).base.watch = c.base.watch.begun := rfl

@[simp] theorem Chip.writeMirror_watch (st : Starting) (u : UnitIx) :
    (c.writeMirror st u).base.watch = c.base.watch.begun := rfl

@[simp] theorem Chip.startClock_watch (st : Starting) : (c.startClock st).base.watch = c.base.watch.begun := by
  unfold Chip.startClock
  split
  · exact Chip.atStage_watch ..
  · exact Chip.writeMirror_watch ..

@[simp] theorem Chip.startHeader_watch (st : Starting) : (c.startHeader st).base.watch = c.base.watch.begun := rfl

/-- The stages of a start go on from a start under way. -/
theorem Chip.watch_begun {c : Chip} {st : Starting} (h : c.start = some st) : c.base.watch.begun = c.base.watch := by
  simp only [Watch.begun, Base.watch, Chip.base, h, Option.isSome_some]

@[simp] theorem Chip.startingDone_watch (got : List Word) : (c.startingDone got).base.watch = c.base.watch := by
  unfold Chip.startingDone
  split
  · rfl
  · next st hstart =>
    rw [← Chip.watch_begun hstart]
    split
    · rfl
    · split
      · exact Chip.atStage_watch ..
      · exact Chip.writeRegion_watch ..
    · exact Chip.warmBegin_watch ..
    · exact Chip.warmSlot_watch ..
    · exact Chip.warmNext_watch ..
    · exact Chip.repairPublished_watch ..
    · exact Chip.nextRepair_watch ..
    · exact Chip.publishStart_watch ..
    · exact Chip.startClock_watch ..
    · exact Chip.writeMirror_watch ..
    · split
      · split
        · exact Chip.writeMirror_watch ..
        · exact Chip.startHeader_watch ..
      · exact (Chip.watch_begun hstart).symm
    · exact (Chip.watch_begun hstart).symm
    · exact (Chip.watch_begun hstart).symm

@[simp] theorem Chip.loaderDone_watch (got : List Word) : (c.loaderDone got).base.watch = c.base.watch := by
  unfold Chip.loaderDone
  split
  · rfl
  · next l _ =>
    extract_lets words more r src d
    clear_value words more r
    split
    · rfl
    · split
      · rw [Chip.endReload_watch, Chip.applyReload_watch]
      · have hd : d.base.watch = c.base.watch := Chip.applyStart_watch ..
        clear_value d
        split
        · exact hd
        · next st hstart =>
          rw [← hd, ← Chip.watch_begun hstart]
          split
          · exact Chip.coldStart_watch ..
          · exact Chip.atStage_watch ..

/-- STARTING is entered (R188). -/
theorem Chip.enterStarting_watch : c.enterStarting.base.watch = (c.base.watch.enter .starting).begun := rfl

/-! ## STOPPING, STOPPED, HALTED -/

@[simp] theorem Chip.stopSession_base (u : UnitIx) : (c.stopSession u).base = c.base := by
  unfold Chip.stopSession
  extract_lets d
  have hd : d.base = c.base := Chip.modSession_base ..
  clear_value d
  split
  · exact hd
  · split
    · rw [Chip.dropOpen_base, hd]
    · rw [Chip.dropOpen_base, hd]
    · exact hd
    · exact hd
    · rw [Chip.askClose_base, Chip.withdrawFor_base, hd]
    · split
      · rw [Chip.modSession_base, hd]
      · rw [Chip.askClose_base, Chip.withdrawFor_base, Chip.modUnit_base, hd]

@[simp] theorem Chip.cutReloads_watch : c.cutReloads.base.watch = c.base.watch := by
  refine Chip.foldl_watch (fun d k => ?_) _ _
  dsimp only
  split <;> simp only [Chip.abandonReload_watch]

@[simp] theorem Chip.stopScan_watch : c.stopScan.base.watch = c.base.watch := by
  unfold Chip.stopScan
  dsimp only
  split <;> rfl

/-- STOPPING is entered (R189). -/
theorem Chip.enterStopping_watch : c.enterStopping.base.watch = c.base.watch.enter .stopping := by
  unfold Chip.enterStopping
  extract_lets was c1 c2 c3 c4
  have h1 : c1.base.watch = c.base.watch.enter .stopping := by
    have hscan : ({ c with col := .stopping } : Chip).stopScan.base.watch = { c.base.watch with col := .stopping } :=
      Chip.stopScan_watch ..
    exact congrArg (fun w => w.enter w.col) hscan
  have h2 : c2.base.watch = c1.base.watch := by
    simp only [c2]
    split <;> simp only [Chip.dipOn_watch]
  have h3 : c3.base.watch = c2.base.watch := by
    simp only [c3, Chip.cutReloads_watch, Chip.cutCensuses_base, Chip.cutPlans_base]
  have h4 : c4.base = c3.base := Chip.foldl_base Chip.stopSession_base _ _
  clear_value was c1 c2 c3 c4
  rw [← h1, ← h2, ← h3, ← h4]
  rfl

/-- The sessions end and the plan queues empty at a stop or halt (R190, R191). -/
theorem Chip.endSessions_base (l : List UnitIx) :
    (l.foldl (fun c u => (c.endSession u).modUnit u fun r => { r with queue := [] }) c).base = c.base :=
  Chip.foldl_base (fun _ _ => (Chip.modUnit_base ..).trans (Chip.endSession_base ..)) _ _

/-- What an entry to STOPPED does on chip (R190). -/
theorem Chip.shutDown_watch : c.shutDown.base.watch = c.base.watch.enter .stopped := by
  unfold Chip.shutDown
  dsimp only
  rw [Chip.modHist_base, Chip.endSessions_base]
  rfl

theorem Chip.entryWrites_watch (before after : Chip) :
    (Chip.entryWrites before after).base.watch = after.base.watch := by
  unfold Chip.entryWrites
  extract_lets due d
  have hd : d.base.watch = after.base.watch := by
    refine Chip.foldl_watch (fun _ _ => ?_) _ _
    rfl
  clear_value d
  exact hd

/-- STOPPED is entered from STOPPING (R190). -/
theorem Chip.enterStopped_watch : c.enterStopped.base.watch = c.base.watch.enter .stopped := by
  unfold Chip.enterStopped
  rw [Chip.entryWrites_watch, Chip.shutDown_watch]

@[simp] theorem Chip.portOff_watch : c.portOff.base.watch = c.base.watch := rfl

/-- HALTED is entered (R191): no start is under way. -/
theorem Chip.enterHalted_watch :
    c.enterHalted.base.watch = { c.base.watch.enter .halted with starting := false } := by
  unfold Chip.enterHalted
  dsimp only
  rw [Chip.setCause_base, Chip.modHist_base, Chip.endSessions_base]
  rfl

/-- The collector enters the state chosen at the end of STARTING (R188): STOPPING, or a state that works. -/
theorem Chip.enterChosen_watch (chosen : Collector) :
    (c.enterChosen chosen).base.watch =
      if chosen = .stopping then { c.base.watch.enter .stopping with starting := false }
      else { c.base.watch with col := chosen, starting := false } := by
  unfold Chip.enterChosen
  extract_lets c1 c2 running c3
  have h1 : c1.base.watch = { c.base.watch with col := chosen, starting := false } := rfl
  have h2 : c2.base.watch = c1.base.watch := by
    simp only [c2]
    split <;> simp only [Chip.dipOn_watch]
  have h3 : c3.base = c2.base := by
    refine Chip.foldl_base (fun d g => ?_) _ _
    split <;> rfl
  have h : c3.base.watch = { c.base.watch with col := chosen, starting := false } := by rw [h3, h2, h1]
  clear_value c1 c2 running c3
  split
  · rw [Chip.enterStopping_watch, h]
    rfl
  · rw [← h]
    rfl

/-! ## Port -/

@[simp] theorem Chip.startAccess_base : c.startAccess.base = c.base := by
  unfold Chip.startAccess
  split
  · rfl
  · dsimp only
    split <;> rfl

@[simp] theorem Chip.enqueue_base : c.enqueue.base = c.base := rfl

@[simp] theorem Chip.mirrorDone_watch (u : UnitIx) : (c.mirrorDone u).base.watch = c.base.watch := by
  unfold Chip.mirrorDone
  dsimp only
  split <;> rfl

@[simp] theorem Chip.askHeader_watch : c.askHeader.base.watch = c.base.watch := by
  unfold Chip.askHeader
  dsimp only
  split <;> rfl

@[simp] theorem Chip.askMirror_watch (u : UnitIx) : (c.askMirror u).base.watch = c.base.watch := by
  unfold Chip.askMirror
  split <;> rfl

@[simp] theorem Chip.askRewrites_watch (old : Chip) : (Chip.askRewrites old c).base.watch = c.base.watch := by
  unfold Chip.askRewrites
  split
  · rfl
  · extract_lets d
    have hd : d.base.watch = c.base.watch := by
      simp only [d]
      split
      · rfl
      · exact Chip.foldl_watch Chip.askMirror_watch _ _
    clear_value d
    split
    · rw [Chip.askHeader_watch, hd]
    · rw [Chip.foldl_base (fun _ _ => Chip.modSeg_base ..), hd]

@[simp] theorem Chip.handleWaiting_base (g : Seg) : (c.handleWaiting g).base = c.base := by
  unfold Chip.handleWaiting
  split
  · rw [Chip.handleFrame_base, Chip.modSeg_base]
  · rfl

/-! ## Ignition and supply -/

@[simp] theorem Chip.dipEntry_watch : c.dipEntry.base.watch = c.base.watch := by
  unfold Chip.dipEntry
  split
  · simp only [Chip.setCause_base, Chip.wantHeader_base, Chip.modAllSegs_base]
    rfl
  · rfl

@[simp] theorem Chip.dipEnd_watch : c.dipEnd.base.watch = c.base.watch := by
  unfold Chip.dipEnd
  split
  · simp only [Chip.wantHeader_base, Chip.modAllSegs_base, Chip.modMon_base, Chip.dropAll_base]
    rfl
  · rfl

@[simp] theorem Chip.ctRise_watch : c.ctRise.base.watch = c.base.watch := by
  unfold Chip.ctRise
  split
  · split
    · dsimp only
      split <;> rfl
    · rfl
  · rfl

@[simp] theorem Chip.sweepTimer_watch : c.sweepTimer.base.watch = c.base.watch := by
  unfold Chip.sweepTimer
  split
  · exact (Chip.modMon_watch rfl rfl).trans (Chip.sweepExpiry_watch c)
  · rfl

@[simp] theorem Chip.scanTimer_watch : c.scanTimer.base.watch = c.base.watch := by
  unfold Chip.scanTimer
  split
  · rw [Chip.scanRequest_watch]
    rfl
  · rfl

/-! ## Timers -/

@[simp] theorem Chip.keepExpiry_base (u : UnitIx) : (Chip.keepExpiry u c).base = c.base := by
  unfold Chip.keepExpiry
  split
  · split
    · rfl
    · extract_lets debt d
      have hd : d.base = c.base := Chip.modSession_base ..
      clear_value debt d
      split
      · exact Chip.drop_base ..
      · split <;> simp only [Chip.postFor_base, hd]
  · rfl

@[simp] theorem Chip.coolExpiry_base (u : UnitIx) : (Chip.coolExpiry u c).base = c.base := Chip.modSession_base ..

@[simp] theorem Chip.openExpiry_base (u : UnitIx) : (Chip.openExpiry u c).base = c.base := by
  unfold Chip.openExpiry
  split
  · split <;> simp only [Chip.openTimesOut_base]
  · rfl

@[simp] theorem Chip.replyExpiry_base (u : UnitIx) : (Chip.replyExpiry u c).base = c.base := by
  unfold Chip.replyExpiry
  split
  · split <;> simp only [Chip.attemptFails_base, Chip.closeEnds_base]
  · rfl

@[simp] theorem Chip.restExpiry_base (u : UnitIx) : (Chip.restExpiry u c).base = c.base := by
  unfold Chip.restExpiry
  split
  · split <;> simp only [Chip.postRepeat_base]
  · rfl

@[simp] theorem Chip.holdExpiry_base (u : UnitIx) : (Chip.holdExpiry u c).base = c.base := by
  unfold Chip.holdExpiry
  split
  · split <;> simp only [Chip.stepEnds_base]
  · rfl

@[simp] theorem Chip.rollExpiry_base (g : Seg) : (Chip.rollExpiry g c).base = c.base := by
  unfold Chip.rollExpiry
  split <;> simp only [Chip.endCensus_base]

@[simp] theorem Chip.recoveryExpiry_base (g : Seg) : (Chip.recoveryExpiry g c).base = c.base := by
  unfold Chip.recoveryExpiry
  dsimp only
  split
  · split <;> simp only [Chip.shedOpens_base, Chip.modSeg_base]
  · rfl

@[simp] theorem Chip.errorsDue_base (g : Seg) : (Chip.errorsDue g c).base = c.base := by
  unfold Chip.errorsDue
  split <;> rfl

/-! ## Transmissions and receptions -/

theorem Chip.completed_base (g : Seg) (which : Msg → Bool) {f : Chip → Item → Chip}
    (hf : ∀ d i, (f d i).base = d.base) : (c.completed g which f).base = c.base := by
  unfold Chip.completed
  split
  · rfl
  · split
    · dsimp only
      split <;> simp only [hf, Chip.modSeg_base]
    · rfl

theorem Chip.toUnit_base (g : Seg) {f : Chip → UnitIx → Chip} (hf : ∀ d u, (f d u).base = d.base) (i : Item) :
    (Chip.toUnit g f c i).base = c.base := by
  unfold Chip.toUnit
  split <;> simp only [hf]

@[simp] theorem Chip.openDone_base (g : Seg) : (Chip.openDone g c).base = c.base := by
  unfold Chip.openDone
  extract_lets entered d
  have hd : d.base = c.base := by
    simp only [d]
    split <;> rfl
  clear_value entered d
  rw [Chip.completed_base _ _ _ fun d i => Chip.toUnit_base d g Chip.openWentOut_base i, hd]

@[simp] theorem Chip.requestOut_base (g : Seg) : (Chip.requestOut g c).base = c.base := by
  refine Chip.completed_base _ _ _ fun d i => ?_
  split
  · exact Chip.toUnit_base d g (fun _ _ => Chip.requestWentOut_base ..) i
  · rfl

@[simp] theorem Chip.pullOut_base (g : Seg) : (Chip.pullOut g c).base = c.base := by
  refine Chip.completed_base _ _ _ fun d i => ?_
  split
  · exact Chip.toUnit_base d g (fun _ _ => Chip.pullWentOut_base ..) i
  · rfl

@[simp] theorem Chip.startWindow_base (g : Seg) (stamp : Nat) : (c.startWindow g stamp).base = c.base := rfl

@[simp] theorem Chip.openLost_base (g : Seg) (i : Item) : (Chip.openLost g c i).base = c.base := by
  unfold Chip.openLost
  split
  · rfl
  · split
    · rfl
    · extract_lets busy waits d d2 d3
      have h : d.base = c.base := by simp only [d, Chip.withdrawFor_base, Chip.modUnit_base]
      have h2 : d2.base = d.base := by
        simp only [d2]
        split <;> simp only [Chip.lose_base]
      have h3 : d3.base = d2.base := by
        simp only [d3]
        split <;> simp only [Chip.firstPlanEnd_base]
      clear_value busy waits d d2 d3
      rw [Chip.closeStepDone_base, h3, h2, h]

@[simp] theorem Chip.unansweredLimit_base (g : Seg) : (c.unansweredLimit g).base = c.base := by
  unfold Chip.unansweredLimit
  dsimp only
  rw [Chip.modSeg_base, Chip.foldl_base (fun _ _ => Chip.startWindow_base ..), Chip.foldl_base (Chip.openLost_base · g)]

@[simp] theorem Chip.busOff_base (g : Seg) : (c.busOff g).base = c.base := by
  unfold Chip.busOff
  extract_lets errors d e f
  have hd : d.base = c.base := rfl
  have he : e.base = d.base := by simp only [e, Chip.wantHeader_base, Chip.dropSegment_base]
  have hf : f.base = e.base := by simp only [f, Chip.setCause_base, Chip.modSeg_base]
  split
  · rw [Chip.unansweredLimit_base, hf, he, hd]
  · rw [hf, he, hd]

@[simp] theorem Chip.failed_base (g : Seg) : (Chip.failed g c).base = c.base := by
  unfold Chip.failed
  split
  · rfl
  · split
    · exact Chip.withdrawSlot_base ..
    · split
      · rw [Chip.withdrawSlot_base, Chip.modSeg_base]
      · split
        · exact Chip.busOff_base ..
        · dsimp only
          split <;> simp only [Chip.withdrawSlot_base, Chip.modSeg_base]

@[simp] theorem Chip.receiveError_base (g : Seg) : (Chip.receiveError g c).base = c.base := by
  unfold Chip.receiveError
  split <;> rfl

@[simp] theorem Chip.foreign_base (g : Seg) (form : FrameForm) (id : BitVec 29) :
    (Chip.foreign g form id c).base = c.base := by
  unfold Chip.foreign
  split
  · exact Chip.receive_base ..
  · split <;> simp only [Chip.receivedWhole_base]

/-! ## Time -/

/-- A millisecond takes one from a grace timer that runs. -/
theorem Chip.tick_watch : c.tick.base.watch = { c.base.watch with grace := Timer.tick c.base.watch.grace } := by
  unfold Chip.tick Chip.tickBase
  dsimp only
  split <;> rfl

end Sys2Proof.Machine
end

