-- ==== Sys2Proof/Proofs/GraceAndPark.lean ====
section
/-!
SUPPORT. R172 as a relation between what is watched before and after an operation (Watch.Leads), which composes: an entry to
STARTING, STOPPING, STOPPED or HALTED leaves the grace timer stopped and the park-pending mark clear, and whatever follows
within the same command keeps them so; and the two rest outside RUNNING. Every command leads so, which settles O8.
-/

namespace Sys2Proof.Machine

/-- The states whose entry stops the grace timer and clears the park-pending mark (R172). -/
def Collector.endsGrace : Collector → Bool
  | .starting | .stopping | .stopped | .halted => true
  | .running | .parked => false

/-- The grace timer stands and the park-pending mark is clear. -/
def Watch.Clear (w : Watch) : Prop := w.grace = none ∧ w.parkPending = false

/-- Chip.Rests on the watched part. -/
def Watch.Rests (w : Watch) : Prop := (w.col ≠ .running → w.Clear) ∧ (w.starting = true → w.col = .starting)

theorem Chip.rests_iff (c : Chip) : c.Rests ↔ c.base.watch.Rests :=
  and_congr_right' (imp_congr_left Option.isSome_iff_ne_none.symm)

/-- What R172 lets an operation do. The first clause speaks of a state kept as well as of one entered, so that it goes
through a chain of operations. -/
structure Watch.Leads (w v : Watch) : Prop where
  clears : v.col.endsGrace = true → v.col ≠ w.col ∨ w.Clear → v.Clear
  rests : w.Rests → v.Rests

section Relation

variable {w v x : Watch}

theorem Watch.Leads.of_eq (h : v = w) : w.Leads v := by
  subst h
  exact ⟨fun _ hor => hor.resolve_left (· rfl), id⟩

theorem Watch.Leads.trans (hwv : w.Leads v) (hvx : v.Leads x) : w.Leads x where
  clears hends hor := by
    by_cases hcol : x.col = v.col
    · exact hvx.clears hends (.inr (hwv.clears (hcol ▸ hends) (hcol ▸ hor)))
    · exact hvx.clears hends (.inl hcol)
  rests := hvx.rests ∘ hwv.rests

/-- An entry that stops the timer and clears the mark, where a start is under way after it in STARTING alone. -/
theorem Watch.Leads.enter (col : Collector) {starting : Bool} (h : w.Rests → starting = true → col = .starting) :
    w.Leads { w.enter col with starting := starting } :=
  ⟨fun _ _ => ⟨rfl, rfl⟩, fun hrests => ⟨fun _ => ⟨rfl, rfl⟩, h hrests⟩⟩

/-- Such an entry from a state in which no start is under way. -/
theorem Watch.Leads.enter_of_not_starting (col : Collector) (h : w.Rests → w.col ≠ .starting) : w.Leads (w.enter col) :=
  Watch.Leads.enter col fun hrests hstarting => absurd (hrests.2 hstarting) (h hrests)

/-- A state that works is entered as a start ends. -/
theorem Watch.Leads.endStart {col : Collector} (hstart : w.starting = true) (hcol : col.endsGrace = false) :
    w.Leads { w with col := col, starting := false } where
  clears hends := absurd (hcol.symm.trans hends) Bool.false_ne_true
  rests := fun ⟨hclear, honly⟩ =>
    have hstarting : w.col = .starting := honly hstart
    ⟨fun _ => hclear (by simp [hstarting]), fun h => absurd h Bool.false_ne_true⟩

/-- RUNNING is kept or entered, with any timer and mark. -/
theorem Watch.Leads.of_running (h : w.Rests → w.col ≠ .starting) (hcol : v.col = .running)
    (hstart : v.starting = w.starting) : w.Leads v where
  clears hends := by
    rw [hcol] at hends
    cases hends
  rests hrests := ⟨fun hout => absurd hcol hout, fun hstarting => absurd (hrests.2 (hstart ▸ hstarting)) (h hrests)⟩

/-- A millisecond. -/
theorem Watch.Leads.tick : w.Leads { w with grace := Timer.tick w.grace } := by
  have hclear : w.Clear → Watch.Clear { w with grace := Timer.tick w.grace } := by
    rintro ⟨hgrace, hpending⟩
    exact ⟨congrArg Timer.tick hgrace, hpending⟩
  exact ⟨fun _ hor => hclear (hor.resolve_left (· rfl)), fun ⟨hout, honly⟩ => ⟨fun hcol => hclear (hout hcol), honly⟩⟩

end Relation

variable (c : Chip)

/-! ## Parking and what follows a command -/

theorem Chip.park_leads (h : c.col = .running) : c.base.watch.Leads c.park.base.watch := by
  rw [Chip.park_watch]
  exact .enter_of_not_starting _ fun _ hcol => absurd (h.symm.trans hcol) (by decide)

/-- A grace end in RUNNING or of a timer that runs: at rest a timer runs in RUNNING alone, so no other state is parked. -/
theorem Chip.graceEnd_leads (h : c.mon.grace ≠ none ∨ c.col = .running) : c.base.watch.Leads c.graceEnd.base.watch := by
  have hrunning : c.base.watch.Rests → c.col = .running := fun ⟨hclear, _⟩ =>
    h.elim (fun hgrace => Classical.byContradiction fun hcol => hgrace (hclear hcol).1) id
  have hnot : c.base.watch.Rests → c.base.watch.col ≠ .starting := fun hrests hcol =>
    absurd ((hrunning hrests).symm.trans hcol) (by decide)
  rcases Chip.graceEnd_watch c with hpending | hparked
  · rw [hpending]
    rcases h with hgrace | hcol
    · exact ⟨fun _ hor => absurd (hor.resolve_left (· rfl)).1 hgrace,
        fun hrests => ⟨fun hout => absurd (hrunning hrests) hout, hrests.2⟩⟩
    · exact .of_running hnot hcol rfl
  · rw [hparked]
    exact .enter_of_not_starting _ hnot

theorem Chip.drain_leads (fuel : Nat) : c.base.watch.Leads (Chip.drain fuel c).base.watch := by
  induction fuel generalizing c with
  | zero => exact .of_eq rfl
  | succ n ih =>
    unfold Chip.drain
    split
    · next hdue =>
      have hcol : c.col = .running := by
        simp only [Chip.parkDue, Bool.and_eq_true, decide_eq_true_eq] at hdue
        exact hdue.1.2
      have hpark : (c.modMon fun m => { m with parkPending := false }).park.base.watch = c.park.base.watch := by
        rw [Chip.park_watch, Chip.park_watch]
        rfl
      have hleads := c.park_leads hcol
      rw [← hpark] at hleads
      exact hleads.trans (ih _)
    · split
      · exact Watch.Leads.trans (.of_eq (congrArg Base.watch (Chip.takeItem_base c))) (ih _)
      · split
        · exact Watch.Leads.trans (.of_eq (congrArg Base.watch (Chip.handleWaiting_base ..))) (ih _)
        · exact .of_eq rfl

theorem Chip.settle_leads (old : Chip) : c.base.watch.Leads (Chip.settle old c).base.watch := by
  unfold Chip.settle
  rw [Chip.startAccess_base, Chip.enqueue_base, Chip.askRewrites_watch, Chip.grantAll_base]
  exact Chip.drain_leads ..

/-! ## The registers -/

theorem Chip.runEdge_leads : c.base.watch.Leads c.runEdge.base.watch := by
  unfold Chip.runEdge
  split
  · rw [Chip.enterStarting_watch]
    exact .enter .starting fun _ _ => rfl
  · exact .of_eq rfl

theorem Chip.runSet_leads : c.base.watch.Leads c.runSet.base.watch := by
  unfold Chip.runSet
  split
  · exact .of_eq rfl
  · extract_lets src d
    have hd : d.base.watch = c.base.watch := rfl
    rw [← hd]
    clear_value d
    split
    · exact d.runEdge_leads
    all_goals exact .of_eq rfl

/-- STOPPING is entered by RUN from a state that works (R189). -/
theorem Chip.enterStopping_leads (h : c.col ≠ .starting) : c.base.watch.Leads c.enterStopping.base.watch := by
  rw [Chip.enterStopping_watch]
  exact .enter_of_not_starting _ fun _ => h

/-- STOPPED is entered from STOPPING or HALTED (R190). -/
theorem Chip.shutDown_leads (h : c.col ≠ .starting) : c.base.watch.Leads c.shutDown.base.watch := by
  rw [Chip.shutDown_watch]
  exact .enter_of_not_starting _ fun _ => h

theorem Chip.runClear_leads : c.base.watch.Leads c.runClear.base.watch := by
  unfold Chip.runClear
  extract_lets was src d
  have hd : d.base.watch = c.base.watch := rfl
  rw [← hd]
  clear_value d
  split
  · next hcol => exact d.shutDown_leads (by simp [hcol])
  · split <;> exact .of_eq rfl
  · next hcol =>
    split
    · exact d.enterStopping_leads (by simp [hcol])
    · exact .of_eq rfl
  · next hcol =>
    split
    · exact d.enterStopping_leads (by simp [hcol])
    · exact .of_eq rfl
  · exact .of_eq rfl
  · exact .of_eq rfl

theorem Chip.onEnterStopped_leads : c.base.watch.Leads c.onEnterStopped.base.watch := by
  unfold Chip.onEnterStopped
  split
  · next hends =>
    have hcol : c.col = .stopping := by
      simp only [Chip.stopEnds, Bool.and_eq_true, decide_eq_true_eq] at hends
      exact hends.1.1
    rw [Chip.enterStopped_watch, ← Chip.shutDown_watch]
    exact c.shutDown_leads (by simp [hcol])
  · split
    · next hcol => exact c.shutDown_leads (by simp [hcol])
    · exact .of_eq rfl

/-! ## The ignition and the grace -/

theorem Chip.startGrace_leads (h : c.col = .running) : c.base.watch.Leads c.startGrace.base.watch := by
  unfold Chip.startGrace
  split
  · exact c.graceEnd_leads (.inr h)
  · exact .of_running (fun _ hcol => absurd (h.symm.trans hcol) (by decide)) h rfl

theorem Chip.ignOn_leads : c.base.watch.Leads c.ignOn.base.watch := by
  unfold Chip.ignOn
  split
  · exact .of_eq rfl
  · extract_lets d
    have hd : d.base.watch = c.base.watch := rfl
    rw [← hd]
    clear_value d
    split
    · exact .of_eq rfl
    · exact .of_eq rfl
    · exact .of_eq rfl
    · next hcol =>
      rw [Chip.cycleEffects_watch]
      exact .of_running (fun _ h => absurd (hcol.symm.trans h) (by decide)) hcol rfl
    · next hcol =>
      rw [Chip.wake_watch, Chip.cycleEffects_watch]
      exact .of_running (fun _ h => absurd (hcol.symm.trans h) (by decide)) rfl rfl
    · exact .of_eq rfl

theorem Chip.ignOff_leads : c.base.watch.Leads c.ignOff.base.watch := by
  unfold Chip.ignOff
  split
  · exact .of_eq rfl
  · extract_lets d
    have hd : d.base.watch = c.base.watch := rfl
    rw [← hd]
    clear_value d
    split
    · next hcol => exact d.startGrace_leads hcol
    all_goals exact .of_eq rfl

/-! ## Ends of accesses -/

theorem Chip.chosen_eq : c.chosen = .stopping ∨ c.chosen.endsGrace = false := by
  unfold Chip.chosen
  split
  · exact .inl rfl
  · split <;> exact .inr rfl

theorem Chip.startingHeader_leads : c.base.watch.Leads c.startingHeader.base.watch := by
  unfold Chip.startingHeader
  split
  · exact .of_eq rfl
  · next st hstart =>
    split
    · split
      · have hstarting : c.base.watch.starting = true := by simp [Base.watch, Chip.base, hstart]
        rw [Chip.enterChosen_watch]
        split
        · exact .enter _ fun _ h => absurd h Bool.false_ne_true
        · next hnot => exact .endStart hstarting (c.chosen_eq.resolve_left hnot)
      · exact .of_eq (Chip.watch_begun hstart)
    · exact .of_eq rfl

theorem Chip.headerDone_leads : c.base.watch.Leads c.headerDone.base.watch := by
  unfold Chip.headerDone
  extract_lets d
  have hd : (allCtxs.foldl Chip.clockHeader d.historyHeader).base.watch = c.base.watch := by
    rw [Chip.foldl_base Chip.clockHeader_base, Chip.historyHeader_base]
    rfl
  rw [← hd]
  exact Chip.startingHeader_leads _

theorem Chip.requestDone_leads (r : Request) : c.base.watch.Leads (c.requestDone r).base.watch := by
  unfold Chip.requestDone
  split
  · exact c.headerDone_leads
  · exact .of_eq (Chip.mirrorDone_watch ..)
  · exact .of_eq (Chip.scanDone_watch ..)
  · exact .of_eq (congrArg Base.watch (Chip.resultDone_base ..))
  · exact .of_eq (Chip.loaderDone_watch ..)
  · exact .of_eq (congrArg Base.watch (Chip.historyDone_base ..))
  · exact .of_eq (Chip.startingDone_watch ..)
  · exact .of_eq rfl

theorem Chip.accessDone_leads (got : Option Word) : c.base.watch.Leads (c.accessDone got).base.watch := by
  unfold Chip.accessDone
  split
  · exact .of_eq rfl
  · extract_lets d r
    have hd : d.base = c.base := by
      simp only [d]
      split <;> simp only [Chip.sequenceWritten_base]
    rw [← hd]
    clear_value d r
    split
    · exact Chip.requestDone_leads (d.modPort _) r
    · exact .of_eq rfl

theorem Chip.accessError_leads : c.base.watch.Leads c.accessError.base.watch := by
  unfold Chip.accessError
  split
  · exact .of_eq (by rw [Chip.setCause_base, Chip.portOff_watch])
  · rw [Chip.enterHalted_watch]
    exact .enter _ fun _ h => absurd h Bool.false_ne_true

/-! ## Commands and steps -/

@[simp] theorem Chip.watch_with_regs (r : Regs) : ({ c with regs := r } : Chip).base.watch = c.base.watch := rfl

@[simp] theorem Chip.writeXbase_watch (v : Word) : (Chip.writeXbase v c).base.watch = c.base.watch := by
  unfold Chip.writeXbase
  split <;> rfl

@[simp] theorem Chip.modMon_rawChange_watch (level : Bool) :
    (c.modMon (Monitor.rawChange level)).base.watch = c.base.watch := by
  have hframe : ∀ m : Monitor, (m.rawChange level).grace = m.grace ∧ (m.rawChange level).parkPending = m.parkPending := by
    intro m
    unfold Monitor.rawChange
    split <;> exact ⟨rfl, rfl⟩
  exact Chip.modMon_watch (hframe c.mon).1 (hframe c.mon).2

/-- A command whose effect on the chip leads so leads so. -/
theorem State.act_leads {s t : State} {f : Chip → Chip} (h : s.act f = .next t)
    (hf : s.chip.base.watch.Leads (f s.chip).base.watch) : s.chip.base.watch.Leads t.chip.base.watch := by
  obtain rfl : s.after (f s.chip) = t := by
    simpa only [State.act_eq, Host.Outcome.next.injEq] using h
  exact hf.trans (Chip.settle_leads ..)

/-- A command whose effect leaves the watched part alone leads so. -/
theorem State.act_leads_of_eq {s t : State} {f : Chip → Chip} (h : s.act f = .next t)
    (hf : (f s.chip).base.watch = s.chip.base.watch) : s.chip.base.watch.Leads t.chip.base.watch :=
  State.act_leads h (.of_eq hf)

/-- Every command leads as R172 says. Those that can enter a state, or touch the timer or the mark, come first. -/
theorem exec_leads {i : Instr} {s t : State} (h : exec i s = .next t) : s.chip.base.watch.Leads t.chip.base.watch := by
  cases i
  case powerOnReset | softReset =>
    cases h
    exact .enter .stopped fun _ h => absurd h Bool.false_ne_true
  case runSet => exact State.act_leads h (Chip.runSet_leads _)
  case runClear => exact State.act_leads h (Chip.runClear_leads _)
  case ignOn => exact State.act_leads h (Chip.ignOn_leads _)
  case ignOff => exact State.act_leads h (Chip.ignOff_leads _)
  case enterStopped => exact State.act_leads h (Chip.onEnterStopped_leads _)
  case graceEnd =>
    simp only [exec, execGraceEnd] at h
    refine State.act_leads h ?_
    split
    · next hruns => exact Chip.graceEnd_leads _ (.inl (Option.isSome_iff_ne_none.mp hruns))
    · exact .of_eq rfl
  case exchangeAccessCompletion hostBytes =>
    simp only [exec, execExchangeAccessCompletion] at h
    split at h
    · cases h
      exact .of_eq rfl
    · cases h
      exact (Chip.accessDone_leads ..).trans (Chip.settle_leads ..)
  case exchangeAccessError =>
    simp only [exec, execExchangeAccessError] at h
    split at h
    · cases h
      exact .of_eq rfl
    · cases h
      exact (Chip.accessError_leads { s.chip with freeIdx := s.chip.freeIdx + 1 }).trans (Chip.settle_leads ..)
  case closeCompletion | keepCompletion | rollCompletion =>
    simp only [exec, execCloseCompletion, execKeepCompletion, execRollCompletion] at h
    refine State.act_leads_of_eq h (congrArg Base.watch (Chip.completed_base _ _ _ fun d i => ?_))
    simp [Chip.toUnit_base]
  case stoppingTimerExpiry =>
    simp only [exec, execStoppingTimerExpiry] at h
    refine State.act_leads_of_eq h ?_
    split <;> rfl
  -- The other commands leave the watched part alone.
  all_goals
    unfold exec at h
    simp only [execStartModeWrite, execXbaseWrite, execAttend, execNoticeClear, execNmaskWrite, execRegisterWriteIgnored,
      execIgnRawChange, execSupplyCrossing, execDipEntry, execDipEnd, execCtRise, execSweepTimerExpiry,
      execScanTimerExpiry, execKeepTimerExpiry, execCoolingTimerExpiry, execOpenTimerExpiry, execReplyTimerExpiry,
      execRestTimerExpiry, execHoldTimerExpiry, execRollWindowExpiry, execRecoveryTimerExpiry,
      execOpenWindowAgeingExpiry, execErrorCountRewriteDue, execOpenCompletion, execRequestCompletion, execPullCompletion,
      execTransmitFailure, execLostArbitration, execReceiveError, execForeignFrame, execUnknownMessage, execAccept,
      execRefuse, execWait, execListed, execHead, execPart, execClearDone, execBye, execHere] at h
    refine State.act_leads_of_eq h ?_
    simp [Chip.modMon_watch]

theorem State.idle_leads (s : State) : s.chip.base.watch.Leads s.idle.chip.base.watch := by
  unfold State.idle
  split
  · exact .of_eq rfl
  · have htick : s.chip.base.watch.Leads s.chip.tick.base.watch := by
      rw [Chip.tick_watch]
      exact .tick
    exact htick

theorem step_leads {s t : State} (h : Machine.step s = .next t) : s.chip.base.watch.Leads t.chip.base.watch := by
  unfold Machine.step at h
  split at h
  · have hexec := exec_leads h
    exact hexec
  · cases h
    exact s.idle_leads

/-- Both resets leave the timer stopped and the mark clear. -/
theorem step_reset_clear {s t : State} {i : Instr} (hhead : s.pending.head? = some i)
    (hi : i = .powerOnReset ∨ i = .softReset) (h : Machine.step s = .next t) : t.chip.base.watch.Clear := by
  obtain ⟨rest, hpending⟩ := List.head?_eq_some_iff.mp hhead
  simp only [Machine.step, hpending] at h
  rcases hi with rfl | rfl <;> cases h <;> exact ⟨rfl, rfl⟩

/-- Settles O8: the relation of R172 that every step keeps, from a reset state at rest. -/
theorem graceAndParkPending : Obligations.GraceAndParkPending := by
  refine ⟨⟨fun _ => ⟨rfl, rfl⟩, fun hstart => absurd rfl hstart⟩, fun s t hstep => ⟨?resets, ?entries, ?rests⟩⟩
  case resets =>
    rintro (hhead | hhead)
    · exact step_reset_clear hhead (.inl rfl) hstep
    · exact step_reset_clear hhead (.inr rfl) hstep
  case entries =>
    intro hcol hentered
    have hends : t.chip.col.endsGrace = true := by
      rcases hentered with h | h | h | h <;> rw [h] <;> rfl
    exact (step_leads hstep).clears hends (.inl hcol)
  case rests =>
    rw [Chip.rests_iff, Chip.rests_iff]
    exact (step_leads hstep).rests

end Sys2Proof.Machine
end
